-- ==== Sys2Proof/Word.lean ====
section
/-! DEFINITION. The bit-vector widths of the part: a byte of a frame, and the counters the manual calls modular. -/

namespace Sys2Proof

/-- One byte of a client frame, a sensor frame or a stored record (R197). -/
abbrev Byte := BitVec 8

/-- A counter modulo 2^16: the odometry epoch (R21), a capture count (R159), a pulse count (R166). -/
abbrev Word16 := BitVec 16

/-- A counter modulo 2^32: sequence numbers (R182), run number, generation (R173, R177) and the like. -/
abbrev Word32 := BitVec 32

/-- The yaw accumulator and the headings copied from it, modulo 2^48 (R37, R69). -/
abbrev Word48 := BitVec 48

end Sys2Proof
end

