-- ==== Sys2Proof/Syntax.lean ====
section
/-! DEFINITION. The commands of the part: one constructor per row of the table of operations and events, with the
operands the outside supplies. Rows that take something another unit handed over have no operand: what they take
stands in the state (log entry 1). The services of the arbiter have no operand either: the port and the fields are
those of the request the arbiter serves next (R187). -/

namespace Sys2Proof

/-- The client ports (R199, enumeration "port"). -/
inductive Port where
  | cp0 | cp1 | cp2
deriving DecidableEq, Repr

/-- The encoders (R199, enumeration "encoder"). -/
inductive Encoder where
  | e1 | e2
deriving DecidableEq, Repr

/-- The two quadrature channels of an encoder (R1). -/
inductive QuadChannel where
  | a | b
deriving DecidableEq, Repr

/-- The sensor links (R26). -/
inductive Link where
  | s1 | s2 | s3
deriving DecidableEq, Repr

/-- The marker lines (R157). -/
inductive MarkerLine where
  | m1 | m2
deriving DecidableEq, Repr

/-- The edges of a marker line (R157). -/
inductive Edge where
  | rising | falling
deriving DecidableEq, Repr

/-- The trigger channels (R164). -/
inductive Trigger where
  | t1 | t2 | t3 | t4
deriving DecidableEq, Repr

/-- Where power-on comes from (R180): power-up, or an assertion of the reset pin. -/
inductive PowerCause where
  | powerUp | resetPin
deriving DecidableEq, Repr

/-- The commands, in the order of the table. -/
inductive Instr where
  /-- POWER_ON: power is good after power-up, or the reset pin is asserted (R180). -/
  | powerOn (cause : PowerCause)
  /-- START_UP_HOLD_END: the 50 ms hold expires (R180). -/
  | startUpHoldEnd
  /-- ENCODER_COUNT: `ticks` after the previous command, channel `ch` of encoder `e` changes level (R1, R3). -/
  | encoderCount (e : Encoder) (ch : QuadChannel) (ticks : Nat)
  /-- ILLEGAL_TRANSITION: both channels of `e` change at one sampling instant (R1). -/
  | illegalTransition (e : Encoder)
  /-- Z_PULSE: a rising edge of the Z channel of `e` (R14). -/
  | zPulse (e : Encoder)
  /-- PACE_COUNT: the count timer of the pace generator expires (R11). -/
  | paceCount
  /-- STANDSTILL_EXPIRY: the standstill timer expires (R10). -/
  | standstillExpiry
  /-- SLOT_START: a frame slot begins on all three links (R26). -/
  | slotStart
  /-- SLOT_END: the slot of link `l` ends; `opened` says that the data line was high at the end of frame sync, and
  `bytes` are the bytes clocked in (R26, R27, R200). -/
  | slotEnd (l : Link) (opened : Bool) (bytes : List Byte)
  /-- SLC_SAMPLE_EVENT (R43). -/
  | slcSampleEvent
  /-- DELIVERY (R51). -/
  | delivery
  /-- ASU_REVERSAL_NOTICE (R54). -/
  | asuReversalNotice
  /-- ASU_START_NOTICE (R55). -/
  | asuStartNotice
  /-- ASU_SUSPEND_NOTICE (R55). -/
  | asuSuspendNotice
  /-- ASU_STOP_NOTICE (R55). -/
  | asuStopNotice
  /-- MARK_REQUEST (R56). -/
  | markRequest
  /-- BASE_RECORD (R71). -/
  | baseRecord
  /-- GCU_REVERSAL_NOTICE (R85). -/
  | gcuReversalNotice
  /-- GCU_SUSPEND_NOTICE (R85). -/
  | gcuSuspendNotice
  /-- GCU_STOP_NOTICE (R85). -/
  | gcuStopNotice
  /-- GCU_START_NOTICE (R86). -/
  | gcuStartNotice
  /-- PRU_SAMPLE_EVENT (R94). -/
  | pruSampleEvent
  /-- PRU_REVERSAL_NOTICE (R93). -/
  | pruReversalNotice
  /-- PRU_START_NOTICE (R112). -/
  | pruStartNotice
  /-- PRU_SUSPEND_NOTICE (R108). -/
  | pruSuspendNotice
  /-- PRU_RESUMPTION_NOTICE (R109). -/
  | pruResumptionNotice
  /-- PRU_STOP_NOTICE (R113). -/
  | pruStopNotice
  /-- CHAINAGE_REQUEST (R99). -/
  | chainageRequest
  /-- OUTPUT_RECORD (R137). -/
  | outputRecord
  /-- STREAM_END_NOTICE (R150). -/
  | streamEndNotice
  /-- EXU_START_NOTICE (R151). -/
  | exuStartNotice
  /-- GEOMETRY_APPEND (R182). -/
  | geometryAppend
  /-- EXCEPTION_APPEND (R183). -/
  | exceptionAppend
  /-- MARKER_EDGE: a change of level on marker line `m`, towards `edge` (R158). -/
  | markerEdge (m : MarkerLine) (edge : Edge)
  /-- CHAINAGE_ANSWER (R160). -/
  | chainageAnswer
  /-- PLACEMENT_ANSWER (R160). -/
  | placementAnswer
  /-- MARK_LOSS_REPORT (R161). -/
  | markLossReport
  /-- MTU_SAMPLE_EVENT (R165). -/
  | mtuSampleEvent
  /-- PULSE_EXPIRY: the pulse timer of channel `t` expires (R167). -/
  | pulseExpiry (t : Trigger)
  /-- MTU_START_NOTICE (R163, R169). -/
  | mtuStartNotice
  /-- MTU_SUSPEND_NOTICE (R163). -/
  | mtuSuspendNotice
  /-- MTU_RESUMPTION_NOTICE (R163). -/
  | mtuResumptionNotice
  /-- MTU_STOP_NOTICE (R163). -/
  | mtuStopNotice
  /-- SLC_START_NOTICE (R47). -/
  | slcStartNotice
  /-- SLC_SUSPEND_NOTICE (R42). -/
  | slcSuspendNotice
  /-- SLC_STOP_NOTICE (R42). -/
  | slcStopNotice
  /-- ODU_STOP_NOTICE (R23). -/
  | oduStopNotice
  /-- ODU_RESUMPTION_NOTICE (R19). -/
  | oduResumptionNotice
  /-- RCU_SAMPLE_EVENT (R181). -/
  | rcuSampleEvent
  /-- ODOMETRY_LOST (R175). -/
  | odometryLost
  /-- ODOMETRY_RESTORED (R176). -/
  | odometryRestored
  /-- REQUEST_FRAME: a select period in IDLE on port `p`, released after `bytes` and `extraBits` further bits (R185). -/
  | requestFrame (p : Port) (bytes : List Byte) (extraBits : Nat)
  /-- BUSY_SELECT: a select period in SERVING on port `p` with `count` bytes clocked (R186). -/
  | busySelect (p : Port) (count : Nat)
  /-- REPLY_READ: a select period in REPLY_READY on port `p` with `bits` bits clocked (R186). -/
  | replyRead (p : Port) (bits : Nat)
  /-- UNKNOWN_REQUEST (R187). -/
  | unknownRequest
  /-- ECHO (R194). -/
  | echo
  /-- READ_STATUS (R192). -/
  | readStatus
  /-- READ_RECORDS (R188). -/
  | readRecords
  /-- READ_EXCEPTIONS (R189). -/
  | readExceptions
  /-- SET_CURSOR (R190). -/
  | setCursor
  /-- SET_ATTENTION (R193). -/
  | setAttention
  /-- READ_OPEN_RUNS (R153). -/
  | readOpenRuns
  /-- READ_FIXES (R191). -/
  | readFixes
  /-- READ_MARKERS (R191). -/
  | readMarkers
  /-- START (R172). -/
  | start
  /-- STOP (R174). -/
  | stop
  /-- SET_ITEM (R177). -/
  | setItem
  /-- READ_ITEM (R179). -/
  | readItem
  /-- SET_PACE (R12). -/
  | setPace
  /-- FIX_AT (R100). -/
  | fixAt
  /-- FIX_NOW (R107). -/
  | fixNow
  /-- CALIBRATE (R110). -/
  | calibrate
  /-- JUMP_PLAN (R130). -/
  | jumpPlan
  /-- RESET_PIN_RELEASE (R180). -/
  | resetPinRelease
deriving DecidableEq, Repr

end Sys2Proof
end

