-- ==== Sys2Proof/Config.lean ====
section
/-! DEFINITION. The free values: what the manual leaves open although the part goes on. Each is an opaque function
of the number it stands for, so that nothing can be proved of its value (log entries 7 to 10). -/

namespace Sys2Proof.Config

/-- The quotient of a number by zero (log entry 7). It is reached by the position index before an ODOMETRY item
is accepted (R5 with I = 0) and by a speed with no tick between two events (R9 with Δt = 0). -/
opaque quotientByZero : Int → BitVec 32

/-- The position accumulator after a count whose sum lies beyond the signed 64-bit range (R3, log entry 8). -/
opaque positionBeyond64 : Int → BitVec 64

/-- The four bytes shown for a number that does not fit its four-byte wire field (R199, log entry 9). -/
opaque wireBeyond32 : Int → BitVec 32

/-- The byte READ_ITEM shows at an offset of an item whose contents were not stored: a PLAN entry beyond the
count, or a mask beyond the mask count (R203, log entry 10). -/
opaque unstoredItemByte : Nat → BitVec 8

end Sys2Proof.Config
end

