-- ==== Sys2Proof/Machine/State.lean ====
section
/-! DEFINITION. The state of the part as plain data, unit by unit, with its value right after reset. Every register the
manual gives the part is a field here. Fields that are the model's own (the time base, the waiting hand-overs, a unit's own view of the run)
say so and name their log entry. -/

namespace Sys2Proof.Machine

/-! ### Shapes used by several units -/

/-- A table of numbered places: the places in use with their contents, positions strictly rising.
A position that is not listed is empty, or unwritten (R50, R70, R97, R116, R133). -/
abbrev Table (α : Type) := List (Nat × α)

/-- The running directions (R5): end 1 leading, end 2 leading. -/
inductive Direction where
  | fwd | rev
deriving DecidableEq, Repr

/-- The count sources (R3, R173). -/
inductive CountSource where
  | none | encoders | pace
deriving DecidableEq, Repr

/-- The run states (R171). -/
inductive RunState where
  | standby | running | suspended
deriving DecidableEq, Repr

/-- The orientation of a plan entry (R118): chainage increases or decreases with track index. -/
inductive Orientation where
  | plus | minus
deriving DecidableEq, Repr

/-- The seven checked parameters, numbers 0 to 6 (chapter Exception Detection). -/
inductive Param where
  | g | cl | tw | ll | lr | al | ar
deriving DecidableEq, Repr

/-- One thing for each checked parameter. -/
structure Seven (α : Type) where
  g : α
  cl : α
  tw : α
  ll : α
  lr : α
  al : α
  ar : α
deriving DecidableEq, Repr

/-- What a START notice carries (R173). -/
structure StartInfo where
  run : Word32
  entry : Nat
  chainage : Int
  direction : Direction
  source : CountSource
deriving DecidableEq, Repr

/-- A sample event (R6). -/
structure SampleEvent where
  k : Int
  direction : Direction
  speed : Nat
  slip : Bool
  encSwitch : Bool
deriving DecidableEq, Repr

/-! ### Odometry Unit -/

/-- The sense of a count (R1): +1 in the encoder's forward sense, −1 otherwise. -/
inductive Sense where
  | forward | backward
deriving DecidableEq, Repr

/-- The mounting sense of an encoder (R1): A leading B, or B leading A, is end 1 leading. -/
inductive Mounting where
  | normal | inverted
deriving DecidableEq, Repr

/-- The health of an encoder (R13). -/
inductive Health where
  | ok | failed
deriving DecidableEq, Repr

/-- The ODU's state for one encoder (chapter Odometry and Sample Events). -/
structure EncoderState where
  levelA : Bool
  levelB : Bool
  mounting : Mounting
  countsPerRev : Nat
  circumference : Nat
  weight : Nat
  health : Health
  strikes : Nat
  goodChecks : Nat
  indexCount : Nat
  aligned : Bool
  prevSense : Option Sense
  silence : Int
  eventDistance : Int
deriving DecidableEq, Repr

/-- The Odometry Unit. Positions and X are in du. `view`, `zeroSpeedNext` and `resuming` are the model's own
(log entry 4): the run as the ODU knows it from START, its own report of loss and the notices it has taken, the mark
that the next event carries speed 0 (R9), and the mark that a restoration has been reported and its notice not yet taken (R19). -/
structure Odu where
  source : CountSource
  active : Encoder
  primary : Encoder
  e1 : EncoderState
  e2 : EncoderState
  interval : Nat
  reversalDistance : Nat
  slipTolerance : Nat
  paceIntervalField : Nat
  position : Int
  frontier : Int
  next : Int
  direction : Direction
  eventDirection : Direction
  extreme : Int
  eventTick : Nat
  speed : Nat
  standstill : Option Nat
  encSwitch : Bool
  epoch : Word16
  paceInterval : Nat
  paceDirection : Direction
  paceStopped : Bool
  paceTimer : Option Nat
  view : RunState
  zeroSpeedNext : Bool
  resuming : Bool
deriving DecidableEq, Repr

/-! ### Sensor Link Controller -/

/-- The nine channels (R26). -/
inductive ChannelId where
  | gl | gr | zl | zr | azl | azr | ay | roll | yaw
deriving DecidableEq, Repr

/-- The channel states (R30, R31). -/
inductive ChannelState where
  | ok | held | lost
deriving DecidableEq, Repr

/-- One channel: its state, its held value or none, its miss count and its recovery count (R30, R31). -/
structure Channel where
  state : ChannelState
  held : Option Int
  miss : Nat
  recovery : Nat
deriving DecidableEq, Repr

/-- The channels of the three links, in frame order (R26). -/
structure Channels where
  gl : Channel
  gr : Channel
  zl : Channel
  zr : Channel
  azl : Channel
  azr : Channel
  ay : Channel
  roll : Channel
  yaw : Channel
deriving DecidableEq, Repr

/-- The link states (R32). -/
inductive LinkCondition where
  | up | partially | down
deriving DecidableEq, Repr

/-- The fault causes of a link (R27). -/
inductive FaultCause where
  | none | timing | sync | check
deriving DecidableEq, Repr

/-- One sensor link (R27, R28, R32). `slotOpen` is the model's own: a slot has begun and its end is not yet taken (R26). -/
structure LinkState where
  state : LinkCondition
  expected : Option Byte
  lastGood : Byte
  missing : Nat
  seqErrors : Nat
  fault : FaultCause
  slotOpen : Bool
deriving DecidableEq, Repr

/-- A leaky integrator: rate accumulator V, position accumulator P, saturation mark (R34, R36). -/
structure Integrator where
  v : Int
  p : Int
  saturated : Bool
deriving DecidableEq, Repr

/-- The states of an inertial group (R41). -/
inductive GroupCondition where
  | invalid | settling | valid
deriving DecidableEq, Repr

/-- An inertial group (R40, R41). -/
structure Group where
  state : GroupCondition
  settle : Nat
  lossSeen : Bool
deriving DecidableEq, Repr

/-- The Sensor Link Controller. `slotTimer` is the tick the next slot begins, none while the links are idle (R26);
`slotStart` the tick the latest slot began. -/
structure Slc where
  s1 : LinkState
  s2 : LinkState
  s3 : LinkState
  channels : Channels
  vertLeft : Integrator
  vertRight : Integrator
  lateral : Integrator
  yaw : Word48
  yawSaturated : Bool
  vertGroup : Group
  latGroup : Group
  kv : Nat
  kp : Nat
  vMin : Nat
  hV : Nat
  settleValue : Nat
  slotTimer : Option Nat
  slotStart : Nat
deriving DecidableEq, Repr

/-! ### Assembly Unit -/

/-- A GAUGE snapshot (R43); a field that is none is absent (R44). -/
structure GaugeSnapshot where
  gl : Option Int
  gr : Option Int
deriving DecidableEq, Repr

/-- A VERTICAL snapshot (R43, R44). -/
structure VerticalSnapshot where
  hL : Option Int
  hR : Option Int
  zl : Option Int
  zr : Option Int
deriving DecidableEq, Repr

/-- A LATERAL snapshot (R43, R44). -/
structure LateralSnapshot where
  hy : Option Int
  roll : Option Int
  psi : Option Word48
deriving DecidableEq, Repr

/-- The delivery of one sample event: the event's index, direction and flags, and the three snapshots (R43). -/
structure Delivery where
  k : Int
  direction : Direction
  slip : Bool
  encSwitch : Bool
  gauge : GaugeSnapshot
  vertical : VerticalSnapshot
  lateral : LateralSnapshot
deriving DecidableEq, Repr

/-- A PARTIAL slot of the assembly table (R50). -/
structure Slot where
  j : Int
  gauge : Option GaugeSnapshot
  vertical : Option VerticalSnapshot
  lateral : Option LateralSnapshot
  mark1 : Bool
  mark2 : Bool
  slip : Bool
  encSwitch : Bool
deriving DecidableEq, Repr

/-- A base record (R53). -/
structure BaseRecord where
  j : Int
  direction : Direction
  gauge : GaugeSnapshot
  vertical : VerticalSnapshot
  lateral : LateralSnapshot
  mark1 : Bool
  mark2 : Bool
  slip : Bool
  encSwitch : Bool
deriving DecidableEq, Repr

/-- The Assembly Unit. The table is keyed by j mod 256 (R50). -/
structure Asu where
  table : Table Slot
  assembling : Bool
  direction : Direction
  latest : Option Int
  completed : Word32
  incomplete : Nat
  restarts : Nat
  pGauge : Int
  pVertical : Int
  pLateral : Int
deriving DecidableEq, Repr

/-! ### Geometry Computation Unit -/

/-- The base quantities of a track point, each present or absent (R66 to R69). -/
structure BaseQuantities where
  g : Option Int
  cl : Option Int
  yl : Option Int
  yr : Option Int
  ul : Option Int
  ur : Option Int
  psi : Option Word48
deriving DecidableEq, Repr

/-- The position fields of a window entry (R82). -/
structure PositionFields where
  chainage : Int
  planEntry : Option Nat
  segment : Option Nat
  lineCode : Nat
  speed : Nat
  uncertain : Bool
  step : Bool
  line : Bool
  slip : Bool
  encSwitch : Bool
deriving DecidableEq, Repr

/-- A FILLED entry of the profile window (R70). -/
structure WindowEntry where
  j : Int
  quantities : BaseQuantities
  direction : Direction
  mark1 : Bool
  mark2 : Bool
  slip : Bool
  encSwitch : Bool
  position : PositionFields
  pending : Bool
deriving DecidableEq, Repr

/-- The Geometry Computation Unit. The window is keyed by j mod 128 (R70). -/
structure Gcu where
  window : Table WindowEntry
  active : Bool
  direction : Direction
  latest : Option Int
  pendingCount : Nat
  output : Word32
  flushed : Word32
  dropped : Nat
  g0 : Int
  gNom : Int
  railDistance : Int
  armA : Nat
  armB : Nat
  twistBase : Nat
  halfBase : Nat
  reachUp : Nat
  reachDown : Nat
  interval : Nat
deriving DecidableEq, Repr

/-- The eight parameter values of an output record, at full precision, each present or absent (R81). -/
structure Parameters where
  checked : Seven (Option Int)
  cv : Option Int
deriving DecidableEq, Repr

/-- An output record (R81). -/
structure OutputRecord where
  j : Int
  run : Word32
  direction : Direction
  chainage : Int
  planEntry : Option Nat
  segment : Option Nat
  lineCode : Nat
  speed : Nat
  uncertain : Bool
  step : Bool
  line : Bool
  slip : Bool
  encSwitch : Bool
  offPlan : Bool
  mark1 : Bool
  mark2 : Bool
  values : Parameters
deriving DecidableEq, Repr

/-! ### Position Reference Unit -/

/-- An entry of the position history (R96). -/
structure HistoryEntry where
  index : Int
  chainage : Int
  correction : Int
  planEntry : Option Nat
  segment : Option Nat
  lineCode : Nat
  speed : Nat
  uncertain : Bool
  step : Bool
  line : Bool
  slip : Bool
  encSwitch : Bool
deriving DecidableEq, Repr

/-- The kind of a fix list entry (R105). -/
inductive FixKind where
  | slew | step | forced
deriving DecidableEq, Repr

/-- An entry of the fix list (R105). -/
structure Fix where
  j : Int
  chainage : Int
  error : Int
  errorNow : Int
  grade : Nat
  port : Port
  lineCode : Nat
  epoch : Word16
  kind : FixKind
deriving DecidableEq, Repr

/-- A mask range of a segment (R116); bit p of the set names parameter p (R203). -/
structure Mask where
  lo : Int
  hi : Int
  params : Byte
deriving DecidableEq, Repr

/-- A segment (R116). -/
structure Segment where
  lineCode : Nat
  lo : Int
  hi : Int
  limitSet : Nat
  masks : List Mask
deriving DecidableEq, Repr

/-- A plan entry (R118). -/
structure PlanEntry where
  segment : Nat
  orientation : Orientation
deriving DecidableEq, Repr

/-- The Position Reference Unit. The history is keyed by index mod 4096 (R96). A `cursor` of none is OFF_PLAN, an empty
`plan` is no plan. `running` is the model's own: the run as the PRU knows it from its notices (log entry 12). -/
structure Pru where
  ccur : Int
  latest : Option Int
  direction : Direction
  residual : Int
  correction : Int
  stepMark : Bool
  uncertain : Bool
  history : Table HistoryEntry
  fixes : List Fix
  acceptWindow : Int
  stepThreshold : Int
  slewLimit : Int
  segments : Table Segment
  plan : List PlanEntry
  cursor : Option Nat
  orientation : Orientation
  lineCode : Nat
  lineMark : Bool
  running : Bool
deriving DecidableEq, Repr

/-! ### Exception Unit -/

/-- The limits of one parameter (R133); the enable byte has bits 0 to 2 for U1 to U3 and 3 to 5 for L1 to L3 (R203). -/
structure ParamLimits where
  u1 : Int
  u2 : Int
  u3 : Int
  l1 : Int
  l2 : Int
  l3 : Int
  enable : Byte
  hysteresis : Int
  mergeGap : Nat
deriving DecidableEq, Repr

/-- The sides of a run (R136). -/
inductive Side where
  | high | low
deriving DecidableEq, Repr

/-- A run of the open-run table (R138). -/
structure OpenRun where
  side : Side
  startIndex : Int
  startChainage : Int
  lastIndex : Int
  lastChainage : Int
  severity : Nat
  peak : Int
  peakChainage : Int
  inside : Nat
  absent : Nat
  limitSet : Nat
  lineCode : Nat
  segment : Option Nat
  uncertainSeen : Bool
  onsetSent : Bool
deriving DecidableEq, Repr

/-- The Exception Unit. -/
structure Exu where
  limitSets : Table (Seven ParamLimits)
  runs : Seven (Option OpenRun)
  judged : Word32
  opened : Word32
  onsets : Word32
  closed : Word32
deriving DecidableEq, Repr

/-- The kinds of an exception record (R148, R149). -/
inductive ExceptionKind where
  | onset | closed
deriving DecidableEq, Repr

/-- The causes of an exception record (R149, R199). -/
inductive Cause where
  | none | returned | invalid | side | masked | boundary | long | reversed | suspended | stopped
deriving DecidableEq, Repr

/-- An exception record as the EXU hands it over, without its sequence number (R148, R149). -/
structure ExceptionRecord where
  run : Word32
  kind : ExceptionKind
  param : Param
  severity : Nat
  side : Side
  cause : Cause
  uncertain : Bool
  offPlan : Bool
  startIndex : Int
  startChainage : Int
  endChainage : Int
  peak : Int
  peakChainage : Int
  length : Nat
  lineCode : Nat
  segment : Option Nat
  limitSet : Nat
deriving DecidableEq, Repr

/-! ### Marker and Trigger Unit -/

/-- A marker line (R157 to R159). -/
structure MarkerState where
  edge : Edge
  mount : Int
  spacing : Nat
  captures : Word16
  previous : Option Int
  ignored : Nat
deriving DecidableEq, Repr

/-- The line levels (R164). -/
inductive Level where
  | low | high
deriving DecidableEq, Repr

/-- A trigger channel (R164 to R168). `timer` is none in IDLE and the tick of expiry in PULSE; `level` is the level the
line is driven at. -/
structure TriggerState where
  enable : Bool
  pitch : Nat
  phase : Nat
  mount : Int
  width : Nat
  polarity : Level
  timer : Option Nat
  level : Level
  pulses : Word16
  dropped : Nat
  lastStarted : Option Int
  lastDropped : Option Int
deriving DecidableEq, Repr

/-- The projected chainage of a marker list entry: still asked for, answered with none, or answered (R159, R160). -/
inductive Projected where
  | pending | stale | at (chainage : Int)
deriving DecidableEq, Repr

/-- The placement of a marker list entry (R159 to R161). -/
inductive Placement where
  | pending | placed | notInStream
deriving DecidableEq, Repr

/-- An entry of the marker list (R159). -/
structure MarkerEntry where
  line : MarkerLine
  number : Word16
  j : Int
  event : Int
  projected : Projected
  placement : Placement
deriving DecidableEq, Repr

/-- The Marker and Trigger Unit. -/
structure Mtu where
  m1 : MarkerState
  m2 : MarkerState
  t1 : TriggerState
  t2 : TriggerState
  t3 : TriggerState
  t4 : TriggerState
  list : List MarkerEntry
  running : Bool
deriving DecidableEq, Repr

/-! ### Run Controller -/

/-- The configuration items, one written mark each (chapter Run Control and Configuration). -/
inductive ItemId where
  | odometry | sensors | compute | fixPolicy | plan
  | limitSet (k : Nat)
  | segment (k : Nat)
  | marker (m : MarkerLine)
  | trigger (t : Trigger)
deriving DecidableEq, Repr

/-- The Run Controller. `written` lists the items whose written mark is set (R177). -/
structure Rcu where
  runState : RunState
  runNumber : Word32
  eventCount : Word32
  source : CountSource
  generation : Word32
  written : List ItemId
deriving DecidableEq, Repr

/-! ### Record Store -/

/-- A geometry record in its 40-byte wire form, field by field (R87, R88, R201). -/
structure WireRecord where
  sequence : Word32
  run : Word16
  flags : Word16
  j : Int
  chainage : Int
  lineCode : Nat
  segment : Option Nat
  planEntry : Option Nat
  speed : Nat
  levels : Word16
  values : Seven Int
  cv : Int
deriving DecidableEq, Repr

/-- An exception record as stored, with its sequence number (R183, R201). -/
structure StoredException where
  sequence : Word32
  record : ExceptionRecord
deriving DecidableEq, Repr

/-- A store: the records held, oldest first, and the oldest and next sequence numbers (chapter Record Store and Client Ports). -/
structure Store (α : Type) where
  records : List α
  oldest : Word32
  next : Word32
deriving DecidableEq, Repr

/-- The Record Store. -/
structure Rds where
  geometry : Store WireRecord
  exceptions : Store StoredException
deriving DecidableEq, Repr

/-! ### Client Port Controller -/

/-- A taken request (R185, R198). -/
structure Request where
  code : Byte
  tag : Byte
  payload : List Byte
deriving DecidableEq, Repr

/-- The phase of a port, with the taken request while SERVING and the whole reply frame while REPLY_READY (R185, R186). -/
inductive Phase where
  | idle
  | serving (request : Request)
  | replyReady (frame : List Byte)
deriving DecidableEq, Repr

/-- A client port. `shifted` is the model's own: the bytes shifted out at the latest select period in SERVING or
REPLY_READY (log entry 16). -/
structure PortState where
  phase : Phase
  geoCursor : Word32
  excCursor : Word32
  geoGap : Bool
  excGap : Bool
  watermark : Nat
  threshold : Nat
  news : Bool
  shifted : List Byte
deriving DecidableEq, Repr

/-- The Client Port Controller. `inService` is the port whose service is in progress, none while the arbiter has nothing to
serve (R187; the model's own field for it, log entry 30). -/
structure Cpc where
  cp0 : PortState
  cp1 : PortState
  cp2 : PortState
  lastServed : Port
  inService : Option Port
deriving DecidableEq, Repr

/-! ### Hand-overs between the units (the model's own form of "hands to"; log entries 1 and 3) -/

/-- A message on its way to the ODU, the PRU, the SLC or the MTU: a sample event or a reversal notice from the ODU, or a
notice from the Run Controller (R6, R8, R173 to R176). -/
inductive Message where
  | event (e : SampleEvent)
  | reversal
  | start (i : StartInfo)
  | suspend
  | resume
  | stop
deriving DecidableEq, Repr

/-- What the ODU hands the Run Controller: sample events (R6) and odometry reports (R18, R19). -/
inductive RcuMessage where
  | event (e : SampleEvent)
  | lost
  | restored
deriving DecidableEq, Repr

/-- What reaches the ASU beside mark requests (R51, R54, R55). -/
inductive AsuMessage where
  | delivery (d : Delivery)
  | reversal
  | start (i : StartInfo)
  | suspend
  | stop
deriving DecidableEq, Repr

/-- What reaches the GCU (R53, R85, R86). -/
inductive GcuMessage where
  | base (b : BaseRecord)
  | reversal
  | start (i : StartInfo)
  | suspend
  | stop
deriving DecidableEq, Repr

/-- What reaches the EXU (R83, R85, R151). -/
inductive ExuMessage where
  | record (r : OutputRecord)
  | streamEnd (cause : Cause) (run : Word32)
  | start
deriving DecidableEq, Repr

/-- What the EXU hands the Record Store, in the order handed (R137). -/
inductive RdsMessage where
  | geometry (r : OutputRecord) (levels : Seven Nat)
  | exception (r : ExceptionRecord)
deriving DecidableEq, Repr

/-- The capture a request of the MTU was made for (R159, R160). -/
structure CaptureRequest where
  line : MarkerLine
  number : Word16
  j : Int
deriving DecidableEq, Repr

/-- The PRU's answer to a chainage request (R99, R160). -/
structure ChainageAnswer where
  line : MarkerLine
  number : Word16
  chainage : Option Int
deriving DecidableEq, Repr

/-- What the ASU hands the MTU: placement answers and loss reports, in that one order (R160, R161). -/
inductive AsuAnswer where
  | placement (line : MarkerLine) (number : Word16) (placed : Bool)
  | loss (j : Int) (mark1 : Bool) (mark2 : Bool)
deriving DecidableEq, Repr

/-- The hand-overs that wait to be taken, each list oldest first. -/
structure Bus where
  toOdu : List Message
  toPru : List Message
  toSlc : List Message
  toMtu : List Message
  toRcu : List RcuMessage
  toAsu : List AsuMessage
  toGcu : List GcuMessage
  toExu : List ExuMessage
  toRds : List RdsMessage
  chainageRequests : List CaptureRequest
  markRequests : List CaptureRequest
  chainageAnswers : List ChainageAnswer
  asuAnswers : List AsuAnswer
deriving DecidableEq, Repr

/-! ### The part -/

/-- The power phase (R180): held by the reset pin, in the start-up hold until a tick, or past it. -/
inductive Power where
  | held
  | startUp (until_ : Nat)
  | on
deriving DecidableEq, Repr

/-- The state of the part. `now` (ticks since power-on) and `pending` (the commands that wait, oldest first) are the
model's own (log entry 2), and so is `bus` (log entry 1). -/
structure State where
  power : Power
  now : Nat
  odu : Odu
  slc : Slc
  asu : Asu
  gcu : Gcu
  pru : Pru
  exu : Exu
  mtu : Mtu
  rcu : Rcu
  rds : Rds
  cpc : Cpc
  bus : Bus
  pending : List Instr
deriving DecidableEq, Repr

/-- The manual gives the part no fault that stops it: link faults, encoder failures and refused requests are all states
and replies. So no command ends in a fault (safe: nothing is left out by it). -/
inductive Fault where
deriving DecidableEq, Repr

/-- Why a command has no meaning in the model. -/
inductive Refusal where
  /-- Raised by an arm of `exec` for a command that has no meaning yet (safe: the model stops). No arm of this model raises it. -/
  | notModelled (mnemonic : String)
deriving DecidableEq, Repr

/-! ### Reset (R24, R46, R61, R90, R114, R131, R151, R163, R169, R180, R196) -/

/-- An encoder at power-on (R24); its levels are a design choice (log entry 11). -/
def EncoderState.reset : EncoderState :=
  { levelA := false, levelB := false, mounting := .normal, countsPerRev := 0, circumference := 0, weight := 0,
    health := .ok, strikes := 0, goodChecks := 0, indexCount := 0, aligned := false, prevSense := none,
    silence := 0, eventDistance := 0 }

/-- The ODU at power-on (R24). -/
def Odu.reset : Odu :=
  { source := .none, active := .e1, primary := .e1, e1 := .reset, e2 := .reset, interval := 0, reversalDistance := 0,
    slipTolerance := 0, paceIntervalField := 0, position := 0, frontier := 0, next := 0, direction := .fwd,
    eventDirection := .fwd, extreme := 0, eventTick := 0, speed := 0, standstill := none, encSwitch := false, epoch := 0,
    paceInterval := 0, paceDirection := .fwd, paceStopped := true, paceTimer := none, view := .standby,
    zeroSpeedNext := false, resuming := false }

/-- A channel at power-on (R46). -/
def Channel.reset : Channel := { state := .lost, held := none, miss := 0, recovery := 0 }

/-- A link at power-on (R46). -/
def LinkState.reset : LinkState :=
  { state := .down, expected := none, lastGood := 0, missing := 0, seqErrors := 0, fault := .none, slotOpen := false }

/-- An integrator at power-on (R46). -/
def Integrator.reset : Integrator := { v := 0, p := 0, saturated := false }

/-- An inertial group at power-on (R46). -/
def Group.reset : Group := { state := .invalid, settle := 0, lossSeen := false }

/-- The SLC at power-on (R46). -/
def Slc.reset : Slc :=
  { s1 := .reset, s2 := .reset, s3 := .reset,
    channels := { gl := .reset, gr := .reset, zl := .reset, zr := .reset, azl := .reset, azr := .reset, ay := .reset,
                  roll := .reset, yaw := .reset },
    vertLeft := .reset, vertRight := .reset, lateral := .reset, yaw := 0, yawSaturated := false, vertGroup := .reset,
    latGroup := .reset, kv := 0, kp := 0, vMin := 0, hV := 0, settleValue := 0, slotTimer := none, slotStart := 0 }

/-- The ASU at power-on (R61). -/
def Asu.reset : Asu :=
  { table := [], assembling := false, direction := .fwd, latest := none, completed := 0, incomplete := 0, restarts := 0,
    pGauge := 0, pVertical := 0, pLateral := 0 }

/-- The GCU at power-on (R90). -/
def Gcu.reset : Gcu :=
  { window := [], active := false, direction := .fwd, latest := none, pendingCount := 0, output := 0, flushed := 0,
    dropped := 0, g0 := 0, gNom := 0, railDistance := 0, armA := 0, armB := 0, twistBase := 0, halfBase := 0,
    reachUp := 0, reachDown := 0, interval := 0 }

/-- The PRU at power-on (R114, R131). -/
def Pru.reset : Pru :=
  { ccur := 0, latest := none, direction := .fwd, residual := 0, correction := 0, stepMark := false, uncertain := false,
    history := [], fixes := [], acceptWindow := 0, stepThreshold := 0, slewLimit := 0, segments := [], plan := [],
    cursor := none, orientation := .plus, lineCode := 0, lineMark := false, running := false }

/-- The EXU at power-on (R151). -/
def Exu.reset : Exu :=
  { limitSets := [], runs := ⟨none, none, none, none, none, none, none⟩, judged := 0, opened := 0, onsets := 0,
    closed := 0 }

/-- A marker line at power-on (R163). -/
def MarkerState.reset : MarkerState :=
  { edge := .rising, mount := 0, spacing := 0, captures := 0, previous := none, ignored := 0 }

/-- A trigger channel at power-on (R169). -/
def TriggerState.reset : TriggerState :=
  { enable := false, pitch := 1, phase := 0, mount := 0, width := 1, polarity := .low, timer := none, level := .low,
    pulses := 0, dropped := 0, lastStarted := none, lastDropped := none }

/-- The MTU at power-on (R163, R169). -/
def Mtu.reset : Mtu :=
  { m1 := .reset, m2 := .reset, t1 := .reset, t2 := .reset, t3 := .reset, t4 := .reset, list := [], running := false }

/-- The RCU at power-on (R180). -/
def Rcu.reset : Rcu :=
  { runState := .standby, runNumber := 0, eventCount := 0, source := .none, generation := 0, written := [] }

/-- The RDS at power-on (R196). -/
def Rds.reset : Rds :=
  { geometry := { records := [], oldest := 0, next := 0 }, exceptions := { records := [], oldest := 0, next := 0 } }

/-- A port at power-on (R196). -/
def PortState.reset : PortState :=
  { phase := .idle, geoCursor := 0, excCursor := 0, geoGap := false, excGap := false, watermark := 0, threshold := 0,
    news := false, shifted := [] }

/-- The CPC at power-on (R196). -/
def Cpc.reset : Cpc := { cp0 := .reset, cp1 := .reset, cp2 := .reset, lastServed := .cp2, inService := none }

/-- Nothing waits at power-on: a reset ends all work without completing any of it (R180). -/
def Bus.reset : Bus :=
  { toOdu := [], toPru := [], toSlc := [], toMtu := [], toRcu := [], toAsu := [], toGcu := [], toExu := [], toRds := [],
    chainageRequests := [], markRequests := [], chainageAnswers := [], asuAnswers := [] }

/-- The part right after reset: every unit at its power-on values, the start-up hold of 52,429 ticks before it (R180). -/
def State.reset : State :=
  { power := .startUp 52429, now := 0, odu := .reset, slc := .reset, asu := .reset, gcu := .reset, pru := .reset,
    exu := .reset, mtu := .reset, rcu := .reset, rds := .reset, cpc := .reset, bus := .reset, pending := [] }

end Sys2Proof.Machine
end

