-- ==== Sys2Proof/Machine/Ops.lean ====
section
/-! DEFINITION. The named operations the units share: rounding and saturation, tables, the frame check, the time base,
access to the members of a state by name, and the hand-overs between units. -/

namespace Sys2Proof.Machine

/-! ### Figures of the manual -/

/-- The start-up hold: 50 ms (R180). -/
def holdTicks : Nat := 52429

/-- A frame slot (R26). -/
def slotTicks : Nat := 512

/-- Frame sync is driven for the first ticks of a slot (R200). -/
def syncTicks : Nat := 16

/-- The standstill time and the cap of Δt: 2^21 ticks (R9, R10). -/
def standstillTicks : Nat := 2097152

/-- The bound of a count that saturates (R27, R28, R52, R54, R74, R158, R166). -/
def countBound : Nat := 65535

/-! ### Numbers -/

/-- x lies in the signed 32-bit range. -/
def inS32 (x : Int) : Bool := decide (-2147483648 ≤ x) && decide (x ≤ 2147483647)

/-- The nearest bound of a stated range (00_scope.md, Rounding and saturation). -/
def clamp (lo hi x : Int) : Int := if x < lo then lo else if hi < x then hi else x

/-- Saturation to the signed 32-bit range (R66, R79, R94, R104). -/
def satS32 (x : Int) : Int := clamp (-2147483648) 2147483647 x

/-- Saturation to the 24-bit range of a channel word (R36). -/
def satS24 (x : Int) : Int := clamp (-8388608) 8388607 x

/-- One more on a count that saturates at 65535. -/
def satSucc (n : Nat) : Nat := if n < countBound then n + 1 else countBound

/-- A quotient rounded to the nearest integer, halves away from zero (00_scope.md). By zero it is free (log entry 7). -/
def roundAway (num : Int) (den : Nat) : Int :=
  if den = 0 then (Config.quotientByZero num).toInt
  else if 0 ≤ num then (2 * num + den) / (2 * den) else -((2 * (-num) + den) / (2 * den))

/-- A quotient rounded to the nearest integer, halves upward (R2, R9, R88, R111). By zero it is free (log entry 7). -/
def roundUp (num : Int) (den : Nat) : Int :=
  if den = 0 then (Config.quotientByZero num).toInt else (2 * num + den) / (2 * den)

/-- A sum of the position accumulator, a signed 64-bit value (R3). Past the range it is free (log entry 8). -/
def toPosition (x : Int) : Int :=
  if -9223372036854775808 ≤ x ∧ x ≤ 9223372036854775807 then x else (Config.positionBeyond64 x).toInt

/-- The sign of a number: −1, 0 or 1 (R95). -/
def signOf (x : Int) : Int := if 0 < x then 1 else if x < 0 then -1 else 0

/-! ### Tables -/

/-- The contents of a place, none when it is empty. -/
def Table.get? {α : Type} : Table α → Nat → Option α
  | [], _ => none
  | (i, a) :: rest, k => if i = k then some a else Table.get? rest k

/-- Put `a` at place `k`, replacing what stood there. -/
def Table.put {α : Type} : Table α → Nat → α → Table α
  | [], k, a => [(k, a)]
  | (i, b) :: rest, k, a =>
    if k < i then (k, a) :: (i, b) :: rest
    else if k = i then (k, a) :: rest
    else (i, b) :: Table.put rest k a

/-- Empty place `k`. -/
def Table.drop {α : Type} : Table α → Nat → Table α
  | [], _ => []
  | (i, b) :: rest, k => if i = k then rest else (i, b) :: Table.drop rest k

/-- The canonical form: positions strictly rising. -/
def Table.wf {α : Type} : Table α → Bool
  | [] => true
  | [_] => true
  | (i, _) :: (j, b) :: rest => decide (i < j) && Table.wf ((j, b) :: rest)

/-- The place of index j in a table of `size` places: j mod size as a non-negative remainder (R50, R70, R96). -/
def placeOf (j : Int) (size : Nat) : Nat := (j % (size : Int)).toNat

/-! ### The frame check (R197) -/

/-- One bit of the check register. -/
def checkBit (reg : Word16) (bit : Bool) : Word16 :=
  if (reg.msb ^^ bit) then (reg <<< 1) ^^^ 0x1021#16 else reg <<< 1

/-- One byte, most significant bit first. -/
def checkByte (reg : Word16) (b : Byte) : Word16 :=
  [7, 6, 5, 4, 3, 2, 1, 0].foldl (fun r i => checkBit r (b.getLsbD i)) reg

/-- The 16-bit check over the bytes it covers. -/
def frameCheck (bytes : List Byte) : Word16 := bytes.foldl checkByte 0xFFFF#16

/-! ### Directions, orientations, members by name -/

/-- +1 for FWD, −1 for REV (chapter Chainage and Location Fixes, d). -/
def Direction.sign : Direction → Int
  | .fwd => 1
  | .rev => -1

/-- The other direction. -/
def Direction.flip : Direction → Direction
  | .fwd => .rev
  | .rev => .fwd

/-- The orientation o (R118). -/
def Orientation.sign : Orientation → Int
  | .plus => 1
  | .minus => -1

/-- +1 for a count in the forward sense, −1 for the other (R1). -/
def Sense.value : Sense → Int
  | .forward => 1
  | .backward => -1

/-- The other sense. -/
def Sense.flip : Sense → Sense
  | .forward => .backward
  | .backward => .forward

/-- The other encoder. -/
def encoderOther : Encoder → Encoder
  | .e1 => .e2
  | .e2 => .e1

/-- The state of an encoder. -/
def Odu.enc (o : Odu) : Encoder → EncoderState
  | .e1 => o.e1
  | .e2 => o.e2

/-- Replace the state of an encoder. -/
def Odu.setEnc (o : Odu) (e : Encoder) (x : EncoderState) : Odu :=
  match e with
  | .e1 => { o with e1 := x }
  | .e2 => { o with e2 := x }

/-- The state of a link. -/
def Slc.link (c : Slc) : Link → LinkState
  | .s1 => c.s1
  | .s2 => c.s2
  | .s3 => c.s3

/-- Replace the state of a link. -/
def Slc.setLink (c : Slc) (l : Link) (x : LinkState) : Slc :=
  match l with
  | .s1 => { c with s1 := x }
  | .s2 => { c with s2 := x }
  | .s3 => { c with s3 := x }

/-- The state of a channel. -/
def Channels.get (c : Channels) : ChannelId → Channel
  | .gl => c.gl
  | .gr => c.gr
  | .zl => c.zl
  | .zr => c.zr
  | .azl => c.azl
  | .azr => c.azr
  | .ay => c.ay
  | .roll => c.roll
  | .yaw => c.yaw

/-- Replace the state of a channel. -/
def Channels.set (c : Channels) (i : ChannelId) (x : Channel) : Channels :=
  match i with
  | .gl => { c with gl := x }
  | .gr => { c with gr := x }
  | .zl => { c with zl := x }
  | .zr => { c with zr := x }
  | .azl => { c with azl := x }
  | .azr => { c with azr := x }
  | .ay => { c with ay := x }
  | .roll => { c with roll := x }
  | .yaw => { c with yaw := x }

/-- The channels of a link in frame order (R26). -/
def linkChannels : Link → List ChannelId
  | .s1 => [.gl, .gr]
  | .s2 => [.zl, .zr, .azl, .azr]
  | .s3 => [.ay, .roll, .yaw]

/-- The member for a checked parameter. -/
def Seven.get {α : Type} (x : Seven α) : Param → α
  | .g => x.g
  | .cl => x.cl
  | .tw => x.tw
  | .ll => x.ll
  | .lr => x.lr
  | .al => x.al
  | .ar => x.ar

/-- Replace the member for a checked parameter. -/
def Seven.set {α : Type} (x : Seven α) (p : Param) (a : α) : Seven α :=
  match p with
  | .g => { x with g := a }
  | .cl => { x with cl := a }
  | .tw => { x with tw := a }
  | .ll => { x with ll := a }
  | .lr => { x with lr := a }
  | .al => { x with al := a }
  | .ar => { x with ar := a }

/-- The members in parameter order. -/
def Seven.toList {α : Type} (x : Seven α) : List α := [x.g, x.cl, x.tw, x.ll, x.lr, x.al, x.ar]

/-- Apply a function to each member. -/
def Seven.map {α β : Type} (f : α → β) (x : Seven α) : Seven β :=
  ⟨f x.g, f x.cl, f x.tw, f x.ll, f x.lr, f x.al, f x.ar⟩

/-- The checked parameters in the order of their numbers (R133). -/
def allParams : List Param := [.g, .cl, .tw, .ll, .lr, .al, .ar]

/-- The number of a checked parameter. -/
def Param.number : Param → Nat
  | .g => 0
  | .cl => 1
  | .tw => 2
  | .ll => 3
  | .lr => 4
  | .al => 5
  | .ar => 6

/-- The state of a marker line. -/
def Mtu.marker (m : Mtu) : MarkerLine → MarkerState
  | .m1 => m.m1
  | .m2 => m.m2

/-- Replace the state of a marker line. -/
def Mtu.setMarker (m : Mtu) (l : MarkerLine) (x : MarkerState) : Mtu :=
  match l with
  | .m1 => { m with m1 := x }
  | .m2 => { m with m2 := x }

/-- The state of a trigger channel. -/
def Mtu.trigger (m : Mtu) : Trigger → TriggerState
  | .t1 => m.t1
  | .t2 => m.t2
  | .t3 => m.t3
  | .t4 => m.t4

/-- Replace the state of a trigger channel. -/
def Mtu.setTrigger (m : Mtu) (t : Trigger) (x : TriggerState) : Mtu :=
  match t with
  | .t1 => { m with t1 := x }
  | .t2 => { m with t2 := x }
  | .t3 => { m with t3 := x }
  | .t4 => { m with t4 := x }

/-- The state of a port. -/
def Cpc.port (c : Cpc) : Port → PortState
  | .cp0 => c.cp0
  | .cp1 => c.cp1
  | .cp2 => c.cp2

/-- Replace the state of a port. -/
def Cpc.setPort (c : Cpc) (p : Port) (x : PortState) : Cpc :=
  match p with
  | .cp0 => { c with cp0 := x }
  | .cp1 => { c with cp1 := x }
  | .cp2 => { c with cp2 := x }

/-- The same change on each of the three ports. -/
def Cpc.mapPorts (f : PortState → PortState) (c : Cpc) : Cpc :=
  { c with cp0 := f c.cp0, cp1 := f c.cp1, cp2 := f c.cp2 }

/-- The written mark of an item is set (R177). -/
def Rcu.isWritten (r : Rcu) (i : ItemId) : Bool := r.written.contains i

/-- The contents of segment k; an unwritten one has all fields 0 (R131). -/
def Pru.segment (p : Pru) (k : Nat) : Segment :=
  (p.segments.get? k).getD { lineCode := 0, lo := 0, hi := 0, limitSet := 0, masks := [] }

/-- The limits of a parameter in an unwritten set: every threshold 0 and disabled (R151). -/
def ParamLimits.unwritten : ParamLimits :=
  { u1 := 0, u2 := 0, u3 := 0, l1 := 0, l2 := 0, l3 := 0, enable := 0, hysteresis := 0, mergeGap := 0 }

/-- The contents of limit set k. -/
def Exu.limitSet (x : Exu) (k : Nat) : Seven ParamLimits :=
  (x.limitSets.get? k).getD ⟨.unwritten, .unwritten, .unwritten, .unwritten, .unwritten, .unwritten, .unwritten⟩

/-! ### The time base (log entry 2) -/

/-- Let the time base run on to a tick, if that tick is still to come. -/
def State.runTo (s : State) (tick : Nat) : State := { s with now := max s.now tick }

/-! ### Hand-overs (log entries 1 and 3) -/

/-- Is this message a sample event? -/
def Message.isEvent : Message → Bool
  | .event _ => true
  | _ => false

/-- The number of sample events that wait in a list. -/
def eventCountOf (q : List Message) : Nat := (q.filter Message.isEvent).length

/-- Take the STOP notice out of a list: the first message, or behind nothing but sample events, since STOP and an
event fired just before it may be taken in either order (R43, R113, R165, R174). -/
def takeStop : List Message → Option (List Message)
  | .stop :: rest => some rest
  | .event e :: rest => (takeStop rest).map (Message.event e :: ·)
  | _ => none

/-- Take the STOP notice out of the ASU's list: the first message, or behind nothing but deliveries (R55). -/
def takeAsuStop : List AsuMessage → Option (List AsuMessage)
  | .stop :: rest => some rest
  | .delivery d :: rest => (takeAsuStop rest).map (AsuMessage.delivery d :: ·)
  | _ => none

/-- Reversal notices that have come to the front of the SLC's list, with no event before them, go on to the ASU: it
takes deliveries and reversal notices in the order in which the ODU fired and declared them (R53). -/
def passReversals : List Message → Nat × List Message
  | .reversal :: rest => let (n, q) := passReversals rest; (n + 1, q)
  | q => (0, q)

/-- Leave `q` waiting at the SLC, passing on the reversal notices at its front. -/
def Bus.setToSlc (b : Bus) (q : List Message) : Bus :=
  let (n, rest) := passReversals q
  { b with toSlc := rest, toAsu := b.toAsu ++ List.replicate n AsuMessage.reversal }

/-- A delivery or a notice reaches the ASU (R43, R55). -/
def Bus.handAsu (b : Bus) (m : AsuMessage) : Bus := { b with toAsu := b.toAsu ++ [m] }

/-- A base record or a notice reaches the GCU (R53, R85). -/
def Bus.handGcu (b : Bus) (m : GcuMessage) : Bus := { b with toGcu := b.toGcu ++ [m] }

/-- Output records and notices reach the EXU (R83, R85). -/
def Bus.handExu (b : Bus) (m : List ExuMessage) : Bus := { b with toExu := b.toExu ++ m }

/-- Records reach the Record Store, in the order handed (R137). -/
def Bus.handRds (b : Bus) (m : List RdsMessage) : Bus := { b with toRds := b.toRds ++ m }

/-- Placement answers and loss reports reach the MTU, in the order handed (R161). -/
def Bus.answerMtu (b : Bus) (m : List AsuAnswer) : Bus := { b with asuAnswers := b.asuAnswers ++ m }

/-- The ODU hands a sample event to the PRU, the SLC, the MTU and the RCU (R6). -/
def Bus.handEvent (b : Bus) (e : SampleEvent) : Bus :=
  { b with toPru := b.toPru ++ [.event e], toSlc := b.toSlc ++ [.event e], toMtu := b.toMtu ++ [.event e],
           toRcu := b.toRcu ++ [.event e] }

/-- The ODU hands a reversal notice to the PRU and, behind the events fired before it, to the ASU and through it to the
GCU (R8, R53). -/
def Bus.handReversal (b : Bus) : Bus :=
  Bus.setToSlc { b with toPru := b.toPru ++ [Message.reversal] } (b.toSlc ++ [Message.reversal])

/-- The ODU hands the Run Controller a report (R18, R19). -/
def Bus.report (b : Bus) (m : RcuMessage) : Bus := { b with toRcu := b.toRcu ++ [m] }

/-- The Run Controller hands the START notice out. The ASU, the GCU and the EXU get it in their turn, behind what the
units before them still hold (R53, R151, R173); events of the earlier run not yet taken by the RCU are not counted, and
notices the ODU had not taken are past (log entry 21). Requests, answers and loss reports of the earlier run's captures keep waiting, and are taken in the new run (DESIGN CHOICE, log
entry 36). -/
def Bus.handStart (b : Bus) (i : StartInfo) : Bus :=
  { b with toOdu := [], toRcu := [], toPru := b.toPru ++ [.start i], toSlc := b.toSlc ++ [.start i],
           toMtu := b.toMtu ++ [.start i] }

/-- The Run Controller hands the STOP notice out (R174). -/
def Bus.handStop (b : Bus) : Bus :=
  { b with toOdu := b.toOdu ++ [.stop], toPru := b.toPru ++ [.stop], toSlc := b.toSlc ++ [.stop],
           toMtu := b.toMtu ++ [.stop] }

/-- The Run Controller hands the suspension notice out (R175). -/
def Bus.handSuspend (b : Bus) : Bus :=
  { b with toPru := b.toPru ++ [.suspend], toSlc := b.toSlc ++ [.suspend], toMtu := b.toMtu ++ [.suspend] }

/-- The Run Controller hands the resumption notice out (R176). -/
def Bus.handResume (b : Bus) : Bus :=
  { b with toOdu := b.toOdu ++ [.resume], toPru := b.toPru ++ [.resume], toMtu := b.toMtu ++ [.resume] }

end Sys2Proof.Machine
end

