-- ==== Sys2Proof/Machine/Assembly.lean ====
section
/-! DEFINITION. The Assembly Unit (chapter Track-Point Assembly, R49 to R62): filing, completion, restarts, marker marks;
and the commands that drive it. -/

namespace Sys2Proof.Machine

/-- The smallest mount position (R49). -/
def Asu.pMin (a : Asu) : Int := min a.pGauge (min a.pVertical a.pLateral)

/-- The largest mount position (R49). -/
def Asu.pMax (a : Asu) : Int := max a.pGauge (max a.pVertical a.pLateral)

/-- The number of places of the assembly table (R50). -/
def slotCount : Nat := 256

/-- A slot that has just become PARTIAL for index j (R51, R56). -/
def Slot.fresh (j : Int) : Slot :=
  { j := j, gauge := none, vertical := none, lateral := none, mark1 := false, mark2 := false, slip := false,
    encSwitch := false }

/-- Change the slot for index j, which becomes PARTIAL if it is EMPTY (R51, R56). An index outside the signed 32-bit range
has no slot (R59). -/
def Asu.inSlot (a : Asu) (j : Int) (f : Slot → Slot) : Asu :=
  if inS32 j then
    { a with table := a.table.put (placeOf j slotCount) (f ((a.table.get? (placeOf j slotCount)).getD (Slot.fresh j))) }
  else a

/-- A slot takes the flags of a delivery that fills it (R51). -/
def Slot.flagged (x : Slot) (d : Delivery) : Slot :=
  { x with slip := x.slip || d.slip, encSwitch := x.encSwitch || d.encSwitch }

/-- The three snapshots of a delivery are filed (R51). -/
def Asu.file (a : Asu) (d : Delivery) : Asu :=
  let a := a.inSlot (d.k + a.pGauge) (fun x => { x.flagged d with gauge := some d.gauge })
  let a := a.inSlot (d.k + a.pVertical) (fun x => { x.flagged d with vertical := some d.vertical })
  a.inSlot (d.k + a.pLateral) (fun x => { x.flagged d with lateral := some d.lateral })

/-- The report of the marks lost with a discarded slot (R58). -/
def Slot.lossReport (x : Slot) : List AsuAnswer := if x.mark1 || x.mark2 then [.loss x.j x.mark1 x.mark2] else []

/-- What the completion of a slot yields: a base record, or the reports of a discard (R52). -/
inductive Completion where
  | base (b : BaseRecord)
  | discarded (reports : List AsuAnswer)
deriving DecidableEq, Repr

/-- The base record of a slot with all three parts, otherwise its discard (R52, R53, R58). -/
def Slot.completion (x : Slot) (d : Direction) : Completion :=
  match x.gauge, x.vertical, x.lateral with
  | some g, some v, some l =>
    .base { j := x.j, direction := d, gauge := g, vertical := v, lateral := l, mark1 := x.mark1, mark2 := x.mark2,
            slip := x.slip, encSwitch := x.encSwitch }
  | _, _, _ => .discarded x.lossReport

/-- The index whose slot the rearmost group has just left (R52). -/
def Asu.rearIndex (a : Asu) (k : Int) (d : Direction) : Int :=
  match d with
  | .fwd => k + a.pMin
  | .rev => k + a.pMax

/-- The rearmost group's slot is completed: it becomes EMPTY, and is handed on or discarded (R52). -/
def Asu.complete (a : Asu) (k : Int) (d : Direction) : Asu × Completion :=
  let j := a.rearIndex k d
  let place := placeOf j slotCount
  match if inS32 j then a.table.get? place else none with
  | none => (a, .discarded [])
  | some x =>
    let a := { a with table := a.table.drop place }
    match x.completion d with
    | .base b => ({ a with completed := a.completed + 1 }, .base b)
    | .discarded reports => ({ a with incomplete := satSucc a.incomplete }, .discarded reports)

/-- Every PARTIAL slot is discarded: the restart count takes each, and its lost marks are reported (R54, R58). In
which order the reports of several slots are handed over no rule says: here by place, j mod 256 rising (log entry 31). -/
def Asu.discardAll (a : Asu) : Asu × List AsuAnswer :=
  ({ a with table := [], restarts := min countBound (a.restarts + a.table.length) },
   a.table.flatMap (fun e => e.2.lossReport))

/-- What the START notice does after the discard (R55). -/
def Asu.started (a : Asu) (i : StartInfo) : Asu :=
  { a with assembling := true, direction := i.direction, latest := none, completed := 0, incomplete := 0, restarts := 0 }

/-- The open window of the latest event index contains j (R56). -/
def Asu.windowHas (a : Asu) (k j : Int) : Bool :=
  match a.direction with
  | .fwd => decide (k + a.pMin < j) && decide (j ≤ k + a.pMax)
  | .rev => decide (k + a.pMin ≤ j) && decide (j < k + a.pMax)

/-- A mark request can be placed (R56, R59). -/
def Asu.canPlace (a : Asu) (j : Int) : Bool :=
  a.assembling && inS32 j && match a.latest with
    | some k => a.windowHas k j
    | none => false

/-- The mark of a line is set in the slot for j (R56). -/
def Asu.place (a : Asu) (line : MarkerLine) (j : Int) : Asu :=
  a.inSlot j (fun x => match line with
    | .m1 => { x with mark1 := true }
    | .m2 => { x with mark2 := true })

/-! ### Commands -/

/-- DELIVERY (R51, R52): filed and completed in ASSEMBLING, dropped in IDLE. -/
def execDelivery (s : State) : Host.Outcome State Fault Refusal :=
  match s.bus.toAsu with
  | .delivery d :: rest =>
    let bus := { s.bus with toAsu := rest }
    if s.asu.assembling then
      let c := (Asu.file { s.asu with latest := some d.k } d).complete d.k d.direction
      match c.2 with
      | .base b => .next { s with asu := c.1, bus := bus.handGcu (.base b) }
      | .discarded reports => .next { s with asu := c.1, bus := bus.answerMtu reports }
    else .next { s with bus := bus }
  | _ => .next s

/-- A restart of the ASU: the slots are discarded, `after` is what the notice then does, and the notice goes on to the GCU
behind the base records handed before it (R53 to R55, log entry 3). -/
def State.restartAsu (s : State) (rest : List AsuMessage) (after : Asu → Asu) (notice : GcuMessage) : State :=
  let c := s.asu.discardAll
  { s with asu := after c.1, bus := (Bus.answerMtu { s.bus with toAsu := rest } c.2).handGcu notice }

/-- ASU_REVERSAL_NOTICE (R54): the assembly direction is reversed. -/
def execAsuReversalNotice (s : State) : Host.Outcome State Fault Refusal :=
  match s.bus.toAsu with
  | .reversal :: rest => .next (s.restartAsu rest (fun a => { a with direction := a.direction.flip }) .reversal)
  | _ => .next s

/-- ASU_START_NOTICE (R55). -/
def execAsuStartNotice (s : State) : Host.Outcome State Fault Refusal :=
  match s.bus.toAsu with
  | .start i :: rest =>
    .next (s.restartAsu rest (fun a => a.started i) (.start i))
  | _ => .next s

/-- ASU_SUSPEND_NOTICE (R55): the ASU stays ASSEMBLING. -/
def execAsuSuspendNotice (s : State) : Host.Outcome State Fault Refusal :=
  match s.bus.toAsu with
  | .suspend :: rest => .next (s.restartAsu rest (fun a => { a with assembling := true }) .suspend)
  | _ => .next s

/-- ASU_STOP_NOTICE (R55): the ASU becomes IDLE. -/
def execAsuStopNotice (s : State) : Host.Outcome State Fault Refusal :=
  match takeAsuStop s.bus.toAsu with
  | some rest => .next (s.restartAsu rest (fun a => { a with assembling := false }) .stop)
  | none => .next s

/-- MARK_REQUEST (R56): placed and answered PLACED, or answered NOT_IN_STREAM. -/
def execMarkRequest (s : State) : Host.Outcome State Fault Refusal :=
  match s.bus.markRequests with
  | q :: rest =>
    let placed := s.asu.canPlace q.j
    .next { s with
      asu := if placed then s.asu.place q.line q.j else s.asu,
      bus := Bus.answerMtu { s.bus with markRequests := rest } [.placement q.line q.number placed] }
  | [] => .next s

end Sys2Proof.Machine
end

