-- ==== Sys2Proof/Machine/Operands.lean ====
section
/-! DEFINITION. Operand forms: the bytes of requests, replies and configuration items (chapter Frame and Record Formats).
Byte order, enumeration values and item layouts are decided here, once. -/

namespace Sys2Proof.Machine

/-! ### Writing fields (R199): most significant byte first -/

/-- Two bytes. -/
def be16 (x : Word16) : List Byte := [x.extractLsb' 8 8, x.extractLsb' 0 8]

/-- Four bytes. -/
def be32 (x : Word32) : List Byte :=
  [x.extractLsb' 24 8, x.extractLsb' 16 8, x.extractLsb' 8 8, x.extractLsb' 0 8]

/-- A one-byte number. -/
def putU8 (n : Nat) : List Byte := [BitVec.ofNat 8 n]

/-- A one-byte signed number. -/
def putS8 (x : Int) : List Byte := [BitVec.ofInt 8 x]

/-- A mark. -/
def putMark (b : Bool) : List Byte := [if b then 1 else 0]

/-- A two-byte unsigned number. -/
def putU16 (n : Nat) : List Byte := be16 (BitVec.ofNat 16 n)

/-- A four-byte signed number; one beyond the range is shown as a free value (log entry 9). -/
def putS32 (x : Int) : List Byte := be32 (if inS32 x then BitVec.ofInt 32 x else Config.wireBeyond32 x)

/-- A four-byte number that is not negative, written unsigned: R199 leaves open how a distance from 2^31 to 2^32 − 1 is written. One
beyond that range is shown as a free value (log entry 9). -/
def putU32 (n : Nat) : List Byte := be32 (if n < 4294967296 then BitVec.ofNat 32 n else Config.wireBeyond32 n)

/-- A field that may be none: a presence byte, then the value or zeros. -/
def putOptS32 : Option Int → List Byte
  | some x => 1 :: putS32 x
  | none => [0, 0, 0, 0, 0]

/-- A one-byte field that may be none, with a presence byte. -/
def putOptU8 : Option Nat → List Byte
  | some n => 1 :: putU8 n
  | none => [0, 0]

/-- A segment or plan entry of a record: 0xFF is none (R88, R201, R202). -/
def putOrFF : Option Nat → List Byte
  | some n => putU8 n
  | none => [0xFF]

/-! ### Reading fields -/

/-- The unsigned byte at an offset. -/
def getU8 (b : List Byte) (off : Nat) : Nat := (b.getD off 0).toNat

/-- The signed byte at an offset. -/
def getS8 (b : List Byte) (off : Nat) : Int := (b.getD off 0).toInt

/-- The unsigned two-byte field at an offset. -/
def getU16 (b : List Byte) (off : Nat) : Nat := getU8 b off * 256 + getU8 b (off + 1)

/-- The signed two-byte field at an offset. -/
def getS16 (b : List Byte) (off : Nat) : Int := (BitVec.ofNat 16 (getU16 b off)).toInt

/-- The unsigned four-byte field at an offset. -/
def getU32 (b : List Byte) (off : Nat) : Nat := getU16 b off * 65536 + getU16 b (off + 2)

/-- The signed four-byte field at an offset. -/
def getS32 (b : List Byte) (off : Nat) : Int := (BitVec.ofNat 32 (getU32 b off)).toInt

/-! ### Enumerations (R199) -/

/-- run state: STANDBY 0, RUNNING 1, SUSPENDED 2. -/
def RunState.code : RunState → Nat
  | .standby => 0
  | .running => 1
  | .suspended => 2

/-- direction: FWD 0, REV 1. -/
def Direction.code : Direction → Nat
  | .fwd => 0
  | .rev => 1

/-- The direction a byte names. -/
def directionOf : Nat → Option Direction
  | 0 => some .fwd
  | 1 => some .rev
  | _ => none

/-- count source: none 0, ENCODERS 1, PACE 2. -/
def CountSource.code : CountSource → Nat
  | .none => 0
  | .encoders => 1
  | .pace => 2

/-- The count source a START may name: ENCODERS or PACE (R172). -/
def startSourceOf : Nat → Option CountSource
  | 1 => some .encoders
  | 2 => some .pace
  | _ => none

/-- encoder: E1 0, E2 1. -/
def encoderCode : Encoder → Nat
  | .e1 => 0
  | .e2 => 1

/-- mounting sense: NORMAL 0, INVERTED 1. -/
def Mounting.code : Mounting → Nat
  | .normal => 0
  | .inverted => 1

/-- health: OK 0, FAILED 1. -/
def Health.code : Health → Nat
  | .ok => 0
  | .failed => 1

/-- channel state: OK 0, HELD 1, LOST 2. -/
def ChannelState.code : ChannelState → Nat
  | .ok => 0
  | .held => 1
  | .lost => 2

/-- link state: UP 0, PARTIAL 1, DOWN 2. -/
def LinkCondition.code : LinkCondition → Nat
  | .up => 0
  | .partially => 1
  | .down => 2

/-- group state: INVALID 0, SETTLING 1, VALID 2. -/
def GroupCondition.code : GroupCondition → Nat
  | .invalid => 0
  | .settling => 1
  | .valid => 2

/-- fault cause: none 0, TIMING 1, SYNC 2, CHECK 3. -/
def FaultCause.code : FaultCause → Nat
  | .none => 0
  | .timing => 1
  | .sync => 2
  | .check => 3

/-- port: CP0 0, CP1 1, CP2 2. -/
def portCode : Port → Nat
  | .cp0 => 0
  | .cp1 => 1
  | .cp2 => 2

/-- port phase: IDLE 0, SERVING 1, REPLY_READY 2. -/
def Phase.code : Phase → Nat
  | .idle => 0
  | .serving _ => 1
  | .replyReady _ => 2

/-- fix kind: SLEW 0, STEP 1, FORCED 2. -/
def FixKind.code : FixKind → Nat
  | .slew => 0
  | .step => 1
  | .forced => 2

/-- placement: PENDING 0, PLACED 1, NOT_IN_STREAM 2. -/
def Placement.code : Placement → Nat
  | .pending => 0
  | .placed => 1
  | .notInStream => 2

/-- marker line: M1 1, M2 2. -/
def markerCode : MarkerLine → Nat
  | .m1 => 1
  | .m2 => 2

/-- edge: RISING 0, FALLING 1. -/
def edgeCode : Edge → Nat
  | .rising => 0
  | .falling => 1

/-- polarity: LOW 0, HIGH 1. -/
def Level.code : Level → Nat
  | .low => 0
  | .high => 1

/-- side: none 0, high 1, low 2. -/
def Side.code : Side → Nat
  | .high => 1
  | .low => 2

/-- exception kind: ONSET 1, CLOSED 2. -/
def ExceptionKind.code : ExceptionKind → Nat
  | .onset => 1
  | .closed => 2

/-- cause: none 0, RETURNED 1, INVALID 2, SIDE 3, MASKED 4, BOUNDARY 5, LONG 6, REVERSED 7, SUSPENDED 8, STOPPED 9. -/
def Cause.code : Cause → Nat
  | .none => 0
  | .returned => 1
  | .invalid => 2
  | .side => 3
  | .masked => 4
  | .boundary => 5
  | .long => 6
  | .reversed => 7
  | .suspended => 8
  | .stopped => 9

/-! ### Requests (R187, R198) -/

/-- The requests, and the row that takes what names none of them. -/
inductive Service where
  | unknown | echo | readStatus | readRecords | readExceptions | setCursor | setAttention | readOpenRuns | readFixes
  | readMarkers | start | stop | setItem | readItem | setPace | fixAt | fixNow | calibrate | jumpPlan
deriving DecidableEq, Repr

/-- `service` when the payload has the length its layout requires, otherwise unknown (R187). -/
def withLength (rq : Request) (n : Nat) (service : Service) : Service :=
  if rq.payload.length = n then service else .unknown

/-- The request a taken frame is, by its code and its payload length (R187, R198). The length of a SET_ITEM is judged by
its own rule (R177). -/
def serviceOf (rq : Request) : Service :=
  match rq.code.toNat with
  | 0x01 => .echo
  | 0x02 => withLength rq 0 .readStatus
  | 0x03 => withLength rq 2 .readRecords
  | 0x04 => withLength rq 2 .readExceptions
  | 0x05 => withLength rq 2 .setCursor
  | 0x06 => withLength rq 3 .setAttention
  | 0x07 => withLength rq 0 .readOpenRuns
  | 0x08 => withLength rq 0 .readFixes
  | 0x09 => withLength rq 0 .readMarkers
  | 0x10 => withLength rq 7 .start
  | 0x11 => withLength rq 0 .stop
  | 0x12 => .setItem
  | 0x13 => withLength rq 2 .readItem
  | 0x20 => withLength rq 4 .setPace
  | 0x21 => withLength rq 12 .fixAt
  | 0x22 => withLength rq 10 .fixNow
  | 0x23 => withLength rq 0 .calibrate
  | 0x24 => withLength rq 5 .jumpPlan
  | _ => .unknown

/-- The status codes of a reply (R199). -/
inductive Status where
  | ok | badFrame | badRequest | state | range | notConfigured | config | far | duplicate | stale | offRoute | noPair
  | tolerance | shortBase
deriving DecidableEq, Repr

/-- The status values (R199). -/
def Status.code : Status → Nat
  | .ok => 0
  | .badFrame => 1
  | .badRequest => 2
  | .state => 3
  | .range => 4
  | .notConfigured => 5
  | .config => 6
  | .far => 7
  | .duplicate => 8
  | .stale => 9
  | .offRoute => 10
  | .noPair => 11
  | .tolerance => 12
  | .shortBase => 13

/-- A reply: its status, its GAP flag and its payload (R199). -/
structure Reply where
  status : Status
  gap : Bool
  payload : List Byte
deriving DecidableEq, Repr

/-- A refusal, or an answer, with the fields its rule names and the GAP flag clear. -/
def Reply.of (status : Status) (payload : List Byte) : Reply := { status := status, gap := false, payload := payload }

/-- The code echo of a reply: the request's code, but 0 for 0xA5, the value no code echo takes (R185, R199; log entry 15). -/
def codeEcho (code : Byte) : Byte := if code = 0xA5 then 0 else code

/-- A reply frame: code echo, tag echo, status, flags, length, payload, check (R199). -/
def replyFrame (code tag : Byte) (r : Reply) : List Byte :=
  let covered := [codeEcho code, tag] ++ putU8 r.status.code ++ putMark r.gap ++ putU16 r.payload.length ++ r.payload
  covered ++ be16 (frameCheck covered)

/-! ### Configuration items (R203) -/

/-- The item kinds (R203). -/
def kindCode : ItemId → Nat
  | .odometry => 1
  | .sensors => 2
  | .compute => 3
  | .fixPolicy => 4
  | .plan => 5
  | .segment _ => 6
  | .limitSet _ => 7
  | .marker _ => 8
  | .trigger _ => 9

/-- The number of a trigger channel. -/
def triggerCode : Trigger → Nat
  | .t1 => 1
  | .t2 => 2
  | .t3 => 3
  | .t4 => 4

/-- The index of an item, 0 for a kind without index (R203). -/
def indexCode : ItemId → Nat
  | .segment k => k
  | .limitSet k => k
  | .marker m => markerCode m
  | .trigger t => triggerCode t
  | _ => 0

/-- The fixed length of an item of each kind; none for a number that names no kind (R203). -/
def itemLength : Nat → Option Nat
  | 1 => some 21
  | 2 => some 21
  | 3 => some 4
  | 4 => some 9
  | 5 => some 65
  | 6 => some 48
  | 7 => some 210
  | 8 => some 4
  | 9 => some 9
  | _ => none

/-- The item a kind and an index name; none when the index is out of the kind's range (R177, R203). -/
def itemOf (kind index : Nat) : Option ItemId :=
  match kind with
  | 1 => if index = 0 then some .odometry else none
  | 2 => if index = 0 then some .sensors else none
  | 3 => if index = 0 then some .compute else none
  | 4 => if index = 0 then some .fixPolicy else none
  | 5 => if index = 0 then some .plan else none
  | 6 => if index < 64 then some (.segment index) else none
  | 7 => if index < 16 then some (.limitSet index) else none
  | 8 => if index = 1 then some (.marker .m1) else if index = 2 then some (.marker .m2) else none
  | 9 => if index = 1 then some (.trigger .t1) else if index = 2 then some (.trigger .t2)
         else if index = 3 then some (.trigger .t3) else if index = 4 then some (.trigger .t4) else none
  | _ => none

/-- A field at a byte offset of an item, and whether it passes its range and cross-checks. -/
abbrev FieldCheck := Nat × Bool

/-- The byte offset of the first field that fails, in the item's layout (R177). -/
def firstFailing : List FieldCheck → Option Nat
  | [] => none
  | (off, good) :: rest => if good then firstFailing rest else some off

/-- lo ≤ x ≤ hi. -/
def within (lo x hi : Int) : Bool := decide (lo ≤ x) && decide (x ≤ hi)

/-- The fields of ODOMETRY (R2, R203). -/
def odometryChecks (b : List Byte) : List FieldCheck :=
  [(0, getU16 b 0 == 125 || getU16 b 0 == 250 || getU16 b 0 == 500),
   (2, within 0 (getU8 b 2) 1), (3, within 8 (getU8 b 3) 255), (4, within 1 (getU8 b 4) 10), (5, within 1 (getU16 b 5) 65535),
   (7, within 1500000 (getS32 b 7) 4000000), (11, within 400 (getU16 b 11) 16384), (13, within 0 (getU8 b 13) 1),
   (14, within 1500000 (getS32 b 14) 4000000), (18, within 400 (getU16 b 18) 16384), (20, within 0 (getU8 b 20) 1)]

/-- The fields of SENSORS (R39, R49, R63, R203); H_v is less than V_min. -/
def sensorsChecks (b : List Byte) : List FieldCheck :=
  [(0, within 6 (getU8 b 0) 20), (1, within 6 (getU8 b 1) 20), (2, within 1000 (getU16 b 2) 20000),
   (4, within 0 (getU16 b 4) 2000 && decide (getU16 b 4 < getU16 b 2)), (6, within 8 (getU16 b 6) 400),
   (8, within (-100) (getS8 b 8) 100), (9, within (-100) (getS8 b 9) 100), (10, within (-100) (getS8 b 10) 100),
   (11, within 0 (getS32 b 11) 2000000), (15, within 1000000 (getS32 b 15) 2000000), (19, within 1400 (getU16 b 19) 1700)]

/-- The fields of COMPUTE (R64, R203). -/
def computeChecks (b : List Byte) : List FieldCheck :=
  [(0, within 1 (getU8 b 0) 48), (1, within 1 (getU8 b 1) 48), (2, within 1 (getU8 b 2) 48), (3, within 1 (getU8 b 3) 48)]

/-- The fields of FIXPOLICY (R92, R203). -/
def fixPolicyChecks (b : List Byte) : List FieldCheck :=
  [(0, within 100 (getS32 b 0) 500000), (4, within 100 (getS32 b 4) 100000), (8, within 0 (getU8 b 8) 25)]

/-- The orientation a byte names (R118, R199). -/
def orientationOf (x : Int) : Option Orientation :=
  if x = 1 then some .plus else if x = -1 then some .minus else none

/-- The fields of PLAN; entries beyond the count are not checked (R118, R203). -/
def planChecks (b : List Byte) : List FieldCheck :=
  (0, within 1 (getU8 b 0) 32) ::
    (List.range (min (getU8 b 0) 32)).flatMap (fun e =>
      [(1 + 2 * e, within 0 (getU8 b (1 + 2 * e)) 63), (2 + 2 * e, (orientationOf (getS8 b (2 + 2 * e))).isSome)])

/-- The fields of SEGMENT; masks beyond the mask count are not checked (R116, R203). -/
def segmentChecks (b : List Byte) : List FieldCheck :=
  [(0, within 1 (getU16 b 0) 65535), (6, decide (getS32 b 2 < getS32 b 6)), (10, within 0 (getU8 b 10) 15),
   (11, within 0 (getU8 b 11) 4)] ++
    (List.range (min (getU8 b 11) 4)).flatMap (fun i =>
      [(12 + 9 * i, decide (getS32 b 2 ≤ getS32 b (12 + 9 * i))),
       (16 + 9 * i, within (getS32 b (12 + 9 * i)) (getS32 b (16 + 9 * i)) (getS32 b 6)),
       (20 + 9 * i, within 1 (getU8 b (20 + 9 * i)) 127)])

/-- Two thresholds of one side are graded outward, unless one of them is disabled (R134). -/
def graded (b : List Byte) (o inner outer : Nat) (rising : Bool) (innerBit outerBit : Nat) : Bool :=
  let en := b.getD (o + 24) 0
  if en.getLsbD innerBit && en.getLsbD outerBit then
    if rising then decide (getS32 b (o + inner) ≤ getS32 b (o + outer))
    else decide (getS32 b (o + outer) ≤ getS32 b (o + inner))
  else true

/-- The fields of one parameter's group of LIMITSET, at offset o (R133, R134, R203). -/
def limitGroupChecks (b : List Byte) (o : Nat) : List FieldCheck :=
  [(o, within 0 (getS32 b o) 2000000),
   (o + 4, within 0 (getS32 b (o + 4)) 2000000 && graded b o 0 4 true 0 1),
   (o + 8, within 0 (getS32 b (o + 8)) 2000000 && graded b o 0 8 true 0 2 && graded b o 4 8 true 1 2),
   (o + 12, within (-2000000) (getS32 b (o + 12)) 0),
   (o + 16, within (-2000000) (getS32 b (o + 16)) 0 && graded b o 12 16 false 3 4),
   (o + 20, within (-2000000) (getS32 b (o + 20)) 0 && graded b o 12 20 false 3 5 && graded b o 16 20 false 4 5),
   (o + 24, within 0 (getU8 b (o + 24)) 63),
   (o + 25, within 0 (getS32 b (o + 25)) 2000000),
   (o + 29, within 0 (getU8 b (o + 29)) 40)]

/-- The fields of LIMITSET: seven groups of 30 bytes in parameter order (R133, R203). -/
def limitSetChecks (b : List Byte) : List FieldCheck :=
  allParams.flatMap (fun p => limitGroupChecks b (30 * p.number))

/-- The fields of MARKER (R157, R203). -/
def markerChecks (b : List Byte) : List FieldCheck :=
  [(0, within 0 (getU8 b 0) 1), (1, within (-100) (getS8 b 1) 100), (2, within 0 (getU16 b 2) 4096)]

/-- The fields of TRIGGER; the phase is less than the pitch (R164, R203). -/
def triggerChecks (b : List Byte) : List FieldCheck :=
  [(0, within 0 (getU8 b 0) 1), (1, within 1 (getU16 b 1) 4096), (3, decide (getU16 b 3 < getU16 b 1)),
   (5, within (-100) (getS8 b 5) 100), (6, within 1 (getU16 b 6) 65535), (8, within 0 (getU8 b 8) 1)]

/-- The checks of an item, in the order of its layout (R177, R203). -/
def itemChecks (i : ItemId) (b : List Byte) : List FieldCheck :=
  match i with
  | .odometry => odometryChecks b
  | .sensors => sensorsChecks b
  | .compute => computeChecks b
  | .fixPolicy => fixPolicyChecks b
  | .plan => planChecks b
  | .segment _ => segmentChecks b
  | .limitSet _ => limitSetChecks b
  | .marker _ => markerChecks b
  | .trigger _ => triggerChecks b

/-- The plan entries of an accepted PLAN item (R118). -/
def planOf (b : List Byte) : List PlanEntry :=
  (List.range (getU8 b 0)).map (fun e =>
    { segment := getU8 b (1 + 2 * e), orientation := (orientationOf (getS8 b (2 + 2 * e))).getD .plus })

/-- The segment of an accepted SEGMENT item (R116). -/
def segmentOf (b : List Byte) : Segment :=
  { lineCode := getU16 b 0, lo := getS32 b 2, hi := getS32 b 6, limitSet := getU8 b 10,
    masks := (List.range (getU8 b 11)).map (fun i =>
      { lo := getS32 b (12 + 9 * i), hi := getS32 b (16 + 9 * i), params := b.getD (20 + 9 * i) 0 }) }

/-- One parameter's group of an accepted LIMITSET item (R133). -/
def limitsAt (b : List Byte) (o : Nat) : ParamLimits :=
  { u1 := getS32 b o, u2 := getS32 b (o + 4), u3 := getS32 b (o + 8), l1 := getS32 b (o + 12), l2 := getS32 b (o + 16),
    l3 := getS32 b (o + 20), enable := b.getD (o + 24) 0, hysteresis := getS32 b (o + 25), mergeGap := getU8 b (o + 29) }

/-- The limit set of an accepted LIMITSET item (R133). -/
def limitSetOf (b : List Byte) : Seven ParamLimits :=
  ⟨limitsAt b 0, limitsAt b 30, limitsAt b 60, limitsAt b 90, limitsAt b 120, limitsAt b 150, limitsAt b 180⟩

/-- The fields of an item up to its fixed length; what was not stored is free (R203, log entry 10). -/
def padFree (len : Nat) (b : List Byte) : List Byte :=
  b ++ (List.range (len - b.length)).map (fun i => Config.unstoredItemByte (b.length + i))

/-- The stored fields of PLAN in their layout (R203). -/
def planBytes (p : List PlanEntry) : List Byte :=
  padFree 65 (putU8 p.length ++ p.flatMap (fun e => putU8 e.segment ++ putS8 e.orientation.sign))

/-- The stored fields of SEGMENT in their layout (R203). -/
def segmentBytes (g : Segment) : List Byte :=
  padFree 48 (putU16 g.lineCode ++ putS32 g.lo ++ putS32 g.hi ++ putU8 g.limitSet ++ putU8 g.masks.length ++
    g.masks.flatMap (fun m => putS32 m.lo ++ putS32 m.hi ++ [m.params]))

/-- The stored fields of one parameter's group of LIMITSET (R203). -/
def limitsBytes (l : ParamLimits) : List Byte :=
  putS32 l.u1 ++ putS32 l.u2 ++ putS32 l.u3 ++ putS32 l.l1 ++ putS32 l.l2 ++ putS32 l.l3 ++ [l.enable] ++
    putS32 l.hysteresis ++ putU8 l.mergeGap

end Sys2Proof.Machine
end

