-- ==== Sys2Proof/Machine/Odometry.lean ====
section
/-! DEFINITION. The Odometry Unit (chapter Odometry and Sample Events, R1 to R25): counts, position, sample events,
reversal, speed, pace generator, supervision, epoch; and the commands that drive it. -/

namespace Sys2Proof.Machine

/-! ### Decoding (R1) -/

/-- The sense of a count from the channel that changed and the levels after the change. In the order in which A leads B,
a change of A leaves the levels different and a change of B leaves them equal. -/
def countSense (mounting : Mounting) (ch : QuadChannel) (a b : Bool) : Sense :=
  let aLeads := match ch with
    | .a => a != b
    | .b => a == b
  match mounting with
  | .normal => if aLeads then .forward else .backward
  | .inverted => if aLeads then .backward else .forward

/-- The decoder takes a change of one channel: the new levels, and the sense of the count (R1). -/
def EncoderState.decode (x : EncoderState) (ch : QuadChannel) : EncoderState × Sense :=
  let y := match ch with
    | .a => { x with levelA := !x.levelA }
    | .b => { x with levelB := !x.levelB }
  (y, countSense x.mounting ch y.levelA y.levelB)

/-! ### Position and sample events (R3, R5 to R9, R17) -/

/-- One sample interval in du: I × 65536. -/
def Odu.intervalDu (o : Odu) : Int := (o.interval : Int) * 65536

/-- The sample boundary of index n (R5). -/
def Odu.boundary (o : Odu) (n : Int) : Int := n * o.intervalDu

/-- The position index: the track point nearest the reference mark (R5). -/
def Odu.positionIndex (o : Odu) : Int := roundAway o.position (o.interval * 65536)

/-- The weight by which counts move the accumulator: W of E1 with source PACE, otherwise that of the active encoder (R3, R22). -/
def Odu.activeWeight (o : Odu) : Nat :=
  match o.source with
  | .pace => o.e1.weight
  | _ => (o.enc o.active).weight

/-- The measured speed for Δt ticks (R9). -/
def speedOf (interval ticks : Nat) : Nat :=
  (roundUp ((interval : Int) * 1048576) (min ticks standstillTicks)).toNat

/-- The speed of an event fired at tick `now` (R9). -/
def Odu.eventSpeed (o : Odu) (now : Nat) : Nat :=
  if o.zeroSpeedNext then 0 else speedOf o.interval (now - o.eventTick)

/-- The SLIP flag of an event fired now (R17). -/
def Odu.slips (o : Odu) : Bool :=
  let act := o.enc o.active
  let oth := o.enc (encoderOther o.active)
  let da := act.eventDistance * act.weight
  let dOther := oth.eventDistance * oth.weight
  o.view == .running && o.source == .encoders && act.health == .ok && oth.health == .ok &&
    decide ((o.slipTolerance : Int) * da.natAbs < (da - dOther).natAbs * 100)

/-- The sample event the ODU fires now, for the next index n (R6). -/
def Odu.eventNow (o : Odu) (now : Nat) : SampleEvent :=
  { k := o.next, direction := o.direction, speed := o.eventSpeed now, slip := o.slips, encSwitch := o.encSwitch }

/-- Fire the sample event for the next index n (R5, R6, R10, R17). -/
def State.fireEvent (s : State) : State :=
  let o := s.odu
  let e := o.eventNow s.now
  { s with
    odu := { o with
      frontier := o.next, next := o.next + o.direction.sign, eventDirection := o.direction, eventTick := s.now,
      speed := e.speed, standstill := some (s.now + standstillTicks), encSwitch := false, zeroSpeedNext := false,
      e1 := { o.e1 with eventDistance := 0 }, e2 := { o.e2 with eventDistance := 0 } },
    bus := s.bus.handEvent e }

/-- The position has reached n's boundary in the running direction, and n lies in the signed 32-bit range (R5). -/
def Odu.reached (o : Odu) : Bool :=
  inS32 o.next && match o.direction with
    | .fwd => decide (o.boundary o.next ≤ o.position)
    | .rev => decide (o.position ≤ o.boundary o.next)

/-- Fire the event for n if its boundary is reached (R5; one event at a time, log entry 6). -/
def State.fireIfReached (s : State) : State := if s.odu.reached then s.fireEvent else s

/-- The position lies R_d × W back from X (R8). -/
def Odu.reversed (o : Odu) : Bool :=
  let back : Int := (o.reversalDistance : Int) * o.activeWeight
  match o.direction with
  | .fwd => decide (o.position ≤ o.extreme - back)
  | .rev => decide (o.extreme + back ≤ o.position)

/-- Declare a reversal (R8). -/
def State.declareReversal (s : State) : State :=
  let o := s.odu
  let d := o.direction.flip
  let n := if o.eventDirection = d then o.frontier + d.sign else o.frontier
  State.fireIfReached
    { s with odu := { o with direction := d, extreme := o.position, next := n, zeroSpeedNext := true },
             bus := s.bus.handReversal }

/-- X follows a position that goes past it in the running direction (R7). -/
def Odu.followExtreme (o : Odu) : Odu :=
  match o.direction with
  | .fwd => if o.extreme < o.position then { o with extreme := o.position } else o
  | .rev => if o.position < o.extreme then { o with extreme := o.position } else o

/-- A move by a number of du goes in the running direction. -/
def Odu.advances (o : Odu) (du : Int) : Bool := decide (0 < o.direction.sign * du)

/-- A count moves the accumulator by a number of du: X, reversal and sample event follow (R3, R5, R7, R8). A count that moves
the position back and declares no reversal fires no event (R5), also where the boundary of n is already passed (log entry 6). -/
def State.moveBy (s : State) (du : Int) : State :=
  let o := ({ s.odu with position := toPosition (s.odu.position + du) }).followExtreme
  let s := { s with odu := o }
  if o.reversed then s.declareReversal else if o.advances du then s.fireIfReached else s

/-! ### Supervision (R13 to R20) -/

/-- The epoch counts one more (R21). -/
def Odu.bumpEpoch (o : Odu) : Odu := { o with epoch := o.epoch + 1 }

/-- The active encoder has become FAILED in RUNNING: switch over to an OK encoder, or report odometry lost (R18). -/
def State.activeFailed (s : State) : State :=
  let o := s.odu
  match (o.enc (encoderOther o.active)).health with
  | .ok => { s with odu := { o.bumpEpoch with active := encoderOther o.active, encSwitch := true } }
  | .failed =>
    { s with odu := { o with view := .suspended, speed := 0, encSwitch := false }, bus := s.bus.report .lost }

/-- An OK encoder becomes FAILED (R13); R18 follows if it is active in RUNNING. -/
def State.failEncoder (s : State) (e : Encoder) : State :=
  let x := s.odu.enc e
  let s := { s with odu := s.odu.setEnc e { x with health := .failed, strikes := 0, goodChecks := 0 } }
  if s.odu.view = .running ∧ s.odu.active = e then s.activeFailed else s

/-- A mismatch of encoder e (R15). -/
def State.mismatch (s : State) (e : Encoder) : State :=
  let x := s.odu.enc e
  match x.health with
  | .ok =>
    if x.strikes + 1 < 3 then { s with odu := s.odu.setEnc e { x with strikes := x.strikes + 1 } } else s.failEncoder e
  | .failed => { s with odu := s.odu.setEnc e { x with goodChecks := 0 } }

/-- A FAILED encoder becomes OK. In SUSPENDED it becomes active and the restoration is reported (R19), unless a
restoration has already been reported (log entry 4). In RUNNING only its health changes (R20). -/
def State.recoverEncoder (s : State) (e : Encoder) : State :=
  let o := s.odu.setEnc e { s.odu.enc e with health := .ok, strikes := 0, goodChecks := 0 }
  if o.view = .suspended ∧ o.resuming = false then
    { s with
      odu := { o.bumpEpoch with
        active := e, extreme := o.position, zeroSpeedNext := true, resuming := true,
        e1 := { o.e1 with eventDistance := 0 }, e2 := { o.e2 with eventDistance := 0 } },
      bus := s.bus.report .restored }
  else { s with odu := o }

/-- A good check of encoder e (R15). -/
def State.goodCheck (s : State) (e : Encoder) : State :=
  let x := s.odu.enc e
  match x.health with
  | .ok => { s with odu := s.odu.setEnc e { x with strikes := 0 } }
  | .failed =>
    if x.goodChecks + 1 < 8 then { s with odu := s.odu.setEnc e { x with goodChecks := x.goodChecks + 1 } }
    else s.recoverEncoder e

/-- The index count of an encoder after a count of sense v (R14), before the test against N + 3. -/
def EncoderState.countIndex (x : EncoderState) (v : Sense) : EncoderState :=
  if x.prevSense = some v then { x with indexCount := x.indexCount + 1 }
  else { x with aligned := false, indexCount := 1, prevSense := some v }

/-- The index check at a count (R14). -/
def State.indexAtCount (s : State) (e : Encoder) (v : Sense) : State :=
  let x := (s.odu.enc e).countIndex v
  if x.indexCount = x.countsPerRev + 3 then
    State.mismatch { s with odu := s.odu.setEnc e { x with indexCount := 0, aligned := false } } e
  else { s with odu := s.odu.setEnc e x }

/-- The silence counts at a count of encoder e (R16). -/
def State.silenceAtCount (s : State) (e : Encoder) (v : Sense) : State :=
  let o := s.odu.setEnc e { s.odu.enc e with silence := 0 }
  let other := encoderOther e
  let y := o.enc other
  let n := y.silence + v.value
  if n.natAbs < 512 then { s with odu := o.setEnc other { y with silence := n } }
  else match y.health with
    | .ok => State.failEncoder { s with odu := o.setEnc other { y with silence := 0 } } other
    | .failed => { s with odu := o.setEnc other { y with silence := 0, goodChecks := 0 } }

/-- The event distance count of encoder e takes a count (R17). -/
def Odu.addDistance (o : Odu) (e : Encoder) (v : Sense) : Odu :=
  o.setEnc e { o.enc e with eventDistance := (o.enc e).eventDistance + v.value }

/-- A decoded count of sense v of encoder e, with source ENCODERS in RUNNING or SUSPENDED: it is taken into the event
distance, moves the position under the encoder that was active before it, and is then supervised (R3, R13; log entry 5). -/
def State.takeCount (s : State) (e : Encoder) (v : Sense) : State :=
  let moves := s.odu.view = .running ∧ s.odu.active = e
  let s := { s with odu := s.odu.addDistance e v }
  let s := if moves then s.moveBy (v.value * (s.odu.enc e).weight) else s
  (s.indexAtCount e v).silenceAtCount e v

/-- Counts of the encoders are supervised now: a run with source ENCODERS (R3, R13). -/
def Odu.supervised (o : Odu) : Bool := o.source == .encoders && o.view != .standby

/-! ### Notices and status parts of the ODU -/

/-- Both event distance counts are set to 0 (R17, R19). -/
def Odu.clearDistances (o : Odu) : Odu :=
  { o with e1 := { o.e1 with eventDistance := 0 }, e2 := { o.e2 with eventDistance := 0 } }

/-- The ODU at STOP (R23). -/
def Odu.stopped (o : Odu) : Odu :=
  { o with view := .standby, speed := 0, standstill := none, paceStopped := true, paceTimer := none, encSwitch := false,
           resuming := false }

/-- An encoder at START (R4). -/
def EncoderState.started (x : EncoderState) : EncoderState :=
  { x with health := .ok, strikes := 0, goodChecks := 0, indexCount := 0, aligned := false, prevSense := none,
           silence := 0, eventDistance := 0 }

/-- The ODU prepared by an accepted START, before sample event 0 fires (R4, R11). -/
def Odu.started (o : Odu) (i : StartInfo) : Odu :=
  { o.bumpEpoch with
    source := i.source, position := 0, frontier := 0, next := 0, direction := i.direction, eventDirection := i.direction,
    extreme := 0, speed := 0, active := o.primary, e1 := o.e1.started, e2 := o.e2.started, encSwitch := false,
    view := .running, zeroSpeedNext := true, resuming := false, paceStopped := true, paceTimer := none,
    paceInterval := if i.source = .pace then o.paceIntervalField else o.paceInterval,
    paceDirection := if i.source = .pace then i.direction else o.paceDirection }

/-- The ODU takes up the measurement of travel again (R19, R17). An active encoder that has failed meanwhile is handled as
in RUNNING, where its health is OK (R18; log entry 22). -/
def State.resumeOdu (s : State) : State :=
  let s := { s with odu := { s.odu.clearDistances with view := .running, resuming := false } }
  match (s.odu.enc s.odu.active).health with
  | .ok => s
  | .failed => s.activeFailed

/-! ### Commands -/

/-- ENCODER_COUNT (R1, R3): the time base runs on, the decoder takes the change, and in a run with source ENCODERS the
count is taken. The decoder follows its inputs through a reset and the start-up hold (R24, log entry 11). -/
def execEncoderCount (e : Encoder) (ch : QuadChannel) (ticks : Nat) (s : State) : Host.Outcome State Fault Refusal :=
  let d := (s.odu.enc e).decode ch
  let s := { s with now := s.now + ticks, odu := s.odu.setEnc e d.1 }
  .next (if s.odu.supervised then s.takeCount e d.2 else s)

/-- ILLEGAL_TRANSITION (R1): no count; the decoder takes the new levels. -/
def execIllegalTransition (e : Encoder) (s : State) : Host.Outcome State Fault Refusal :=
  let x := s.odu.enc e
  .next { s with odu := s.odu.setEnc e { x with levelA := !x.levelA, levelB := !x.levelB } }

/-- Z_PULSE (R14): an aligned revolution is checked, and every pulse starts a new one. -/
def execZPulse (e : Encoder) (s : State) : Host.Outcome State Fault Refusal :=
  if s.odu.supervised then
    let x := s.odu.enc e
    let t := { s with odu := s.odu.setEnc e { x with indexCount := 0, aligned := true } }
    if x.aligned then
      .next (if ((x.indexCount : Int) - x.countsPerRev).natAbs ≤ 2 then t.goodCheck e else t.mismatch e)
    else .next t
  else .next s

/-- PACE_COUNT (R11): the count timer expires; the count moves the accumulator by the W of E1 and the timer restarts. -/
def execPaceCount (s : State) : Host.Outcome State Fault Refusal :=
  match s.odu.paceTimer with
  | some tick =>
    if s.odu.view = .running ∧ s.odu.source = .pace ∧ s.odu.paceStopped = false then
      let s := s.runTo tick
      let s := { s with odu := { s.odu with paceTimer := some (s.now + s.odu.paceInterval) } }
      .next (s.moveBy (s.odu.paceDirection.sign * s.odu.e1.weight))
    else .next s
  | none => .next s

/-- STANDSTILL_EXPIRY (R10): the current speed becomes 0. -/
def execStandstillExpiry (s : State) : Host.Outcome State Fault Refusal :=
  match s.odu.standstill with
  | some tick =>
    let s := s.runTo tick
    .next { s with odu := { s.odu with speed := 0, standstill := none } }
  | none => .next s

/-- ODU_STOP_NOTICE (R23). -/
def execOduStopNotice (s : State) : Host.Outcome State Fault Refusal :=
  match s.bus.toOdu with
  | .stop :: rest => .next { s with odu := s.odu.stopped, bus := { s.bus with toOdu := rest } }
  | _ => .next s

/-- ODU_RESUMPTION_NOTICE (R19). -/
def execOduResumptionNotice (s : State) : Host.Outcome State Fault Refusal :=
  match s.bus.toOdu with
  | .resume :: rest => .next (State.resumeOdu { s with bus := { s.bus with toOdu := rest } })
  | _ => .next s

end Sys2Proof.Machine
end

