-- ==== Sys2Proof/Machine/Position.lean ====
section
/-! DEFINITION. The Position Reference Unit (chapters Chainage and Location Fixes, Line Plan and Segments, R92 to R132):
chainage, history, plan cursor, reference chainage; and the commands that drive it. Its requests stand in Fixes.lean. -/

namespace Sys2Proof.Machine

/-! ### Segments and plan (R117 to R120) -/

/-- A segment contains a chainage, both ends included (R117). -/
def Segment.contains (g : Segment) (c : Int) : Bool := decide (g.lo ≤ c) && decide (c ≤ g.hi)

/-- The segment of a plan entry. -/
def Pru.segmentOf (p : Pru) (e : PlanEntry) : Segment := p.segment e.segment

/-- The chainage sense o × d of an entry: +1 upward, −1 downward (R93, R120). -/
def sense (o : Orientation) (d : Direction) : Int := o.sign * d.sign

/-- The entry boundary (R120). -/
def Segment.entryBoundary (g : Segment) (s : Int) : Int := if 0 < s then g.lo else g.hi

/-- The exit (R120). -/
def Segment.exit (g : Segment) (s : Int) : Int := if 0 < s then g.hi else g.lo

/-- A chainage has passed the exit (R120). -/
def Segment.isBeyond (g : Segment) (s c : Int) : Bool := if 0 < s then decide (g.hi < c) else decide (c < g.lo)

/-- A chainage has not reached the entry boundary (R120). -/
def Segment.isBefore (g : Segment) (s c : Int) : Bool := if 0 < s then decide (c < g.lo) else decide (g.hi < c)

/-- The neighbour of entry e in the running direction, if it exists (R120). -/
def Pru.neighbour (p : Pru) (e : Nat) : Option (Nat × PlanEntry) :=
  match p.direction with
  | .fwd => (p.plan[e + 1]?).map (fun x => (e + 1, x))
  | .rev => if e = 0 then none else (p.plan[e - 1]?).map (fun x => (e - 1, x))

/-- The cursor on entry e: its orientation and its segment's line code become the current ones (R119, R121). -/
def Pru.setCursor (p : Pru) (e : Nat) (x : PlanEntry) : Pru :=
  { p with cursor := some e, orientation := x.orientation, lineCode := (p.segmentOf x).lineCode }

/-- A re-base: the entry boundary of the entry the cursor is on; r cleared, LINE pending (R122). -/
def Pru.rebase (p : Pru) (x : PlanEntry) : Pru :=
  { p with ccur := (p.segmentOf x).entryBoundary (sense x.orientation p.direction), residual := 0, lineMark := true }

/-- The cursor step: at most `fuel` moves of the cursor (R121, R123). -/
def Pru.cursorLoop : Nat → Pru → Pru
  | 0, p => p
  | fuel + 1, p =>
    match p.cursor with
    | none => p
    | some e =>
      match p.plan[e]? with
      | none => p
      | some x =>
        if (p.segmentOf x).isBeyond (sense x.orientation p.direction) p.ccur then
          match p.neighbour e with
          | none => { p with cursor := none }
          | some (e', x') =>
            let g := p.segmentOf x'
            let q := p.setCursor e' x'
            if g.lineCode ≠ p.lineCode then q.rebase x'
            else if g.isBefore (sense x'.orientation p.direction) p.ccur then q.rebase x'
            else if g.isBeyond (sense x'.orientation p.direction) p.ccur then Pru.cursorLoop fuel q
            else q
        else p

/-- The cursor step of a sample event (R121); each move goes one entry toward an end of the plan, so n moves are enough. -/
def Pru.cursorStep (p : Pru) : Pru := Pru.cursorLoop (p.plan.length + 1) p

/-! ### Chainage and history (R94 to R98) -/

/-- The number of places of the position history (R96). -/
def historySize : Nat := 4096

/-- The slew step δ (R95). -/
def Pru.slewStep (p : Pru) : Int := signOf p.residual * min (p.residual.natAbs : Int) p.slewLimit

/-- The nominal advance to event k: o × (k − k_prev) × I, 0 when there is no event before (R94). -/
def Pru.advance (p : Pru) (k : Int) (interval : Nat) : Int :=
  match p.latest with
  | some kPrev => p.orientation.sign * (k - kPrev) * interval
  | none => 0

/-- The chainage assignment of a sample event, with its slew step (R94, R95). The sum of all three terms saturates once, at its
end (log entry 32). -/
def Pru.assign (p : Pru) (e : SampleEvent) (interval : Nat) : Pru :=
  let delta := p.slewStep
  { p with ccur := satS32 (p.ccur + p.advance e.k interval + delta), residual := p.residual - delta,
           correction := satS32 (p.correction + delta), latest := some e.k, direction := e.direction }

/-- The current plan entry, from the plan and the segments as they stand: in STANDBY those of items accepted since the run, none
where the plan has become shorter (log entry 33). -/
def Pru.currentEntry (p : Pru) : Option PlanEntry :=
  match p.cursor with
  | some e => p.plan[e]?
  | none => none

/-- The history entry of a sample event (R96, R125). -/
def Pru.entryFor (p : Pru) (e : SampleEvent) : HistoryEntry :=
  { index := e.k, chainage := p.ccur, correction := p.correction, planEntry := p.cursor,
    segment := p.currentEntry.map (·.segment), lineCode := p.lineCode, speed := e.speed, uncertain := p.uncertain,
    step := p.stepMark, line := p.lineMark, slip := e.slip, encSwitch := e.encSwitch }

/-- The history entry is written, and the pending STEP and LINE marks are cleared (R96, R125). -/
def Pru.writeHistory (p : Pru) (e : SampleEvent) : Pru :=
  { p with history := p.history.put (placeOf e.k historySize) (p.entryFor e), stepMark := false, lineMark := false }

/-- The history entry of index j, if j is in history (R97). -/
def Pru.historyAt (p : Pru) (j : Int) : Option HistoryEntry :=
  match p.history.get? (placeOf j historySize) with
  | some h => if h.index = j then some h else none
  | none => none

/-- j lies ahead of k in the running direction (R98). -/
def isAhead (d : Direction) (k j : Int) : Bool :=
  match d with
  | .fwd => decide (k < j)
  | .rev => decide (j < k)

/-- The reference chainage of an index and the correction since, none for a stale index (R98). -/
def Pru.reference (p : Pru) (j : Int) (interval : Nat) : Option (Int × Int) :=
  match p.historyAt j with
  | some h => some (h.chainage, p.correction - h.correction)
  | none =>
    match p.latest with
    | some k => if isAhead p.direction k j then some (p.ccur + p.orientation.sign * (j - k) * interval, 0) else none
    | none => none

/-- A START notice still waits at the PRU (log entry 13). -/
def State.startWaits (s : State) : Bool :=
  s.bus.toPru.any (fun m => match m with
    | .start _ => true
    | _ => false)

/-- The reference of an index as the part answers it now: none between an accepted START and the PRU's taking of its
notice, when no event of the run has been assigned (R98, log entry 13). -/
def State.reference (s : State) (j : Int) : Option (Int × Int) :=
  if s.startWaits then none else s.pru.reference j s.odu.interval

/-- The PRU at an accepted START (R112, R119). -/
def Pru.started (p : Pru) (i : StartInfo) : Pru :=
  let p := { p with correction := 0, residual := 0, stepMark := false, uncertain := false, history := [], fixes := [],
                    latest := none, direction := i.direction, ccur := i.chainage, lineMark := false, running := true }
  match p.plan[i.entry]? with
  | some x => p.setCursor i.entry x
  | none => p

/-- A sample event taken by the PRU: assignment, cursor step in RUNNING, history (R94, R121, R96; log entry 12). -/
def Pru.takeEvent (p : Pru) (e : SampleEvent) (interval : Nat) : Pru :=
  let p := p.assign e interval
  (if p.running then p.cursorStep else p).writeHistory e

/-! ### Commands -/

/-- PRU_SAMPLE_EVENT (R94 to R96, R121, R125). -/
def execPruSampleEvent (s : State) : Host.Outcome State Fault Refusal :=
  match s.bus.toPru with
  | .event e :: rest =>
    .next { s with pru := s.pru.takeEvent e s.odu.interval, bus := { s.bus with toPru := rest } }
  | _ => .next s

/-- PRU_REVERSAL_NOTICE (R93, R124): the running direction changes, nothing else. -/
def execPruReversalNotice (s : State) : Host.Outcome State Fault Refusal :=
  match s.bus.toPru with
  | .reversal :: rest =>
    .next { s with pru := { s.pru with direction := s.pru.direction.flip }, bus := { s.bus with toPru := rest } }
  | _ => .next s

/-- PRU_START_NOTICE (R112, R119). -/
def execPruStartNotice (s : State) : Host.Outcome State Fault Refusal :=
  match s.bus.toPru with
  | .start i :: rest => .next { s with pru := s.pru.started i, bus := { s.bus with toPru := rest } }
  | _ => .next s

/-- PRU_SUSPEND_NOTICE (R108, R131): the residual is given up. -/
def execPruSuspendNotice (s : State) : Host.Outcome State Fault Refusal :=
  match s.bus.toPru with
  | .suspend :: rest =>
    .next { s with pru := { s.pru with residual := 0, running := false }, bus := { s.bus with toPru := rest } }
  | _ => .next s

/-- PRU_RESUMPTION_NOTICE (R109): the UNCERTAIN state is set. -/
def execPruResumptionNotice (s : State) : Host.Outcome State Fault Refusal :=
  match s.bus.toPru with
  | .resume :: rest =>
    .next { s with pru := { s.pru with uncertain := true, running := true }, bus := { s.bus with toPru := rest } }
  | _ => .next s

/-- PRU_STOP_NOTICE (R113, R131): r and the pending STEP and LINE marks are cleared. -/
def execPruStopNotice (s : State) : Host.Outcome State Fault Refusal :=
  match takeStop s.bus.toPru with
  | some rest =>
    .next { s with pru := { s.pru with residual := 0, stepMark := false, lineMark := false, running := false },
                   bus := { s.bus with toPru := rest } }
  | none => .next s

/-- CHAINAGE_REQUEST (R99): the chainage the part now holds for the captured index, or none for a stale one. -/
def execChainageRequest (s : State) : Host.Outcome State Fault Refusal :=
  match s.bus.chainageRequests with
  | q :: rest =>
    let answer := (s.reference q.j).map (fun r => r.1 + r.2)
    .next { s with bus := { s.bus with
      chainageRequests := rest,
      chainageAnswers := s.bus.chainageAnswers ++ [{ line := q.line, number := q.number, chainage := answer }] } }
  | [] => .next s

end Sys2Proof.Machine
end

