-- ==== Sys2Proof/Machine/Exceptions.lean ====
section
/-! DEFINITION. The Exception Unit (chapter Exception Detection, R133 to R155): levels, exception runs, exception
records; and the commands that drive it. Its limit sets are written in Items.lean. -/

namespace Sys2Proof.Machine

/-! ### Levels (R134, R136) -/

/-- The highest enabled upper threshold that a value exceeds, 0 for none (R136). -/
def ParamLimits.highLevel (l : ParamLimits) (v : Int) : Nat :=
  if l.enable.getLsbD 2 && decide (l.u3 < v) then 3
  else if l.enable.getLsbD 1 && decide (l.u2 < v) then 2
  else if l.enable.getLsbD 0 && decide (l.u1 < v) then 1
  else 0

/-- The highest enabled lower threshold that a value exceeds, 0 for none (R136). -/
def ParamLimits.lowLevel (l : ParamLimits) (v : Int) : Nat :=
  if l.enable.getLsbD 5 && decide (v < l.l3) then 3
  else if l.enable.getLsbD 4 && decide (v < l.l2) then 2
  else if l.enable.getLsbD 3 && decide (v < l.l1) then 1
  else 0

/-- The level of a present value (R136). -/
def ParamLimits.level (l : ParamLimits) (v : Int) : Nat := max (l.highLevel v) (l.lowLevel v)

/-- The side of a present value, none at level 0 (R136). -/
def ParamLimits.side (l : ParamLimits) (v : Int) : Option Side :=
  if 0 < l.highLevel v then some .high else if 0 < l.lowLevel v then some .low else none

/-- The opening threshold of a side: its enabled threshold of the lowest level (R134). -/
def ParamLimits.opening (l : ParamLimits) : Side → Option Int
  | .high => if l.enable.getLsbD 0 then some l.u1 else if l.enable.getLsbD 1 then some l.u2
             else if l.enable.getLsbD 2 then some l.u3 else none
  | .low => if l.enable.getLsbD 3 then some l.l1 else if l.enable.getLsbD 4 then some l.l2
            else if l.enable.getLsbD 5 then some l.l3 else none

/-- A value that does not exceed lies in the hysteresis band of a run's side (R145). -/
def ParamLimits.inBand (l : ParamLimits) (side : Side) (v : Int) : Bool :=
  match side, l.opening side with
  | .high, some t => decide (t - l.hysteresis < v)
  | .low, some t => decide (v < t + l.hysteresis)
  | _, none => false

/-! ### What applies to a record (R135) -/

/-- The limit set that applies to a record: that of its segment, or limit set 0 (R135). -/
def Pru.limitSetIndex (p : Pru) (r : OutputRecord) : Nat :=
  match r.segment with
  | some k => (p.segment k).limitSet
  | none => 0

/-- A mask range names a parameter and contains a chainage (R135, R203). -/
def Mask.covers (m : Mask) (p : Param) (c : Int) : Bool :=
  m.params.getLsbD p.number && decide (m.lo ≤ c) && decide (c ≤ m.hi)

/-- A parameter is masked in a record (R135). -/
def Pru.isMasked (p : Pru) (r : OutputRecord) (param : Param) : Bool :=
  match r.segment with
  | some k => (p.segment k).masks.any (fun m => m.covers param r.chainage)
  | none => false

/-! ### Exception records (R148, R149) -/

/-- The length of a run in samples: |last-exceeding index − start index| + 1 (R148). -/
def OpenRun.length (x : OpenRun) : Nat := (x.lastIndex - x.startIndex).natAbs + 1

/-- The exception record of a run, with the figures of the run as they stand (R148, R149, R152). -/
def OpenRun.record (x : OpenRun) (p : Param) (run : Word32) (kind : ExceptionKind) (cause : Cause) : ExceptionRecord :=
  { run := run, kind := kind, param := p, severity := x.severity, side := x.side, cause := cause,
    uncertain := x.uncertainSeen, offPlan := x.segment.isNone, startIndex := x.startIndex,
    startChainage := x.startChainage, endChainage := x.lastChainage, peak := x.peak, peakChainage := x.peakChainage,
    length := x.length, lineCode := x.lineCode, segment := x.segment, limitSet := x.limitSet }

/-- The ONSET record of a run (R148). -/
def OpenRun.onset (x : OpenRun) (p : Param) (run : Word32) : ExceptionRecord := x.record p run .onset .none

/-- The CLOSED record of a run (R149). -/
def OpenRun.closed (x : OpenRun) (p : Param) (run : Word32) (cause : Cause) : ExceptionRecord := x.record p run .closed cause

/-! ### Judging one parameter (R139 to R147) -/

/-- What the judging of one parameter leaves: the place of the open-run table, the exception records in the order in
which they arose, and the number of runs opened. -/
structure Judgement where
  place : Option OpenRun
  records : List ExceptionRecord
  opened : Nat
deriving DecidableEq, Repr

/-- A record is judged with no run open (R141). -/
def judgeNone (l : ParamLimits) (set : Nat) (p : Param) (r : OutputRecord) (value : Option Int) : Judgement :=
  match value with
  | none => { place := none, records := [], opened := 0 }
  | some v =>
    match l.side v with
    | none => { place := none, records := [], opened := 0 }
    | some side =>
      let x : OpenRun :=
        { side := side, startIndex := r.j, startChainage := r.chainage, lastIndex := r.j, lastChainage := r.chainage,
          severity := l.level v, peak := v, peakChainage := r.chainage, inside := 0, absent := 0, limitSet := set,
          lineCode := r.lineCode, segment := r.segment, uncertainSeen := r.uncertain,
          onsetSent := decide (l.level v = 3) }
      { place := some x, records := if l.level v = 3 then [x.onset p r.run] else [], opened := 1 }

/-- A run closes with a cause. -/
def judgeClose (x : OpenRun) (p : Param) (r : OutputRecord) (cause : Cause) : Judgement :=
  { place := none, records := [x.closed p r.run cause], opened := 0 }

/-- The record is taken into the run: the UNCERTAIN seen mark (R152). -/
def OpenRun.takes (x : OpenRun) (r : OutputRecord) : OpenRun := { x with uncertainSeen := x.uncertainSeen || r.uncertain }

/-- A value lies strictly farther from zero than the peak, on the run's side (R144). -/
def OpenRun.beatsPeak (x : OpenRun) (v : Int) : Bool :=
  match x.side with
  | .high => decide (x.peak < v)
  | .low => decide (v < x.peak)

/-- A value on the run's side extends it (R144). -/
def OpenRun.extend (x : OpenRun) (l : ParamLimits) (r : OutputRecord) (v : Int) : OpenRun :=
  let far := x.beatsPeak v
  { x with lastIndex := r.j, lastChainage := r.chainage, inside := 0, severity := max x.severity (l.level v),
           peak := if far then v else x.peak, peakChainage := if far then r.chainage else x.peakChainage,
           onsetSent := x.onsetSent || decide (l.level v = 3) }

/-- The long-run limit, after a record has been taken into a run that is still open (R147). -/
def judgeLong (x : OpenRun) (p : Param) (r : OutputRecord) (records : List ExceptionRecord) : Judgement :=
  if 4000 ≤ (r.j - x.startIndex).natAbs + 1 then
    { place := none, records := records ++ [x.closed p r.run .long], opened := 0 }
  else { place := some x, records := records, opened := 0 }

/-- A record is judged with run `x` open, under the run's own limits (R142 to R147). -/
def judgeOpen (l : ParamLimits) (p : Param) (r : OutputRecord) (x : OpenRun) (value : Option Int) : Judgement :=
  match value with
  | none =>
    let y := { x.takes r with absent := x.absent + 1 }
    if l.mergeGap < y.absent then judgeClose y p r .invalid else judgeLong y p r []
  | some v =>
    match l.side v with
    | some side =>
      if side = x.side then
        let y := { (x.takes r).extend l r v with absent := 0 }
        judgeLong y p r (if x.severity < 3 ∧ y.severity = 3 then [y.onset p r.run] else [])
      else
        let n := judgeNone l x.limitSet p r value
        { n with records := x.closed p r.run .side :: n.records }
    | none =>
      if l.inBand x.side v then judgeLong { x.takes r with absent := 0, inside := 0 } p r []
      else
        let y := { x.takes r with absent := 0, inside := x.inside + 1 }
        if l.mergeGap < y.inside then judgeClose y p r .returned else judgeLong y p r []

/-- The five steps for one parameter (R139, R140). -/
def judgeParam (limits : ParamLimits) (masked : Bool) (set : Nat) (p : Param) (r : OutputRecord) (place : Option OpenRun) :
    Judgement :=
  let value := r.values.checked.get p
  match masked, place with
  | true, none => { place := none, records := [], opened := 0 }
  | true, some x => judgeClose x p r .masked
  | false, none => judgeNone limits set p r value
  | false, some x =>
    if x.limitSet = set ∧ x.lineCode = r.lineCode then judgeOpen limits p r x value
    else
      let n := judgeNone limits set p r value
      { n with records := x.closed p r.run .boundary :: n.records }

/-! ### Judging a record, ending a stream (R137, R139, R150) -/

/-- The number of records of a kind. -/
def kindCount (kind : ExceptionKind) (rs : List ExceptionRecord) : Word32 :=
  BitVec.ofNat 32 (rs.countP (fun r => r.kind == kind))

/-- The judging of one parameter is written back: the place and the counts (R141, R148, R149). -/
def Exu.apply (x : Exu) (p : Param) (n : Judgement) : Exu :=
  { x with runs := x.runs.set p n.place, opened := x.opened + BitVec.ofNat 32 n.opened,
           onsets := x.onsets + kindCount .onset n.records, closed := x.closed + kindCount .closed n.records }

/-- One parameter of a record is judged; the records that have arisen before stay in front. -/
def Exu.judgeNext (pru : Pru) (r : OutputRecord) (acc : Exu × List ExceptionRecord) (p : Param) :
    Exu × List ExceptionRecord :=
  let set := pru.limitSetIndex r
  let n := judgeParam ((acc.1.limitSet set).get p) (pru.isMasked r p) set p r (acc.1.runs.get p)
  (acc.1.apply p n, acc.2 ++ n.records)

/-- A record is judged for the seven parameters in order, and the judged count adds one (R139). -/
def Exu.judge (x : Exu) (pru : Pru) (r : OutputRecord) : Exu × List ExceptionRecord :=
  let y := allParams.foldl (Exu.judgeNext pru r) (x, [])
  ({ y.1 with judged := y.1.judged + 1 }, y.2)

/-- The level of a parameter in a record (R137). -/
def Exu.annotation (x : Exu) (pru : Pru) (r : OutputRecord) (p : Param) : Nat :=
  if pru.isMasked r p then 0
  else match r.values.checked.get p with
    | some v => ((x.limitSet (pru.limitSetIndex r)).get p).level v
    | none => 0

/-- The levels of a record in parameter order (R137). -/
def Exu.annotations (x : Exu) (pru : Pru) (r : OutputRecord) : Seven Nat :=
  ⟨x.annotation pru r .g, x.annotation pru r .cl, x.annotation pru r .tw, x.annotation pru r .ll,
   x.annotation pru r .lr, x.annotation pru r .al, x.annotation pru r .ar⟩

/-- One open run is closed at a stream end (R150). -/
def Exu.endNext (cause : Cause) (run : Word32) (acc : Exu × List ExceptionRecord) (p : Param) :
    Exu × List ExceptionRecord :=
  match acc.1.runs.get p with
  | some x =>
    let n : Judgement := { place := none, records := [x.closed p run cause], opened := 0 }
    (acc.1.apply p n, acc.2 ++ n.records)
  | none => acc

/-- Every open run is closed in parameter order (R150). -/
def Exu.endStream (x : Exu) (cause : Cause) (run : Word32) : Exu × List ExceptionRecord :=
  allParams.foldl (Exu.endNext cause run) (x, [])

/-- The EXU at an accepted START (R151). -/
def Exu.started (x : Exu) : Exu :=
  { x with runs := ⟨none, none, none, none, none, none, none⟩, judged := 0, opened := 0, onsets := 0, closed := 0 }

/-! ### Commands -/

/-- OUTPUT_RECORD (R137, R139): the annotated record is handed over, and behind it the exception records it produced. The segments
and limit sets are those of the record's START: no item is accepted while a record of a run waits (R117, R135; log entry 29). -/
def execOutputRecord (s : State) : Host.Outcome State Fault Refusal :=
  match s.bus.toExu with
  | .record r :: rest =>
    let x := s.exu.judge s.pru r
    .next { s with
      exu := x.1,
      bus := Bus.handRds { s.bus with toExu := rest }
        (.geometry r (s.exu.annotations s.pru r) :: x.2.map RdsMessage.exception) }
  | _ => .next s

/-- STREAM_END_NOTICE (R150). -/
def execStreamEndNotice (s : State) : Host.Outcome State Fault Refusal :=
  match s.bus.toExu with
  | .streamEnd cause run :: rest =>
    let x := s.exu.endStream cause run
    .next { s with exu := x.1, bus := Bus.handRds { s.bus with toExu := rest } (x.2.map RdsMessage.exception) }
  | _ => .next s

/-- EXU_START_NOTICE (R151). -/
def execExuStartNotice (s : State) : Host.Outcome State Fault Refusal :=
  match s.bus.toExu with
  | .start :: rest => .next { s with exu := s.exu.started, bus := { s.bus with toExu := rest } }
  | _ => .next s

end Sys2Proof.Machine
end

