-- ==== Sys2Proof/Machine/Flags.lean ====
section
/-! DEFINITION. Flag computations and output lines: the flags and levels of a record on the wire, RDY, ATTN, frame sync,
the trigger lines. -/

namespace Sys2Proof.Machine

/-- A word of flags: the i-th mark of the list is bit i. -/
def flagWord (marks : List Bool) : Word16 := marks.foldr (fun b w => (w <<< 1) ||| (if b then 1 else 0)) 0

/-- The flags of a geometry record: DIR, UNCERTAIN, STEP, LINE, SLIP, ENC_SWITCH, MARK1, MARK2, CLIPPED, OFF_PLAN from bit
0 upward (R88, R201). -/
def OutputRecord.flags (r : OutputRecord) (clipped : Bool) : Word16 :=
  flagWord [decide (r.direction = .rev), r.uncertain, r.step, r.line, r.slip, r.encSwitch, r.mark1, r.mark2, clipped, r.offPlan]

/-- The levels field: two bits per parameter, parameter p in bits 2p + 1 and 2p (R201). -/
def levelWord (l : Seven Nat) : Word16 := l.toList.foldr (fun n w => (w <<< 2) ||| BitVec.ofNat 16 (n % 4)) 0

/-- The flags byte of an exception record: UNCERTAIN bit 0, OFF_PLAN bit 1 (R201). -/
def ExceptionRecord.flags (r : ExceptionRecord) : Byte := (if r.uncertain then 1 else 0) ||| (if r.offPlan then 2 else 0)

/-- The number of unread records of a store from a cursor: next less cursor, modulo 2^32 (R188). -/
def Store.unread {α : Type} (s : Store α) (cursor : Word32) : Word32 := s.next - cursor

/-- The records a store holds at and after a cursor, oldest first (R188). -/
def Store.from {α : Type} (s : Store α) (cursor : Word32) : List α := s.records.drop (cursor - s.oldest).toNat

/-- The geometry condition of ATTN (R195). -/
def geometryAttn (d : Rds) (x : PortState) : Bool :=
  decide (x.watermark ≠ 0) && decide (x.watermark ≤ (d.geometry.unread x.geoCursor).toNat)

/-- The exception condition of ATTN (R195). -/
def exceptionAttn (d : Rds) (x : PortState) : Bool :=
  decide (x.threshold ≠ 0) && (d.exceptions.from x.excCursor).any (fun e => decide (x.threshold ≤ e.record.severity))

/-- ATTN of a port (R195); low through the start-up hold and a held reset pin (R180). -/
def State.attn (s : State) (p : Port) : Bool :=
  let x := s.cpc.port p
  s.power == .on && (geometryAttn s.rds x || exceptionAttn s.rds x || x.news)

/-- RDY of a port: high in REPLY_READY (R185 to R187); low through the start-up hold and a held reset pin (R180). -/
def State.rdy (s : State) (p : Port) : Bool :=
  s.power == .on && match (s.cpc.port p).phase with
    | .replyReady _ => true
    | _ => false

/-- Frame sync is driven for the first 16 ticks of a slot (R200). -/
def State.frameSync (s : State) : Bool :=
  s.slc.slotTimer == some (s.slc.slotStart + slotTicks) && decide (s.now < s.slc.slotStart + syncTicks)

/-- The level of a trigger line (R168). -/
def State.triggerLine (s : State) (t : Trigger) : Level := (s.mtu.trigger t).level

end Sys2Proof.Machine
end

