-- ==== Sys2Proof/Machine/Ports.lean ====
section
/-! DEFINITION. The Client Port Controller (chapter Record Store and Client Ports, R185 to R195): select periods, the
request arbiter, and the requests that read no measuring block; and their commands. -/

namespace Sys2Proof.Machine

/-! ### Select periods (R185, R186) -/

/-- A select period in IDLE is a request frame that is taken (R185, R197, R198). -/
def takenFrame (bytes : List Byte) (extraBits : Nat) : Option Request :=
  let length := getU16 bytes 2
  if 6 ≤ bytes.length ∧ extraBits = 0 ∧ length ≤ 1024 ∧ bytes.length = 6 + length ∧
      be16 (frameCheck (bytes.take (4 + length))) = bytes.drop (4 + length) then
    some { code := bytes.getD 0 0, tag := bytes.getD 1 0, payload := (bytes.drop 4).take length }
  else none

/-- The reply the port itself forms to a frame that is not taken (R185). -/
def badFrameReply (bytes : List Byte) : List Byte := replyFrame (bytes.getD 0 0) (bytes.getD 1 0) (.of .badFrame [])

/-- The bytes shifted out of a reply while a number of bits is clocked; zeros beyond the last (R186). -/
def shiftedOut (frame : List Byte) (bits : Nat) : List Byte := (List.range (bits / 8)).map (fun i => frame.getD i 0)

/-! ### The arbiter (R187) -/

/-- The ports in the order in which the arbiter looks at them after a last-served port (R187). -/
def arbiterOrder : Port → List Port
  | .cp0 => [.cp1, .cp2, .cp0]
  | .cp1 => [.cp2, .cp0, .cp1]
  | .cp2 => [.cp0, .cp1, .cp2]

/-- The taken request of a port, while it is SERVING. -/
def PortState.request (x : PortState) : Option Request :=
  match x.phase with
  | .serving rq => some rq
  | _ => none

/-- The first waiting port in the order that follows the last-served one, with its request (R187). -/
def Cpc.firstWaiting (c : Cpc) : Option (Port × Request) :=
  (arbiterOrder c.lastServed).findSome? (fun p => (c.port p).request.map (fun rq => (p, rq)))

/-- The service in progress: its port and the request taken there (R187). -/
def Cpc.inProgress (c : Cpc) : Option (Port × Request) :=
  match c.inService with
  | some p => (c.port p).request.map (fun rq => (p, rq))
  | none => none

/-- The port the arbiter serves next, with its request: the one whose service is in progress. In states no run reaches, where a
port waits with no service in progress, it is the first waiting one (R187, log entry 30). -/
def Cpc.nextService (c : Cpc) : Option (Port × Request) :=
  match c.inProgress with
  | some r => some r
  | none => c.firstWaiting

/-- A port takes a request and goes to SERVING. Its service begins at once when none is in progress; otherwise it waits for a
later one (R185, R187). -/
def Cpc.takeRequest (c : Cpc) (p : Port) (rq : Request) : Cpc :=
  { c.setPort p { c.port p with phase := .serving rq } with
    inService := match c.nextService with
      | some (q, _) => some q
      | none => some p }

/-- What a port makes of a select period in IDLE (R185). -/
def Cpc.judge (c : Cpc) (p : Port) (bytes : List Byte) (extraBits : Nat) : Cpc :=
  if bytes = [] ∧ extraBits = 0 then c
  else match takenFrame bytes extraBits with
    | some rq => c.takeRequest p rq
    | none => c.setPort p { c.port p with phase := .replyReady (badFrameReply bytes) }

/-- A port's reply is pending, and the port is the last served (R187). -/
def Cpc.replied (c : Cpc) (p : Port) (rq : Request) (r : Reply) : Cpc :=
  { c.setPort p { c.port p with phase := .replyReady (replyFrame rq.code rq.tag r) } with lastServed := p }

/-- A service ends with its reply, and the service of the first port that waits in the order after it begins (R187). -/
def Cpc.answer (c : Cpc) (p : Port) (rq : Request) (r : Reply) : Cpc :=
  { c.replied p rq r with inService := (c.replied p rq r).firstWaiting.map (·.1) }

/-- One service of the arbiter, when the request it serves next is the one named: the request is judged and takes effect,
and its reply is formed (R187). Otherwise the service has not come about (log entry 1). -/
def State.serve (s : State) (service : Service) (f : Port → Request → State → State × Reply) : State :=
  match s.cpc.nextService with
  | some (p, rq) =>
    if serviceOf rq = service then
      let t := f p rq s
      { t.1 with cpc := t.1.cpc.answer p rq t.2 }
    else s
  | none => s

/-- A request answered without any change of state. -/
def answered (r : Reply) (s : State) : State × Reply := (s, r)

/-- The state-news mark of all three ports (R171). -/
def Cpc.news (c : Cpc) : Cpc := c.mapPorts (fun x => { x with news := true })

/-! ### Requests of the CPC itself -/

/-- The payload of a refused START or SET_ITEM: item kind and index, check step, byte offset, generation (R199). -/
def refusalPayload (kind index step offset : Nat) (generation : Word32) : List Byte :=
  putU8 kind ++ putU8 index ++ putU8 step ++ putU16 offset ++ be32 generation

/-- UNKNOWN_REQUEST (R187): BAD_REQUEST; a START carries the fields of its refusals and a READ_ITEM the generation
(R172, R179, R199; log entry 15). GAP is clear in the reply and the marks stay as they are, also where the code is that of READ_RECORDS or
READ_EXCEPTIONS and the mark stands set (DESIGN CHOICE, log entry 38). -/
def serveUnknown (_ : Port) (rq : Request) (s : State) : State × Reply :=
  answered (.of .badRequest (if rq.code = 0x10 then refusalPayload 0 0 0 0 s.rcu.generation
                             else if rq.code = 0x13 then be32 s.rcu.generation else [])) s

/-- ECHO (R194). A payload longer than 1024 bytes cannot be taken. -/
def serveEcho (_ : Port) (rq : Request) (s : State) : State × Reply := answered (.of .ok rq.payload) s

/-- SET_ATTENTION (R193). -/
def serveSetAttention (p : Port) (rq : Request) (s : State) : State × Reply :=
  let watermark := getU16 rq.payload 0
  let threshold := getU8 rq.payload 2
  if watermark ≤ 8192 ∧ threshold ≤ 3 then
    let t := { s with cpc := s.cpc.setPort p { s.cpc.port p with watermark := watermark, threshold := threshold } }
    (t, .of .ok (putU16 watermark ++ putU8 threshold ++ putMark (t.attn p)))
  else answered (.of .range []) s

/-! ### Commands -/

/-- REQUEST_FRAME (R185): a select period in IDLE. -/
def execRequestFrame (p : Port) (bytes : List Byte) (extraBits : Nat) (s : State) : Host.Outcome State Fault Refusal :=
  match s.power, (s.cpc.port p).phase with
  | .on, .idle => .next { s with cpc := s.cpc.judge p bytes extraBits }
  | _, _ => .next s

/-- BUSY_SELECT (R186): the busy pattern in every byte. -/
def execBusySelect (p : Port) (count : Nat) (s : State) : Host.Outcome State Fault Refusal :=
  match s.power, (s.cpc.port p).phase with
  | .on, .serving _ =>
    .next { s with cpc := s.cpc.setPort p { s.cpc.port p with shifted := List.replicate count 0xA5 } }
  | _, _ => .next s

/-- REPLY_READ (R186): a full read discards the reply, a read cut short keeps it. -/
def execReplyRead (p : Port) (bits : Nat) (s : State) : Host.Outcome State Fault Refusal :=
  match s.power, (s.cpc.port p).phase with
  | .on, .replyReady frame =>
    let x := { s.cpc.port p with shifted := shiftedOut frame bits }
    .next { s with cpc := s.cpc.setPort p (if 8 * frame.length ≤ bits then { x with phase := .idle } else x) }
  | _, _ => .next s

/-- UNKNOWN_REQUEST (R187). -/
def execUnknownRequest (s : State) : Host.Outcome State Fault Refusal := .next (s.serve .unknown serveUnknown)

/-- ECHO (R194). -/
def execEcho (s : State) : Host.Outcome State Fault Refusal := .next (s.serve .echo serveEcho)

/-- SET_ATTENTION (R193). -/
def execSetAttention (s : State) : Host.Outcome State Fault Refusal := .next (s.serve .setAttention serveSetAttention)

end Sys2Proof.Machine
end

