-- ==== Sys2Proof/Machine/Fixes.lean ====
section
/-! DEFINITION. The requests that act on position: SET_PACE (R12), FIX_AT and FIX_NOW (R100 to R107, R126 to R129),
CALIBRATE (R110, R111, R22), JUMP_PLAN (R130); and their commands. -/

namespace Sys2Proof.Machine

/-! ### SET_PACE (R12) -/

/-- The mark a byte names; another value is out of range (R198). -/
def markOf : Nat → Option Bool
  | 0 => some false
  | 1 => some true
  | _ => none

/-- The pace generator takes new settings at a tick (R12). -/
def Odu.setPace (o : Odu) (interval : Nat) (d : Direction) (stopped : Bool) (now : Nat) : Odu :=
  { o with paceInterval := interval, paceDirection := d, paceStopped := stopped,
           paceTimer := if stopped then none else some (now + interval) }

/-- SET_PACE (R12). -/
def serveSetPace (_ : Port) (rq : Request) (s : State) : State × Reply :=
  if s.rcu.runState = .running ∧ s.rcu.source = .pace then
    match directionOf (getU8 rq.payload 2), markOf (getU8 rq.payload 3) with
    | some d, some stopped =>
      if getU16 rq.payload 0 = 0 then answered (.of .range []) s
      else
        let o := s.odu.setPace (getU16 rq.payload 0) d stopped s.now
        ({ s with odu := o },
         .of .ok (putU16 o.paceInterval ++ putU8 o.paceDirection.code ++ putMark o.paceStopped ++ putS32 o.frontier ++
           putU8 o.direction.code))
    | _, _ => answered (.of .range []) s
  else answered (.of .state []) s

/-! ### Location fixes (R100 to R107, R126 to R129) -/

/-- A fix whose fields have passed their ranges, with the port it came from (R100, R107). -/
structure FixRequest where
  j : Int
  chainage : Int
  lineCode : Nat
  grade : Nat
  force : Bool
  port : Port
deriving DecidableEq, Repr

/-- The most entries of the fix list (R106). -/
def fixListSize : Nat := 8

/-- An entry of the fix list conflicts with index j (R103). -/
def Fix.conflicts (f : Fix) (j : Int) : Bool := decide ((j - f.j).natAbs ≤ 8)

/-- The conflicting entry that refuses a fix, none if the fix proceeds: the newest one, unless each is of lower grade (R103). -/
def Pru.duplicateOf (p : Pru) (q : FixRequest) : Option Fix :=
  let cs := p.fixes.filter (fun f => f.conflicts q.j)
  if cs.all (fun f => decide (f.grade < q.grade)) then none else cs.head?

/-- The entries a fix leaves in the list (R103). -/
def Pru.keptFixes (p : Pru) (j : Int) : List Fix := p.fixes.filter (fun f => !f.conflicts j)

/-- The entry is pushed onto the fix list, the conflicting ones having been removed, and UNCERTAIN is cleared (R103, R105, R106). -/
def Pru.pushFix (p : Pru) (f : Fix) : Pru :=
  { p with fixes := (f :: p.keptFixes f.j).take fixListSize, uncertain := false }

/-- The number of entries a fix removes under R103. -/
def Pru.removedBy (p : Pru) (j : Int) : Nat := (p.fixes.filter (fun f => f.conflicts j)).length

/-- The plan search: the first entry whose segment has the line code and contains the chainage (R127). -/
def Pru.planSearch (p : Pru) (lineCode : Nat) (c : Int) : Option (Nat × PlanEntry) :=
  (p.plan.mapIdx (fun e x => (e, x))).find? (fun x =>
    decide ((p.segmentOf x.2).lineCode = lineCode) && (p.segmentOf x.2).contains c)

/-- The reply of an applied fix (R105); the entry of a plan search follows when one found it (R128, R129). -/
def appliedReply (f : Fix) (p q : Pru) (entry : Option Nat) : Reply :=
  .of .ok (putS32 f.j ++ putS32 (satS32 f.error) ++ putS32 (satS32 f.errorNow) ++ putS32 q.residual ++ putU8 f.kind.code ++
    putU8 (p.removedBy f.j) ++ putU8 q.fixes.length ++ (match entry with
      | some e => putU8 e
      | none => []))

/-- The refusal of a duplicate: track index and grade of the newest conflicting entry (R103). -/
def duplicateReply (f : Fix) : Reply := .of .duplicate (putS32 f.j ++ putU8 f.grade)

/-- The error now is applied, as a step or by slewing (R104). -/
def Pru.correct (p : Pru) (e : Int) (step : Bool) : Pru :=
  if step then { p with ccur := satS32 (p.ccur + e), correction := satS32 (p.correction + e), residual := 0, stepMark := true }
  else { p with residual := e }

/-- In OFF_PLAN an applied fix of the current line makes the plan search (R129). -/
def Pru.resolve (p : Pru) (c : Int) : Pru × Option Nat :=
  match p.cursor, p.planSearch p.lineCode c with
  | none, some (e, x) => ({ p with cursor := some e, orientation := x.orientation, lineMark := true }, some e)
  | _, _ => (p, none)

/-- A fix whose line code is the current one (R101 to R106, R129); `ref` is the reference of j (R98). -/
def Pru.fixHere (p : Pru) (q : FixRequest) (ref : Option (Int × Int)) (epoch : Word16) : Pru × Reply :=
  match ref with
  | none => (p, .of .stale [])
  | some (cref, since) =>
    if (p.historyAt q.j).any (fun h => decide (h.lineCode ≠ q.lineCode)) then (p, .of .offRoute [])
    else
      let e := q.chainage - cref
      if p.acceptWindow < (e.natAbs : Int) ∧ q.force = false then (p, .of .far (putS32 (satS32 e)))
      else match p.duplicateOf q with
        | some f => (p, duplicateReply f)
        | none =>
          let eNow := e - since
          let step := q.force || decide (p.stepThreshold < (eNow.natAbs : Int))
          let f : Fix := { j := q.j, chainage := q.chainage, error := e, errorNow := eNow, grade := q.grade, port := q.port,
                           lineCode := q.lineCode, epoch := epoch,
                           kind := if q.force then .forced else if step then .step else .slew }
          let r := ((p.correct eNow step).pushFix f).resolve q.chainage
          (r.1, appliedReply f p r.1 r.2)

/-- The PRU placed on the entry a plan search found (R128). -/
def Pru.placeOn (p : Pru) (e : Nat) (x : PlanEntry) (c : Int) : Pru :=
  { p.setCursor e x with ccur := c, residual := 0, lineMark := true }

/-- A fix naming another line (R126 to R128). -/
def Pru.fixElsewhere (p : Pru) (q : FixRequest) (ref : Option (Int × Int)) (epoch : Word16) (interval : Nat) : Pru × Reply :=
  match ref with
  | none => (p, .of .stale [])
  | some _ =>
    if (p.historyAt q.j).any (fun h => decide (h.lineCode = q.lineCode)) then (p, .of .offRoute [])
    else match p.planSearch q.lineCode q.chainage with
      | none => (p, .of .offRoute [])
      | some (e, x) =>
        match p.duplicateOf q with
        | some f => (p, duplicateReply f)
        | none =>
          let k := p.latest.getD q.j
          let c := satS32 (q.chainage + x.orientation.sign * (k - q.j) * interval)
          let d := satS32 (c - p.ccur)
          let f : Fix := { j := q.j, chainage := q.chainage, error := d, errorNow := d, grade := q.grade, port := q.port,
                           lineCode := q.lineCode, epoch := epoch, kind := if q.force then .forced else .step }
          let r := (p.placeOn e x c).pushFix f
          (r, appliedReply f p r (some e))

/-- A resumption notice still waits at the PRU (R109). -/
def State.resumeWaits (s : State) : Bool := s.bus.toPru.contains .resume

/-- A fix is served in RUNNING only, and not between a resumption and the PRU's taking of its notice (R100, R109). -/
def State.takesFixes (s : State) : Bool := s.rcu.runState == .running && !s.resumeWaits

/-- The fields a FIX_AT and a FIX_NOW share, from an offset of the payload: chainage, line code, grade, FORCE; none when
one is out of range (R100, R198). -/
def fixFields (rq : Request) (off : Nat) (j : Int) (p : Port) : Option FixRequest :=
  let b := rq.payload
  match markOf (getU8 b (off + 7)) with
  | some force =>
    if getU16 b (off + 4) ≠ 0 ∧ 1 ≤ getU8 b (off + 6) ∧ getU8 b (off + 6) ≤ 3 then
      some { j := j, chainage := getS32 b off, lineCode := getU16 b (off + 4), grade := getU8 b (off + 6), force := force,
             port := p }
    else none
  | none => none

/-- A fix whose fields are in range is checked and applied (R100, R126). -/
def State.applyFix (s : State) (q : FixRequest) : State × Reply :=
  let ref := s.reference q.j
  let r := if q.lineCode = s.pru.lineCode then s.pru.fixHere q ref s.odu.epoch
           else s.pru.fixElsewhere q ref s.odu.epoch s.odu.interval
  ({ s with pru := r.1 }, r.2)

/-- FIX_AT (R100). -/
def serveFixAt (p : Port) (rq : Request) (s : State) : State × Reply :=
  if s.takesFixes then
    match fixFields rq 4 (getS32 rq.payload 0) p with
    | some q => s.applyFix q
    | none => answered (.of .range []) s
  else answered (.of .state []) s

/-- FIX_NOW (R107): j is the position index plus the offset. -/
def serveFixNow (p : Port) (rq : Request) (s : State) : State × Reply :=
  if s.takesFixes then
    let j := s.odu.positionIndex + getS16 rq.payload 0
    match fixFields rq 2 j p with
    | some q => if inS32 j then s.applyFix q else answered (.of .range []) s
    | none => answered (.of .range []) s
  else answered (.of .state []) s

/-! ### CALIBRATE (R110, R111, R22) -/

/-- The newest entry that has a partner, with the newest partner older than itself (R110). -/
def pairOf (epoch : Word16) : List Fix → Option (Fix × Fix)
  | [] => none
  | f :: rest =>
    match (if f.epoch = epoch then rest.find? (fun g => decide (g.epoch = epoch) && decide (g.lineCode = f.lineCode)) else none) with
    | some g => some (f, g)
    | none => pairOf epoch rest

/-- The weight by which counts move the accumulator is replaced, and the epoch counts one more (R22). -/
def Odu.calibrated (o : Odu) (w : Nat) : Odu :=
  let o := o.bumpEpoch
  match o.source with
  | .pace => { o with e1 := { o.e1 with weight := w } }
  | _ => o.setEnc o.active { o.enc o.active with weight := w }

/-- CALIBRATE (R110, R111). D_meas is formed with the sample interval stored at service, also where an ODOMETRY item accepted in
STANDBY changed I since the run and left the active weight, and so the epoch, as they were (DESIGN CHOICE, log entry 35). -/
def serveCalibrate (_ : Port) (_ : Request) (s : State) : State × Reply :=
  match s.rcu.runState with
  | .suspended => answered (.of .state []) s
  | _ =>
    match pairOf s.odu.epoch s.pru.fixes with
    | none => answered (.of .noPair []) s
    | some (f, g) =>
      let measured := (g.j - f.j).natAbs * s.odu.interval
      let true_ := (g.chainage - f.chainage).natAbs
      let distances := putU32 measured ++ putU32 true_
      if measured < 1000000 then answered (.of .shortBase distances) s
      else if measured < ((true_ : Int) - measured).natAbs * 50 then answered (.of .tolerance distances) s
      else
        let w := (roundUp ((s.odu.activeWeight : Int) * true_) measured).toNat
        let o := s.odu.calibrated w
        ({ s with odu := o },
         .of .ok (putS32 f.j ++ putS32 g.j ++ distances ++ putU32 s.odu.activeWeight ++ putU32 w ++ be16 o.epoch))

/-! ### JUMP_PLAN (R130) -/

/-- JUMP_PLAN is refused with STATE in STANDBY, and in RUNNING while no event of the run has been assigned (R130, log entry 13). In
SUSPENDED it is served, also while the START notice or event 0 of the run still waits at the PRU (DESIGN CHOICE, log entry 39). -/
def State.refusesJump (s : State) : Bool :=
  match s.rcu.runState with
  | .standby => true
  | .running => s.startWaits || s.pru.latest.isNone
  | .suspended => false

/-- JUMP_PLAN (R130). -/
def serveJumpPlan (_ : Port) (rq : Request) (s : State) : State × Reply :=
  if s.refusesJump then answered (.of .state []) s
  else
    let e := getU8 rq.payload 0
    let c := getS32 rq.payload 1
    match s.pru.plan[e]? with
    | some x =>
      if (s.pru.segmentOf x).contains c then
        let p := s.pru.placeOn e x c
        ({ s with pru := p },
         .of .ok (putOrFF s.pru.cursor ++ putU8 e ++ putS32 s.pru.ccur ++ putS32 c ++ putMark p.uncertain))
      else answered (.of .range []) s
    | none => answered (.of .range []) s

/-! ### Commands -/

/-- SET_PACE (R12). -/
def execSetPace (s : State) : Host.Outcome State Fault Refusal := .next (s.serve .setPace serveSetPace)

/-- FIX_AT (R100). -/
def execFixAt (s : State) : Host.Outcome State Fault Refusal := .next (s.serve .fixAt serveFixAt)

/-- FIX_NOW (R107). -/
def execFixNow (s : State) : Host.Outcome State Fault Refusal := .next (s.serve .fixNow serveFixNow)

/-- CALIBRATE (R110). -/
def execCalibrate (s : State) : Host.Outcome State Fault Refusal := .next (s.serve .calibrate serveCalibrate)

/-- JUMP_PLAN (R130). -/
def execJumpPlan (s : State) : Host.Outcome State Fault Refusal := .next (s.serve .jumpPlan serveJumpPlan)

end Sys2Proof.Machine
end

