-- ==== Sys2Proof/Machine/Geometry.lean ====
section
/-! DEFINITION. The Geometry Computation Unit (chapter Geometry Computation, R63 to R91): base quantities, profile
window, derived parameters, output records, flush; and the commands that drive it. The wire encoding stands in Store.lean. -/

namespace Sys2Proof.Machine

/-! ### Base quantities (R66 to R69) -/

/-- A sum of two values, present when both are. -/
def both (f : Int → Int → Int) (x y : Option Int) : Option Int :=
  match x, y with
  | some a, some b => some (f a b)
  | _, _ => none

/-- The gauge deviation G (R67). -/
def Gcu.gaugeOf (c : Gcu) (b : BaseRecord) : Option Int :=
  both (fun gl gr => satS32 (gl + gr + c.g0 - c.gNom)) b.gauge.gl b.gauge.gr

/-- The cross-level CL (R67). -/
def Gcu.crossLevelOf (c : Gcu) (b : BaseRecord) : Option Int :=
  match b.lateral.roll, b.vertical.zl, b.vertical.zr with
  | some roll, some zl, some zr => some (satS32 (roundAway (c.railDistance * roll) 1000 + zr - zl))
  | _, _, _ => none

/-- The base quantities of a base record (R66 to R69). -/
def Gcu.quantities (c : Gcu) (b : BaseRecord) : BaseQuantities :=
  { g := c.gaugeOf b, cl := c.crossLevelOf b, yl := b.vertical.hL.map satS32, yr := b.vertical.hR.map satS32,
    ul := both (fun hy gl => satS32 (hy + gl)) b.lateral.hy b.gauge.gl,
    ur := both (fun hy gr => satS32 (hy - gr)) b.lateral.hy b.gauge.gr,
    psi := b.lateral.psi }

/-- The position fields of the record for j: those of its history entry, or those of a missing one (R82). -/
def positionFields (h : Option HistoryEntry) : PositionFields :=
  match h with
  | some h =>
    { chainage := h.chainage, planEntry := h.planEntry, segment := h.segment, lineCode := h.lineCode, speed := h.speed,
      uncertain := h.uncertain, step := h.step, line := h.line, slip := h.slip, encSwitch := h.encSwitch }
  | none =>
    { chainage := 0, planEntry := none, segment := none, lineCode := 0, speed := 0, uncertain := true, step := false,
      line := false, slip := false, encSwitch := false }

/-! ### The profile window (R70, R73) -/

/-- The number of places of the profile window (R70). -/
def windowSize : Nat := 128

/-- The entry of index j, if it exists (R73). -/
def Gcu.entryAt (c : Gcu) (j : Int) : Option WindowEntry :=
  match c.window.get? (placeOf j windowSize) with
  | some e => if e.j = j then some e else none
  | none => none

/-- A base quantity of index j, if it is available (R73). -/
def Gcu.available {α : Type} (c : Gcu) (q : BaseQuantities → Option α) (j : Int) : Option α :=
  match c.entryAt j with
  | some e => q e.quantities
  | none => none

/-! ### Derived parameters (R75 to R79) -/

/-- The twist (R75). -/
def Gcu.twist (c : Gcu) (j : Int) : Option Int :=
  both (fun x y => satS32 (x - y)) (c.available (·.cl) j) (c.available (·.cl) (j - c.twistBase))

/-- The chord offset of a profile (R76). -/
def Gcu.chordOffset (c : Gcu) (y : BaseQuantities → Option Int) (j : Int) : Option Int :=
  match c.available y j, c.available y (j + c.armA), c.available y (j - c.armB) with
  | some y0, some ya, some yb =>
    some (satS32 (y0 - roundAway ((c.armB : Int) * ya + (c.armA : Int) * yb) (c.armA + c.armB)))
  | _, _, _ => none

/-- The curvature; the heading difference is taken modulo 2^48 into the signed range (R78). -/
def Gcu.curvature (c : Gcu) (j : Int) : Option Int :=
  match c.available (·.psi) (j + c.halfBase), c.available (·.psi) (j - c.halfBase) with
  | some hi, some lo => some (satS32 (roundAway ((hi - lo).toInt * 1000) (2048 * (2 * c.halfBase * c.interval))))
  | _, _ => none

/-- The eight parameter values of index j (R66 to R79). -/
def Gcu.parameters (c : Gcu) (e : WindowEntry) : Parameters :=
  { checked := { g := e.quantities.g, cl := e.quantities.cl, tw := c.twist e.j, ll := c.chordOffset (·.yl) e.j,
                 lr := c.chordOffset (·.yr) e.j, al := c.chordOffset (·.ul) e.j, ar := c.chordOffset (·.ur) e.j },
    cv := c.curvature e.j }

/-- The output record of a window entry (R81). -/
def Gcu.outputOf (c : Gcu) (run : Word32) (e : WindowEntry) : OutputRecord :=
  { j := e.j, run := run, direction := e.direction, chainage := e.position.chainage, planEntry := e.position.planEntry,
    segment := e.position.segment, lineCode := e.position.lineCode, speed := e.position.speed,
    uncertain := e.position.uncertain, step := e.position.step, line := e.position.line,
    slip := e.slip || e.position.slip, encSwitch := e.encSwitch || e.position.encSwitch,
    offPlan := e.position.planEntry.isNone, mark1 := e.mark1, mark2 := e.mark2, values := c.parameters e }

/-! ### Forming records (R72, R84) -/

/-- Insert an entry by its index, in increasing order in FWD and in decreasing order in REV. -/
def insertByIndex (d : Direction) (e : WindowEntry) : List WindowEntry → List WindowEntry
  | [] => [e]
  | f :: rest =>
    if isAhead d e.j f.j then e :: f :: rest else f :: insertByIndex d e rest

/-- The entries whose pending mark is set and that pass a test, in the order in which R72 takes them. -/
def Gcu.pendingEntries (c : Gcu) (due : Int → Bool) : List WindowEntry :=
  ((c.window.map (·.2)).filter (fun e => e.pending && due e.j)).foldr (insertByIndex c.direction) []

/-- An entry is due once base record m is filed (R72). -/
def Gcu.isDue (c : Gcu) (m j : Int) : Bool :=
  match c.direction with
  | .fwd => decide (j ≤ m - c.reachUp)
  | .rev => decide (m + c.reachDown ≤ j)

/-- One output record is formed and handed to the EXU (R72). -/
def State.formRecord (s : State) (e : WindowEntry) : State :=
  let c := s.gcu
  { s with
    gcu := { c with window := c.window.put (placeOf e.j windowSize) { e with pending := false },
                    pendingCount := c.pendingCount - 1, output := c.output + 1 },
    bus := s.bus.handExu [.record (c.outputOf s.rcu.runNumber e)] }

/-- The output records of a list of entries are formed, in its order. -/
def State.formRecords (s : State) (es : List WindowEntry) : State := es.foldl State.formRecord s

/-- The window entry of a base record (R71, R82). -/
def Gcu.entryOf (c : Gcu) (b : BaseRecord) (h : Option HistoryEntry) : WindowEntry :=
  { j := b.j, quantities := c.quantities b, direction := b.direction, mark1 := b.mark1, mark2 := b.mark2, slip := b.slip,
    encSwitch := b.encSwitch, position := positionFields h, pending := true }

/-- A base record is filed (R71, steps 1 to 4). -/
def Gcu.file (c : Gcu) (b : BaseRecord) (h : Option HistoryEntry) : Gcu :=
  { c with window := c.window.put (placeOf b.j windowSize) (c.entryOf b h), latest := some b.j,
           pendingCount := c.pendingCount + 1 }

/-- A base record is taken: filed in ACTIVE with the records that have become due formed, dropped in IDLE (R71, R72, R74). -/
def State.takeBase (s : State) (b : BaseRecord) : State :=
  if s.gcu.active then
    let s := { s with gcu := s.gcu.file b (s.pru.historyAt b.j) }
    s.formRecords (s.gcu.pendingEntries (s.gcu.isDue b.j))
  else { s with gcu := { s.gcu with dropped := satSucc s.gcu.dropped } }

/-- The flush: every pending entry is formed and counted, the window is cleared, and the EXU gets the stream-end notice (R84, R85). -/
def State.flush (s : State) (cause : Cause) : State :=
  let es := s.gcu.pendingEntries (fun _ => true)
  let t := s.formRecords es
  { t with
    gcu := { t.gcu with window := [], pendingCount := 0, latest := none,
                        flushed := t.gcu.flushed + BitVec.ofNat 32 es.length },
    bus := t.bus.handExu [.streamEnd cause s.rcu.runNumber] }

/-- A notice that ends a stream: a flush in ACTIVE, nothing in IDLE (R85). -/
def State.endStream (s : State) (cause : Cause) : State := if s.gcu.active then s.flush cause else s

/-- The GCU at START (R86). -/
def Gcu.started (c : Gcu) (i : StartInfo) : Gcu :=
  { c with active := true, direction := i.direction, output := 0, flushed := 0, dropped := 0, latest := none }

/-! ### Commands -/

/-- BASE_RECORD (R71, R72, R74). -/
def execBaseRecord (s : State) : Host.Outcome State Fault Refusal :=
  match s.bus.toGcu with
  | .base b :: rest => .next (State.takeBase { s with bus := { s.bus with toGcu := rest } } b)
  | _ => .next s

/-- GCU_REVERSAL_NOTICE (R85): in ACTIVE, a flush with cause REVERSED, and the stream direction is reversed. -/
def execGcuReversalNotice (s : State) : Host.Outcome State Fault Refusal :=
  match s.bus.toGcu with
  | .reversal :: rest =>
    let t := State.endStream { s with bus := { s.bus with toGcu := rest } } .reversed
    .next (if s.gcu.active then { t with gcu := { t.gcu with direction := t.gcu.direction.flip } } else t)
  | _ => .next s

/-- GCU_SUSPEND_NOTICE (R85): in ACTIVE, a flush with cause SUSPENDED. -/
def execGcuSuspendNotice (s : State) : Host.Outcome State Fault Refusal :=
  match s.bus.toGcu with
  | .suspend :: rest => .next (State.endStream { s with bus := { s.bus with toGcu := rest } } .suspended)
  | _ => .next s

/-- GCU_STOP_NOTICE (R85): in ACTIVE, a flush with cause STOPPED, and the GCU becomes IDLE. -/
def execGcuStopNotice (s : State) : Host.Outcome State Fault Refusal :=
  match s.bus.toGcu with
  | .stop :: rest =>
    let t := State.endStream { s with bus := { s.bus with toGcu := rest } } .stopped
    .next { t with gcu := { t.gcu with active := false } }
  | _ => .next s

/-- GCU_START_NOTICE (R86); the notice goes on to the EXU (R151, log entry 3). -/
def execGcuStartNotice (s : State) : Host.Outcome State Fault Refusal :=
  match s.bus.toGcu with
  | .start i :: rest =>
    .next { s with gcu := s.gcu.started i, bus := Bus.handExu { s.bus with toGcu := rest } [.start] }
  | _ => .next s

end Sys2Proof.Machine
end

