-- ==== Sys2Proof/Machine/Markers.lean ====
section
/-! DEFINITION. The Marker and Trigger Unit (chapter Markers and Distance Triggers, R157 to R170): captures, their
answers, trigger channels; and the commands that drive it. Its items are written in Items.lean. -/

namespace Sys2Proof.Machine

/-! ### Captures (R158, R159) -/

/-- The number of entries of the marker list (chapter Markers and Distance Triggers). -/
def markerListSize : Nat := 16

/-- The candidate index j_M: the position index plus the mount position (R158). -/
def State.candidate (s : State) (m : MarkerLine) : Int := s.odu.positionIndex + (s.mtu.marker m).mount

/-- The candidate lies less than the minimum spacing from the line's previous capture (R158). -/
def MarkerState.tooClose (x : MarkerState) (j : Int) : Bool :=
  match x.previous with
  | some p => decide ((j - p).natAbs < x.spacing)
  | none => false

/-- The entry of a capture. One beyond the signed 32-bit range is saturated and gets no answers (R159). -/
def captureEntry (m : MarkerLine) (number : Word16) (j frontier : Int) : MarkerEntry :=
  if inS32 j then
    { line := m, number := number, j := j, event := frontier, projected := .pending, placement := .pending }
  else
    { line := m, number := number, j := satS32 j, event := frontier, projected := .stale, placement := .notInStream }

/-- A capture on line m at j (R159). -/
def State.capture (s : State) (m : MarkerLine) (j : Int) : State :=
  let x := s.mtu.marker m
  let number := x.captures + 1
  let mtu := s.mtu.setMarker m { x with captures := number, previous := some j }
  let q : CaptureRequest := { line := m, number := number, j := j }
  { s with
    mtu := { mtu with list := (captureEntry m number j s.odu.frontier :: mtu.list).take markerListSize },
    bus := if inS32 j then { s.bus with chainageRequests := s.bus.chainageRequests ++ [q],
                                        markRequests := s.bus.markRequests ++ [q] }
           else s.bus }

/-! ### Answers (R160, R161) -/

/-- The entry of a capture is the one with its line and marker number (R160). -/
def MarkerEntry.isOf (e : MarkerEntry) (line : MarkerLine) (number : Word16) : Bool :=
  e.line == line && e.number == number

/-- The projected chainage is written into the entry that asked, if it is still listed (R160). An answer to a capture of an
earlier run finds the entry of this run with the same line and number (log entry 36). -/
def Mtu.project (m : Mtu) (a : ChainageAnswer) : Mtu :=
  { m with list := m.list.map (fun e =>
      if e.isOf a.line a.number then
        { e with projected := match a.chainage with
                   | some c => .at c
                   | none => .stale }
      else e) }

/-- The placement is written into the entry that asked, if it is still listed (R160; after a START as log entry 36 says). -/
def Mtu.answerPlacement (m : Mtu) (line : MarkerLine) (number : Word16) (placed : Bool) : Mtu :=
  { m with list := m.list.map (fun e =>
      if e.isOf line number then { e with placement := if placed then .placed else .notInStream } else e) }

/-- A line is among the reported ones. -/
def lostOn (mark1 mark2 : Bool) : MarkerLine → Bool
  | .m1 => mark1
  | .m2 => mark2

/-- A loss report: NOT_IN_STREAM on every entry of a reported line at the reported index (R161; after a START as log entry 36
says). -/
def Mtu.lose (m : Mtu) (j : Int) (mark1 mark2 : Bool) : Mtu :=
  { m with list := m.list.map (fun e =>
      if lostOn mark1 mark2 e.line && e.j == j then { e with placement := .notInStream } else e) }

/-! ### Trigger channels (R164 to R168) -/

/-- The level opposite to a polarity. -/
def Level.opposite : Level → Level
  | .low => .high
  | .high => .low

/-- The channel is due at sample event k (R165). -/
def TriggerState.isDue (x : TriggerState) (k : Int) : Bool :=
  x.enable && decide ((k + x.mount - x.phase) % (x.pitch : Int) = 0)

/-- A due channel starts a pulse in IDLE and drops the trigger in PULSE (R166). -/
def TriggerState.fire (x : TriggerState) (k : Int) (now : Nat) : TriggerState :=
  match x.timer with
  | none => { x with level := x.polarity.opposite, timer := some (now + x.width), pulses := x.pulses + 1,
                     lastStarted := some (k + x.mount) }
  | some _ => { x with dropped := satSucc x.dropped, lastDropped := some (k + x.mount) }

/-- A channel at a sample event taken in RUNNING (R165, R166). -/
def TriggerState.evaluate (x : TriggerState) (k : Int) (now : Nat) : TriggerState := if x.isDue k then x.fire k now else x

/-- The pulse ends: the line goes to its idle level (R167, R168). -/
def TriggerState.expire (x : TriggerState) : TriggerState := { x with timer := none, level := x.polarity }

/-- The counts and indices START clears (R169). -/
def TriggerState.cleared (x : TriggerState) : TriggerState :=
  { x with pulses := 0, dropped := 0, lastStarted := none, lastDropped := none }

/-- The counts and the index START clears (R163). -/
def MarkerState.cleared (x : MarkerState) : MarkerState := { x with captures := 0, previous := none, ignored := 0 }

/-- The MTU at an accepted START (R163, R169). -/
def Mtu.started (m : Mtu) : Mtu :=
  { m with m1 := m.m1.cleared, m2 := m.m2.cleared, t1 := m.t1.cleared, t2 := m.t2.cleared, t3 := m.t3.cleared,
           t4 := m.t4.cleared, list := [], running := true }

/-- The four channels at a sample event (R165). -/
def Mtu.evaluate (m : Mtu) (k : Int) (now : Nat) : Mtu :=
  { m with t1 := m.t1.evaluate k now, t2 := m.t2.evaluate k now, t3 := m.t3.evaluate k now, t4 := m.t4.evaluate k now }

/-! ### Commands -/

/-- MARKER_EDGE (R158): an active edge on a written line in RUNNING is a capture, or is ignored within the spacing. An edge
taken with the run mark not RUNNING is ignored, and so is one taken while the ODU is in SUSPENDED, by the ODU's own record of the run
(R162; log entries 4, 34). The run mark alone stands for the MTU's RUNNING: an edge taken after an accepted START, while the STOP notice
of the run before still waits at the MTU, is captured at the new run's position (DESIGN CHOICE, log entry 37). -/
def execMarkerEdge (m : MarkerLine) (edge : Edge) (s : State) : Host.Outcome State Fault Refusal :=
  let x := s.mtu.marker m
  if edge = x.edge ∧ s.mtu.running = true ∧ s.odu.view ≠ .suspended ∧ s.rcu.isWritten (.marker m) = true then
    let j := s.candidate m
    if x.tooClose j then .next { s with mtu := s.mtu.setMarker m { x with ignored := satSucc x.ignored } }
    else .next (s.capture m j)
  else .next s

/-- CHAINAGE_ANSWER (R160). -/
def execChainageAnswer (s : State) : Host.Outcome State Fault Refusal :=
  match s.bus.chainageAnswers with
  | a :: rest => .next { s with mtu := s.mtu.project a, bus := { s.bus with chainageAnswers := rest } }
  | [] => .next s

/-- PLACEMENT_ANSWER (R160). -/
def execPlacementAnswer (s : State) : Host.Outcome State Fault Refusal :=
  match s.bus.asuAnswers with
  | .placement line number placed :: rest =>
    .next { s with mtu := s.mtu.answerPlacement line number placed, bus := { s.bus with asuAnswers := rest } }
  | _ => .next s

/-- MARK_LOSS_REPORT (R161). -/
def execMarkLossReport (s : State) : Host.Outcome State Fault Refusal :=
  match s.bus.asuAnswers with
  | .loss j mark1 mark2 :: rest =>
    .next { s with mtu := s.mtu.lose j mark1 mark2, bus := { s.bus with asuAnswers := rest } }
  | _ => .next s

/-- MTU_SAMPLE_EVENT (R165): nothing is evaluated outside RUNNING. -/
def execMtuSampleEvent (s : State) : Host.Outcome State Fault Refusal :=
  match s.bus.toMtu with
  | .event e :: rest =>
    .next { s with mtu := if s.mtu.running then s.mtu.evaluate e.k s.now else s.mtu, bus := { s.bus with toMtu := rest } }
  | _ => .next s

/-- PULSE_EXPIRY (R167, R168): in every run state. -/
def execPulseExpiry (t : Trigger) (s : State) : Host.Outcome State Fault Refusal :=
  match (s.mtu.trigger t).timer with
  | some tick =>
    let s := s.runTo tick
    .next { s with mtu := s.mtu.setTrigger t (s.mtu.trigger t).expire }
  | none => .next s

/-- MTU_START_NOTICE (R163, R169). -/
def execMtuStartNotice (s : State) : Host.Outcome State Fault Refusal :=
  match s.bus.toMtu with
  | .start _ :: rest => .next { s with mtu := s.mtu.started, bus := { s.bus with toMtu := rest } }
  | _ => .next s

/-- MTU_SUSPEND_NOTICE (R163). -/
def execMtuSuspendNotice (s : State) : Host.Outcome State Fault Refusal :=
  match s.bus.toMtu with
  | .suspend :: rest =>
    .next { s with mtu := { s.mtu with running := false }, bus := { s.bus with toMtu := rest } }
  | _ => .next s

/-- MTU_RESUMPTION_NOTICE (R163). -/
def execMtuResumptionNotice (s : State) : Host.Outcome State Fault Refusal :=
  match s.bus.toMtu with
  | .resume :: rest =>
    .next { s with mtu := { s.mtu with running := true }, bus := { s.bus with toMtu := rest } }
  | _ => .next s

/-- MTU_STOP_NOTICE (R163). -/
def execMtuStopNotice (s : State) : Host.Outcome State Fault Refusal :=
  match takeStop s.bus.toMtu with
  | some rest => .next { s with mtu := { s.mtu with running := false }, bus := { s.bus with toMtu := rest } }
  | none => .next s

end Sys2Proof.Machine
end

