-- ==== Sys2Proof/Machine/Items.lean ====
section
/-! DEFINITION. Configuration items (R177 to R179): what each accepted item writes in the block that owns it, SET_ITEM and
READ_ITEM; and their commands. -/

namespace Sys2Proof.Machine

/-! ### What an accepted item writes -/

/-- The count weight from a circumference and a number of counts per revolution (R2). -/
def weightOf (circumference counts : Nat) : Nat := (roundUp ((circumference : Int) * 65536) (1000 * counts)).toNat

/-- The mounting sense a byte names (R199). -/
def mountingOf (n : Nat) : Mounting := if n = 0 then .normal else .inverted

/-- The fields of one encoder, at an offset of ODOMETRY, with its new weight (R2). -/
def EncoderState.configured (x : EncoderState) (b : List Byte) (off : Nat) : EncoderState :=
  { x with circumference := getU32 b off, countsPerRev := getU16 b (off + 4), mounting := mountingOf (getU8 b (off + 6)),
           weight := weightOf (getU32 b off) (getU16 b (off + 4)) }

/-- The fields of ODOMETRY in the ODU, without the epoch (R2). -/
def Odu.configured (o : Odu) (b : List Byte) : Odu :=
  { o with interval := getU16 b 0, primary := if getU8 b 2 = 0 then .e1 else .e2, reversalDistance := getU8 b 3,
           slipTolerance := getU8 b 4, paceIntervalField := getU16 b 5, e1 := o.e1.configured b 7, e2 := o.e2.configured b 14 }

/-- ODOMETRY in the ODU: the epoch counts one more if the W of the active encoder changes (R2, R21). -/
def Odu.setOdometry (o : Odu) (b : List Byte) : Odu :=
  let n := o.configured b
  if (n.enc n.active).weight = (o.enc o.active).weight then n else n.bumpEpoch

/-- The fields of SENSORS in the SLC (R39). -/
def Slc.setSensors (c : Slc) (b : List Byte) : Slc :=
  { c with kv := getU8 b 0, kp := getU8 b 1, vMin := getU16 b 2, hV := getU16 b 4, settleValue := getU16 b 6 }

/-- The fields of SENSORS in the ASU (R49). -/
def Asu.setSensors (a : Asu) (b : List Byte) : Asu :=
  { a with pGauge := getS8 b 8, pVertical := getS8 b 9, pLateral := getS8 b 10 }

/-- The fields of SENSORS in the GCU (R63). -/
def Gcu.setSensors (c : Gcu) (b : List Byte) : Gcu :=
  { c with g0 := getS32 b 11, gNom := getS32 b 15, railDistance := getU16 b 19 }

/-- The fields of COMPUTE and the reaches (R64). -/
def Gcu.setCompute (c : Gcu) (b : List Byte) : Gcu :=
  { c with armA := getU8 b 0, armB := getU8 b 1, twistBase := getU8 b 2, halfBase := getU8 b 3,
           reachUp := max (getU8 b 0) (getU8 b 3), reachDown := max (getU8 b 1) (max (getU8 b 3) (getU8 b 2)) }

/-- The fields of FIXPOLICY (R92). -/
def Pru.setPolicy (p : Pru) (b : List Byte) : Pru :=
  { p with acceptWindow := getS32 b 0, stepThreshold := getS32 b 4, slewLimit := getU8 b 8 }

/-- The fields of MARKER (R157). -/
def MarkerState.configured (x : MarkerState) (b : List Byte) : MarkerState :=
  { x with edge := if getU8 b 0 = 0 then .rising else .falling, mount := getS8 b 1, spacing := getU16 b 2 }

/-- The fields of TRIGGER. A channel in IDLE goes at once to the new idle level, a running pulse keeps its level (R164, R168). -/
def TriggerState.configured (x : TriggerState) (b : List Byte) : TriggerState :=
  let polarity : Level := if getU8 b 8 = 0 then .low else .high
  { x with enable := getU8 b 0 == 1, pitch := getU16 b 1, phase := getU16 b 3, mount := getS8 b 5, width := getU16 b 6,
           polarity := polarity, level := if x.timer.isNone then polarity else x.level }

/-- An accepted item replaces every field in the block that owns it (R177). -/
def State.writeItem (s : State) (i : ItemId) (b : List Byte) : State :=
  match i with
  | .odometry => { s with odu := s.odu.setOdometry b, gcu := { s.gcu with interval := getU16 b 0 } }
  | .sensors => { s with slc := s.slc.setSensors b, asu := s.asu.setSensors b, gcu := s.gcu.setSensors b }
  | .compute => { s with gcu := s.gcu.setCompute b }
  | .fixPolicy => { s with pru := s.pru.setPolicy b }
  | .plan => { s with pru := { s.pru with plan := planOf b } }
  | .segment k => { s with pru := { s.pru with segments := s.pru.segments.put k (segmentOf b) } }
  | .limitSet k => { s with exu := { s.exu with limitSets := s.exu.limitSets.put k (limitSetOf b) } }
  | .marker m => { s with mtu := s.mtu.setMarker m ((s.mtu.marker m).configured b) }
  | .trigger t => { s with mtu := s.mtu.setTrigger t ((s.mtu.trigger t).configured b) }

/-- The written mark of an item is set (R177). -/
def Rcu.mark (r : Rcu) (i : ItemId) : Rcu := if r.isWritten i then r else { r with written := r.written ++ [i] }

/-- An item is accepted: written, marked, and the generation counts one more (R177). -/
def State.acceptItem (s : State) (i : ItemId) (b : List Byte) : State :=
  let t := s.writeItem i b
  { t with rcu := { t.rcu.mark i with generation := t.rcu.generation + 1 } }

/-! ### The fields of an item as READ_ITEM returns them (R179, R203) -/

/-- The fields of one encoder in ODOMETRY. -/
def encoderBytes (x : EncoderState) : List Byte :=
  putU32 x.circumference ++ putU16 x.countsPerRev ++ putU8 x.mounting.code

/-- The fields of ODOMETRY, with the count weights in force (R179, R203). -/
def Odu.itemBytes (o : Odu) : List Byte :=
  putU16 o.interval ++ putU8 (encoderCode o.primary) ++ putU8 o.reversalDistance ++ putU8 o.slipTolerance ++
    putU16 o.paceIntervalField ++ encoderBytes o.e1 ++ encoderBytes o.e2 ++ putU32 o.e1.weight ++ putU32 o.e2.weight

/-- The fields of SENSORS. -/
def State.sensorsBytes (s : State) : List Byte :=
  putU8 s.slc.kv ++ putU8 s.slc.kp ++ putU16 s.slc.vMin ++ putU16 s.slc.hV ++ putU16 s.slc.settleValue ++
    putS8 s.asu.pGauge ++ putS8 s.asu.pVertical ++ putS8 s.asu.pLateral ++
    putS32 s.gcu.g0 ++ putS32 s.gcu.gNom ++ putU16 s.gcu.railDistance.toNat

/-- The fields of MARKER. -/
def MarkerState.itemBytes (x : MarkerState) : List Byte := putU8 (edgeCode x.edge) ++ putS8 x.mount ++ putU16 x.spacing

/-- The fields of TRIGGER. -/
def TriggerState.itemBytes (x : TriggerState) : List Byte :=
  putMark x.enable ++ putU16 x.pitch ++ putU16 x.phase ++ putS8 x.mount ++ putU16 x.width ++ putU8 x.polarity.code

/-- The fields of an item as last accepted (R179). -/
def State.itemBytes (s : State) (i : ItemId) : List Byte :=
  match i with
  | .odometry => s.odu.itemBytes
  | .sensors => s.sensorsBytes
  | .compute => putU8 s.gcu.armA ++ putU8 s.gcu.armB ++ putU8 s.gcu.twistBase ++ putU8 s.gcu.halfBase
  | .fixPolicy => putS32 s.pru.acceptWindow ++ putS32 s.pru.stepThreshold ++ putU8 s.pru.slewLimit.toNat
  | .plan => planBytes s.pru.plan
  | .segment k => segmentBytes (s.pru.segment k)
  | .limitSet k => (s.exu.limitSet k).toList.flatMap limitsBytes
  | .marker m => (s.mtu.marker m).itemBytes
  | .trigger t => (s.mtu.trigger t).itemBytes

/-! ### Requests -/

/-- The outcome of judging a SET_ITEM (R177). -/
inductive ItemVerdict where
  | refused (status : Status) (offset : Nat)
  | accepted (item : ItemId) (fields : List Byte)
deriving DecidableEq, Repr

/-- A SET_ITEM is judged: kind and length, run state, index and fields (R177). The index is judged before the fields: one out of range
is refused with offset 0, whatever the fields are (DESIGN CHOICE, log entry 40). -/
def judgeItem (runState : RunState) (payload : List Byte) : ItemVerdict :=
  let b := payload.drop 2
  match itemLength (getU8 payload 0) with
  | none => .refused .badRequest 0
  | some n =>
    if payload.length ≠ 2 + n then .refused .badRequest 0
    else if runState ≠ .standby then .refused .state 0
    else match itemOf (getU8 payload 0) (getU8 payload 1) with
      | none => .refused .range 0
      | some i =>
        match firstFailing (itemChecks i b) with
        | some off => .refused .range off
        | none => .accepted i b

/-- SET_ITEM (R177). -/
def serveSetItem (_ : Port) (rq : Request) (s : State) : State × Reply :=
  match judgeItem s.rcu.runState rq.payload with
  | .refused status off =>
    answered (.of status (refusalPayload (getU8 rq.payload 0) (getU8 rq.payload 1) 0 off s.rcu.generation)) s
  | .accepted i b =>
    let t := s.acceptItem i b
    (t, .of .ok (putU8 (kindCode i) ++ putU8 (indexCode i) ++ be32 t.rcu.generation))

/-- READ_ITEM (R179). -/
def serveReadItem (_ : Port) (rq : Request) (s : State) : State × Reply :=
  let generation := be32 s.rcu.generation
  match itemLength (getU8 rq.payload 0), itemOf (getU8 rq.payload 0) (getU8 rq.payload 1) with
  | none, _ => answered (.of .badRequest generation) s
  | some _, none => answered (.of .range generation) s
  | some _, some i =>
    if s.rcu.isWritten i then
      answered (.of .ok (putU8 (kindCode i) ++ putU8 (indexCode i) ++ generation ++ s.itemBytes i)) s
    else answered (.of .notConfigured generation) s

/-- No unit is still at work on a run that has ended: each has taken every notice, event and record of the run handed to it, the
assembly table and the profile window are EMPTY and the GCU is IDLE, as R61, R91 and R117 say of the part when it accepts an
item (log entry 29). -/
def State.isQuiet (s : State) : Bool :=
  s.bus.toOdu.isEmpty && s.bus.toPru.isEmpty && s.bus.toSlc.isEmpty && s.bus.toMtu.isEmpty && s.bus.toAsu.isEmpty &&
    s.bus.toGcu.isEmpty && s.bus.toExu.isEmpty && s.bus.chainageRequests.isEmpty && s.bus.markRequests.isEmpty &&
    s.asu.table.isEmpty && !s.gcu.active && s.gcu.window.isEmpty

/-- The SET_ITEM in service would be accepted, and waits until the units have taken the end of the run before it (log entry 29). -/
def State.itemWaits (s : State) : Bool :=
  match s.cpc.nextService with
  | some (_, rq) =>
    match judgeItem s.rcu.runState rq.payload with
    | .accepted _ _ => !s.isQuiet
    | .refused _ _ => false
  | none => false

/-! ### Commands -/

/-- SET_ITEM (R177). Its service comes about once no unit is still at work on a run that has ended, so that no run meets two
configurations (R61, R91, R117; log entry 29). -/
def execSetItem (s : State) : Host.Outcome State Fault Refusal :=
  .next (if s.itemWaits then s else s.serve .setItem serveSetItem)

/-- READ_ITEM (R179). -/
def execReadItem (s : State) : Host.Outcome State Fault Refusal := .next (s.serve .readItem serveReadItem)

end Sys2Proof.Machine
end

