-- ==== Sys2Proof/Machine/RunControl.lean ====
section
/-! DEFINITION. The Run Controller (chapter Run Control and Configuration, R171 to R176, R180, R181): power-on, run states,
START and STOP; and their commands. The configuration items stand in Items.lean. -/

namespace Sys2Proof.Machine

/-! ### Power-on (R180) -/

/-- The ODU at a power-on: its decoders go on following the levels of their lines (R24, log entry 11). -/
def Odu.poweredOn (o : Odu) : Odu :=
  { Odu.reset with e1 := { EncoderState.reset with levelA := o.e1.levelA, levelB := o.e1.levelB },
                   e2 := { EncoderState.reset with levelA := o.e2.levelA, levelB := o.e2.levelB } }

/-- Every block at its power-on values, in a power phase; the commands that wait outside stay (R180). -/
def State.poweredOn (s : State) (phase : Power) : State :=
  { State.reset with power := phase, odu := s.odu.poweredOn, pending := s.pending }

/-- The end of the start-up hold: the links begin their slots (R26, R180). -/
def State.holdEnded (s : State) (tick : Nat) : State :=
  let s := s.runTo tick
  { s with power := .on, slc := { s.slc with slotTimer := some s.now } }

/-! ### START (R172, R173) -/

/-- The items START requires, in the order of its second step (R172). -/
def requiredItems : List ItemId := [.odometry, .sensors, .compute, .fixPolicy, .plan]

/-- The segments of the plan entries, from entry 0 upward (R172). -/
def Pru.planSegments (p : Pru) : List Nat := p.plan.map (·.segment)

/-- The items whose written marks START checks, in the order of steps 2 to 4 (R172). -/
def State.neededItems (s : State) : List ItemId :=
  requiredItems ++ s.pru.planSegments.map ItemId.segment ++
    (s.pru.planSegments.map (fun k => ItemId.limitSet (s.pru.segment k).limitSet) ++ [.limitSet 0])

/-- The mount positions pass their START check (R49, R172). -/
def Asu.mountsPass (a : Asu) : Bool :=
  decide (a.pMin ≤ 0) && decide (0 ≤ a.pMax) && decide (a.pMax - a.pMin ≤ 200)

/-- A refusal of START that names an item. -/
def refuseItem (status : Status) (i : ItemId) (generation : Word32) : Reply :=
  .of status (refusalPayload (kindCode i) (indexCode i) 0 0 generation)

/-- A refusal of START that names a check step (R172). -/
def refuseStep (step : Nat) (generation : Word32) : Reply := .of .range (refusalPayload 0 0 step 0 generation)

/-- Steps 2 to 7 of the checks of START, for an entry and a chainage: the first failure gives the refusal (R172). -/
def State.startRefusal (s : State) (entry : Nat) (chainage : Int) : Option Reply :=
  match s.neededItems.find? (fun i => !s.rcu.isWritten i) with
  | some i => some (refuseItem .notConfigured i s.rcu.generation)
  | none =>
    if !s.asu.mountsPass then some (refuseItem .config .sensors s.rcu.generation)
    else match s.pru.plan[entry]? with
      | none => some (refuseStep 6 s.rcu.generation)
      | some x => if (s.pru.segmentOf x).contains chainage then none else some (refuseStep 7 s.rcu.generation)

/-- An accepted START: the run begins, the notices go out, the ODU is prepared and fires sample event 0 (R4, R173). -/
def State.started (s : State) (i : StartInfo) : State :=
  State.fireEvent
    { s with
      rcu := { s.rcu with runState := .running, runNumber := i.run, eventCount := 0, source := i.source },
      bus := s.bus.handStart i, odu := s.odu.started i, cpc := s.cpc.news }

/-- START (R172, R173). -/
def serveStart (_ : Port) (rq : Request) (s : State) : State × Reply :=
  match s.rcu.runState with
  | .standby =>
    let entry := getU8 rq.payload 0
    let chainage := getS32 rq.payload 1
    match directionOf (getU8 rq.payload 5), startSourceOf (getU8 rq.payload 6) with
    | some d, some source =>
      if 31 < entry then answered (refuseStep 1 s.rcu.generation) s
      else match s.startRefusal entry chainage with
        | some r => answered r s
        | none =>
          let t := s.started { run := s.rcu.runNumber + 1, entry := entry, chainage := chainage, direction := d, source := source }
          (t, .of .ok (be32 t.rcu.runNumber ++ be32 t.rcu.generation ++ be16 t.odu.epoch))
    | _, _ => answered (refuseStep 1 s.rcu.generation) s
  | _ => answered (.of .state (refusalPayload 0 0 0 0 s.rcu.generation)) s

/-! ### STOP, suspension, resumption, counting (R174 to R176, R181) -/

/-- The run ends: STANDBY, and the notices go out (R174). -/
def State.stopped (s : State) : State :=
  { s with rcu := { s.rcu with runState := .standby }, bus := s.bus.handStop, cpc := s.cpc.news }

/-- STOP (R174). -/
def serveStop (_ : Port) (_ : Request) (s : State) : State × Reply :=
  match s.rcu.runState with
  | .standby => answered (.of .state []) s
  | r => (s.stopped, .of .ok (be32 s.rcu.runNumber ++ be32 s.rcu.eventCount ++ putU8 r.code))

/-- The run is suspended (R175). -/
def State.suspended (s : State) : State :=
  { s with rcu := { s.rcu with runState := .suspended }, bus := s.bus.handSuspend, cpc := s.cpc.news }

/-- The run is resumed (R176). -/
def State.resumed (s : State) : State :=
  { s with rcu := { s.rcu with runState := .running }, bus := s.bus.handResume, cpc := s.cpc.news }

/-! ### Commands -/

/-- POWER_ON (R180): after power-up the start-up hold begins at once; while the reset pin is asserted the part is held. -/
def execPowerOn (cause : PowerCause) (s : State) : Host.Outcome State Fault Refusal :=
  match cause with
  | .powerUp => .next (s.poweredOn (.startUp holdTicks))
  | .resetPin => .next (s.poweredOn .held)

/-- RESET_PIN_RELEASE (R180): a held part begins the start-up hold. -/
def execResetPinRelease (s : State) : Host.Outcome State Fault Refusal :=
  match s.power with
  | .held => .next { s with power := .startUp (s.now + holdTicks) }
  | _ => .next s

/-- START_UP_HOLD_END (R180). -/
def execStartUpHoldEnd (s : State) : Host.Outcome State Fault Refusal :=
  match s.power with
  | .startUp tick => .next (s.holdEnded tick)
  | _ => .next s

/-- RCU_SAMPLE_EVENT (R181): counted in RUNNING. -/
def execRcuSampleEvent (s : State) : Host.Outcome State Fault Refusal :=
  match s.bus.toRcu with
  | .event _ :: rest =>
    .next { s with
      rcu := if s.rcu.runState = .running then { s.rcu with eventCount := s.rcu.eventCount + 1 } else s.rcu,
      bus := { s.bus with toRcu := rest } }
  | _ => .next s

/-- ODOMETRY_LOST (R171, R175): SUSPENDED when taken in RUNNING, ignored otherwise. -/
def execOdometryLost (s : State) : Host.Outcome State Fault Refusal :=
  match s.bus.toRcu with
  | .lost :: rest =>
    let t := { s with bus := { s.bus with toRcu := rest } }
    .next (if s.rcu.runState = .running then t.suspended else t)
  | _ => .next s

/-- ODOMETRY_RESTORED (R171, R176): RUNNING when taken in SUSPENDED, ignored otherwise. -/
def execOdometryRestored (s : State) : Host.Outcome State Fault Refusal :=
  match s.bus.toRcu with
  | .restored :: rest =>
    let t := { s with bus := { s.bus with toRcu := rest } }
    .next (if s.rcu.runState = .suspended then t.resumed else t)
  | _ => .next s

/-- START (R172). -/
def execStart (s : State) : Host.Outcome State Fault Refusal := .next (s.serve .start serveStart)

/-- STOP (R174). -/
def execStop (s : State) : Host.Outcome State Fault Refusal := .next (s.serve .stop serveStop)

end Sys2Proof.Machine
end

