-- ==== Sys2Proof/WellFormed.lean ====
section
/-! DEFINITION. Which terms of `Instr` stand for something the outside can do. -/

namespace Sys2Proof

/-- The length of a frame of each link in bytes: a 3-byte header, 3 bytes a channel, a 2-byte check (R200). -/
def Link.frameLength : Link → Nat
  | .s1 => 11
  | .s2 => 17
  | .s3 => 14

/-- A command is well formed when its operands fit the lines they come from: the part clocks exactly the frame
length of the link (R26), and the bits beyond the last whole byte of a select period are fewer than 8 (R185). -/
def Instr.wellFormed : Instr → Bool
  | .slotEnd l _ bytes => bytes.length == l.frameLength
  | .requestFrame _ _ extraBits => extraBits < 8
  | _ => true

end Sys2Proof
end

