-- ==== Sys2Proof/Machine/SensorLinks.lean ====
section
/-! DEFINITION. The Sensor Link Controller (chapter Sensor Links and Inertial Integration, R26 to R48): frames, channels,
integrators, inertial groups, snapshots; and the commands that drive it. -/

namespace Sys2Proof.Machine

/-! ### Frames (R26 to R29, R200) -/

/-- The bits the part clocks on a link in a slot: 8 for each byte of its frame (R26, R200). -/
def clockedBits (l : Link) : Nat := 8 * l.frameLength

/-- The frame clocked in: exactly the frame length of the link; where the front-end presents nothing the line is low (R26, R200). -/
def clockedFrame (l : Link) (bytes : List Byte) : List Byte :=
  (List.range l.frameLength).map (fun i => bytes.getD i 0)

/-- The bytes a sensor check covers: the header and the channel words (R197). -/
def coveredBytes (l : Link) (frame : List Byte) : List Byte := frame.take (l.frameLength - 2)

/-- Why a frame is missing, or none when it is good (R27). -/
def frameFault (l : Link) (opened : Bool) (frame : List Byte) : FaultCause :=
  if !opened then .timing
  else if frame.getD 0 0 ≠ 0xB4 then .sync
  else if be16 (frameCheck (coveredBytes l frame)) ≠ frame.drop (l.frameLength - 2) then .check
  else .none

/-- The 24-bit signed word of the i-th channel of a frame (R200). -/
def channelWord (frame : List Byte) (i : Nat) : Int :=
  (BitVec.ofNat 24 (getU8 frame (3 + 3 * i) * 65536 + getU16 frame (4 + 3 * i))).toInt

/-- The OK flag of the i-th channel of a frame: bit 7 for the first, bit 6 for the second, and so on (R200). -/
def channelFlag (frame : List Byte) (i : Nat) : Bool := (frame.getD 2 0).getLsbD (7 - i)

/-- What the i-th channel gets from a slot: a delivered value, or a missing one (R29). -/
def deliveredValue (good : Bool) (frame : List Byte) (i : Nat) : Option Int :=
  if good && channelFlag frame i then some (channelWord frame i) else none

/-! ### Channels and links (R28, R30 to R32) -/

/-- A channel takes a slot's outcome (R30, R31). -/
def Channel.take (c : Channel) (value : Option Int) : Channel :=
  match c.state, value with
  | .lost, some x =>
    if c.recovery + 1 < 16 then { c with recovery := c.recovery + 1 }
    else { state := .ok, held := some x, miss := 0, recovery := 0 }
  | .lost, none => { c with recovery := 0 }
  | _, some x => { c with state := .ok, held := some x, miss := 0 }
  | .ok, none => { c with state := .held, miss := 1 }
  | .held, none =>
    if c.miss < 4 then { c with miss := c.miss + 1 }
    else { state := .lost, held := none, miss := 0, recovery := 0 }

/-- The channels of a link take a slot's outcome, in frame order (R29). -/
def takeFrame (l : Link) (good : Bool) (frame : List Byte) (c : Channels) : Channels :=
  match l with
  | .s1 => { c with gl := c.gl.take (deliveredValue good frame 0), gr := c.gr.take (deliveredValue good frame 1) }
  | .s2 => { c with zl := c.zl.take (deliveredValue good frame 0), zr := c.zr.take (deliveredValue good frame 1),
                    azl := c.azl.take (deliveredValue good frame 2), azr := c.azr.take (deliveredValue good frame 3) }
  | .s3 => { c with ay := c.ay.take (deliveredValue good frame 0), roll := c.roll.take (deliveredValue good frame 1),
                    yaw := c.yaw.take (deliveredValue good frame 2) }

/-- The channel is LOST. -/
def Channel.isLost (c : Channel) : Bool := c.state == .lost

/-- The state of a link from the states of its channels (R32). -/
def linkCondition (l : Link) (c : Channels) : LinkCondition :=
  if (linkChannels l).all (fun i => !(c.get i).isLost) then .up
  else if (linkChannels l).all (fun i => (c.get i).isLost) then .down
  else .partially

/-- The counts, the fault cause and the sequence numbers of a link after a slot end (R27, R28). -/
def LinkState.judge (x : LinkState) (cause : FaultCause) (sequence : Byte) : LinkState :=
  match cause with
  | .none =>
    let differs := match x.expected with
      | some e => e != sequence
      | none => false
    { x with seqErrors := if differs then satSucc x.seqErrors else x.seqErrors, lastGood := sequence,
             expected := some (sequence + 1) }
  | cause => { x with missing := satSucc x.missing, fault := cause, expected := x.expected.map (· + 1) }

/-! ### Integrators (R33 to R38) -/

/-- The bound of V and P: 2^47 − 1 (R34). -/
def integratorBound : Int := 140737488355327

/-- One stage of a leaky integrator: the new value and whether it saturated (R34). -/
def leakStage (x input : Int) (shift : Nat) : Int × Bool :=
  let sum := x + input - x / (2 ^ shift : Nat)
  (clamp (-integratorBound) integratorBound sum, decide (sum < -integratorBound) || decide (integratorBound < sum))

/-- A leaky integrator steps with acceleration `a` (R34). -/
def Integrator.step (i : Integrator) (a : Int) (kv kp : Nat) : Integrator :=
  let v := leakStage i.v a kv
  let p := leakStage i.p v.1 kp
  { v := v.1, p := p.1, saturated := i.saturated || v.2 || p.2 }

/-- An integrator held at zero (R38). -/
def Integrator.zeroed : Integrator := { v := 0, p := 0, saturated := false }

/-- The value a channel gives an integrator: none while it is LOST (R33). -/
def Channel.value (c : Channel) : Option Int :=
  match c.state with
  | .lost => none
  | _ => c.held

/-- A vertical integrator at a slot end of S2 (R33, R34, R38). -/
def verticalStep (i : Integrator) (acceleration : Option Int) (kv kp : Nat) : Integrator :=
  match acceleration with
  | some a => i.step a kv kp
  | none => Integrator.zeroed

/-- The acceleration with the part of gravity removed, before saturation (R36). -/
def compensated (ay roll : Int) : Int := ay + (roll * 20084 + 2048) / 4096

/-- The lateral integrator at a slot end of S3 (R36, R38). -/
def lateralStep (i : Integrator) (ay roll : Option Int) (kv kp : Nat) : Integrator :=
  match ay, roll with
  | some y, some r =>
    let a := compensated y r
    let i := if satS24 a = a then i else { i with saturated := true }
    i.step (satS24 a) kv kp
  | _, _ => Integrator.zeroed

/-- The yaw integrator at a slot end of S3, modulo 2^48 (R37, R38). -/
def yawStep (psi : Word48) (rate : Option Int) : Word48 :=
  match rate with
  | some r => psi + BitVec.ofInt 48 r
  | none => 0

/-- The integrators a link feeds step after its channels have been updated (R33). -/
def Slc.integrate (c : Slc) (l : Link) : Slc :=
  match l with
  | .s1 => c
  | .s2 => { c with vertLeft := verticalStep c.vertLeft c.channels.azl.value c.kv c.kp,
                    vertRight := verticalStep c.vertRight c.channels.azr.value c.kv c.kp }
  | .s3 => { c with lateral := lateralStep c.lateral c.channels.ay.value c.channels.roll.value c.kv c.kp,
                    yaw := yawStep c.yaw c.channels.yaw.value,
                    yawSaturated := if c.channels.yaw.isLost then false else c.yawSaturated }

/-- One of the channels VERTICAL depends on is LOST (R40). -/
def Slc.verticalLost (c : Slc) : Bool := c.channels.azl.isLost || c.channels.azr.isLost

/-- One of the channels LATERAL depends on is LOST (R40). -/
def Slc.lateralLost (c : Slc) : Bool := c.channels.ay.isLost || c.channels.roll.isLost || c.channels.yaw.isLost

/-- The loss-seen marks at a slot end (R40). -/
def Slc.seeLoss (c : Slc) (l : Link) : Slc :=
  match l with
  | .s1 => c
  | .s2 => if c.verticalLost then { c with vertGroup := { c.vertGroup with lossSeen := true } } else c
  | .s3 => if c.lateralLost then { c with latGroup := { c.latGroup with lossSeen := true } } else c

/-- The slot end of a link (R26 to R34, R36 to R38, R40). -/
def Slc.endSlot (c : Slc) (l : Link) (opened : Bool) (bytes : List Byte) : Slc :=
  let frame := clockedFrame l bytes
  let cause := frameFault l opened frame
  let channels := takeFrame l (cause == .none) frame c.channels
  let x := { (c.link l).judge cause (frame.getD 1 0) with state := linkCondition l channels, slotOpen := false }
  (({ c with channels := channels }.setLink l x).integrate l).seeLoss l

/-! ### Group states (R41, R42) and snapshots (R35, R43, R44) -/

/-- The evaluation of a group at a sample event of speed v (R41). -/
def Group.evaluate (g : Group) (lost : Bool) (v vMin hV settleValue : Nat) : Group :=
  if g.lossSeen || lost || decide ((v : Int) < (vMin : Int) - hV) then { state := .invalid, settle := 0, lossSeen := false }
  else match g.state with
    | .invalid =>
      if vMin ≤ v then { state := .settling, settle := 0, lossSeen := false } else { g with lossSeen := false }
    | .settling =>
      { state := if settleValue ≤ g.settle + 1 then .valid else .settling, settle := g.settle + 1, lossSeen := false }
    | .valid => { g with lossSeen := false }

/-- Both groups are evaluated (R41). -/
def Slc.evaluateGroups (c : Slc) (v : Nat) : Slc :=
  { c with vertGroup := c.vertGroup.evaluate c.verticalLost v c.vMin c.hV c.settleValue,
           latGroup := c.latGroup.evaluate c.lateralLost v c.vMin c.hV c.settleValue }

/-- A group made INVALID at the end of RUNNING; its loss-seen mark stays (R42). -/
def Group.invalidated (g : Group) : Group := { g with state := .invalid, settle := 0 }

/-- Both groups made INVALID (R42). -/
def Slc.invalidateGroups (c : Slc) : Slc :=
  { c with vertGroup := c.vertGroup.invalidated, latGroup := c.latGroup.invalidated }

/-- The height of an integrator: floor((P + 2^20) / 2^21), in µm (R35). -/
def Integrator.height (i : Integrator) : Int := (i.p + 1048576) / 2097152

/-- A rail height h = H − Z, present when the group is VALID and Z is present (R35, R44). -/
def railHeight (g : Group) (i : Integrator) (z : Option Int) : Option Int :=
  match g.state with
  | .valid => z.map (i.height - ·)
  | _ => none

/-- The delivery of a sample event: the three snapshots taken after the evaluation (R43, R44). -/
def Slc.snapshots (c : Slc) (e : SampleEvent) : Delivery :=
  let zl := c.channels.zl.value
  let zr := c.channels.zr.value
  { k := e.k, direction := e.direction, slip := e.slip, encSwitch := e.encSwitch,
    gauge := { gl := c.channels.gl.value, gr := c.channels.gr.value },
    vertical := { hL := railHeight c.vertGroup c.vertLeft zl, hR := railHeight c.vertGroup c.vertRight zr, zl := zl, zr := zr },
    lateral := { hy := if c.latGroup.state = .valid then some c.lateral.height else none,
                 roll := c.channels.roll.value,
                 psi := if c.latGroup.state = .valid then some c.yaw else none } }

/-- The counts, causes and marks START clears (R47). -/
def LinkState.cleared (x : LinkState) : LinkState := { x with missing := 0, seqErrors := 0, fault := .none }

/-- The SLC at an accepted START (R47). -/
def Slc.started (c : Slc) : Slc :=
  { c with s1 := c.s1.cleared, s2 := c.s2.cleared, s3 := c.s3.cleared,
           vertLeft := { c.vertLeft with saturated := false }, vertRight := { c.vertRight with saturated := false },
           lateral := { c.lateral with saturated := false }, yawSaturated := false }

/-! ### Commands -/

/-- No slot is open on any link. -/
def Slc.allSlotsEnded (c : Slc) : Bool := !c.s1.slotOpen && !c.s2.slotOpen && !c.s3.slotOpen

/-- SLOT_START (R26): a slot begins on all three links together, once the slot before it has ended on each. -/
def execSlotStart (s : State) : Host.Outcome State Fault Refusal :=
  match s.slc.slotTimer with
  | some tick =>
    if s.slc.allSlotsEnded then
      let s := s.runTo tick
      .next { s with slc := { s.slc with
        s1 := { s.slc.s1 with slotOpen := true }, s2 := { s.slc.s2 with slotOpen := true },
        s3 := { s.slc.s3 with slotOpen := true }, slotStart := s.now, slotTimer := some (s.now + slotTicks) } }
    else .next s
  | none => .next s

/-- SLOT_END (R26). -/
def execSlotEnd (l : Link) (opened : Bool) (bytes : List Byte) (s : State) : Host.Outcome State Fault Refusal :=
  if (s.slc.link l).slotOpen then
    let s := s.runTo (s.slc.slotStart + slotTicks)
    .next { s with slc := s.slc.endSlot l opened bytes }
  else .next s

/-- SLC_SAMPLE_EVENT (R41, R43). The PRU takes each sample event before the SLC takes it (R6): it has fewer of them waiting. -/
def execSlcSampleEvent (s : State) : Host.Outcome State Fault Refusal :=
  match s.bus.toSlc with
  | .event e :: rest =>
    if eventCountOf s.bus.toPru < eventCountOf s.bus.toSlc then
      let c := s.slc.evaluateGroups e.speed
      .next { s with slc := c,
                     bus := (s.bus.handAsu (.delivery (c.snapshots e))).setToSlc rest }
    else .next s
  | _ => .next s

/-- SLC_START_NOTICE (R47); the notice goes on to the ASU (R55, log entry 3). -/
def execSlcStartNotice (s : State) : Host.Outcome State Fault Refusal :=
  match s.bus.toSlc with
  | .start i :: rest =>
    .next { s with slc := s.slc.started, bus := (s.bus.handAsu (.start i)).setToSlc rest }
  | _ => .next s

/-- SLC_SUSPEND_NOTICE (R42); the notice goes on to the ASU (R55, log entry 3). -/
def execSlcSuspendNotice (s : State) : Host.Outcome State Fault Refusal :=
  match s.bus.toSlc with
  | .suspend :: rest =>
    .next { s with slc := s.slc.invalidateGroups, bus := (s.bus.handAsu .suspend).setToSlc rest }
  | _ => .next s

/-- SLC_STOP_NOTICE (R42); the notice goes on to the ASU (R55, log entry 3). -/
def execSlcStopNotice (s : State) : Host.Outcome State Fault Refusal :=
  match takeStop s.bus.toSlc with
  | some rest =>
    .next { s with slc := s.slc.invalidateGroups, bus := (s.bus.handAsu .stop).setToSlc rest }
  | none => .next s

end Sys2Proof.Machine
end

