-- ==== Sys2Proof/Machine/Status.lean ====
section
/-! DEFINITION. The status reply, part by part (R25, R48, R60, R89, R115, R132, R154, R170, R181, R196, with the kinds of
R199 and the order of R202), the list requests (R153, R191), and their commands. -/

namespace Sys2Proof.Machine

/-! ### Parts of the status reply -/

/-- The ODU's fields of one encoder (R25). -/
def EncoderState.statusBytes (x : EncoderState) : List Byte :=
  putU8 x.health.code ++ putU8 x.strikes ++ putU8 x.goodChecks ++ putU32 x.weight

/-- The ODU's part (R25). -/
def Odu.statusBytes (o : Odu) : List Byte :=
  putU8 o.source.code ++ putU8 o.direction.code ++ putS32 o.frontier ++ putS32 o.positionIndex ++ putU32 o.speed ++
    putU8 (encoderCode o.active) ++ putU8 (encoderCode o.primary) ++ o.e1.statusBytes ++ o.e2.statusBytes ++ be16 o.epoch ++
    putU16 o.paceInterval ++ putU8 o.paceDirection.code ++ putMark o.paceStopped

/-- A channel's fields: its recovery count when LOST, otherwise its miss count; 0x80000000 for no held value (R48, R199). -/
def Channel.statusBytes (c : Channel) : List Byte :=
  putU8 c.state.code ++ putU8 (if c.isLost then c.recovery else c.miss) ++ putS32 (c.held.getD (-2147483648))

/-- A link's fields, with its channels in frame order (R48, R202). -/
def Slc.linkBytes (c : Slc) (l : Link) : List Byte :=
  let x := c.link l
  putU8 x.state.code ++ [x.lastGood] ++ putU16 x.missing ++ putU16 x.seqErrors ++ putU8 x.fault.code ++
    (linkChannels l).flatMap (fun i => (c.channels.get i).statusBytes)

/-- A group's fields (R48). -/
def Group.statusBytes (g : Group) : List Byte := putU8 g.state.code ++ putU16 g.settle

/-- A leaky integrator's fields: the saturation mark and H or HY (R48, R202). -/
def Integrator.statusBytes (i : Integrator) : List Byte := putMark i.saturated ++ putS32 i.height

/-- The SLC's part (R48). -/
def Slc.statusBytes (c : Slc) : List Byte :=
  c.linkBytes .s1 ++ c.linkBytes .s2 ++ c.linkBytes .s3 ++ c.vertGroup.statusBytes ++ c.latGroup.statusBytes ++
    c.vertLeft.statusBytes ++ c.vertRight.statusBytes ++ c.lateral.statusBytes ++ putMark c.yawSaturated

/-- The ASU's part (R60). -/
def Asu.statusBytes (a : Asu) : List Byte :=
  putMark a.assembling ++ putU8 a.direction.code ++ putOptS32 a.latest ++ putU16 a.table.length ++ be32 a.completed ++
    putU16 a.incomplete ++ putU16 a.restarts ++ putS8 a.pGauge ++ putS8 a.pVertical ++ putS8 a.pLateral

/-- The GCU's part (R89). -/
def Gcu.statusBytes (c : Gcu) : List Byte :=
  putMark c.active ++ putU8 c.direction.code ++ putOptS32 c.latest ++ putU16 c.pendingCount ++ be32 c.output ++
    be32 c.flushed ++ putU16 c.dropped ++ putU8 c.armA ++ putU8 c.armB ++ putU8 c.twistBase ++ putU8 c.halfBase ++
    putU8 c.reachUp ++ putU8 c.reachDown ++ putS32 c.g0 ++ putS32 c.gNom ++ putS32 c.railDistance

/-- The PRU's chainage part (R115), as the PRU holds it: until it takes a waiting START notice, the run before's (log entry 13). -/
def Pru.statusBytes (p : Pru) : List Byte :=
  putS32 p.ccur ++ putS8 (sense p.orientation p.direction) ++ putOptS32 p.latest ++ putS32 p.residual ++
    putS32 p.correction ++ putMark p.stepMark ++ putMark p.uncertain ++ putU8 p.fixes.length ++ putS32 p.acceptWindow ++
    putS32 p.stepThreshold ++ putS32 p.slewLimit

/-- The exit chainage of the current entry in the running direction (R132). -/
def Pru.exitChainage (p : Pru) : Option Int :=
  p.currentEntry.map (fun x => (p.segmentOf x).exit (sense x.orientation p.direction))

/-- The PRU's plan cursor part (R132), from the tables as they stand (log entry 33). -/
def Pru.cursorStatusBytes (p : Pru) : List Byte :=
  putOrFF p.cursor ++ putS8 p.orientation.sign ++ putU16 p.lineCode ++ putOptU8 (p.currentEntry.map (·.segment)) ++
    putU8 ((p.currentEntry.map (fun x => (p.segmentOf x).limitSet)).getD 0) ++ putOptS32 p.exitChainage ++
    putMark p.lineMark ++ putU8 p.plan.length

/-- The number of open runs. -/
def Exu.openRuns (x : Exu) : Nat := x.runs.toList.countP Option.isSome

/-- The EXU's part, with the written marks of the limit sets (R154). -/
def State.exuStatusBytes (s : State) : List Byte :=
  be32 s.exu.judged ++ be32 s.exu.opened ++ be32 s.exu.onsets ++ be32 s.exu.closed ++ putU8 s.exu.openRuns ++
    (List.range 16).flatMap (fun k => putMark (s.rcu.isWritten (.limitSet k)))

/-- The MTU's fields of one marker line (R170). -/
def State.markerStatusBytes (s : State) (m : MarkerLine) : List Byte :=
  let x := s.mtu.marker m
  putMark (s.rcu.isWritten (.marker m)) ++ be16 x.captures ++ putOptS32 x.previous ++ putU16 x.ignored

/-- The MTU's fields of one trigger channel (R170). -/
def State.triggerStatusBytes (s : State) (t : Trigger) : List Byte :=
  let x := s.mtu.trigger t
  putMark (s.rcu.isWritten (.trigger t)) ++ putMark x.enable ++ putMark x.timer.isSome ++ be16 x.pulses ++ putU16 x.dropped ++
    putOptS32 x.lastStarted ++ putOptS32 x.lastDropped

/-- The MTU's part (R170). -/
def State.mtuStatusBytes (s : State) : List Byte :=
  putMark s.mtu.running ++ s.markerStatusBytes .m1 ++ s.markerStatusBytes .m2 ++ putU8 s.mtu.list.length ++
    s.triggerStatusBytes .t1 ++ s.triggerStatusBytes .t2 ++ s.triggerStatusBytes .t3 ++ s.triggerStatusBytes .t4

/-- The 91 items in the order of the Run Controller's state list (R202). -/
def allItems : List ItemId :=
  requiredItems ++ (List.range 16).map ItemId.limitSet ++ (List.range 64).map ItemId.segment ++ [.marker .m1, .marker .m2] ++
    [.trigger .t1, .trigger .t2, .trigger .t3, .trigger .t4]

/-- The RCU's part (R181). -/
def Rcu.statusBytes (r : Rcu) : List Byte :=
  putU8 r.runState.code ++ be32 r.runNumber ++ be32 r.eventCount ++ putU8 r.source.code ++ be32 r.generation ++
    allItems.flatMap (fun i => putMark (r.isWritten i))

/-- A store's fields (R196). -/
def Store.statusBytes {α : Type} (s : Store α) : List Byte := be32 s.oldest ++ be32 s.next ++ be32 (s.next - s.oldest)

/-- The RDS's part (R196). -/
def Rds.statusBytes (d : Rds) : List Byte := d.geometry.statusBytes ++ d.exceptions.statusBytes

/-- The CPC's part for a requesting port, marks and ATTN as they stood at service (R196, log entry 14). -/
def State.cpcStatusBytes (s : State) (p : Port) : List Byte :=
  let x := s.cpc.port p
  be32 x.geoCursor ++ be32 x.excCursor ++ be32 (s.rds.geometry.unread x.geoCursor) ++
    be32 (s.rds.exceptions.unread x.excCursor) ++ putMark x.geoGap ++ putMark x.excGap ++ putU16 x.watermark ++
    putU8 x.threshold ++ putMark x.news ++ putMark (s.attn p) ++ putU8 s.cpc.cp0.phase.code ++ putU8 s.cpc.cp1.phase.code ++
    putU8 s.cpc.cp2.phase.code ++ putU8 (portCode s.cpc.lastServed)

/-- A part begins with its own length in 2 bytes (R202; the length counts the fields that follow it, log entry 14). -/
def statusPart (fields : List Byte) : List Byte := putU16 fields.length ++ fields

/-- The payload of the status reply (R202). -/
def State.statusPayload (s : State) (p : Port) : List Byte :=
  statusPart s.odu.statusBytes ++ statusPart s.slc.statusBytes ++ statusPart s.asu.statusBytes ++
    statusPart s.gcu.statusBytes ++ statusPart s.pru.statusBytes ++ statusPart s.pru.cursorStatusBytes ++
    statusPart s.exuStatusBytes ++ statusPart s.mtuStatusBytes ++ statusPart s.rcu.statusBytes ++
    statusPart s.rds.statusBytes ++ statusPart (s.cpcStatusBytes p)

/-! ### List entries (R153, R191, R202) -/

/-- An open-run entry, 36 bytes (R202). -/
def openRunBytes (p : Param) : Option OpenRun → List Byte
  | none => putU8 p.number ++ List.replicate 35 0
  | some x =>
    putU8 p.number ++ [1] ++ putU8 x.side.code ++ putS32 x.startIndex ++ putS32 x.startChainage ++ putS32 x.lastIndex ++
      putS32 x.lastChainage ++ putU8 x.severity ++ putS32 x.peak ++ putS32 x.peakChainage ++ putU8 x.inside ++
      putU8 x.absent ++ putU8 x.limitSet ++ putU16 x.lineCode ++ putOrFF x.segment ++ putMark x.uncertainSeen ++
      putMark x.onsetSent

/-- A fix list entry, 23 bytes; the errors are saturated on the wire (R199, R202). -/
def Fix.toBytes (f : Fix) : List Byte :=
  putS32 f.j ++ putS32 f.chainage ++ putS32 (satS32 f.error) ++ putS32 (satS32 f.errorNow) ++ putU8 f.grade ++
    putU8 (portCode f.port) ++ putU16 f.lineCode ++ be16 f.epoch ++ putU8 f.kind.code

/-- The presence byte and the projected chainage (R199, R202). -/
def Projected.toBytes : Projected → List Byte
  | .pending => [2, 0, 0, 0, 0]
  | .stale => putOptS32 none
  | .at c => putOptS32 (some c)

/-- A marker list entry, 17 bytes (R202). -/
def MarkerEntry.toBytes (e : MarkerEntry) : List Byte :=
  putU8 (markerCode e.line) ++ be16 e.number ++ putS32 e.j ++ putS32 e.event ++ e.projected.toBytes ++ putU8 e.placement.code

/-! ### Requests -/

/-- READ_STATUS (R192): all parts at one moment; the port's state-news mark is then cleared. -/
def serveReadStatus (p : Port) (_ : Request) (s : State) : State × Reply :=
  ({ s with cpc := s.cpc.setPort p { s.cpc.port p with news := false } }, .of .ok (s.statusPayload p))

/-- READ_OPEN_RUNS (R153, R191). -/
def serveReadOpenRuns (_ : Port) (_ : Request) (s : State) : State × Reply :=
  answered (.of .ok (allParams.flatMap (fun p => openRunBytes p (s.exu.runs.get p)))) s

/-- READ_FIXES (R191). -/
def serveReadFixes (_ : Port) (_ : Request) (s : State) : State × Reply :=
  answered (.of .ok (putU8 s.pru.fixes.length ++ s.pru.fixes.flatMap Fix.toBytes)) s

/-- READ_MARKERS (R191). -/
def serveReadMarkers (_ : Port) (_ : Request) (s : State) : State × Reply :=
  answered (.of .ok (putU8 s.mtu.list.length ++ s.mtu.list.flatMap MarkerEntry.toBytes)) s

/-! ### Commands -/

/-- READ_STATUS (R192). -/
def execReadStatus (s : State) : Host.Outcome State Fault Refusal := .next (s.serve .readStatus serveReadStatus)

/-- READ_OPEN_RUNS (R153). -/
def execReadOpenRuns (s : State) : Host.Outcome State Fault Refusal := .next (s.serve .readOpenRuns serveReadOpenRuns)

/-- READ_FIXES (R191). -/
def execReadFixes (s : State) : Host.Outcome State Fault Refusal := .next (s.serve .readFixes serveReadFixes)

/-- READ_MARKERS (R191). -/
def execReadMarkers (s : State) : Host.Outcome State Fault Refusal := .next (s.serve .readMarkers serveReadMarkers)

end Sys2Proof.Machine
end

