-- ==== Sys2Proof/Machine/Store.lean ====
section
/-! DEFINITION. The Record Store (R182 to R184, R188 to R190) with the wire encoding of its records (R87, R88, R201):
appends, cursors, reads; and their commands. -/

namespace Sys2Proof.Machine

/-! ### Wire encoding (R87, R88) -/

/-- The code of an absent value (R87). -/
def absentCode : Int := -32768

/-- A value clipped to the wire range, and whether it was clipped (R87). -/
def clipped (x : Int) : Int × Bool := (clamp (-32767) 32767 x, decide (clamp (-32767) 32767 x ≠ x))

/-- A checked parameter on the wire: tens of µm, halves away from zero (R87). -/
def wireValue (x : Option Int) : Int × Bool :=
  match x with
  | some v => clipped (roundAway v 10)
  | none => (absentCode, false)

/-- The curvature on the wire (R87). -/
def wireCurvature (x : Option Int) : Int × Bool :=
  match x with
  | some v => clipped v
  | none => (absentCode, false)

/-- The speed on the wire: cm/s, halves up (R88). -/
def wireSpeed (v : Nat) : Nat := min 65535 (roundUp v 10).toNat

/-- The wire record of an annotated output record, with its sequence number (R87, R88). -/
def wireRecord (r : OutputRecord) (levels : Seven Nat) (sequence : Word32) : WireRecord :=
  let w := r.values.checked.map wireValue
  let cv := wireCurvature r.values.cv
  { sequence := sequence, run := r.run.setWidth 16, flags := r.flags ((w.map (·.2)).toList.any id || cv.2), j := r.j,
    chainage := r.chainage, lineCode := r.lineCode, segment := r.segment, planEntry := r.planEntry,
    speed := wireSpeed r.speed, levels := levelWord levels, values := w.map (·.1), cv := cv.1 }

/-- A value of a record, 2 bytes signed. -/
def putS16 (x : Int) : List Byte := be16 (BitVec.ofInt 16 x)

/-- The 40 bytes of a geometry record (R201). -/
def WireRecord.toBytes (r : WireRecord) : List Byte :=
  be32 r.sequence ++ be16 r.run ++ be16 r.flags ++ putS32 r.j ++ putS32 r.chainage ++ putU16 r.lineCode ++ putOrFF r.segment ++
    putOrFF r.planEntry ++ putU16 r.speed ++ be16 r.levels ++ r.values.toList.flatMap putS16 ++ putS16 r.cv

/-- The 38 bytes of an exception record (R201). -/
def StoredException.toBytes (e : StoredException) : List Byte :=
  let r := e.record
  be32 e.sequence ++ be16 (r.run.setWidth 16) ++ putU8 r.kind.code ++ putU8 r.param.number ++ putU8 r.severity ++
    putU8 r.side.code ++ putU8 r.cause.code ++ [r.flags] ++ putS32 r.startIndex ++ putS32 r.startChainage ++
    putS32 r.endChainage ++ putS32 r.peak ++ putS32 r.peakChainage ++ putU16 r.length ++ putU16 r.lineCode ++
    putOrFF r.segment ++ putU8 r.limitSet

/-! ### Appends (R182 to R184) -/

/-- The capacity of the geometry store (R182). -/
def geometryCapacity : Nat := 8192

/-- The capacity of the exception store (R183). -/
def exceptionCapacity : Nat := 256

/-- Append a record, with the sequence number it takes; a full store replaces its oldest record (R182, R183). -/
def Store.append {α : Type} (s : Store α) (capacity : Nat) (record : Word32 → α) : Store α :=
  if s.records.length < capacity then
    { s with records := s.records ++ [record s.next], next := s.next + 1 }
  else { records := s.records.drop 1 ++ [record s.next], oldest := s.oldest + 1, next := s.next + 1 }

/-- A cursor and its GAP mark after an append: one that names the replaced record is moved and its mark set (R184). -/
def moveCursor (full : Bool) (oldest cursor : Word32) (gap : Bool) : Word32 × Bool :=
  if full && cursor == oldest then (cursor + 1, true) else (cursor, gap)

/-- The ports' geometry cursors follow an append to store `s` (R184). -/
def Cpc.followGeometry (c : Cpc) (s : Store WireRecord) : Cpc :=
  c.mapPorts (fun x =>
    let m := moveCursor (decide (geometryCapacity ≤ s.records.length)) s.oldest x.geoCursor x.geoGap
    { x with geoCursor := m.1, geoGap := m.2 })

/-- The ports' exception cursors follow an append to store `s` (R184). -/
def Cpc.followExceptions (c : Cpc) (s : Store StoredException) : Cpc :=
  c.mapPorts (fun x =>
    let m := moveCursor (decide (exceptionCapacity ≤ s.records.length)) s.oldest x.excCursor x.excGap
    { x with excCursor := m.1, excGap := m.2 })

/-- An annotated record is encoded and appended (R182, R184). -/
def State.appendGeometry (s : State) (r : OutputRecord) (levels : Seven Nat) : State :=
  { s with
    rds := { s.rds with geometry := s.rds.geometry.append geometryCapacity (wireRecord r levels) },
    cpc := s.cpc.followGeometry s.rds.geometry }

/-- An exception record is appended (R183, R184). -/
def State.appendException (s : State) (r : ExceptionRecord) : State :=
  { s with
    rds := { s.rds with exceptions := s.rds.exceptions.append exceptionCapacity
                          (fun sequence => { sequence := sequence, record := r }) },
    cpc := s.cpc.followExceptions s.rds.exceptions }

/-! ### Reads (R188 to R190) -/

/-- The most records of one reply (R188). -/
def maxRecords : Nat := 24

/-- The records a read returns, and the cursor after it (R188, R189). -/
def Store.read {α : Type} (s : Store α) (cursor : Word32) (n : Nat) : List α × Word32 :=
  let rs := (s.from cursor).take (min n maxRecords)
  (rs, cursor + BitVec.ofNat 32 rs.length)

/-- The reply of a read: number returned, number still unread, records; GAP as it stood (R188, R201). -/
def readReply (count : Nat) (unread : Word32) (records : List Byte) (gap : Bool) : Reply :=
  { status := .ok, gap := gap, payload := putU8 count ++ be32 unread ++ records }

/-- READ_RECORDS (R188). -/
def serveReadRecords (p : Port) (rq : Request) (s : State) : State × Reply :=
  let x := s.cpc.port p
  let r := s.rds.geometry.read x.geoCursor (getU16 rq.payload 0)
  ({ s with cpc := s.cpc.setPort p { x with geoCursor := r.2, geoGap := false } },
   readReply r.1.length (s.rds.geometry.unread r.2) (r.1.flatMap WireRecord.toBytes) x.geoGap)

/-- READ_EXCEPTIONS (R189). -/
def serveReadExceptions (p : Port) (rq : Request) (s : State) : State × Reply :=
  let x := s.cpc.port p
  let r := s.rds.exceptions.read x.excCursor (getU16 rq.payload 0)
  ({ s with cpc := s.cpc.setPort p { x with excCursor := r.2, excGap := false } },
   readReply r.1.length (s.rds.exceptions.unread r.2) (r.1.flatMap StoredException.toBytes) x.excGap)

/-- SET_CURSOR (R190): store GEOMETRY 0 or EXCEPTION 1, position OLDEST 0 or NEWEST 1. -/
def serveSetCursor (p : Port) (rq : Request) (s : State) : State × Reply :=
  let x := s.cpc.port p
  let position (oldest next : Word32) : Option Word32 :=
    match getU8 rq.payload 1 with
    | 0 => some oldest
    | 1 => some next
    | _ => none
  match getU8 rq.payload 0, position s.rds.geometry.oldest s.rds.geometry.next,
        position s.rds.exceptions.oldest s.rds.exceptions.next with
  | 0, some cursor, _ =>
    ({ s with cpc := s.cpc.setPort p { x with geoCursor := cursor, geoGap := false } },
     .of .ok (be32 cursor ++ be32 (s.rds.geometry.unread cursor)))
  | 1, _, some cursor =>
    ({ s with cpc := s.cpc.setPort p { x with excCursor := cursor, excGap := false } },
     .of .ok (be32 cursor ++ be32 (s.rds.exceptions.unread cursor)))
  | _, _, _ => answered (.of .range []) s

/-! ### Commands -/

/-- GEOMETRY_APPEND (R182): records are appended in the order the EXU hands them. -/
def execGeometryAppend (s : State) : Host.Outcome State Fault Refusal :=
  match s.bus.toRds with
  | .geometry r levels :: rest => .next (State.appendGeometry { s with bus := { s.bus with toRds := rest } } r levels)
  | _ => .next s

/-- EXCEPTION_APPEND (R183). -/
def execExceptionAppend (s : State) : Host.Outcome State Fault Refusal :=
  match s.bus.toRds with
  | .exception r :: rest => .next (State.appendException { s with bus := { s.bus with toRds := rest } } r)
  | _ => .next s

/-- READ_RECORDS (R188). -/
def execReadRecords (s : State) : Host.Outcome State Fault Refusal := .next (s.serve .readRecords serveReadRecords)

/-- READ_EXCEPTIONS (R189). -/
def execReadExceptions (s : State) : Host.Outcome State Fault Refusal := .next (s.serve .readExceptions serveReadExceptions)

/-- SET_CURSOR (R190). -/
def execSetCursor (s : State) : Host.Outcome State Fault Refusal := .next (s.serve .setCursor serveSetCursor)

end Sys2Proof.Machine
end

