-- ==== Sys2Proof/Machine/Dispatch.lean ====
section
/-! DEFINITION. One arm per command: each is one call of its meaning. -/

namespace Sys2Proof.Machine

def exec (i : Instr) (s : State) : Host.Outcome State Fault Refusal :=
  match i with
  | .powerOn cause => Sys2Proof.Machine.execPowerOn cause s
  | .startUpHoldEnd => Sys2Proof.Machine.execStartUpHoldEnd s
  | .encoderCount e ch ticks => Sys2Proof.Machine.execEncoderCount e ch ticks s
  | .illegalTransition e => Sys2Proof.Machine.execIllegalTransition e s
  | .zPulse e => Sys2Proof.Machine.execZPulse e s
  | .paceCount => Sys2Proof.Machine.execPaceCount s
  | .standstillExpiry => Sys2Proof.Machine.execStandstillExpiry s
  | .slotStart => Sys2Proof.Machine.execSlotStart s
  | .slotEnd l opened bytes => Sys2Proof.Machine.execSlotEnd l opened bytes s
  | .slcSampleEvent => Sys2Proof.Machine.execSlcSampleEvent s
  | .delivery => Sys2Proof.Machine.execDelivery s
  | .asuReversalNotice => Sys2Proof.Machine.execAsuReversalNotice s
  | .asuStartNotice => Sys2Proof.Machine.execAsuStartNotice s
  | .asuSuspendNotice => Sys2Proof.Machine.execAsuSuspendNotice s
  | .asuStopNotice => Sys2Proof.Machine.execAsuStopNotice s
  | .markRequest => Sys2Proof.Machine.execMarkRequest s
  | .baseRecord => Sys2Proof.Machine.execBaseRecord s
  | .gcuReversalNotice => Sys2Proof.Machine.execGcuReversalNotice s
  | .gcuSuspendNotice => Sys2Proof.Machine.execGcuSuspendNotice s
  | .gcuStopNotice => Sys2Proof.Machine.execGcuStopNotice s
  | .gcuStartNotice => Sys2Proof.Machine.execGcuStartNotice s
  | .pruSampleEvent => Sys2Proof.Machine.execPruSampleEvent s
  | .pruReversalNotice => Sys2Proof.Machine.execPruReversalNotice s
  | .pruStartNotice => Sys2Proof.Machine.execPruStartNotice s
  | .pruSuspendNotice => Sys2Proof.Machine.execPruSuspendNotice s
  | .pruResumptionNotice => Sys2Proof.Machine.execPruResumptionNotice s
  | .pruStopNotice => Sys2Proof.Machine.execPruStopNotice s
  | .chainageRequest => Sys2Proof.Machine.execChainageRequest s
  | .outputRecord => Sys2Proof.Machine.execOutputRecord s
  | .streamEndNotice => Sys2Proof.Machine.execStreamEndNotice s
  | .exuStartNotice => Sys2Proof.Machine.execExuStartNotice s
  | .geometryAppend => Sys2Proof.Machine.execGeometryAppend s
  | .exceptionAppend => Sys2Proof.Machine.execExceptionAppend s
  | .markerEdge m edge => Sys2Proof.Machine.execMarkerEdge m edge s
  | .chainageAnswer => Sys2Proof.Machine.execChainageAnswer s
  | .placementAnswer => Sys2Proof.Machine.execPlacementAnswer s
  | .markLossReport => Sys2Proof.Machine.execMarkLossReport s
  | .mtuSampleEvent => Sys2Proof.Machine.execMtuSampleEvent s
  | .pulseExpiry t => Sys2Proof.Machine.execPulseExpiry t s
  | .mtuStartNotice => Sys2Proof.Machine.execMtuStartNotice s
  | .mtuSuspendNotice => Sys2Proof.Machine.execMtuSuspendNotice s
  | .mtuResumptionNotice => Sys2Proof.Machine.execMtuResumptionNotice s
  | .mtuStopNotice => Sys2Proof.Machine.execMtuStopNotice s
  | .slcStartNotice => Sys2Proof.Machine.execSlcStartNotice s
  | .slcSuspendNotice => Sys2Proof.Machine.execSlcSuspendNotice s
  | .slcStopNotice => Sys2Proof.Machine.execSlcStopNotice s
  | .oduStopNotice => Sys2Proof.Machine.execOduStopNotice s
  | .oduResumptionNotice => Sys2Proof.Machine.execOduResumptionNotice s
  | .rcuSampleEvent => Sys2Proof.Machine.execRcuSampleEvent s
  | .odometryLost => Sys2Proof.Machine.execOdometryLost s
  | .odometryRestored => Sys2Proof.Machine.execOdometryRestored s
  | .requestFrame p bytes extraBits => Sys2Proof.Machine.execRequestFrame p bytes extraBits s
  | .busySelect p count => Sys2Proof.Machine.execBusySelect p count s
  | .replyRead p bits => Sys2Proof.Machine.execReplyRead p bits s
  | .unknownRequest => Sys2Proof.Machine.execUnknownRequest s
  | .echo => Sys2Proof.Machine.execEcho s
  | .readStatus => Sys2Proof.Machine.execReadStatus s
  | .readRecords => Sys2Proof.Machine.execReadRecords s
  | .readExceptions => Sys2Proof.Machine.execReadExceptions s
  | .setCursor => Sys2Proof.Machine.execSetCursor s
  | .setAttention => Sys2Proof.Machine.execSetAttention s
  | .readOpenRuns => Sys2Proof.Machine.execReadOpenRuns s
  | .readFixes => Sys2Proof.Machine.execReadFixes s
  | .readMarkers => Sys2Proof.Machine.execReadMarkers s
  | .start => Sys2Proof.Machine.execStart s
  | .stop => Sys2Proof.Machine.execStop s
  | .setItem => Sys2Proof.Machine.execSetItem s
  | .readItem => Sys2Proof.Machine.execReadItem s
  | .setPace => Sys2Proof.Machine.execSetPace s
  | .fixAt => Sys2Proof.Machine.execFixAt s
  | .fixNow => Sys2Proof.Machine.execFixNow s
  | .calibrate => Sys2Proof.Machine.execCalibrate s
  | .jumpPlan => Sys2Proof.Machine.execJumpPlan s
  | .resetPinRelease => Sys2Proof.Machine.execResetPinRelease s

end Sys2Proof.Machine
end

