-- ==== Sys2Proof/Machine/Idle.lean ====
section
/-! DEFINITION. What the part does while no command waits: it takes the first event of its own that has come about, or
lets one tick pass (log entry 2). -/

namespace Sys2Proof.Machine

/-- The event by which the PRU takes a message. -/
def pruEvent : Message → Instr
  | .event _ => .pruSampleEvent
  | .reversal => .pruReversalNotice
  | .start _ => .pruStartNotice
  | .suspend => .pruSuspendNotice
  | .resume => .pruResumptionNotice
  | .stop => .pruStopNotice

/-- The event by which the MTU takes a message; a reversal notice does not reach it. -/
def mtuEvent : Message → Option Instr
  | .event _ => some .mtuSampleEvent
  | .reversal => none
  | .start _ => some .mtuStartNotice
  | .suspend => some .mtuSuspendNotice
  | .resume => some .mtuResumptionNotice
  | .stop => some .mtuStopNotice

/-- The event by which the SLC takes a message; it takes a sample event after the PRU has taken it (R6). -/
def slcEvent (s : State) : Message → Option Instr
  | .event _ => if eventCountOf s.bus.toPru < eventCountOf s.bus.toSlc then some .slcSampleEvent else none
  | .reversal => none
  | .start _ => some .slcStartNotice
  | .suspend => some .slcSuspendNotice
  | .resume => none
  | .stop => some .slcStopNotice

/-- The event by which the ODU takes a message. -/
def oduEvent : Message → Option Instr
  | .stop => some .oduStopNotice
  | .resume => some .oduResumptionNotice
  | _ => none

/-- The event by which the RCU takes a message. -/
def rcuEvent : RcuMessage → Instr
  | .event _ => .rcuSampleEvent
  | .lost => .odometryLost
  | .restored => .odometryRestored

/-- The event by which the ASU takes a message. -/
def asuEvent : AsuMessage → Instr
  | .delivery _ => .delivery
  | .reversal => .asuReversalNotice
  | .start _ => .asuStartNotice
  | .suspend => .asuSuspendNotice
  | .stop => .asuStopNotice

/-- The event by which the GCU takes a message. -/
def gcuEvent : GcuMessage → Instr
  | .base _ => .baseRecord
  | .reversal => .gcuReversalNotice
  | .start _ => .gcuStartNotice
  | .suspend => .gcuSuspendNotice
  | .stop => .gcuStopNotice

/-- The event by which the EXU takes a message. -/
def exuEvent : ExuMessage → Instr
  | .record _ => .outputRecord
  | .streamEnd _ _ => .streamEndNotice
  | .start => .exuStartNotice

/-- The event by which the Record Store takes a record. -/
def rdsEvent : RdsMessage → Instr
  | .geometry _ _ => .geometryAppend
  | .exception _ => .exceptionAppend

/-- The event by which the MTU takes an answer of the ASU. -/
def asuAnswerEvent : AsuAnswer → Instr
  | .placement _ _ _ => .placementAnswer
  | .loss _ _ _ => .markLossReport

/-- The command of a request. -/
def serviceEvent : Service → Instr
  | .unknown => .unknownRequest
  | .echo => .echo
  | .readStatus => .readStatus
  | .readRecords => .readRecords
  | .readExceptions => .readExceptions
  | .setCursor => .setCursor
  | .setAttention => .setAttention
  | .readOpenRuns => .readOpenRuns
  | .readFixes => .readFixes
  | .readMarkers => .readMarkers
  | .start => .start
  | .stop => .stop
  | .setItem => .setItem
  | .readItem => .readItem
  | .setPace => .setPace
  | .fixAt => .fixAt
  | .fixNow => .fixNow
  | .calibrate => .calibrate
  | .jumpPlan => .jumpPlan

/-- `c` once a timer has run out. -/
def timerEvent (now : Nat) (timer : Option Nat) (c : Instr) : Option Instr :=
  timer.bind (fun tick => if tick ≤ now then some c else none)

/-- The events that have come about by themselves: waiting hand-overs, the service of the arbiter unless it is a SET_ITEM that
waits (log entry 29), and timers that have run out. -/
def State.ownEvents (s : State) : List (Option Instr) :=
  [(match s.power with
    | .startUp tick => if tick ≤ s.now then some .startUpHoldEnd else none
    | _ => none),
   s.bus.toRds.head?.map rdsEvent, s.bus.toExu.head?.map exuEvent, s.bus.toGcu.head?.map gcuEvent,
   s.bus.asuAnswers.head?.map asuAnswerEvent, s.bus.chainageAnswers.head?.map (fun _ => .chainageAnswer),
   s.bus.toAsu.head?.map asuEvent, s.bus.markRequests.head?.map (fun _ => .markRequest),
   s.bus.chainageRequests.head?.map (fun _ => .chainageRequest), s.bus.toPru.head?.map pruEvent,
   s.bus.toSlc.head?.bind (slcEvent s), s.bus.toMtu.head?.bind mtuEvent, s.bus.toOdu.head?.bind oduEvent,
   s.bus.toRcu.head?.map rcuEvent,
   if s.itemWaits then none else s.cpc.nextService.map (fun r => serviceEvent (serviceOf r.2)),
   timerEvent s.now s.odu.paceTimer .paceCount, timerEvent s.now s.odu.standstill .standstillExpiry,
   timerEvent s.now s.mtu.t1.timer (.pulseExpiry .t1), timerEvent s.now s.mtu.t2.timer (.pulseExpiry .t2),
   timerEvent s.now s.mtu.t3.timer (.pulseExpiry .t3), timerEvent s.now s.mtu.t4.timer (.pulseExpiry .t4),
   if s.slc.s1.slotOpen || s.slc.s2.slotOpen || s.slc.s3.slotOpen then none
   else timerEvent s.now s.slc.slotTimer .slotStart]

/-- The first event of its own that the part takes next. -/
def State.ownEvent (s : State) : Option Instr := s.ownEvents.findSome? id

/-- A step with no command waiting: an event of its own comes to the queue, or one tick passes (log entry 2). -/
def State.idle (s : State) : State :=
  match s.ownEvent with
  | some c => { s with pending := [c] }
  | none => { s with now := s.now + 1 }

end Sys2Proof.Machine
end

