-- ==== Sys2Proof/Safety.lean ====
section
/-! DEFINITION. What counts as a sound state, in the terms the claims use: the values after power-on, and the invariants the
manual's rules promise of every state of the part. -/

namespace Sys2Proof.Safety

open Sys2Proof.Machine

/-! ### Terms of the rules, written out for the statements -/

/-- The value of a count: A leading B is end 1 leading with mounting sense NORMAL (R1). A change of A leads when the levels
were equal, a change of B when they differed. -/
def countValue (x : EncoderState) (ch : QuadChannel) : Int :=
  let aLeads : Bool := match ch with
    | .a => x.levelA == x.levelB
    | .b => x.levelA != x.levelB
  if aLeads = (x.mounting == .normal) then 1 else -1

/-- An encoder whose decoder has taken a change of one channel (R1). -/
def turned (x : EncoderState) (ch : QuadChannel) : EncoderState :=
  match ch with
  | .a => { x with levelA := !x.levelA }
  | .b => { x with levelB := !x.levelB }

/-- A mismatch of an encoder: a strike on an OK one, FAILED at the third; the good checks of a FAILED one start again (R13, R15). -/
def Mismatched (x z : EncoderState) : Prop :=
  (x.health = .ok → x.strikes < 2 → z.health = .ok ∧ z.strikes = x.strikes + 1 ∧ z.goodChecks = x.goodChecks) ∧
  (x.health = .ok → 2 ≤ x.strikes → z.health = .failed ∧ z.strikes = 0 ∧ z.goodChecks = 0) ∧
  (x.health = .failed → z.health = .failed ∧ z.strikes = x.strikes ∧ z.goodChecks = 0)

/-- The supervision of the encoder that makes a count of value v (R14, R16): `x` before it and `z` after it. -/
def Counted (x z : EncoderState) (v : Int) : Prop :=
  let same : Prop := ∃ q, x.prevSense = some q ∧ q.value = v
  z.silence = 0 ∧ (∃ q, z.prevSense = some q ∧ q.value = v) ∧ z.weight = x.weight ∧ z.countsPerRev = x.countsPerRev ∧
  z.circumference = x.circumference ∧ z.mounting = x.mounting ∧
  ∀ n : Nat, (same → n = x.indexCount + 1) → (¬same → n = 1) →
    (n ≠ x.countsPerRev + 3 → z.indexCount = n ∧ (z.aligned = true ↔ same ∧ x.aligned = true) ∧ z.health = x.health ∧
      z.strikes = x.strikes ∧ z.goodChecks = x.goodChecks) ∧
    (n = x.countsPerRev + 3 → z.indexCount = 0 ∧ z.aligned = false ∧ Mismatched x z)

/-- The silence count of the other encoder at a count of value v: at a magnitude of 512 it is judged silent (R16). -/
def Overheard (y w : EncoderState) (v : Int) : Prop :=
  ((y.silence + v).natAbs < 512 → w = { y with silence := y.silence + v, eventDistance := w.eventDistance }) ∧
  (512 ≤ (y.silence + v).natAbs → w = { y with
    silence := 0, health := .failed, goodChecks := 0, strikes := (match y.health with
      | .ok => 0
      | .failed => y.strikes), eventDistance := w.eventDistance })

/-- What follows when the active encoder becomes FAILED in RUNNING, by the health of the other one (R18). `view` is the ODU's own
record of the run (log entry 4). -/
def SwitchedOrLost (o p : Odu) (other : Health) : Prop :=
  (other = .ok → p.active = encoderOther o.active ∧ p.epoch = o.epoch + 1 ∧ p.encSwitch = true ∧ p.view = .running) ∧
  (other = .failed → p.active = o.active ∧ p.epoch = o.epoch ∧ p.speed = 0 ∧ p.encSwitch = false ∧ p.view = .suspended)

/-- The sample event for the next index n has fired at tick `now` (R5, R6, R9, R10): F, n, the direction and tick of the latest event,
the standstill timer and the speed follow it, the ENC_SWITCH mark is used up (a switch at the same count sets it anew) and the event
distances begin again; the event carries n, the direction, the mark, its speed and the SLIP flag, and is handed to the PRU, the SLC, the
MTU and the RCU behind what waits there. `reports` is what the supervision of the same count reports behind it. The mark for a speed of
0 is the model's (log entry 4). -/
def FiresNext (s t : State) (now : Nat) (slip : Prop) (reports : List RcuMessage) : Prop :=
  let o := s.odu
  t.odu.frontier = o.next ∧ t.odu.next = o.next + o.direction.sign ∧ t.odu.direction = o.direction ∧
  t.odu.eventDirection = o.direction ∧ t.odu.eventTick = now ∧ t.odu.standstill = some (now + 2097152) ∧
  t.odu.zeroSpeedNext = false ∧ (t.odu.active = o.active → t.odu.encSwitch = false) ∧
  (∀ e, (t.odu.enc e).eventDistance = 0) ∧
  ∃ ev : SampleEvent, t.bus.toPru = s.bus.toPru ++ [.event ev] ∧ t.bus.toMtu = s.bus.toMtu ++ [.event ev] ∧
    t.bus.toSlc = s.bus.toSlc ++ [.event ev] ∧ t.bus.toRcu = s.bus.toRcu ++ .event ev :: reports ∧
    ev.k = o.next ∧ ev.direction = o.direction ∧ ev.encSwitch = o.encSwitch ∧ (ev.slip = true ↔ slip) ∧
    (reports = [] → t.odu.speed = ev.speed) ∧ (o.zeroSpeedNext = true → ev.speed = 0) ∧
    ∀ dt : Nat, dt = min (now - o.eventTick) 2097152 → 0 < dt → o.zeroSpeedNext = false →
      ev.speed = (2 * (o.interval * 1048576) + dt) / (2 * dt)

/-- No sample event has fired (R5): F, n, direction and tick of the latest event, the timer and the mark for a speed of 0 stay, and
nothing but the reports of the supervision is handed over. -/
def FiresNothing (s t : State) (reports : List RcuMessage) : Prop :=
  let o := s.odu
  t.odu.frontier = o.frontier ∧ t.odu.next = o.next ∧ t.odu.direction = o.direction ∧ t.odu.eventDirection = o.eventDirection ∧
  t.odu.eventTick = o.eventTick ∧ t.odu.standstill = o.standstill ∧ t.odu.zeroSpeedNext = o.zeroSpeedNext ∧
  t.bus.toPru = s.bus.toPru ∧ t.bus.toMtu = s.bus.toMtu ∧ t.bus.toSlc = s.bus.toSlc ∧ t.bus.toRcu = s.bus.toRcu ++ reports

/-- What a reversal declared at a position leaves (R8): direction and X, the next index by the direction in which the latest event
fired, the notice to the PRU and, behind the deliveries still to come, to the ASU (log entry 3), and the event for that index when
its boundary is already passed, at most one (log entry 6), with speed 0; otherwise the next event is marked to carry speed 0 (the mark is
the model's, log entry 4). `reports` is what the supervision of the same count reports. -/
def ReversedAt (s t : State) (moved : Int) (reports : List RcuMessage) : Prop :=
  let o := s.odu
  let d := o.direction.flip
  let n := if o.eventDirection = o.direction then o.frontier else o.frontier + d.sign
  let passed : Prop := d.sign * (n * (o.interval * 65536)) ≤ d.sign * moved ∧ -2147483648 ≤ n ∧ n ≤ 2147483647
  t.odu.direction = d ∧ t.odu.extreme = moved ∧
  ∃ evs : List Message,
    t.bus.toPru = s.bus.toPru ++ .reversal :: evs ∧
    (s.bus.toSlc = [] → t.bus.toAsu = s.bus.toAsu ++ [.reversal] ∧ t.bus.toSlc = evs) ∧
    (s.bus.toSlc ≠ [] → s.bus.toSlc.head? ≠ some .reversal → t.bus.toAsu = s.bus.toAsu ∧
      t.bus.toSlc = s.bus.toSlc ++ .reversal :: evs) ∧
    t.bus.toMtu = s.bus.toMtu ++ evs ∧
    (passed → t.odu.frontier = n ∧ t.odu.next = n + d.sign ∧ t.odu.eventDirection = d ∧ t.odu.zeroSpeedNext = false ∧
      ∃ ev : SampleEvent, evs = [.event ev] ∧ ev.k = n ∧ ev.direction = d ∧ ev.speed = 0 ∧
        t.bus.toRcu = s.bus.toRcu ++ .event ev :: reports) ∧
    (¬passed → t.odu.frontier = o.frontier ∧ t.odu.next = n ∧ t.odu.zeroSpeedNext = true ∧ evs = [] ∧
      t.bus.toRcu = s.bus.toRcu ++ reports)

/-- Whether a frame of a link is good, or why it is missing, from the frame clocked in (R27, R197, R200). -/
def causeOf (l : Link) (opened : Bool) (bytes : List Byte) : FaultCause :=
  if opened = false then .timing
  else if bytes.getD 0 0 ≠ 0xB4 then .sync
  else if (frameCheck (bytes.take (l.frameLength - 2))).toNat ≠
      (bytes.getD (l.frameLength - 2) 0).toNat * 256 + (bytes.getD (l.frameLength - 1) 0).toNat then .check
  else .none

/-- The figures of one leaky integrator at a step with acceleration `a`: the sums are clamped to ±(2^47 − 1), and a clamped sum
sets the saturation mark (R34). -/
def Leaks (i j : Integrator) (a : Int) (kv kp : Nat) : Prop :=
  let bound : Int := 140737488355327
  let v := i.v + a - i.v / ((2 ^ kv : Nat) : Int)
  let p := i.p + j.v - i.p / ((2 ^ kp : Nat) : Int)
  j.v = max (-bound) (min bound v) ∧ j.p = max (-bound) (min bound p) ∧
  (j.saturated = true ↔ i.saturated = true ∨ bound < v ∨ v < -bound ∨ bound < p ∨ p < -bound)

/-- The evaluation of a group at an event of speed v (R41): `lost` says that a channel it depends on is LOST. -/
def Evaluated (c : Slc) (g h : Group) (lost : Prop) (v : Nat) : Prop :=
  let out := g.lossSeen = true ∨ lost ∨ (v : Int) < (c.vMin : Int) - c.hV
  h.lossSeen = false ∧ (out → h.state = .invalid ∧ h.settle = 0) ∧
  (¬out → (g.state = .invalid → h.settle = (if c.vMin ≤ v then 0 else g.settle) ∧
      h.state = (if c.vMin ≤ v then .settling else .invalid)) ∧
    (g.state = .settling → h.settle = g.settle + 1 ∧
      h.state = (if c.settleValue ≤ g.settle + 1 then .valid else .settling)) ∧
    (g.state = .valid → h.state = .valid ∧ h.settle = g.settle))

/-- The value of a channel in a snapshot: its held value unless it is LOST (R43, R44). -/
def held (c : Channel) : Option Int := if c.state = .lost then none else c.held

/-- The first message is no reversal notice; one at the front has already gone on to the ASU (log entry 3). -/
def NoReversalFirst (q : List Message) : Prop := q.head? ≠ some .reversal

/-- The open window of the ASU holds j (R56). -/
def InWindow (a : Asu) (j : Int) : Prop :=
  ∃ k, a.latest = some k ∧
    match a.direction with
    | .fwd => k + min a.pGauge (min a.pVertical a.pLateral) < j ∧ j ≤ k + max a.pGauge (max a.pVertical a.pLateral)
    | .rev => k + min a.pGauge (min a.pVertical a.pLateral) ≤ j ∧ j < k + max a.pGauge (max a.pVertical a.pLateral)

/-- The reports of the marks lost with the discarded slots (R58). -/
def lossReports (slots : List (Nat × Slot)) : List AsuAnswer :=
  slots.flatMap (fun e => if e.2.mark1 = true ∨ e.2.mark2 = true then [.loss e.2.j e.2.mark1 e.2.mark2] else [])

/-- x lies in the signed 32-bit range. -/
def Fits32 (x : Int) : Prop := -2147483648 ≤ x ∧ x ≤ 2147483647

/-- The profile window is canonical, and each entry stands at its place (R70). -/
def WindowSound (c : Gcu) : Prop := c.window.wf = true ∧ ∀ i e, c.window.get? i = some e → (i : Int) = e.j % 128

/-- The record of index j is due once base record m is filed (R72). -/
def Due (c : Gcu) (m j : Int) : Prop :=
  match c.direction with
  | .fwd => j ≤ m - c.reachUp
  | .rev => m + c.reachDown ≤ j

/-- An output record holds what the window entry it is formed from holds, and the parameters formed for that entry (R81). -/
def RecordOf (c : Gcu) (run : Word32) (e : WindowEntry) (r : OutputRecord) : Prop :=
  r.j = e.j ∧ r.run = run ∧ r.direction = e.direction ∧ r.values = c.parameters e ∧ r.mark1 = e.mark1 ∧ r.mark2 = e.mark2 ∧
  r.chainage = e.position.chainage ∧ r.planEntry = e.position.planEntry ∧ r.segment = e.position.segment ∧
  r.lineCode = e.position.lineCode ∧ r.speed = e.position.speed ∧ r.uncertain = e.position.uncertain ∧
  r.step = e.position.step ∧ r.line = e.position.line ∧
  (r.slip = true ↔ e.slip = true ∨ e.position.slip = true) ∧
  (r.encSwitch = true ↔ e.encSwitch = true ∨ e.position.encSwitch = true) ∧
  (r.offPlan = true ↔ e.position.planEntry = none)

/-- A quotient is the nearest integer, and at a half the one farther from zero (00_scope.md, Rounding and saturation). -/
def RoundsAway (q num : Int) (den : Nat) : Prop :=
  2 * (q * den - num).natAbs ≤ den ∧ (2 * (q * den - num).natAbs = den → num.natAbs ≤ (q * den).natAbs)

/-- The chainage the assignment gives event e before the cursor step (R94, R95), with the slew step as a bounded share of r. -/
def assigned (p : Pru) (e : SampleEvent) (interval : Nat) : Int :=
  p.ccur + (match p.latest with
    | some k => p.orientation.sign * (e.k - k) * interval
    | none => 0) + max (-p.slewLimit) (min p.slewLimit p.residual)

/-- The neighbour of plan entry e in a running direction, if it exists (R120). -/
def neighbourOf (p : Pru) (d : Direction) (e : Nat) : Option (Nat × PlanEntry) :=
  match d, e with
  | .fwd, e => p.plan[e + 1]?.map (fun x => (e + 1, x))
  | .rev, 0 => none
  | .rev, e + 1 => p.plan[e]?.map (fun x => (e, x))

/-- The plan entry n places from entry e in a running direction, if it exists (R118, R120). -/
def entryFrom (p : Pru) (d : Direction) (e n : Nat) : Option PlanEntry :=
  match d with
  | .fwd => p.plan[e + n]?
  | .rev => if n ≤ e then p.plan[e - n]? else none

/-- The index of the plan entry n places from entry e in a running direction. -/
def entryIndex (d : Direction) (e n : Nat) : Nat :=
  match d with
  | .fwd => e + n
  | .rev => e - n

/-- A chainage has not reached the entry boundary of a plan entry in a running direction (R120). -/
def Before (p : Pru) (x : PlanEntry) (d : Direction) (c : Int) : Prop :=
  if x.orientation.sign * d.sign = 1 then c < (p.segment x.segment).lo else (p.segment x.segment).hi < c

/-- A chainage has passed the exit of a plan entry in a running direction (R120). -/
def Beyond (p : Pru) (x : PlanEntry) (d : Direction) (c : Int) : Prop :=
  if x.orientation.sign * d.sign = 1 then (p.segment x.segment).hi < c else c < (p.segment x.segment).lo

/-- The CLOSED record of a run, with the figures of the run as they stand (R149). -/
def closedRecord (x : OpenRun) (p : Param) (run : Word32) (cause : Cause) : ExceptionRecord :=
  { run := run, kind := .closed, param := p, severity := x.severity, side := x.side, cause := cause,
    uncertain := x.uncertainSeen, offPlan := x.segment.isNone, startIndex := x.startIndex, startChainage := x.startChainage,
    endChainage := x.lastChainage, peak := x.peak, peakChainage := x.peakChainage,
    length := (x.lastIndex - x.startIndex).natAbs + 1, lineCode := x.lineCode, segment := x.segment, limitSet := x.limitSet }

/-- No unit is at work on a run that has ended: nothing of a run waits at a unit that works with the configuration, the assembly
table and the profile window are EMPTY and the GCU is IDLE (R61, R91, R117; log entry 29). -/
def Quiet (s : State) : Prop :=
  s.bus.toOdu = [] ∧ s.bus.toPru = [] ∧ s.bus.toSlc = [] ∧ s.bus.toMtu = [] ∧ s.bus.toAsu = [] ∧ s.bus.toGcu = [] ∧
  s.bus.toExu = [] ∧ s.bus.chainageRequests = [] ∧ s.bus.markRequests = [] ∧ s.asu.table = [] ∧ s.gcu.active = false ∧
  s.gcu.window = []

/-- The number an n-byte field holds, most significant byte first (chapter Frame and Record Formats). -/
def field (b : List Byte) (off n : Nat) : Nat := ((b.drop off).take n).foldl (fun a x => a * 256 + x.toNat) 0

/-- The number a signed field of n bits holds for x: two's complement. -/
def twos (n : Nat) (x : Int) : Nat := (x % ((2 ^ n : Nat) : Int)).toNat

/-- The byte of an enumeration whose values are numbered from 0 in the order of its table (R199). -/
def enumByte {α : Type} [BEq α] (order : List α) (x : α) : List Byte := putU8 (order.idxOf x)

/-- The 40 bytes of a geometry record, field by field at the offsets of its table (R201). -/
def GeometryLayout (w : WireRecord) (b : List Byte) : Prop :=
  b.length = 40 ∧ field b 0 4 = w.sequence.toNat ∧ field b 4 2 = w.run.toNat ∧ field b 6 2 = w.flags.toNat ∧
  (Fits32 w.j → field b 8 4 = twos 32 w.j) ∧ (Fits32 w.chainage → field b 12 4 = twos 32 w.chainage) ∧
  (w.lineCode < 65536 → field b 16 2 = w.lineCode) ∧
  (w.segment = none → field b 18 1 = 255) ∧ (∀ n, w.segment = some n → n < 256 → field b 18 1 = n) ∧
  (w.planEntry = none → field b 19 1 = 255) ∧ (∀ n, w.planEntry = some n → n < 256 → field b 19 1 = n) ∧
  (w.speed < 65536 → field b 20 2 = w.speed) ∧ field b 22 2 = w.levels.toNat ∧
  (∀ p, field b (24 + 2 * p.number) 2 = twos 16 (w.values.get p)) ∧ field b 38 2 = twos 16 w.cv

/-- The 38 bytes of an exception record, field by field at the offsets of its table (R199, R201). -/
def ExceptionLayout (e : StoredException) (b : List Byte) : Prop :=
  let r := e.record
  b.length = 38 ∧ field b 0 4 = e.sequence.toNat ∧ field b 4 2 = r.run.toNat % 65536 ∧
  field b 6 1 = (match r.kind with
    | .onset => 1
    | .closed => 2) ∧
  field b 7 1 = r.param.number ∧ (r.severity < 256 → field b 8 1 = r.severity) ∧
  field b 9 1 = (match r.side with
    | .high => 1
    | .low => 2) ∧
  field b 10 1 = [Cause.none, .returned, .invalid, .side, .masked, .boundary, .long, .reversed, .suspended, .stopped].idxOf r.cause ∧
  field b 11 1 = (if r.uncertain = true then 1 else 0) + (if r.offPlan = true then 2 else 0) ∧
  (Fits32 r.startIndex → field b 12 4 = twos 32 r.startIndex) ∧ (Fits32 r.startChainage → field b 16 4 = twos 32 r.startChainage) ∧
  (Fits32 r.endChainage → field b 20 4 = twos 32 r.endChainage) ∧ (Fits32 r.peak → field b 24 4 = twos 32 r.peak) ∧
  (Fits32 r.peakChainage → field b 28 4 = twos 32 r.peakChainage) ∧ (r.length < 65536 → field b 32 2 = r.length) ∧
  (r.lineCode < 65536 → field b 34 2 = r.lineCode) ∧ (r.segment = none → field b 36 1 = 255) ∧
  (∀ n, r.segment = some n → n < 256 → field b 36 1 = n) ∧ (r.limitSet < 256 → field b 37 1 = r.limitSet)

/-! ### The parts of the status reply and the entries of the lists, field by field (R199, R202) -/

/-- The byte of a direction: FWD 0, REV 1. -/
def directionByte (d : Direction) : List Byte := enumByte [.fwd, .rev] d

/-- R25, with the position index given. -/
def oduPart (o : Odu) (index : Int) : List Byte :=
  let encoder (x : EncoderState) : List Byte :=
    enumByte [.ok, .failed] x.health ++ putU8 x.strikes ++ putU8 x.goodChecks ++ putU32 x.weight
  enumByte [.none, .encoders, .pace] o.source ++ directionByte o.direction ++ putS32 o.frontier ++ putS32 index ++
    putU32 o.speed ++ enumByte [.e1, .e2] o.active ++ enumByte [.e1, .e2] o.primary ++ encoder o.e1 ++ encoder o.e2 ++
    be16 o.epoch ++ putU16 o.paceInterval ++ directionByte o.paceDirection ++ putMark o.paceStopped

/-- R48: the links with their channels in frame order, the groups, the integrators. -/
def slcPart (c : Slc) : List Byte :=
  let channel (i : ChannelId) : List Byte :=
    let x := c.channels.get i
    enumByte [.ok, .held, .lost] x.state ++ putU8 (if x.state = .lost then x.recovery else x.miss) ++
      (match x.held with
        | some v => putS32 v
        | none => [0x80, 0, 0, 0])
  let link (x : LinkState) (ids : List ChannelId) : List Byte :=
    enumByte [.up, .partially, .down] x.state ++ [x.lastGood] ++ putU16 x.missing ++ putU16 x.seqErrors ++
      enumByte [.none, .timing, .sync, .check] x.fault ++ ids.flatMap channel
  let group (g : Group) : List Byte := enumByte [.invalid, .settling, .valid] g.state ++ putU16 g.settle
  let integrator (i : Integrator) : List Byte := putMark i.saturated ++ putS32 ((i.p + 1048576) / 2097152)
  link c.s1 [.gl, .gr] ++ link c.s2 [.zl, .zr, .azl, .azr] ++ link c.s3 [.ay, .roll, .yaw] ++ group c.vertGroup ++
    group c.latGroup ++ integrator c.vertLeft ++ integrator c.vertRight ++ integrator c.lateral ++ putMark c.yawSaturated

/-- R60. -/
def asuPart (a : Asu) : List Byte :=
  putMark a.assembling ++ directionByte a.direction ++ putOptS32 a.latest ++ putU16 a.table.length ++ be32 a.completed ++
    putU16 a.incomplete ++ putU16 a.restarts ++ putS8 a.pGauge ++ putS8 a.pVertical ++ putS8 a.pLateral

/-- R89. -/
def gcuPart (c : Gcu) : List Byte :=
  putMark c.active ++ directionByte c.direction ++ putOptS32 c.latest ++ putU16 c.pendingCount ++ be32 c.output ++
    be32 c.flushed ++ putU16 c.dropped ++ [c.armA, c.armB, c.twistBase, c.halfBase, c.reachUp, c.reachDown].flatMap putU8 ++
    [c.g0, c.gNom, c.railDistance].flatMap putS32

/-- R115. -/
def chainagePart (p : Pru) : List Byte :=
  putS32 p.ccur ++ putS8 (p.orientation.sign * p.direction.sign) ++ putOptS32 p.latest ++ putS32 p.residual ++
    putS32 p.correction ++ putMark p.stepMark ++ putMark p.uncertain ++ putU8 p.fixes.length ++
    [p.acceptWindow, p.stepThreshold, p.slewLimit].flatMap putS32

/-- R132. -/
def cursorPart (p : Pru) : List Byte :=
  (match p.cursor with
    | some e => putU8 e
    | none => [0xFF]) ++ putS8 p.orientation.sign ++ putU16 p.lineCode ++
  (match p.cursor.bind (fun e => p.plan[e]?) with
    | none => [0, 0, 0, 0, 0, 0, 0, 0]
    | some x =>
      let g := p.segment x.segment
      1 :: putU8 x.segment ++ putU8 g.limitSet ++
        1 :: putS32 (if x.orientation.sign * p.direction.sign = 1 then g.hi else g.lo)) ++
  putMark p.lineMark ++ putU8 p.plan.length

/-- R154. -/
def exuPart (s : State) : List Byte :=
  [s.exu.judged, s.exu.opened, s.exu.onsets, s.exu.closed].flatMap be32 ++ putU8 (s.exu.runs.toList.countP Option.isSome) ++
    (List.range 16).flatMap (fun k => putMark (s.rcu.isWritten (.limitSet k)))

/-- R170. -/
def mtuPart (s : State) : List Byte :=
  let line (m : MarkerLine) : List Byte :=
    let x := s.mtu.marker m
    putMark (s.rcu.isWritten (.marker m)) ++ be16 x.captures ++ putOptS32 x.previous ++ putU16 x.ignored
  let channel (t : Trigger) : List Byte :=
    let x := s.mtu.trigger t
    putMark (s.rcu.isWritten (.trigger t)) ++ putMark x.enable ++ putMark x.timer.isSome ++ be16 x.pulses ++
      putU16 x.dropped ++ putOptS32 x.lastStarted ++ putOptS32 x.lastDropped
  putMark s.mtu.running ++ line .m1 ++ line .m2 ++ putU8 s.mtu.list.length ++ channel .t1 ++ channel .t2 ++ channel .t3 ++
    channel .t4

/-- R181, with the 91 written marks in the order of the Run Controller's state list. -/
def rcuPart (r : Rcu) : List Byte :=
  enumByte [.standby, .running, .suspended] r.runState ++ be32 r.runNumber ++ be32 r.eventCount ++
    enumByte [.none, .encoders, .pace] r.source ++ be32 r.generation ++
    ([ItemId.odometry, .sensors, .compute, .fixPolicy, .plan] ++ (List.range 16).map ItemId.limitSet ++
      (List.range 64).map ItemId.segment ++
      [ItemId.marker .m1, .marker .m2, .trigger .t1, .trigger .t2, .trigger .t3, .trigger .t4]).flatMap (fun i => putMark (r.isWritten i))

/-- R196, the RDS: oldest and next numbers and the number of records held, which are consecutive (R182). -/
def rdsPart (d : Rds) : List Byte :=
  be32 d.geometry.oldest ++ be32 d.geometry.next ++ be32 (d.geometry.next - d.geometry.oldest) ++
    be32 d.exceptions.oldest ++ be32 d.exceptions.next ++ be32 (d.exceptions.next - d.exceptions.oldest)

/-- R196, the CPC, for a requesting port, with its ATTN given. -/
def cpcPart (s : State) (p : Port) (attn : Bool) : List Byte :=
  let x := s.cpc.port p
  let phase (y : PortState) : List Byte := match y.phase with
    | .idle => [0]
    | .serving _ => [1]
    | .replyReady _ => [2]
  be32 x.geoCursor ++ be32 x.excCursor ++ be32 (s.rds.geometry.next - x.geoCursor) ++
    be32 (s.rds.exceptions.next - x.excCursor) ++ putMark x.geoGap ++ putMark x.excGap ++ putU16 x.watermark ++
    putU8 x.threshold ++ putMark x.news ++ putMark attn ++ phase s.cpc.cp0 ++ phase s.cpc.cp1 ++ phase s.cpc.cp2 ++
    enumByte [.cp0, .cp1, .cp2] s.cpc.lastServed

/-- The parts of the status reply in their order (R202), with the position index and the port's ATTN given. -/
def statusParts (s : State) (p : Port) (index : Int) (attn : Bool) : List (List Byte) :=
  [oduPart s.odu index, slcPart s.slc, asuPart s.asu, gcuPart s.gcu, chainagePart s.pru, cursorPart s.pru, exuPart s,
   mtuPart s, rcuPart s.rcu, rdsPart s.rds, cpcPart s p attn]

/-- An open-run entry: 36 bytes. -/
def openRunEntry (p : Param) (place : Option OpenRun) : List Byte :=
  putU8 p.number ++ (match place with
    | none => List.replicate 35 0
    | some x =>
      putU8 1 ++ putU8 (match x.side with
        | .high => 1
        | .low => 2) ++
      [x.startIndex, x.startChainage, x.lastIndex, x.lastChainage].flatMap putS32 ++ putU8 x.severity ++ putS32 x.peak ++
      putS32 x.peakChainage ++ putU8 x.inside ++ putU8 x.absent ++ putU8 x.limitSet ++ putU16 x.lineCode ++
      (match x.segment with
        | some n => putU8 n
        | none => [0xFF]) ++ putMark x.uncertainSeen ++ putMark x.onsetSent)

/-- A fix list entry: 23 bytes, with the errors saturated (R199). -/
def fixEntry (f : Fix) : List Byte :=
  let sat (x : Int) : Int := max (-2147483648) (min 2147483647 x)
  putS32 f.j ++ putS32 f.chainage ++ putS32 (sat f.error) ++ putS32 (sat f.errorNow) ++ putU8 f.grade ++
    enumByte [.cp0, .cp1, .cp2] f.port ++ putU16 f.lineCode ++ be16 f.epoch ++ enumByte [.slew, .step, .forced] f.kind

/-- A marker list entry: 17 bytes. -/
def markerEntry (m : MarkerEntry) : List Byte :=
  (match m.line with
    | .m1 => [1]
    | .m2 => [2]) ++ be16 m.number ++ putS32 m.j ++ putS32 m.event ++
  (match m.projected with
    | .pending => [2, 0, 0, 0, 0]
    | .stale => [0, 0, 0, 0, 0]
    | .at c => 1 :: putS32 c) ++ enumByte [.pending, .placed, .notInStream] m.placement

/-- The arbiter serves request rq of port p next, and it is the request named (R187). -/
def Serves (s : State) (p : Port) (rq : Request) (v : Service) : Prop :=
  s.cpc.nextService = some (p, rq) ∧ serviceOf rq = v

/-- A request that a service answers without any effect but its reply. -/
def onlyReplies (s : State) (p : Port) (rq : Request) (r : Reply) : State := { s with cpc := s.cpc.answer p rq r }

/-- The payload of a refused START or SET_ITEM (R199). -/
def refusalFields (kind index step offset : Nat) (generation : Word32) : List Byte :=
  [BitVec.ofNat 8 kind, BitVec.ofNat 8 index, BitVec.ofNat 8 step, BitVec.ofNat 8 (offset / 256), BitVec.ofNat 8 offset,
   generation.extractLsb' 24 8, generation.extractLsb' 16 8, generation.extractLsb' 8 8, generation.extractLsb' 0 8]

/-! ### The power-on values, written out from the lists of the chapters -/

/-- R24, but for the levels of the decoders, which follow their lines. -/
def OduAtPowerOn (o : Odu) : Prop :=
  o.position = 0 ∧ o.frontier = 0 ∧ o.next = 0 ∧ o.extreme = 0 ∧ o.direction = .fwd ∧ o.eventDirection = .fwd ∧
  o.speed = 0 ∧ o.standstill = none ∧ o.source = .none ∧ o.paceStopped = true ∧ o.paceInterval = 0 ∧
  o.paceDirection = .fwd ∧ o.paceTimer = none ∧ o.primary = .e1 ∧ o.active = .e1 ∧ o.interval = 0 ∧
  o.reversalDistance = 0 ∧ o.slipTolerance = 0 ∧ o.paceIntervalField = 0 ∧ o.encSwitch = false ∧ o.epoch = 0 ∧
  ∀ e, (o.enc e).health = .ok ∧ (o.enc e).strikes = 0 ∧ (o.enc e).goodChecks = 0 ∧ (o.enc e).indexCount = 0 ∧
    (o.enc e).silence = 0 ∧ (o.enc e).eventDistance = 0 ∧ (o.enc e).aligned = false ∧ (o.enc e).prevSense = none ∧
    (o.enc e).weight = 0 ∧ (o.enc e).countsPerRev = 0 ∧ (o.enc e).circumference = 0 ∧ (o.enc e).mounting = .normal

/-- R46, with the links idle through the start-up hold (R26). -/
def SlcAtPowerOn (c : Slc) : Prop :=
  (∀ i, c.channels.get i = { state := .lost, held := none, miss := 0, recovery := 0 }) ∧
  (∀ l, (c.link l).state = .down ∧ (c.link l).expected = none ∧ (c.link l).lastGood = 0 ∧ (c.link l).missing = 0 ∧
    (c.link l).seqErrors = 0 ∧ (c.link l).fault = .none) ∧
  c.vertLeft = { v := 0, p := 0, saturated := false } ∧ c.vertRight = { v := 0, p := 0, saturated := false } ∧
  c.lateral = { v := 0, p := 0, saturated := false } ∧ c.yaw = 0 ∧ c.yawSaturated = false ∧
  c.vertGroup = { state := .invalid, settle := 0, lossSeen := false } ∧
  c.latGroup = { state := .invalid, settle := 0, lossSeen := false } ∧
  c.kv = 0 ∧ c.kp = 0 ∧ c.vMin = 0 ∧ c.hV = 0 ∧ c.settleValue = 0 ∧ c.slotTimer = none

/-- R61. -/
def AsuAtPowerOn (a : Asu) : Prop :=
  a.table = [] ∧ a.assembling = false ∧ a.direction = .fwd ∧ a.latest = none ∧ a.completed = 0 ∧ a.incomplete = 0 ∧
  a.restarts = 0 ∧ a.pGauge = 0 ∧ a.pVertical = 0 ∧ a.pLateral = 0

/-- R90. -/
def GcuAtPowerOn (c : Gcu) : Prop :=
  c.window = [] ∧ c.active = false ∧ c.direction = .fwd ∧ c.latest = none ∧ c.pendingCount = 0 ∧ c.output = 0 ∧
  c.flushed = 0 ∧ c.dropped = 0 ∧ c.armA = 0 ∧ c.armB = 0 ∧ c.twistBase = 0 ∧ c.halfBase = 0 ∧ c.reachUp = 0 ∧
  c.reachDown = 0 ∧ c.g0 = 0 ∧ c.gNom = 0 ∧ c.railDistance = 0 ∧ c.interval = 0

/-- R114 and R131. -/
def PruAtPowerOn (p : Pru) : Prop :=
  p.ccur = 0 ∧ p.correction = 0 ∧ p.residual = 0 ∧ p.latest = none ∧ p.direction = .fwd ∧ p.stepMark = false ∧
  p.uncertain = false ∧ p.history = [] ∧ p.fixes = [] ∧ p.acceptWindow = 0 ∧ p.stepThreshold = 0 ∧ p.slewLimit = 0 ∧
  (∀ k, p.segment k = { lineCode := 0, lo := 0, hi := 0, limitSet := 0, masks := [] }) ∧ p.plan = [] ∧ p.cursor = none ∧
  p.orientation = .plus ∧ p.lineCode = 0 ∧ p.lineMark = false

/-- R151. -/
def ExuAtPowerOn (x : Exu) : Prop :=
  (∀ p, x.runs.get p = none) ∧ x.judged = 0 ∧ x.opened = 0 ∧ x.onsets = 0 ∧ x.closed = 0 ∧
  ∀ k p, (x.limitSet k).get p =
    { u1 := 0, u2 := 0, u3 := 0, l1 := 0, l2 := 0, l3 := 0, enable := 0, hysteresis := 0, mergeGap := 0 }

/-- R163 and R169. -/
def MtuAtPowerOn (m : Mtu) : Prop :=
  m.running = false ∧ m.list = [] ∧
  (∀ l, m.marker l = { edge := .rising, mount := 0, spacing := 0, captures := 0, previous := none, ignored := 0 }) ∧
  ∀ t, m.trigger t =
    { enable := false, pitch := 1, phase := 0, mount := 0, width := 1, polarity := .low, timer := none, level := .low,
      pulses := 0, dropped := 0, lastStarted := none, lastDropped := none }

/-- R180. -/
def RcuAtPowerOn (r : Rcu) : Prop :=
  r.runState = .standby ∧ r.runNumber = 0 ∧ r.eventCount = 0 ∧ r.source = .none ∧ r.generation = 0 ∧
  ∀ i, r.isWritten i = false

/-- R196. -/
def StoresAtPowerOn (d : Rds) (c : Cpc) : Prop :=
  d.geometry.records = [] ∧ d.geometry.oldest = 0 ∧ d.geometry.next = 0 ∧ d.exceptions.records = [] ∧
  d.exceptions.oldest = 0 ∧ d.exceptions.next = 0 ∧ c.lastServed = .cp2 ∧ c.inService = none ∧
  ∀ p, (c.port p).phase = .idle ∧ (c.port p).geoCursor = 0 ∧ (c.port p).excCursor = 0 ∧ (c.port p).geoGap = false ∧
    (c.port p).excGap = false ∧ (c.port p).watermark = 0 ∧ (c.port p).threshold = 0 ∧ (c.port p).news = false

/-- Every block is at its power-on values. -/
structure AtPowerOn (s : State) : Prop where
  odu : OduAtPowerOn s.odu
  slc : SlcAtPowerOn s.slc
  asu : AsuAtPowerOn s.asu
  gcu : GcuAtPowerOn s.gcu
  pru : PruAtPowerOn s.pru
  exu : ExuAtPowerOn s.exu
  mtu : MtuAtPowerOn s.mtu
  rcu : RcuAtPowerOn s.rcu
  stores : StoresAtPowerOn s.rds s.cpc

/-! ### Invariants -/

/-- While the run is RUNNING with source ENCODERS, the active encoder's health is OK (R18). -/
def ActiveEncoderSound (s : State) : Prop :=
  s.odu.view = .running → s.odu.source = .encoders → (s.odu.enc s.odu.active).health = .ok

/-- A store holds at most its capacity of records, with consecutive sequence numbers from the oldest to just before the next
(R182, R183). -/
structure StoreSound {α : Type} (capacity : Nat) (sequence : α → Word32) (s : Store α) : Prop where
  bounded : s.records.length ≤ capacity
  counted : s.next = s.oldest + BitVec.ofNat 32 s.records.length
  numbered : ∀ i x, s.records[i]? = some x → sequence x = s.oldest + BitVec.ofNat 32 i

/-- A cursor names a record the store holds or the next sequence number to be given (R184). -/
def CursorSound {α : Type} (s : Store α) (cursor : Word32) : Prop := (cursor - s.oldest).toNat ≤ s.records.length

/-- Both stores and every cursor (R182 to R184). -/
structure StoresSound (s : State) : Prop where
  geometry : StoreSound 8192 (·.sequence) s.rds.geometry
  exceptions : StoreSound 256 (·.sequence) s.rds.exceptions
  geoCursors : ∀ p, CursorSound s.rds.geometry (s.cpc.port p).geoCursor
  excCursors : ∀ p, CursorSound s.rds.exceptions (s.cpc.port p).excCursor

/-- The fix list holds at most 8 entries, no two within 8 samples of each other (R106). -/
def FixListSound (s : State) : Prop :=
  s.pru.fixes.length ≤ 8 ∧ s.pru.fixes.Pairwise (fun f g => 8 < (f.j - g.j).natAbs)

/-- A trigger line in IDLE is at its idle level (R168), and the marker list holds at most 16 entries. -/
def MtuSound (s : State) : Prop :=
  (∀ t, (s.mtu.trigger t).timer = none → (s.mtu.trigger t).level = (s.mtu.trigger t).polarity) ∧ s.mtu.list.length ≤ 16

/-- An open run has severity 1 to 3, and its ONSET has been sent exactly when the severity is 3 (R138, R148). -/
def RunSound (x : OpenRun) : Prop := 1 ≤ x.severity ∧ x.severity ≤ 3 ∧ (x.onsetSent = true ↔ x.severity = 3)

/-- Every open run is sound, and the opened count less the CLOSED count is the number of open runs (R154). -/
def OpenRunsSound (s : State) : Prop :=
  (∀ p x, s.exu.runs.get p = some x → RunSound x) ∧ s.exu.opened - s.exu.closed = BitVec.ofNat 32 s.exu.openRuns

/-- A channel is LOST exactly when it has no held value, and its counts stay within their ranges (R30, R31). -/
def ChannelSound (c : Channel) : Prop :=
  match c.state with
  | .ok => c.held.isSome ∧ c.miss = 0 ∧ c.recovery = 0
  | .held => c.held.isSome ∧ 1 ≤ c.miss ∧ c.miss ≤ 4 ∧ c.recovery = 0
  | .lost => c.held = none ∧ c.miss = 0 ∧ c.recovery ≤ 15

/-- V and P stay within ±(2^47 − 1) (R34). -/
def IntegratorSound (i : Integrator) : Prop := i.v.natAbs ≤ 140737488355327 ∧ i.p.natAbs ≤ 140737488355327

/-- Channels, links and integrators (R30 to R32, R34). -/
structure SlcSound (s : State) : Prop where
  channels : ∀ i, ChannelSound (s.slc.channels.get i)
  links : ∀ l, (s.slc.link l).state = linkCondition l s.slc.channels
  vertLeft : IntegratorSound s.slc.vertLeft
  vertRight : IntegratorSound s.slc.vertRight
  lateral : IntegratorSound s.slc.lateral

/-- Every table is in its canonical form, and what stands at a place belongs there (R50, R70, R96, R116, R133). -/
structure TablesSound (s : State) : Prop where
  slots : s.asu.table.wf = true ∧ ∀ i x, s.asu.table.get? i = some x → (i : Int) = x.j % 256
  window : s.gcu.window.wf = true ∧ ∀ i e, s.gcu.window.get? i = some e → (i : Int) = e.j % 128
  history : s.pru.history.wf = true ∧ ∀ i h, s.pru.history.get? i = some h → (i : Int) = h.index % 4096
  segments : s.pru.segments.wf = true ∧ ∀ i g, s.pru.segments.get? i = some g → i < 64
  limitSets : s.exu.limitSets.wf = true ∧ ∀ i x, s.exu.limitSets.get? i = some x → i < 16

/-- What SET_ITEM writes and a run keeps (R177), without the count weights, which CALIBRATE may change (R22). -/
def SameConfiguration (s t : State) : Prop :=
  t.rcu.generation = s.rcu.generation ∧ t.rcu.written = s.rcu.written ∧
  t.odu.interval = s.odu.interval ∧ t.odu.primary = s.odu.primary ∧ t.odu.reversalDistance = s.odu.reversalDistance ∧
  t.odu.slipTolerance = s.odu.slipTolerance ∧ t.odu.paceIntervalField = s.odu.paceIntervalField ∧
  (∀ e, (t.odu.enc e).circumference = (s.odu.enc e).circumference ∧
    (t.odu.enc e).countsPerRev = (s.odu.enc e).countsPerRev ∧ (t.odu.enc e).mounting = (s.odu.enc e).mounting) ∧
  t.slc.kv = s.slc.kv ∧ t.slc.kp = s.slc.kp ∧ t.slc.vMin = s.slc.vMin ∧ t.slc.hV = s.slc.hV ∧
  t.slc.settleValue = s.slc.settleValue ∧
  t.asu.pGauge = s.asu.pGauge ∧ t.asu.pVertical = s.asu.pVertical ∧ t.asu.pLateral = s.asu.pLateral ∧
  t.gcu.g0 = s.gcu.g0 ∧ t.gcu.gNom = s.gcu.gNom ∧ t.gcu.railDistance = s.gcu.railDistance ∧ t.gcu.armA = s.gcu.armA ∧
  t.gcu.armB = s.gcu.armB ∧ t.gcu.twistBase = s.gcu.twistBase ∧ t.gcu.halfBase = s.gcu.halfBase ∧
  t.gcu.reachUp = s.gcu.reachUp ∧ t.gcu.reachDown = s.gcu.reachDown ∧ t.gcu.interval = s.gcu.interval ∧
  t.pru.acceptWindow = s.pru.acceptWindow ∧ t.pru.stepThreshold = s.pru.stepThreshold ∧ t.pru.slewLimit = s.pru.slewLimit ∧
  t.pru.plan = s.pru.plan ∧ t.pru.segments = s.pru.segments ∧ t.exu.limitSets = s.exu.limitSets ∧
  (∀ l, (t.mtu.marker l).edge = (s.mtu.marker l).edge ∧ (t.mtu.marker l).mount = (s.mtu.marker l).mount ∧
    (t.mtu.marker l).spacing = (s.mtu.marker l).spacing) ∧
  ∀ c, (t.mtu.trigger c).enable = (s.mtu.trigger c).enable ∧ (t.mtu.trigger c).pitch = (s.mtu.trigger c).pitch ∧
    (t.mtu.trigger c).phase = (s.mtu.trigger c).phase ∧ (t.mtu.trigger c).mount = (s.mtu.trigger c).mount ∧
    (t.mtu.trigger c).width = (s.mtu.trigger c).width ∧ (t.mtu.trigger c).polarity = (s.mtu.trigger c).polarity

end Sys2Proof.Safety
end

