-- ==== Sys2Proof/Certificates/Slice0/Obligations.lean ====
section
/-! DEFINITION. The statements for the provers. They follow the rules of the chapters; what rests on a choice of the model says so
and names its log entry. -/

open Sys2Proof Sys2Proof.Machine Sys2Proof.Safety

/-! ### The step, power-on -/

/-- A step runs the command at the front of the queue, with the rest of the queue. The queue is the model's own (log entry 2). -/
def Obligations.StepRunsTheFrontCommand : Prop :=
  ∀ (c : Instr) (rest : List Instr) (s : State), s.pending = c :: rest → step s = exec c { s with pending := rest }

/-- Reset leaves every block at the power-on values of its chapter, and so does POWER_ON from any state, whatever it was
doing (R24, R46, R61, R90, R114, R131, R151, R163, R169, R180, R196); the reset pin holds the part, power-up begins the hold of
52,429 ticks. Releasing the pin begins a new hold of the full length; at its end the links begin their slots and nothing else changes
(R26, R180). The tick of the time base, and that the decoders keep the levels of their lines and the queue stays, are the model's
choices (log entries 2, 11). -/
def Obligations.PowerOnLeavesThePowerOnValues : Prop :=
  AtPowerOn State.reset ∧ State.reset.power = .startUp 52429 ∧
  (∀ (cause : PowerCause) (s : State), ∃ t : State, exec (.powerOn cause) s = .next t ∧ AtPowerOn t ∧
     t.power = (match cause with
       | .powerUp => Power.startUp (t.now + 52429)
       | .resetPin => Power.held) ∧
     t.bus = Bus.reset ∧ t.pending = s.pending ∧
     ∀ e, (t.odu.enc e).levelA = (s.odu.enc e).levelA ∧ (t.odu.enc e).levelB = (s.odu.enc e).levelB) ∧
  (∀ s : State, s.power = .held →
    exec .resetPinRelease s = .next { s with power := .startUp (s.now + 52429) }) ∧
  ∀ (s : State) (tick : Nat), s.power = .startUp tick →
    exec .startUpHoldEnd s = .next { s with
      now := max s.now tick, power := .on, slc := { s.slc with slotTimer := some (max s.now tick) } }

/-! ### Odometry -/

/-- Outside a run with source ENCODERS a count moves the decoder alone and a Z pulse nothing (R1, R3, R13, R23), and an illegal
transition always gives the decoder its new levels and yields no count (R1). That the decoder does so in every power phase, while the
reset pin holds the part too, is the model's deduction (log entries 11, 20), and `view` is the ODU's own record of the run (log
entry 4). -/
def Obligations.TheDecoderFollowsTheLines : Prop :=
  (∀ (s : State) (e : Encoder) (ch : QuadChannel) (ticks : Nat), s.odu.view = .standby ∨ s.odu.source ≠ .encoders →
    exec (.encoderCount e ch ticks) s =
      .next { s with now := s.now + ticks, odu := s.odu.setEnc e (turned (s.odu.enc e) ch) }) ∧
  (∀ (s : State) (e : Encoder), s.odu.view = .standby ∨ s.odu.source ≠ .encoders → exec (.zPulse e) s = .next s) ∧
  ∀ (s : State) (e : Encoder), exec (.illegalTransition e) s =
    .next { s with
      odu := s.odu.setEnc e { s.odu.enc e with levelA := !(s.odu.enc e).levelA, levelB := !(s.odu.enc e).levelB } }

/-- In a run with source ENCODERS a count of the active encoder in RUNNING moves the accumulator by its value times the
weight of that encoder; a count of the other encoder, or one in SUSPENDED, moves nothing and fires nothing (R1, R3, R18). Each count is
supervised: the index count of its own encoder, with the check at N + 3, and the silence counts of both (R13 to R16).
No block but the ODU changes, and of the hand-overs only those that a count can fill. The range premise is that of the 64-bit
accumulator (R3). -/
def Obligations.CountsMoveThePositionOnlyWhenActive : Prop :=
  ∀ (s : State) (e : Encoder) (ch : QuadChannel) (ticks : Nat),
    s.odu.source = .encoders → s.odu.view ≠ .standby →
    let x := s.odu.enc e;
    let y := s.odu.enc (encoderOther e);
    let v := countValue x ch;
    let moved := s.odu.position + v * x.weight;
    -9223372036854775808 ≤ moved → moved ≤ 9223372036854775807 →
    ∃ t : State, exec (.encoderCount e ch ticks) s = .next t ∧ t.now = s.now + ticks ∧
      (t.odu.enc e).levelA = (turned x ch).levelA ∧ (t.odu.enc e).levelB = (turned x ch).levelB ∧
      Counted x (t.odu.enc e) v ∧ Overheard y (t.odu.enc (encoderOther e)) v ∧
      (s.odu.view = .running ∧ s.odu.active = e → t.odu.position = moved) ∧
      (¬(s.odu.view = .running ∧ s.odu.active = e) →
        t.odu.position = s.odu.position ∧ t.odu.frontier = s.odu.frontier ∧ t.odu.next = s.odu.next ∧
        t.odu.direction = s.odu.direction ∧ t.odu.extreme = s.odu.extreme ∧ t.bus.toPru = s.bus.toPru ∧
        (t.odu.enc e).eventDistance = x.eventDistance + v ∧ (t.odu.enc (encoderOther e)).eventDistance = y.eventDistance) ∧
      t.bus = { s.bus with toPru := t.bus.toPru, toSlc := t.bus.toSlc, toMtu := t.bus.toMtu, toRcu := t.bus.toRcu,
                           toAsu := t.bus.toAsu } ∧
      t.slc = s.slc ∧ t.asu = s.asu ∧ t.gcu = s.gcu ∧ t.pru = s.pru ∧ t.exu = s.exu ∧ t.mtu = s.mtu ∧ t.rcu = s.rcu ∧
      t.rds = s.rds ∧ t.cpc = s.cpc ∧ t.power = s.power ∧ t.pending = s.pending

/-- A count of the active encoder in RUNNING that completes no reversal fires the event for n exactly when it goes in the running
direction, the position reaches n's boundary n × I × 65536 in that direction and n lies in the signed 32-bit range. The event carries
n, the direction, the ENC_SWITCH mark, its speed and the SLIP flag, which is set when both encoders are OK and their distances since the
event before differ by more than the slip tolerance, and it is handed to the PRU, the SLC, the MTU and the RCU behind what waits there;
the mark for a speed of 0 is cleared. Any other count, one that moves the position back among them, fires nothing (R5, R6, R9, R10,
R17). The speed clause is for a time since the previous event that is not 0. That one count fires at most one event, that the count
itself is in the distance, and the mark for a speed of 0, are the model's (log entries 4 to 6). -/
def Obligations.ABoundaryFiresTheSampleEvent : Prop :=
  ∀ (s : State) (e : Encoder) (ch : QuadChannel) (ticks : Nat),
    s.odu.source = .encoders → s.odu.view = .running → s.odu.active = e →
    let o := s.odu;
    let x := o.enc e;
    let y := o.enc (encoderOther e);
    let v := countValue x ch;
    let d := o.direction.sign;
    let moved := o.position + v * x.weight;
    let own := (x.eventDistance + v) * x.weight;
    let oth := y.eventDistance * y.weight;
    let reached : Prop := v = d ∧ d * (o.next * (o.interval * 65536)) ≤ d * moved ∧ -2147483648 ≤ o.next ∧ o.next ≤ 2147483647;
    0 < o.reversalDistance * x.weight → d * o.extreme < d * moved + o.reversalDistance * x.weight →
    -9223372036854775808 ≤ moved → moved ≤ 9223372036854775807 →
    ∃ (t : State) (reports : List RcuMessage), exec (.encoderCount e ch ticks) s = .next t ∧ (reports = [] ∨ reports = [.lost]) ∧
      (reached → FiresNext s t (s.now + ticks)
        (x.health = .ok ∧ y.health = .ok ∧ (o.slipTolerance : Int) * own.natAbs < (own - oth).natAbs * 100) reports) ∧
      (¬reached → FiresNothing s t reports ∧ (t.odu.enc e).eventDistance = x.eventDistance + v ∧
        (t.odu.enc (encoderOther e)).eventDistance = y.eventDistance)

/-- With source PACE each expiry of the count timer moves the accumulator by the W of E1 in the generator's direction, and
restarts the timer (R11). When the position then lies R_d × W back from X, a reversal is declared, and so it is at a count of the active
encoder in RUNNING: the running direction turns, X becomes the position, the next index follows from the direction in which the latest
event fired, and the reversal notice reaches the PRU and, behind the deliveries to come, the ASU (R8); an event may follow at once for an
index whose boundary is already reached, at most one, and otherwise the first event to come carries speed 0. A position less far back
declares none: then a pace count fires the sample event for n, without SLIP, exactly when it goes in the running direction and reaches n's
boundary, and a count that goes back, or reaches none, fires nothing (R5, R6, R9, R11). The expiry runs the time base on to its tick (log
entry 2), the way of the notice to the ASU is log entry 3's, the mark for a speed of 0 log entry 4's, the single event log entry 6's. -/
def Obligations.PaceCountsMoveAndReverse : Prop :=
  (∀ (s : State) (tick : Nat),
    s.odu.paceTimer = some tick → s.odu.view = .running → s.odu.source = .pace → s.odu.paceStopped = false →
    let o := s.odu;
    let d := o.direction.sign;
    let back : Int := o.reversalDistance * o.e1.weight;
    let moved := o.position + o.paceDirection.sign * o.e1.weight;
    let reached : Prop := o.paceDirection = o.direction ∧ d * (o.next * (o.interval * 65536)) ≤ d * moved ∧
      -2147483648 ≤ o.next ∧ o.next ≤ 2147483647;
    0 < back → -9223372036854775808 ≤ moved → moved ≤ 9223372036854775807 →
    ∃ t : State, exec .paceCount s = .next t ∧ t.now = max s.now tick ∧ t.odu.position = moved ∧
      t.odu.paceTimer = some (max s.now tick + o.paceInterval) ∧
      (d * moved ≤ d * o.extreme - back → ReversedAt s t moved []) ∧
      (d * o.extreme - back < d * moved →
        t.odu.direction = o.direction ∧ d * t.odu.extreme = max (d * o.extreme) (d * moved) ∧
        (reached → FiresNext s t (max s.now tick) False []) ∧
        (¬reached → FiresNothing s t [] ∧ t.odu.speed = o.speed ∧ t.odu.encSwitch = o.encSwitch)) ∧
      t.odu.e1.weight = o.e1.weight ∧ t.odu.epoch = o.epoch ∧ t.odu.active = o.active ∧
      t.bus = { s.bus with toPru := t.bus.toPru, toSlc := t.bus.toSlc, toMtu := t.bus.toMtu, toRcu := t.bus.toRcu,
                           toAsu := t.bus.toAsu } ∧
      t.slc = s.slc ∧ t.asu = s.asu ∧ t.gcu = s.gcu ∧ t.pru = s.pru ∧ t.exu = s.exu ∧ t.mtu = s.mtu ∧ t.rcu = s.rcu ∧
      t.rds = s.rds ∧ t.cpc = s.cpc ∧ t.power = s.power ∧ t.pending = s.pending) ∧
  ∀ (s : State) (e : Encoder) (ch : QuadChannel) (ticks : Nat),
    s.odu.source = .encoders → s.odu.view = .running → s.odu.active = e →
    let o := s.odu;
    let x := o.enc e;
    let d := o.direction.sign;
    let back : Int := o.reversalDistance * x.weight;
    let moved := o.position + countValue x ch * x.weight;
    0 < back → -9223372036854775808 ≤ moved → moved ≤ 9223372036854775807 →
    ∃ (t : State) (reports : List RcuMessage), exec (.encoderCount e ch ticks) s = .next t ∧ (reports = [] ∨ reports = [.lost]) ∧
      t.odu.position = moved ∧ (d * moved ≤ d * o.extreme - back → ReversedAt s t moved reports) ∧
      (d * o.extreme - back < d * moved →
        t.odu.direction = o.direction ∧ d * t.odu.extreme = max (d * o.extreme) (d * moved))

/-- A Z pulse in a supervised run (R14, R15): it aligns an unaligned revolution; on an aligned one a difference of at most 2
from N is a good check, which clears the strikes of an OK encoder and counts on a FAILED one, and a larger one is a mismatch, which
strikes an OK encoder and clears the good checks of a FAILED one. The third strike and the eighth good check are stated apart. -/
def Obligations.AZPulseChecksTheRevolution : Prop :=
  ∀ (s : State) (e : Encoder), s.odu.source = .encoders → s.odu.view ≠ .standby →
    let x := s.odu.enc e;
    let y : EncoderState := { x with indexCount := 0, aligned := true };
    let far : Prop := 2 < ((x.indexCount : Int) - x.countsPerRev).natAbs;
    (x.aligned = false → exec (.zPulse e) s = .next { s with odu := s.odu.setEnc e y }) ∧
    (x.aligned = true → ¬far → x.health = .ok →
      exec (.zPulse e) s = .next { s with odu := s.odu.setEnc e { y with strikes := 0 } }) ∧
    (x.aligned = true → far → x.health = .ok → x.strikes < 2 →
      exec (.zPulse e) s = .next { s with odu := s.odu.setEnc e { y with strikes := x.strikes + 1 } }) ∧
    (x.aligned = true → ¬far → x.health = .failed → x.goodChecks < 7 →
      exec (.zPulse e) s = .next { s with odu := s.odu.setEnc e { y with goodChecks := x.goodChecks + 1 } }) ∧
    (x.aligned = true → far → x.health = .failed →
      exec (.zPulse e) s = .next { s with odu := s.odu.setEnc e { y with goodChecks := 0 } })

/-- The third strike of an encoder makes it FAILED. Where it is the active one in RUNNING, an OK other encoder becomes active,
the epoch counts one more and ENC_SWITCH is pending; with the other FAILED too, odometry is reported lost and the speed is 0; where it is
not, nothing else changes (R13, R18). The same at the check of a count at N + 3 (R14) and at the silence of the active encoder (R16), where
the switch is judged by the other encoder's health after the index check of the same count (that order is log entry 5's). The eighth
good check in SUSPENDED makes the encoder OK and active, X the position held, the speed of the first event to come 0, and odometry is
reported restored, with the run suspended and F, n and the direction as they were until the notice (R19); in RUNNING it makes it OK and
no more (R20). `view`, `resuming` and the mark for a speed of 0 are the ODU's own record of the run, with a restoration reported at most
once (log entry 4). -/
def Obligations.SupervisionSwitchesSuspendsAndRestores : Prop :=
  (∀ (s : State) (e : Encoder), s.odu.source = .encoders →
    let o := s.odu;
    let x := o.enc e;
    let other := encoderOther e;
    let far : Prop := 2 < ((x.indexCount : Int) - x.countsPerRev).natAbs;
    x.aligned = true →
    (far → x.health = .ok → x.strikes = 2 → o.view = .running → o.active = e →
      ∃ t : State, exec (.zPulse e) s = .next t ∧ (t.odu.enc e).health = .failed ∧ (t.odu.enc e).strikes = 0 ∧
        (t.odu.enc e).goodChecks = 0 ∧ t.odu.position = o.position ∧ t.odu.frontier = o.frontier ∧
        t.odu.direction = o.direction ∧ t.odu.extreme = o.extreme ∧
        ((o.enc other).health = .ok → t.odu.active = other ∧ t.odu.epoch = o.epoch + 1 ∧ t.odu.encSwitch = true ∧
          t.odu.view = .running ∧ t.bus = s.bus) ∧
        ((o.enc other).health = .failed → t.odu.active = e ∧ t.odu.speed = 0 ∧ t.odu.encSwitch = false ∧
          t.odu.view = .suspended ∧ t.bus = { s.bus with toRcu := s.bus.toRcu ++ [.lost] })) ∧
    (far → x.health = .ok → x.strikes = 2 → o.view ≠ .standby → ¬(o.view = .running ∧ o.active = e) →
      exec (.zPulse e) s = .next { s with odu := o.setEnc e { x with
        indexCount := 0, aligned := true, health := .failed, strikes := 0, goodChecks := 0 } }) ∧
    (¬far → x.health = .failed → x.goodChecks = 7 → o.view = .suspended → o.resuming = false →
      ∃ t : State, exec (.zPulse e) s = .next t ∧ (t.odu.enc e).health = .ok ∧ (t.odu.enc e).strikes = 0 ∧
        (t.odu.enc e).goodChecks = 0 ∧ t.odu.active = e ∧ t.odu.epoch = o.epoch + 1 ∧ t.odu.extreme = o.position ∧
        t.odu.position = o.position ∧ t.odu.frontier = o.frontier ∧ t.odu.next = o.next ∧ t.odu.direction = o.direction ∧
        t.odu.view = .suspended ∧ t.odu.resuming = true ∧ t.odu.zeroSpeedNext = true ∧ t.odu.e1.eventDistance = 0 ∧
        t.odu.e2.eventDistance = 0 ∧ t.bus = { s.bus with toRcu := s.bus.toRcu ++ [.restored] }) ∧
    (¬far → x.health = .failed → x.goodChecks = 7 → o.view = .running ∨ (o.view = .suspended ∧ o.resuming = true) →
      exec (.zPulse e) s = .next { s with odu := o.setEnc e { x with
        indexCount := 0, aligned := true, health := .ok, strikes := 0, goodChecks := 0 } })) ∧
  ∀ (s : State) (e : Encoder) (ch : QuadChannel) (ticks : Nat), s.odu.source = .encoders → s.odu.view = .running →
    let o := s.odu;
    let x := o.enc e;
    let other := encoderOther e;
    let y := o.enc other;
    let v := countValue x ch;
    (∀ q : Sense, o.active = e → x.health = .ok → x.strikes = 2 → x.prevSense = some q → q.value = v →
      x.indexCount + 1 = x.countsPerRev + 3 → (y.silence + v).natAbs < 512 →
      ∃ (t : State) (evs : List SampleEvent), exec (.encoderCount e ch ticks) s = .next t ∧ (t.odu.enc e).health = .failed ∧
        SwitchedOrLost o t.odu y.health ∧
        t.bus.toRcu = s.bus.toRcu ++ evs.map RcuMessage.event ++ (match y.health with
          | .ok => []
          | .failed => [RcuMessage.lost])) ∧
    (o.active = other → y.health = .ok → 512 ≤ (y.silence + v).natAbs →
      ∃ t : State, exec (.encoderCount e ch ticks) s = .next t ∧ (t.odu.enc other).health = .failed ∧
        SwitchedOrLost o t.odu (t.odu.enc e).health ∧ t.odu.position = o.position ∧
        t.bus = { s.bus with toRcu := s.bus.toRcu ++ (match (t.odu.enc e).health with
          | .ok => []
          | .failed => [RcuMessage.lost]) })

/-- The ODU at STOP (R23), at the resumption notice (R19), and at the expiry of the standstill timer (R10). `view` and `resuming` are the
ODU's own record of the run (log entry 4), the time base runs on to the tick of the timer (log entry 2), and an active encoder that is
FAILED at the resumption notice is followed by a switch or by a new loss, as in RUNNING (log entry 22). -/
def Obligations.TheOduTakesItsNotices : Prop :=
  (∀ (s : State) (rest : List Message), s.bus.toOdu = .stop :: rest →
    exec .oduStopNotice s = .next { s with
      odu := { s.odu with view := .standby, speed := 0, standstill := none, paceStopped := true, paceTimer := none,
                          encSwitch := false, resuming := false },
      bus := { s.bus with toOdu := rest } }) ∧
  (∀ (s : State) (rest : List Message), s.bus.toOdu = .resume :: rest → (s.odu.enc s.odu.active).health = .ok →
    exec .oduResumptionNotice s = .next { s with
      odu := { s.odu with view := .running, resuming := false, e1 := { s.odu.e1 with eventDistance := 0 },
                          e2 := { s.odu.e2 with eventDistance := 0 } },
      bus := { s.bus with toOdu := rest } }) ∧
  (∀ (s : State) (rest : List Message), s.bus.toOdu = .resume :: rest → (s.odu.enc s.odu.active).health = .failed →
    let other := (s.odu.enc (encoderOther s.odu.active)).health
    ∃ t : State, exec .oduResumptionNotice s = .next t ∧ SwitchedOrLost s.odu t.odu other ∧ t.odu.resuming = false ∧
      t.odu.position = s.odu.position ∧ (∀ e, t.odu.enc e = { s.odu.enc e with eventDistance := 0 }) ∧
      { t with odu := s.odu, bus := s.bus } = s ∧
      t.bus = { s.bus with toOdu := rest, toRcu := s.bus.toRcu ++ (match other with
        | .ok => []
        | .failed => [RcuMessage.lost]) }) ∧
  ∀ (s : State) (tick : Nat), s.odu.standstill = some tick →
    exec .standstillExpiry s = .next { s with now := max s.now tick, odu := { s.odu with speed := 0, standstill := none } }

/-! ### Sensor links -/

/-- A slot begins on all three links together, the next 512 ticks later (R26). At the slot end of one link the frame is judged:
a good one sets the sequence numbers and shows a sequence error where it was not the one expected, a missing one counts and names
its cause (R27, R28); each channel of the link takes its 24-bit word, or a missing value where the frame is missing or its OK
flag is clear (R29, R200); the link is UP, PARTIAL or DOWN as its channels are (R32), and a LOST channel sets the loss-seen mark of the
inertial group that depends on it, whose state stays (R40). The other channels and links, and every other block, stay. Frame
sync is high for the first 16 ticks of a slot and at no other time (R200). That a slot stands open until its end is taken is log entry
17's, the time base log entry 2's. -/
def Obligations.SlotsBeginTogetherAndEndByLink : Prop :=
  (∀ (s : State) (tick : Nat), s.slc.slotTimer = some tick → (∀ l, (s.slc.link l).slotOpen = false) →
    exec .slotStart s = .next { s with
      now := max s.now tick,
      slc := { s.slc with s1 := { s.slc.s1 with slotOpen := true }, s2 := { s.slc.s2 with slotOpen := true },
                          s3 := { s.slc.s3 with slotOpen := true }, slotStart := max s.now tick,
                          slotTimer := some (max s.now tick + 512) } } ∧
    ∀ t, exec .slotStart s = .next t → ∀ n : Nat, ({ t with now := t.now + n } : State).frameSync = true ↔ n < 16) ∧
  (∀ s : State, s.slc.slotTimer ≠ some (s.slc.slotStart + 512) → s.frameSync = false) ∧
  ∀ (s : State) (l : Link) (opened : Bool) (bytes : List Byte),
    (s.slc.link l).slotOpen = true → (Instr.slotEnd l opened bytes).wellFormed = true →
    let cause := causeOf l opened bytes;
    let x := s.slc.link l;
    let seq := bytes.getD 1 0;
    ∃ t : State, exec (.slotEnd l opened bytes) s = .next t ∧
      { t with now := s.now, slc := s.slc } = s ∧ t.now = max s.now (s.slc.slotStart + 512) ∧
      t.slc = { s.slc with s1 := t.slc.s1, s2 := t.slc.s2, s3 := t.slc.s3, channels := t.slc.channels,
                           vertLeft := t.slc.vertLeft, vertRight := t.slc.vertRight, lateral := t.slc.lateral,
                           yaw := t.slc.yaw, yawSaturated := t.slc.yawSaturated, vertGroup := t.slc.vertGroup,
                           latGroup := t.slc.latGroup } ∧
      (t.slc.link l).slotOpen = false ∧ (∀ m, m ≠ l → t.slc.link m = s.slc.link m) ∧
      (cause = .none → (t.slc.link l).lastGood = seq ∧ (t.slc.link l).expected = some (seq + 1) ∧
        (t.slc.link l).missing = x.missing ∧ (t.slc.link l).fault = x.fault ∧
        (t.slc.link l).seqErrors =
          (if x.expected ≠ none ∧ x.expected ≠ some seq then min 65535 (x.seqErrors + 1) else x.seqErrors)) ∧
      (cause ≠ .none → (t.slc.link l).fault = cause ∧ (t.slc.link l).lastGood = x.lastGood ∧
        (t.slc.link l).expected = x.expected.map (· + 1) ∧ (t.slc.link l).missing = min 65535 (x.missing + 1) ∧
        (t.slc.link l).seqErrors = x.seqErrors) ∧
      (∀ (i : Nat) (ch : ChannelId), (linkChannels l)[i]? = some ch →
        let w := (bytes.getD (3 + 3 * i) 0).toNat * 65536 + (bytes.getD (4 + 3 * i) 0).toNat * 256 +
          (bytes.getD (5 + 3 * i) 0).toNat
        let v : Int := if w < 8388608 then w else (w : Int) - 16777216;
        t.slc.channels.get ch = (s.slc.channels.get ch).take
          (if cause = .none ∧ (bytes.getD 2 0).getLsbD (7 - i) = true then some v else none)) ∧
      (∀ ch, ch ∉ linkChannels l → t.slc.channels.get ch = s.slc.channels.get ch) ∧
      ((t.slc.link l).state = .up ↔ ∀ ch ∈ linkChannels l, (t.slc.channels.get ch).state ≠ .lost) ∧
      ((t.slc.link l).state = .down ↔ ∀ ch ∈ linkChannels l, (t.slc.channels.get ch).state = .lost) ∧
      t.slc.vertGroup = { s.slc.vertGroup with lossSeen := t.slc.vertGroup.lossSeen } ∧
      t.slc.latGroup = { s.slc.latGroup with lossSeen := t.slc.latGroup.lossSeen } ∧
      (t.slc.vertGroup.lossSeen = true ↔ s.slc.vertGroup.lossSeen = true ∨
        (l = .s2 ∧ (t.slc.channels.azl.state = .lost ∨ t.slc.channels.azr.state = .lost))) ∧
      (t.slc.latGroup.lossSeen = true ↔ s.slc.latGroup.lossSeen = true ∨
        (l = .s3 ∧ (t.slc.channels.ay.state = .lost ∨ t.slc.channels.roll.state = .lost ∨ t.slc.channels.yaw.state = .lost)))

/-- A channel in OK keeps its value through up to four missing values, counting them in HELD, and is LOST at the fifth, with no
held value (R30). A LOST channel becomes OK at the sixteenth delivered value in a row, with that value, and no earlier; a missing
value starts the count again (R31). A delivered value taken in OK or in HELD makes the channel OK with that value and no value missing
(R30). -/
def Obligations.ChannelsFallAfterFiveAndRecoverAfterSixteen : Prop :=
  (∀ (c : Channel) (n : Nat), c.state = .ok →
    let d := (List.replicate n (none : Option Int)).foldl Channel.take c;
    (n = 0 → d = c) ∧ (1 ≤ n ∧ n ≤ 4 → d.state = .held ∧ d.held = c.held ∧ d.miss = n) ∧
    (5 ≤ n → d.state = .lost ∧ d.held = none)) ∧
  (∀ (c : Channel) (vs : List Int), c.state = .lost → c.recovery = 0 →
    let d := (vs.map some).foldl Channel.take c;
    (vs.length ≤ 15 → d.state = .lost ∧ d.held = c.held ∧ d.recovery = vs.length) ∧
    (16 ≤ vs.length → d.state = .ok ∧ d.held = vs.getLast?)) ∧
  (∀ c : Channel, c.state = .lost → (c.take none).state = .lost ∧ (c.take none).recovery = 0) ∧
  ∀ (c : Channel) (v : Int), c.state ≠ .lost →
    (c.take (some v)).state = .ok ∧ (c.take (some v)).held = some v ∧ (c.take (some v)).miss = 0

/-- At a slot end the integrators of that link step after its channels: each vertical one with its acceleration (R33, R34), the
lateral one with AY freed of its part of gravity and clamped to 24 bits, a clamped one setting its saturation mark (R36), the yaw one
modulo 2^48 with its mark as it was (R37); one whose input is LOST is held at zero with its mark clear (R38). S1 feeds none. -/
def Obligations.IntegratorsStepWithTheirLink : Prop :=
  ∀ (s : State) (l : Link) (opened : Bool) (bytes : List Byte),
    (s.slc.link l).slotOpen = true → (Instr.slotEnd l opened bytes).wellFormed = true →
    ∃ t : State, exec (.slotEnd l opened bytes) s = .next t ∧
      let zero : Integrator := { v := 0, p := 0, saturated := false }
      let c := t.slc.channels
      (l = .s1 → t.slc.vertLeft = s.slc.vertLeft ∧ t.slc.vertRight = s.slc.vertRight ∧ t.slc.lateral = s.slc.lateral ∧
        t.slc.yaw = s.slc.yaw) ∧
      (l ≠ .s3 → t.slc.yawSaturated = s.slc.yawSaturated) ∧
      (l = .s2 → t.slc.lateral = s.slc.lateral ∧ t.slc.yaw = s.slc.yaw ∧
        (held c.azl = none → t.slc.vertLeft = zero) ∧ (held c.azr = none → t.slc.vertRight = zero) ∧
        (∀ a, held c.azl = some a → Leaks s.slc.vertLeft t.slc.vertLeft a s.slc.kv s.slc.kp) ∧
        (∀ a, held c.azr = some a → Leaks s.slc.vertRight t.slc.vertRight a s.slc.kv s.slc.kp)) ∧
      (l = .s3 → t.slc.vertLeft = s.slc.vertLeft ∧ t.slc.vertRight = s.slc.vertRight ∧
        (held c.ay = none ∨ held c.roll = none → t.slc.lateral = zero) ∧
        (∀ y r, held c.ay = some y → held c.roll = some r →
          let a := y + (r * 20084 + 2048) / 4096
          (-8388608 ≤ a ∧ a ≤ 8388607 → Leaks s.slc.lateral t.slc.lateral a s.slc.kv s.slc.kp) ∧
          (¬(-8388608 ≤ a ∧ a ≤ 8388607) → t.slc.lateral.saturated = true ∧
            Leaks { s.slc.lateral with saturated := true } t.slc.lateral (max (-8388608) (min 8388607 a)) s.slc.kv s.slc.kp)) ∧
        (held c.yaw = none → t.slc.yaw = 0) ∧ (c.yaw.state = .lost → t.slc.yawSaturated = false) ∧
        (c.yaw.state ≠ .lost → t.slc.yawSaturated = s.slc.yawSaturated) ∧
        ∀ r, held c.yaw = some r → t.slc.yaw.toInt = (s.slc.yaw.toInt + r).bmod (2 ^ 48))

/-- The SLC takes a sample event that the PRU has taken before it: both groups are evaluated (R41) and the three snapshots are
delivered to the ASU, an absent field as none, the rail heights H − Z with H = floor((P + 2^20) / 2^21) while the group is VALID
(R35, R43, R44). Reversal notices that stood right behind the event follow the delivery to the ASU (log entry 3). -/
def Obligations.ASampleEventIsDelivered : Prop :=
  ∀ (s : State) (e : SampleEvent) (rest : List Message), s.bus.toSlc = .event e :: rest →
    (s.bus.toPru.filter Message.isEvent).length < (s.bus.toSlc.filter Message.isEvent).length →
    ∃ (t : State) (d : Delivery) (n : Nat), exec .slcSampleEvent s = .next t ∧
      let c := s.slc.channels
      let height (i : Integrator) : Int := (i.p + 1048576) / 2097152
      Evaluated s.slc s.slc.vertGroup t.slc.vertGroup (c.azl.state = .lost ∨ c.azr.state = .lost) e.speed ∧
      Evaluated s.slc s.slc.latGroup t.slc.latGroup (c.ay.state = .lost ∨ c.roll.state = .lost ∨ c.yaw.state = .lost) e.speed ∧
      { t with slc := s.slc, bus := s.bus } = s ∧
      t.slc = { s.slc with vertGroup := t.slc.vertGroup, latGroup := t.slc.latGroup } ∧
      t.bus = { s.bus with toSlc := t.bus.toSlc,
                           toAsu := s.bus.toAsu ++ .delivery d :: List.replicate n AsuMessage.reversal } ∧
      rest = List.replicate n Message.reversal ++ t.bus.toSlc ∧ NoReversalFirst t.bus.toSlc ∧
      d.k = e.k ∧ d.direction = e.direction ∧ d.slip = e.slip ∧ d.encSwitch = e.encSwitch ∧
      d.gauge.gl = held c.gl ∧ d.gauge.gr = held c.gr ∧ d.vertical.zl = held c.zl ∧ d.vertical.zr = held c.zr ∧
      d.lateral.roll = held c.roll ∧
      (t.slc.vertGroup.state = .valid → d.vertical.hL = (held c.zl).map (fun z => height s.slc.vertLeft - z) ∧
        d.vertical.hR = (held c.zr).map (fun z => height s.slc.vertRight - z)) ∧
      (t.slc.vertGroup.state ≠ .valid → d.vertical.hL = none ∧ d.vertical.hR = none) ∧
      (t.slc.latGroup.state = .valid → d.lateral.hy = some (height s.slc.lateral) ∧ d.lateral.psi = some s.slc.yaw) ∧
      (t.slc.latGroup.state ≠ .valid → d.lateral.hy = none ∧ d.lateral.psi = none)

/-- START clears the counts, causes and saturation marks of the SLC (R47); entry to SUSPENDED and STOP make both groups
INVALID (R42). Each notice goes on to the ASU (log entry 3), and STOP may be taken ahead of events fired before it (R43). -/
def Obligations.TheSlcTakesItsNotices : Prop :=
  let cleared (x : LinkState) : LinkState := { x with missing := 0, seqErrors := 0, fault := .none }
  let unsaturated (i : Integrator) : Integrator := { i with saturated := false }
  let invalid (g : Group) : Group := { g with state := .invalid, settle := 0 }
  (∀ (s : State) (i : StartInfo) (rest : List Message), s.bus.toSlc = .start i :: rest → NoReversalFirst rest →
    exec .slcStartNotice s = .next { s with
      slc := { s.slc with s1 := cleared s.slc.s1, s2 := cleared s.slc.s2, s3 := cleared s.slc.s3,
                          vertLeft := unsaturated s.slc.vertLeft, vertRight := unsaturated s.slc.vertRight,
                          lateral := unsaturated s.slc.lateral, yawSaturated := false },
      bus := { s.bus with toSlc := rest, toAsu := s.bus.toAsu ++ [.start i] } }) ∧
  (∀ (s : State) (rest : List Message), s.bus.toSlc = .suspend :: rest → NoReversalFirst rest →
    exec .slcSuspendNotice s = .next { s with
      slc := { s.slc with vertGroup := invalid s.slc.vertGroup, latGroup := invalid s.slc.latGroup },
      bus := { s.bus with toSlc := rest, toAsu := s.bus.toAsu ++ [.suspend] } }) ∧
  ∀ (s : State) (es : List SampleEvent) (rest : List Message), s.bus.toSlc = es.map Message.event ++ .stop :: rest →
    NoReversalFirst (es.map Message.event ++ rest) →
    exec .slcStopNotice s = .next { s with
      slc := { s.slc with vertGroup := invalid s.slc.vertGroup, latGroup := invalid s.slc.latGroup },
      bus := { s.bus with toSlc := es.map Message.event ++ rest, toAsu := s.bus.toAsu ++ [.stop] } }

/-! ### Assembly -/

/-- Filing a delivery puts each group's snapshot into the slot of its own track index k + p_g: the part is present, the SLIP
and ENC_SWITCH marks gather, an EMPTY slot takes the index with its marks clear, a PARTIAL one keeps what it held (R51); no
slot of another place changes, and a snapshot whose index lies outside the signed 32-bit range is not filed, while the rest is (R59). The
mounts lie in −100 to +100 (R49). -/
def Obligations.ADeliveryIsFiledByTrackIndex : Prop :=
  ∀ (a : Asu) (d : Delivery),
    (∀ p ∈ [a.pGauge, a.pVertical, a.pLateral], -100 ≤ p ∧ p ≤ 100) →
    let place (j : Int) : Nat := (j % 256).toNat
    let js := [d.k + a.pGauge, d.k + a.pVertical, d.k + a.pLateral]
    let b := a.file d
    (∀ j ∈ js, Fits32 j →
      ∃ x, b.table.get? (place j) = some x ∧
        (j = d.k + a.pGauge → x.gauge = some d.gauge) ∧ (j = d.k + a.pVertical → x.vertical = some d.vertical) ∧
        (j = d.k + a.pLateral → x.lateral = some d.lateral) ∧
        (a.table.get? (place j) = none →
          x.j = j ∧ x.mark1 = false ∧ x.mark2 = false ∧ x.slip = d.slip ∧ x.encSwitch = d.encSwitch ∧
          (j ≠ d.k + a.pGauge → x.gauge = none) ∧ (j ≠ d.k + a.pVertical → x.vertical = none) ∧
          (j ≠ d.k + a.pLateral → x.lateral = none)) ∧
        ∀ y, a.table.get? (place j) = some y →
          x.j = y.j ∧ x.mark1 = y.mark1 ∧ x.mark2 = y.mark2 ∧ x.slip = (y.slip || d.slip) ∧
          x.encSwitch = (y.encSwitch || d.encSwitch) ∧ (j ≠ d.k + a.pGauge → x.gauge = y.gauge) ∧
          (j ≠ d.k + a.pVertical → x.vertical = y.vertical) ∧ (j ≠ d.k + a.pLateral → x.lateral = y.lateral)) ∧
    (∀ i : Nat, (∀ j ∈ js, Fits32 j → i ≠ place j) → b.table.get? i = a.table.get? i) ∧
    b = { a with table := b.table }

/-- The ASU takes a delivery (R51 to R53, R58): in IDLE it is dropped; in ASSEMBLING it is filed, and the slot the rearmost group
has just left becomes EMPTY: with all three parts it is handed on as a base record and counted, otherwise it is discarded as
incomplete and its lost marks are reported. Where that slot is EMPTY already, or its index lies outside the signed 32-bit range, the
delivery is filed and nothing more (R59). EMPTY is said of a table in its canonical form. -/
def Obligations.ADeliveryCompletesTheRearSlot : Prop :=
  ∀ (s : State) (d : Delivery) (rest : List AsuMessage), s.bus.toAsu = .delivery d :: rest →
    (s.asu.assembling = false → exec .delivery s = .next { s with bus := { s.bus with toAsu := rest } }) ∧
    (s.asu.assembling = true →
      let a := Asu.file { s.asu with latest := some d.k } d
      let j := match d.direction with
        | .fwd => d.k + min s.asu.pGauge (min s.asu.pVertical s.asu.pLateral)
        | .rev => d.k + max s.asu.pGauge (max s.asu.pVertical s.asu.pLateral)
      let place := (j % 256).toNat
      (¬Fits32 j ∨ a.table.get? place = none →
        exec .delivery s = .next { s with asu := a, bus := { s.bus with toAsu := rest } }) ∧
      (s.asu.table.wf = true → (a.table.drop place).get? place = none ∧
        ∀ i, i ≠ place → (a.table.drop place).get? i = a.table.get? i) ∧
      ∀ x, Fits32 j → a.table.get? place = some x →
        (∀ g v l, x.gauge = some g → x.vertical = some v → x.lateral = some l →
          exec .delivery s = .next { s with
            asu := { a with table := a.table.drop place, completed := s.asu.completed + 1 },
            bus := { s.bus with toAsu := rest, toGcu := s.bus.toGcu ++
              [.base { j := x.j, direction := d.direction, gauge := g, vertical := v, lateral := l, mark1 := x.mark1,
                       mark2 := x.mark2, slip := x.slip, encSwitch := x.encSwitch }] } }) ∧
        (x.gauge = none ∨ x.vertical = none ∨ x.lateral = none →
          exec .delivery s = .next { s with
            asu := { a with table := a.table.drop place, incomplete := min 65535 (s.asu.incomplete + 1) },
            bus := { s.bus with toAsu := rest, asuAnswers := s.bus.asuAnswers ++ lossReports [(place, x)] } }))

/-- A reversal, START, entry to SUSPENDED and STOP each discard every PARTIAL slot, count the discarded ones up to 65535, report
their lost marks, and then set the state, the direction and the counts as the table of R55 says (R54, R55, R58). Each goes on to
the GCU behind the base records handed before it (R53, log entry 3); STOP may be taken ahead of a delivery (R55). The order of the
reports of one restart is log entry 31's. -/
def Obligations.ARestartEmptiesTheAssemblyTable : Prop :=
  let discarded (s : State) : Asu :=
    { s.asu with table := [], restarts := min 65535 (s.asu.restarts + s.asu.table.length) }
  let handed (s : State) (toAsu : List AsuMessage) (m : GcuMessage) : Bus :=
    { s.bus with toAsu := toAsu, asuAnswers := s.bus.asuAnswers ++ lossReports s.asu.table, toGcu := s.bus.toGcu ++ [m] }
  (∀ (s : State) (rest : List AsuMessage), s.bus.toAsu = .reversal :: rest →
    exec .asuReversalNotice s = .next { s with
      asu := { discarded s with direction := (match s.asu.direction with
                                  | .fwd => .rev
                                  | .rev => .fwd) }, bus := handed s rest .reversal }) ∧
  (∀ (s : State) (i : StartInfo) (rest : List AsuMessage), s.bus.toAsu = .start i :: rest →
    exec .asuStartNotice s = .next { s with
      asu := { s.asu with table := [], assembling := true, direction := i.direction, latest := none, completed := 0,
                          incomplete := 0, restarts := 0 }, bus := handed s rest (.start i) }) ∧
  (∀ (s : State) (rest : List AsuMessage), s.bus.toAsu = .suspend :: rest →
    exec .asuSuspendNotice s = .next { s with
      asu := { discarded s with assembling := true }, bus := handed s rest .suspend }) ∧
  ∀ (s : State) (ds : List Delivery) (rest : List AsuMessage), s.bus.toAsu = ds.map AsuMessage.delivery ++ .stop :: rest →
    exec .asuStopNotice s = .next { s with
      asu := { discarded s with assembling := false }, bus := handed s (ds.map AsuMessage.delivery ++ rest) .stop }

/-- A mark request whose index lies in the open window of an ASSEMBLING ASU sets the mark of its line in the slot of that index
and is answered PLACED; any other changes no slot and is answered NOT_IN_STREAM (R56, R59). -/
def Obligations.AMarkRequestIsTestedAgainstTheWindow : Prop :=
  ∀ (s : State) (q : CaptureRequest) (rest : List CaptureRequest), s.bus.markRequests = q :: rest →
    let answered (placed : Bool) : Bus :=
      { s.bus with markRequests := rest, asuAnswers := s.bus.asuAnswers ++ [.placement q.line q.number placed] }
    let place := (q.j % 256).toNat
    (¬(s.asu.assembling = true ∧ Fits32 q.j ∧ InWindow s.asu q.j) →
      exec .markRequest s = .next { s with bus := answered false }) ∧
    (s.asu.assembling = true → Fits32 q.j → InWindow s.asu q.j →
      ∃ (t : State) (x : Slot), exec .markRequest s = .next t ∧ { t with asu := s.asu } = { s with bus := answered true } ∧
        t.asu = { s.asu with table := t.asu.table } ∧ t.asu.table.get? place = some x ∧
        (∀ i, i ≠ place → t.asu.table.get? i = s.asu.table.get? i) ∧
        (q.line = .m1 → x.mark1 = true) ∧ (q.line = .m2 → x.mark2 = true) ∧
        (s.asu.table.get? place = none → x.j = q.j ∧ x.gauge = none ∧ x.vertical = none ∧ x.lateral = none ∧
          x.slip = false ∧ x.encSwitch = false ∧ (q.line = .m1 → x.mark2 = false) ∧ (q.line = .m2 → x.mark1 = false)) ∧
        ∀ y, s.asu.table.get? place = some y → x.j = y.j ∧ x.gauge = y.gauge ∧ x.vertical = y.vertical ∧
          x.lateral = y.lateral ∧ x.slip = y.slip ∧ x.encSwitch = y.encSwitch ∧ (q.line = .m1 → x.mark2 = y.mark2) ∧
          (q.line = .m2 → x.mark1 = y.mark1))

/-! ### Geometry -/

/-- A base record taken in IDLE is dropped and counted (R74). In ACTIVE it completes: it fills its entry with its quantities and the
position fields of the history entry of its index, or those of a missing one; then the record of every pending entry that is due, its own
among them where it is due, is formed with the fields and parameters of its entry and handed on, in increasing index order in FWD and
decreasing in REV, its pending mark is clear, the counts follow, and every other entry and count stays (R71, R72, R81 to R83). The window
stands in its canonical form. The run number is the one in force when the record is formed (log entry 23). -/
def Obligations.ABaseRecordFormsWhatIsDue : Prop :=
  ∀ (s : State) (b : BaseRecord) (rest : List GcuMessage), s.bus.toGcu = .base b :: rest →
    (s.gcu.active = false → exec .baseRecord s = .next { s with
      gcu := { s.gcu with dropped := min 65535 (s.gcu.dropped + 1) }, bus := { s.bus with toGcu := rest } }) ∧
    (s.gcu.active = true → WindowSound s.gcu →
      ∃ (t : State) (rs : List OutputRecord) (e : WindowEntry), exec .baseRecord s = .next t ∧
        e.j = b.j ∧ e.pending = true ∧ e.quantities = s.gcu.quantities b ∧ e.direction = b.direction ∧ e.mark1 = b.mark1 ∧
        e.mark2 = b.mark2 ∧ e.slip = b.slip ∧ e.encSwitch = b.encSwitch ∧
        (s.pru.historyAt b.j = none → e.position =
          { chainage := 0, planEntry := none, segment := none, lineCode := 0, speed := 0, uncertain := true, step := false,
            line := false, slip := false, encSwitch := false }) ∧
        (∀ h, s.pru.historyAt b.j = some h → e.position =
          { chainage := h.chainage, planEntry := h.planEntry, segment := h.segment, lineCode := h.lineCode, speed := h.speed,
            uncertain := h.uncertain, step := h.step, line := h.line, slip := h.slip, encSwitch := h.encSwitch }) ∧
        { t with gcu := s.gcu, bus := s.bus } = s ∧
        t.bus = { s.bus with toGcu := rest, toExu := s.bus.toExu ++ rs.map ExuMessage.record } ∧
        t.gcu = { s.gcu with window := t.gcu.window, latest := some b.j, pendingCount := s.gcu.pendingCount + 1 - rs.length,
                             output := s.gcu.output + BitVec.ofNat 32 rs.length } ∧
        t.gcu.window.wf = true ∧
        let filed (i : Nat) : Option WindowEntry := if i = (b.j % 128).toNat then some e else s.gcu.window.get? i
        (∀ i, filed i = none → t.gcu.window.get? i = none) ∧
        (∀ i f, filed i = some f → ∃ g, t.gcu.window.get? i = some g ∧ g = { f with pending := g.pending } ∧
          (g.pending = true ↔ f.pending = true ∧ ¬Due s.gcu b.j f.j)) ∧
        rs.Pairwise (fun q r => match s.gcu.direction with
          | .fwd => q.j < r.j
          | .rev => r.j < q.j) ∧
        (∀ i f, filed i = some f → f.pending = true → Due s.gcu b.j f.j → ∃ r ∈ rs, RecordOf t.gcu s.rcu.runNumber f r) ∧
        ∀ r ∈ rs, ∃ i f, filed i = some f ∧ f.pending = true ∧ Due s.gcu b.j f.j ∧ RecordOf t.gcu s.rcu.runNumber f r)

/-- A reversal, entry to SUSPENDED and STOP, taken in ACTIVE, form the record of every pending entry in index order with the fields and
parameters of its entry, clear the window, hand over the stream-end notice with its cause and the run number, and set the state and
direction (R81, R84, R85); in IDLE they form nothing. START makes the GCU ACTIVE with its counts 0 (R86), and the EXU gets it from the GCU,
behind the records (log entry 3; the rule of the EXU has it at START). The run number is the one in force (log entry 23). -/
def Obligations.AStreamEndFlushesTheWindow : Prop :=
  (∀ (s : State) (rest : List GcuMessage) (n : Instr × GcuMessage × Cause),
    n ∈ [(.gcuReversalNotice, .reversal, .reversed), (.gcuSuspendNotice, .suspend, .suspended),
         (.gcuStopNotice, .stop, .stopped)] →
    s.bus.toGcu = n.2.1 :: rest →
    (s.gcu.active = false → exec n.1 s = .next { s with bus := { s.bus with toGcu := rest } }) ∧
    (s.gcu.active = true → WindowSound s.gcu →
      ∃ (t : State) (rs : List OutputRecord), exec n.1 s = .next t ∧
        rs.length = s.gcu.window.countP (fun e => e.2.pending) ∧
        (∀ i e, s.gcu.window.get? i = some e → e.pending = true → ∃ r ∈ rs, RecordOf s.gcu s.rcu.runNumber e r) ∧
        (∀ r ∈ rs, ∃ i e, s.gcu.window.get? i = some e ∧ e.pending = true ∧ RecordOf s.gcu s.rcu.runNumber e r) ∧
        rs.Pairwise (fun q r => match s.gcu.direction with
          | .fwd => q.j < r.j
          | .rev => r.j < q.j) ∧
        t = { s with
          gcu := { s.gcu with window := [], pendingCount := 0, latest := none,
                              output := s.gcu.output + BitVec.ofNat 32 rs.length,
                              flushed := s.gcu.flushed + BitVec.ofNat 32 rs.length,
                              active := decide (n.2.2 ≠ .stopped),
                              direction := if n.2.2 = .reversed then (match s.gcu.direction with
                                | .fwd => .rev
                                | .rev => .fwd) else s.gcu.direction },
          bus := { s.bus with toGcu := rest, toExu := s.bus.toExu ++ rs.map ExuMessage.record ++
                                                        [.streamEnd n.2.2 s.rcu.runNumber] } })) ∧
  ∀ (s : State) (i : StartInfo) (rest : List GcuMessage), s.bus.toGcu = .start i :: rest →
    exec .gcuStartNotice s = .next { s with
      gcu := { s.gcu with active := true, direction := i.direction, output := 0, flushed := 0, dropped := 0, latest := none },
      bus := { s.bus with toGcu := rest, toExu := s.bus.toExu ++ [.start] } }

/-- Base quantities and derived parameters (R66 to R69, R75, R76, R78, R79), with every quotient the nearest integer, halves
away from zero: the cross-level, the twist over its base, the offset from the chord weighted by its arms, and the curvature over
2c samples from the heading difference taken modulo 2^48; each is present exactly when all it is formed from is. -/
def Obligations.ParametersFollowTheirFormulas : Prop :=
  let sat (x : Int) : Int := max (-2147483648) (min 2147483647 x)
  (∀ (c : Gcu) (b : BaseRecord),
    ((c.quantities b).cl.isSome ↔ b.lateral.roll.isSome ∧ b.vertical.zl.isSome ∧ b.vertical.zr.isSome) ∧
    (∀ roll zl zr, b.lateral.roll = some roll → b.vertical.zl = some zl → b.vertical.zr = some zr →
      ∃ q, RoundsAway q (c.railDistance * roll) 1000 ∧ (c.quantities b).cl = some (sat (q + zr - zl))) ∧
    (c.quantities b).g = b.gauge.gl.bind (fun gl => b.gauge.gr.map (fun gr => sat (gl + gr + c.g0 - c.gNom))) ∧
    (c.quantities b).yl = b.vertical.hL.map sat ∧ (c.quantities b).yr = b.vertical.hR.map sat ∧
    (c.quantities b).ul = b.lateral.hy.bind (fun hy => b.gauge.gl.map (fun gl => sat (hy + gl))) ∧
    (c.quantities b).ur = b.lateral.hy.bind (fun hy => b.gauge.gr.map (fun gr => sat (hy - gr))) ∧
    (c.quantities b).psi = b.lateral.psi) ∧
  ∀ (c : Gcu) (e : WindowEntry), 0 < c.armA + c.armB → 0 < c.halfBase → 0 < c.interval →
    let at_ (j : Int) : Option BaseQuantities :=
      (c.window.get? (j % 128).toNat).bind (fun f => if f.j = j then some f.quantities else none)
    let out := c.parameters e
    out.checked.g = e.quantities.g ∧ out.checked.cl = e.quantities.cl ∧
    out.checked.tw = (at_ e.j).bind (fun q => q.cl.bind (fun x => (at_ (e.j - c.twistBase)).bind (fun r => r.cl.map (fun y =>
      sat (x - y))))) ∧
    (∀ (pick : BaseQuantities → Option Int) (value : Option Int),
      (pick, value) ∈ [((·.yl), out.checked.ll), ((·.yr), out.checked.lr), ((·.ul), out.checked.al), ((·.ur), out.checked.ar)] →
      (∀ y0 ya yb, (at_ e.j).bind pick = some y0 → (at_ (e.j + c.armA)).bind pick = some ya →
        (at_ (e.j - c.armB)).bind pick = some yb →
        ∃ q, RoundsAway q (c.armB * ya + c.armA * yb) (c.armA + c.armB) ∧ value = some (sat (y0 - q))) ∧
      ((at_ e.j).bind pick = none ∨ (at_ (e.j + c.armA)).bind pick = none ∨ (at_ (e.j - c.armB)).bind pick = none →
        value = none)) ∧
    (∀ hi lo, (at_ (e.j + c.halfBase)).bind (·.psi) = some hi → (at_ (e.j - c.halfBase)).bind (·.psi) = some lo →
      ∃ q, RoundsAway q ((hi - lo).toInt * 1000) (2048 * (2 * c.halfBase * c.interval)) ∧ out.cv = some (sat q)) ∧
    ((at_ (e.j + c.halfBase)).bind (·.psi) = none ∨ (at_ (e.j - c.halfBase)).bind (·.psi) = none → out.cv = none)

/-! ### Position, fixes, plan -/

/-- A sample event whose assigned chainage does not pass the exit of the current entry: C(k) is Ccur plus the nominal advance plus a slew
step of at most the slew limit, r and Q take the slew step, the history entry is written with the plan position, the flags and the pending
STEP and LINE marks, which are then clear, and every other place of the history stays (R94 to R96, R121, R125). The sums lie in the signed
32-bit range. An event the PRU takes outside RUNNING by its own record of the run makes no cursor step, whatever its chainage (log entry
12). That the sum saturates once, at its end, is log entry 32's. -/
def Obligations.AnAssignmentAdvancesAndSlews : Prop :=
  ∀ (s : State) (e : SampleEvent) (rest : List Message), s.bus.toPru = .event e :: rest →
    let p := s.pru
    let c := assigned p e s.odu.interval
    let delta := max (-p.slewLimit) (min p.slewLimit p.residual)
    0 ≤ p.slewLimit → Fits32 c → Fits32 (p.correction + delta) →
    (∀ e0 x, p.running = true → p.cursor = some e0 → p.plan[e0]? = some x → ¬Beyond p x e.direction c) →
    ∃ t : State, exec .pruSampleEvent s = .next t ∧
      t = { s with
        pru := { p with ccur := c, residual := p.residual - delta, correction := p.correction + delta, latest := some e.k,
                        direction := e.direction, stepMark := false, lineMark := false, history := t.pru.history },
        bus := { s.bus with toPru := rest } } ∧
      (∀ i, i ≠ (e.k % 4096).toNat → t.pru.history.get? i = p.history.get? i) ∧
      t.pru.historyAt e.k = some
        { index := e.k, chainage := c, correction := p.correction + delta, planEntry := p.cursor,
          segment := p.cursor.bind (fun e0 => p.plan[e0]?.map (·.segment)), lineCode := p.lineCode, speed := e.speed,
          uncertain := p.uncertain, step := p.stepMark, line := p.lineMark, slip := e.slip, encSwitch := e.encSwitch }

/-- In RUNNING, an assigned chainage beyond the exit of the current entry moves the cursor entry by entry in the running direction,
past every entry of the same line whose exit it has passed too (R120, R121): onto another line, or before its own entry boundary, it
re-bases there with r 0 and LINE in the history entry (R122); within an entry of the same line the chainage goes on unbroken; with no
entry left the cursor becomes OFF_PLAN and keeps the line code, the orientation of the last entry, the assigned chainage and the
residual left after its slew step (R123). The history entry holds what the step left, and nothing else changes (R96). That the sum of
an assignment saturates once, at its end, is log entry 32's. -/
def Obligations.TheCursorMovesWithTheChainage : Prop :=
  ∀ (s : State) (e : SampleEvent) (rest : List Message) (e0 : Nat) (x : PlanEntry), s.bus.toPru = .event e :: rest →
    let p := s.pru
    let d := e.direction
    let c := assigned p e s.odu.interval
    let delta := max (-p.slewLimit) (min p.slewLimit p.residual)
    p.running = true → p.cursor = some e0 → p.plan[e0]? = some x → 0 ≤ p.slewLimit → Fits32 c →
    Beyond p x d c →
    ∃ (t : State) (h : HistoryEntry), exec .pruSampleEvent s = .next t ∧ t.pru.historyAt e.k = some h ∧
      t = { s with
        pru := { p with ccur := t.pru.ccur, residual := t.pru.residual,
                        correction := max (-2147483648) (min 2147483647 (p.correction + delta)), latest := some e.k, direction := d,
                        stepMark := false, lineMark := false, cursor := t.pru.cursor, orientation := t.pru.orientation,
                        lineCode := t.pru.lineCode, history := t.pru.history },
        bus := { s.bus with toPru := rest } } ∧
      h = { index := e.k, chainage := t.pru.ccur, correction := t.pru.correction, planEntry := t.pru.cursor,
            segment := h.segment, lineCode := t.pru.lineCode, speed := e.speed, uncertain := p.uncertain, step := p.stepMark,
            line := h.line, slip := e.slip, encSwitch := e.encSwitch } ∧
      (∀ i, i ≠ (e.k % 4096).toNat → t.pru.history.get? i = p.history.get? i) ∧
      let sameLine (y : PlanEntry) : Prop := (p.segment y.segment).lineCode = p.lineCode
      let passed (n : Nat) : Prop := ∀ m, 1 ≤ m → m ≤ n →
        ∃ y, entryFrom p d e0 m = some y ∧ sameLine y ∧ ¬Before p y d c ∧ Beyond p y d c
      ∀ n, passed n →
        (entryFrom p d e0 (n + 1) = none →
          t.pru.cursor = none ∧ t.pru.ccur = c ∧ t.pru.lineCode = p.lineCode ∧ t.pru.residual = p.residual - delta ∧
          h.segment = none ∧ h.line = p.lineMark ∧ (n = 0 → t.pru.orientation = p.orientation) ∧
          ∀ z, 1 ≤ n → entryFrom p d e0 n = some z → t.pru.orientation = z.orientation) ∧
        ∀ y, entryFrom p d e0 (n + 1) = some y →
          let g := p.segment y.segment
          (¬sameLine y ∨ Before p y d c →
            t.pru.cursor = some (entryIndex d e0 (n + 1)) ∧ t.pru.ccur = (if y.orientation.sign * d.sign = 1 then g.lo else g.hi) ∧
            t.pru.residual = 0 ∧ t.pru.orientation = y.orientation ∧ t.pru.lineCode = g.lineCode ∧ h.line = true ∧
            h.segment = some y.segment) ∧
          (sameLine y → ¬Before p y d c → ¬Beyond p y d c →
            t.pru.cursor = some (entryIndex d e0 (n + 1)) ∧ t.pru.ccur = c ∧ t.pru.residual = p.residual - delta ∧
            t.pru.orientation = y.orientation ∧ t.pru.lineCode = p.lineCode ∧ h.line = p.lineMark ∧ h.segment = some y.segment)

/-- The history holds the entry of an event just taken, no entry of an index 4096 away from it, and every other entry it held
(R96, R97). So after events at n consecutive upward indices from an empty history exactly the latest 4096 of them are in history. -/
def Obligations.TheHistoryHoldsTheLatest4096 : Prop :=
  (∀ (p : Pru) (e : SampleEvent) (j : Int),
    (p.writeHistory e).historyAt j =
      if j = e.k then some (p.entryFor e) else if (j - e.k) % 4096 = 0 then none else p.historyAt j) ∧
  ∀ (p : Pru) (e : SampleEvent) (n : Nat) (j : Int), p.history = [] →
    let q := (List.range n).foldl (fun q i => q.writeHistory { e with k := e.k + i }) p;
    (q.historyAt j).isSome ↔ e.k ≤ j ∧ j < e.k + n ∧ e.k + n - 4096 ≤ j

/-- The notices of the PRU: a reversal turns the running direction and nothing else (R93, R124); START sets the start chainage,
the start entry and the empty lists (R112, R119); entry to SUSPENDED clears r (R108, R131); a resumption sets UNCERTAIN (R109);
STOP clears r and the pending marks (R113, R131), and may be taken ahead of an event. `running` is the PRU's own record of the run
(log entry 12). The notices of the MTU (R163, R169): START clears list, counts and indices and keeps a running pulse, suspension and
STOP take the run mark out of RUNNING, a resumption returns it; STOP may be taken ahead of an event (R165). -/
def Obligations.ThePruAndTheMtuTakeTheirNotices : Prop :=
  let line (x : MarkerState) : MarkerState := { x with captures := 0, previous := none, ignored := 0 }
  let channel (x : TriggerState) : TriggerState := { x with pulses := 0, dropped := 0, lastStarted := none, lastDropped := none }
  (∀ (s : State) (rest : List Message), s.bus.toPru = .reversal :: rest →
    exec .pruReversalNotice s = .next { s with
      pru := { s.pru with direction := (match s.pru.direction with
                 | .fwd => .rev
                 | .rev => .fwd) }, bus := { s.bus with toPru := rest } }) ∧
  (∀ (s : State) (i : StartInfo) (rest : List Message) (x : PlanEntry), s.bus.toPru = .start i :: rest →
    s.pru.plan[i.entry]? = some x →
    exec .pruStartNotice s = .next { s with
      pru := { s.pru with ccur := i.chainage, latest := none, direction := i.direction, residual := 0, correction := 0,
                          stepMark := false, uncertain := false, history := [], fixes := [], cursor := some i.entry,
                          orientation := x.orientation, lineCode := (s.pru.segment x.segment).lineCode, lineMark := false,
                          running := true },
      bus := { s.bus with toPru := rest } }) ∧
  (∀ (s : State) (rest : List Message), s.bus.toPru = .suspend :: rest →
    exec .pruSuspendNotice s = .next { s with
      pru := { s.pru with residual := 0, running := false }, bus := { s.bus with toPru := rest } }) ∧
  (∀ (s : State) (rest : List Message), s.bus.toPru = .resume :: rest →
    exec .pruResumptionNotice s = .next { s with
      pru := { s.pru with uncertain := true, running := true }, bus := { s.bus with toPru := rest } }) ∧
  (∀ (s : State) (es : List SampleEvent) (rest : List Message), s.bus.toPru = es.map Message.event ++ .stop :: rest →
     exec .pruStopNotice s = .next { s with
       pru := { s.pru with residual := 0, stepMark := false, lineMark := false, running := false },
       bus := { s.bus with toPru := es.map Message.event ++ rest } }) ∧
  (∀ (s : State) (i : StartInfo) (rest : List Message), s.bus.toMtu = .start i :: rest →
    exec .mtuStartNotice s = .next { s with
      mtu := { m1 := line s.mtu.m1, m2 := line s.mtu.m2, t1 := channel s.mtu.t1, t2 := channel s.mtu.t2,
               t3 := channel s.mtu.t3, t4 := channel s.mtu.t4, list := [], running := true },
      bus := { s.bus with toMtu := rest } }) ∧
  (∀ (s : State) (rest : List Message), s.bus.toMtu = .suspend :: rest →
    exec .mtuSuspendNotice s = .next { s with mtu := { s.mtu with running := false }, bus := { s.bus with toMtu := rest } }) ∧
  (∀ (s : State) (rest : List Message), s.bus.toMtu = .resume :: rest →
    exec .mtuResumptionNotice s = .next { s with mtu := { s.mtu with running := true }, bus := { s.bus with toMtu := rest } }) ∧
  ∀ (s : State) (es : List SampleEvent) (rest : List Message), s.bus.toMtu = es.map Message.event ++ .stop :: rest →
    exec .mtuStopNotice s = .next { s with
      mtu := { s.mtu with running := false }, bus := { s.bus with toMtu := es.map Message.event ++ rest } }

/-- A FIX_AT or FIX_NOW (R100 to R107): outside RUNNING, and before the PRU has taken a resumption notice (R109), it is refused with STATE;
a line code 0, a grade outside 1 to 3, a FORCE byte above 1 and a formed index outside the signed 32-bit range are refused with RANGE. One
naming the current line code is refused at an index that is neither in history nor ahead with STALE, at one recorded on another line with
OFF_ROUTE, farther off than the accept window without FORCE with FAR and the error, beside an entry of at least its
grade within 8 samples with DUPLICATE. One that passes is applied: the error now as a step where it exceeds the step threshold or FORCE is
set, otherwise as the residual; the entries within 8 samples are removed, the new entry is pushed, UNCERTAIN is cleared, and the reply
says what was done. In OFF_PLAN it takes the cursor to the first entry of the line that holds the chainage, and sets LINE (R129). From
STALE on, no START notice waits at the PRU (log entry 13). -/
def Obligations.AFixOfTheCurrentLineIsCheckedAndApplied : Prop :=
  ∀ (s : State) (now : Bool) (port : Port) (rq : Request),
    Serves s port rq (if now then .fixNow else .fixAt) →
    let b := rq.payload
    let off := if now then 2 else 4
    let j := if now then s.odu.positionIndex + getS16 b 0 else getS32 b 0
    let c := getS32 b off
    let grade := getU8 b (off + 6)
    let force := getU8 b (off + 7) = 1
    let cmd := if now then Instr.fixNow else Instr.fixAt
    let p := s.pru
    let conflicts := p.fixes.filter (fun f => decide ((j - f.j).natAbs ≤ 8))
    (s.rcu.runState ≠ .running ∨ s.resumeWaits = true → exec cmd s = .next (onlyReplies s port rq (.of .state []))) ∧
    (s.rcu.runState = .running → s.resumeWaits = false →
      getU16 b (off + 4) = 0 ∨ grade = 0 ∨ 3 < grade ∨ 1 < getU8 b (off + 7) ∨ ¬Fits32 j →
      exec cmd s = .next (onlyReplies s port rq (.of .range []))) ∧
    (s.rcu.runState = .running → s.resumeWaits = false → s.startWaits = false →
      getU16 b (off + 4) = p.lineCode → p.lineCode ≠ 0 → 1 ≤ grade → grade ≤ 3 → getU8 b (off + 7) ≤ 1 → Fits32 j →
      (p.reference j s.odu.interval = none → exec cmd s = .next (onlyReplies s port rq (.of .stale []))) ∧
      (∀ h, p.historyAt j = some h → h.lineCode ≠ p.lineCode →
        exec cmd s = .next (onlyReplies s port rq (.of .offRoute []))) ∧
      ∀ cref since, p.reference j s.odu.interval = some (cref, since) →
        (∀ h, p.historyAt j = some h → h.lineCode = p.lineCode) →
        let e := c - cref
        let eNow := e - since
        (p.acceptWindow < (e.natAbs : Int) → ¬force →
          exec cmd s = .next (onlyReplies s port rq (.of .far (putS32 (satS32 e))))) ∧
        ((e.natAbs : Int) ≤ p.acceptWindow ∨ force →
          (∀ f, conflicts.head? = some f → (∃ g ∈ conflicts, grade ≤ g.grade) →
            exec cmd s = .next (onlyReplies s port rq (.of .duplicate (putS32 f.j ++ putU8 f.grade)))) ∧
          ((∀ g ∈ conflicts, g.grade < grade) →
            let step := force ∨ p.stepThreshold < (eNow.natAbs : Int)
            let holds (x : PlanEntry) : Prop :=
              (p.segment x.segment).lineCode = p.lineCode ∧ (p.segment x.segment).lo ≤ c ∧ c ≤ (p.segment x.segment).hi
            ∃ (t : State) (f : Fix) (found : List Byte), exec cmd s = .next t ∧
              f.j = j ∧ f.chainage = c ∧ f.error = e ∧ f.errorNow = eNow ∧ f.grade = grade ∧ f.port = port ∧
              f.lineCode = p.lineCode ∧ f.epoch = s.odu.epoch ∧
              (force → f.kind = .forced) ∧ (¬force → step → f.kind = .step) ∧ (¬step → f.kind = .slew) ∧
              t.pru.fixes = (f :: p.fixes.filter (fun g => !decide ((j - g.j).natAbs ≤ 8))).take 8 ∧
              t.pru.uncertain = false ∧
              (step → t.pru.ccur = satS32 (p.ccur + eNow) ∧ t.pru.correction = satS32 (p.correction + eNow) ∧
                t.pru.residual = 0 ∧ t.pru.stepMark = true) ∧
              (¬step → t.pru.ccur = p.ccur ∧ t.pru.correction = p.correction ∧ t.pru.residual = eNow ∧
                t.pru.stepMark = p.stepMark) ∧
              ((p.cursor ≠ none ∨ ∀ x ∈ p.plan, ¬holds x) → t.pru.cursor = p.cursor ∧ t.pru.orientation = p.orientation ∧
                t.pru.lineMark = p.lineMark ∧ found = []) ∧
              (∀ (i : Nat) (x : PlanEntry), p.cursor = none → p.plan[i]? = some x → holds x →
                (∀ n y, n < i → p.plan[n]? = some y → ¬holds y) →
                t.pru.cursor = some i ∧ t.pru.orientation = x.orientation ∧ t.pru.lineMark = true ∧ found = putU8 i) ∧
              t.cpc = s.cpc.answer port rq (.of .ok (putS32 j ++ putS32 (satS32 e) ++ putS32 (satS32 eNow) ++
                putS32 t.pru.residual ++ putU8 f.kind.code ++ putU8 conflicts.length ++ putU8 t.pru.fixes.length ++ found)) ∧
              t = { s with pru := { p with fixes := t.pru.fixes, uncertain := false, ccur := t.pru.ccur,
                                           correction := t.pru.correction, residual := t.pru.residual,
                                           stepMark := t.pru.stepMark, cursor := t.pru.cursor,
                                           orientation := t.pru.orientation, lineMark := t.pru.lineMark },
                           cpc := t.cpc })))

/-- A FIX_AT or FIX_NOW naming another line (R126 to R128): a stale index is refused with STALE, a point already recorded on that line and
a chainage the plan does not hold with OFF_ROUTE, one beside an entry of at least its grade within 8 samples with DUPLICATE, in that order.
The plan search takes the first entry of that line whose segment contains the chainage; the cursor goes there, Ccur becomes the chainage
counted from the fix point along that entry, r is 0, LINE is pending, UNCERTAIN clear, the entries of lower grade within 8 samples are
removed, and the list entry and the reply carry the change of Ccur. The waiting notices are excluded as for the current line (log entry 13). -/
def Obligations.AFixOfAnotherLineIsPlacedOnThePlan : Prop :=
  ∀ (s : State) (now : Bool) (port : Port) (rq : Request),
    Serves s port rq (if now then .fixNow else .fixAt) →
    let b := rq.payload
    let off := if now then 2 else 4
    let j := if now then s.odu.positionIndex + getS16 b 0 else getS32 b 0
    let c := getS32 b off
    let line := getU16 b (off + 4)
    let grade := getU8 b (off + 6)
    let cmd := if now then Instr.fixNow else Instr.fixAt
    let p := s.pru
    let conflicts := p.fixes.filter (fun f => decide ((j - f.j).natAbs ≤ 8))
    s.rcu.runState = .running → s.resumeWaits = false → s.startWaits = false → line ≠ p.lineCode → line ≠ 0 →
    1 ≤ grade → grade ≤ 3 → getU8 b (off + 7) ≤ 1 → Fits32 j →
    (p.reference j s.odu.interval = none → exec cmd s = .next (onlyReplies s port rq (.of .stale []))) ∧
    (∀ h, p.historyAt j = some h → h.lineCode = line →
      exec cmd s = .next (onlyReplies s port rq (.of .offRoute []))) ∧
    (p.reference j s.odu.interval ≠ none → (∀ h, p.historyAt j = some h → h.lineCode ≠ line) →
      let holds (x : PlanEntry) : Prop :=
        (p.segment x.segment).lineCode = line ∧ (p.segment x.segment).lo ≤ c ∧ c ≤ (p.segment x.segment).hi
      ((∀ x ∈ p.plan, ¬holds x) → exec cmd s = .next (onlyReplies s port rq (.of .offRoute []))) ∧
      ((∃ x ∈ p.plan, holds x) → ∀ f, conflicts.head? = some f → (∃ g ∈ conflicts, grade ≤ g.grade) →
        exec cmd s = .next (onlyReplies s port rq (.of .duplicate (putS32 f.j ++ putU8 f.grade)))) ∧
      ∀ (e : Nat) (x : PlanEntry) (k : Int), p.plan[e]? = some x → holds x →
        (∀ i y, i < e → p.plan[i]? = some y → ¬holds y) → p.latest = some k →
        (∀ g ∈ conflicts, g.grade < grade) →
        let moved := satS32 (c + x.orientation.sign * (k - j) * s.odu.interval)
        let f : Fix :=
          { j := j, chainage := c, error := satS32 (moved - p.ccur), errorNow := satS32 (moved - p.ccur), grade := grade,
            port := port, lineCode := line, epoch := s.odu.epoch, kind := if getU8 b (off + 7) = 1 then .forced else .step }
        let kept := p.fixes.filter (fun g => !decide ((j - g.j).natAbs ≤ 8))
        exec cmd s = .next { s with
          pru := { p with ccur := moved, cursor := some e, orientation := x.orientation, lineCode := line, residual := 0,
                          lineMark := true, uncertain := false, fixes := (f :: kept).take 8 },
          cpc := s.cpc.answer port rq (.of .ok (putS32 j ++ putS32 f.error ++ putS32 f.errorNow ++ putS32 0 ++
            putU8 f.kind.code ++ putU8 conflicts.length ++ putU8 (min 8 (kept.length + 1)) ++ putU8 e)) })

/-- CALIBRATE (R110, R111, R22): the newest fix that has a partner of the current epoch and its line, with the newest such
partner older than itself; a base under 1,000,000 mm and a ratio outside 2 % are refused with the distances; otherwise the weight
by which counts move the accumulator becomes W × D_true / D_meas, halves up, and the epoch counts one more. With no pair it is
refused with NO_PAIR, in SUSPENDED with STATE. D_meas is formed with the stored interval (log entry 35). The reply
names the newer entry first (log entry 15); how a distance of 2^31 mm or more stands in its four bytes is log entry 9's choice. -/
def Obligations.CalibrateCorrectsTheWeightInUse : Prop :=
  (∀ (epoch : Word16) (fixes : List Fix) (f g : Fix), pairOf epoch fixes = some (f, g) ↔
    ∃ newer between older, fixes = newer ++ f :: (between ++ g :: older) ∧ f.epoch = epoch ∧ g.epoch = epoch ∧
      g.lineCode = f.lineCode ∧ (∀ x ∈ between, ¬(x.epoch = epoch ∧ x.lineCode = f.lineCode)) ∧
      newer.Pairwise (fun x y => ¬(x.epoch = epoch ∧ y.epoch = epoch ∧ x.lineCode = y.lineCode)) ∧
      ∀ x ∈ newer, ∀ y ∈ f :: (between ++ g :: older), ¬(x.epoch = epoch ∧ y.epoch = epoch ∧ x.lineCode = y.lineCode)) ∧
  ∀ (s : State) (port : Port) (rq : Request), Serves s port rq .calibrate →
    (s.rcu.runState = .suspended → exec .calibrate s = .next (onlyReplies s port rq (.of .state []))) ∧
    (s.rcu.runState ≠ .suspended → pairOf s.odu.epoch s.pru.fixes = none →
      exec .calibrate s = .next (onlyReplies s port rq (.of .noPair []))) ∧
    ∀ f g, s.rcu.runState ≠ .suspended → pairOf s.odu.epoch s.pru.fixes = some (f, g) →
      let measured := (g.j - f.j).natAbs * s.odu.interval
      let run := (g.chainage - f.chainage).natAbs
      let off : Nat := ((run : Int) - measured).natAbs * 50
      let w := match s.odu.source with
        | .pace => s.odu.e1.weight
        | _ => (s.odu.enc s.odu.active).weight
      let n := (2 * (w * run) + measured) / (2 * measured)
      (measured < 1000000 →
        exec .calibrate s = .next (onlyReplies s port rq (.of .shortBase (putU32 measured ++ putU32 run)))) ∧
      (1000000 ≤ measured → measured < off →
        exec .calibrate s = .next (onlyReplies s port rq (.of .tolerance (putU32 measured ++ putU32 run)))) ∧
      (1000000 ≤ measured → off ≤ measured →
        ∃ t : State, exec .calibrate s = .next t ∧ { t with odu := s.odu, cpc := s.cpc } = s ∧
          t.odu.epoch = s.odu.epoch + 1 ∧
          (∀ e, (t.odu.enc e) = { s.odu.enc e with weight :=
            if (s.odu.source = .pace ∧ e = .e1) ∨ (s.odu.source ≠ .pace ∧ e = s.odu.active) then n
            else (s.odu.enc e).weight }) ∧
          { t.odu with e1 := s.odu.e1, e2 := s.odu.e2, epoch := s.odu.epoch } = s.odu ∧
          t.cpc = s.cpc.answer port rq (.of .ok (putS32 f.j ++ putS32 g.j ++ putU32 measured ++ putU32 run ++ putU32 w ++
            putU32 n ++ be16 (s.odu.epoch + 1))))

/-- JUMP_PLAN sets cursor, orientation, line code and chainage, clears r and sets LINE, in RUNNING with an event assigned and in
SUSPENDED, for an entry of the plan and a chainage its segment contains (R130); the refusals are STATE and RANGE. SET_PACE replaces the
generator's interval, direction and stopped mark in RUNNING with source PACE, and starts or stops its count timer (R12); otherwise it is
refused with STATE, and an interval of 0 or an unlisted byte with RANGE. That a jump in SUSPENDED is served while the
START notice or event 0 still waits at the PRU is log entry 39's, the waiting START notice in RUNNING log entry 13's. -/
def Obligations.JumpPlanAndSetPaceActInTheirStates : Prop :=
  (∀ (s : State) (port : Port) (rq : Request), Serves s port rq .jumpPlan →
     let e := getU8 rq.payload 0
     let c := getS32 rq.payload 1
     (s.rcu.runState = .standby ∨ (s.rcu.runState = .running ∧ s.pru.latest = none) →
       exec .jumpPlan s = .next (onlyReplies s port rq (.of .state []))) ∧
     (s.rcu.runState = .suspended ∨ (s.rcu.runState = .running ∧ s.pru.latest ≠ none ∧ s.startWaits = false) →
       (s.pru.plan[e]? = none → exec .jumpPlan s = .next (onlyReplies s port rq (.of .range []))) ∧
       ∀ x, s.pru.plan[e]? = some x →
         let g := s.pru.segment x.segment
         (¬(g.lo ≤ c ∧ c ≤ g.hi) → exec .jumpPlan s = .next (onlyReplies s port rq (.of .range []))) ∧
         (g.lo ≤ c → c ≤ g.hi → exec .jumpPlan s = .next { s with
           pru := { s.pru with ccur := c, cursor := some e, orientation := x.orientation, lineCode := g.lineCode, residual := 0,
                               lineMark := true },
           cpc := s.cpc.answer port rq (.of .ok ((match s.pru.cursor with
             | some o => putU8 o
             | none => [0xFF]) ++ putU8 e ++ putS32 s.pru.ccur ++ putS32 c ++ putMark s.pru.uncertain)) }))) ∧
  ∀ (s : State) (port : Port) (rq : Request), Serves s port rq .setPace →
    let b := rq.payload
    let d := getU16 b 0
    (¬(s.rcu.runState = .running ∧ s.rcu.source = .pace) →
      exec .setPace s = .next (onlyReplies s port rq (.of .state []))) ∧
    (s.rcu.runState = .running → s.rcu.source = .pace →
      (d = 0 ∨ 1 < getU8 b 2 ∨ 1 < getU8 b 3 → exec .setPace s = .next (onlyReplies s port rq (.of .range []))) ∧
      (d ≠ 0 → getU8 b 2 ≤ 1 → getU8 b 3 ≤ 1 → exec .setPace s = .next { s with
        odu := { s.odu with paceInterval := d, paceDirection := if getU8 b 2 = 0 then .fwd else .rev,
                            paceStopped := decide (getU8 b 3 = 1),
                            paceTimer := if getU8 b 3 = 1 then none else some (s.now + d) },
        cpc := s.cpc.answer port rq (.of .ok (putU16 d ++ putU8 (getU8 b 2) ++ putU8 (getU8 b 3) ++ putS32 s.odu.frontier ++
          putU8 s.odu.direction.code)) }))

/-! ### Exceptions -/

/-- R136: the level is the highest l whose enabled upper threshold the value is above or whose enabled lower threshold it is below,
strictly; upper thresholds are at least 0 and lower ones at most 0 (R133), so no value exceeds on both sides, and at level 1 or
more the side is the one it exceeds on; at level 0 there is no side. With the enabled thresholds graded outward (R134) a value exceeds
on a side exactly when it lies beyond the opening threshold of that side. -/
def Obligations.TheLevelIsTheHighestExceeded : Prop :=
  ∀ (l : ParamLimits) (v : Int),
    0 ≤ l.u1 → 0 ≤ l.u2 → 0 ≤ l.u3 → l.l1 ≤ 0 → l.l2 ≤ 0 → l.l3 ≤ 0 →
    let up (n : Nat) : Prop := (n = 1 ∧ l.enable.getLsbD 0 = true ∧ l.u1 < v) ∨
      (n = 2 ∧ l.enable.getLsbD 1 = true ∧ l.u2 < v) ∨ (n = 3 ∧ l.enable.getLsbD 2 = true ∧ l.u3 < v)
    let low (n : Nat) : Prop := (n = 1 ∧ l.enable.getLsbD 3 = true ∧ v < l.l1) ∨
      (n = 2 ∧ l.enable.getLsbD 4 = true ∧ v < l.l2) ∨ (n = 3 ∧ l.enable.getLsbD 5 = true ∧ v < l.l3)
    (∀ n, up n ∨ low n → n ≤ l.level v) ∧ (l.level v = 0 ∨ up (l.level v) ∨ low (l.level v)) ∧
    (l.side v = some .high ↔ ∃ n, up n) ∧ (l.side v = some .low ↔ ∃ n, low n) ∧ (l.side v = none ↔ l.level v = 0) ∧
    let outward (i j : Nat) (x y : Int) : Prop := l.enable.getLsbD i = true → l.enable.getLsbD j = true → x ≤ y
    (outward 0 1 l.u1 l.u2 → outward 0 2 l.u1 l.u3 → outward 1 2 l.u2 l.u3 →
      (l.side v = some .high ↔ ∃ t, l.opening .high = some t ∧ t < v)) ∧
    (outward 3 4 (-l.l1) (-l.l2) → outward 3 5 (-l.l1) (-l.l3) → outward 4 5 (-l.l2) (-l.l3) →
      (l.side v = some .low ↔ ∃ t, l.opening .low = some t ∧ v < t))

/-- Every run that opens yields exactly one CLOSED record and at most one ONSET before it (R149): over the judging of one
parameter, the CLOSED records and the run left open are as many as the runs opened and the run open before; an ONSET is handed over
only with the run's severity at 3, and none for a run whose ONSET was sent. A mask closes the run with cause MASKED and opens none; a
change of limit set or line closes it with cause BOUNDARY, and the record is judged as with no run open (R140); with no run open a present
value that exceeds opens one with its figures, and its ONSET at severity 3 (R141); any other run is judged under its limits. -/
def Obligations.EveryRunYieldsOneClosedRecord : Prop :=
  ∀ (l : ParamLimits) (masked : Bool) (set : Nat) (p : Param) (r : OutputRecord) (place : Option OpenRun),
    let n := judgeParam l masked set p r place
    let value := r.values.checked.get p
    ((∀ x, place = some x → RunSound x) →
      n.records.countP (fun e => e.kind == .closed) + n.place.toList.length = n.opened + place.toList.length ∧
      n.records.countP (fun e => e.kind == .onset) ≤ 1 ∧ (∀ x, n.place = some x → RunSound x) ∧
      (∀ e ∈ n.records, e.run = r.run ∧ e.param = p ∧ (e.kind = .onset → e.severity = 3 ∧ e.cause = .none)) ∧
      (∀ x, place = some x → x.onsetSent = true → n.opened = 0 → ∀ e ∈ n.records, e.kind = .closed) ∧
      (masked = true → n.place = none ∧ n.opened = 0)) ∧
    (masked = true → place = none → n = { place := none, records := [], opened := 0 }) ∧
    (∀ x, masked = true → place = some x → n = { place := none, records := [closedRecord x p r.run .masked], opened := 0 }) ∧
    (masked = false → place = none → (∀ v, value = some v → l.side v = none) → n = { place := none, records := [], opened := 0 }) ∧
    (∀ v side, masked = false → place = none → value = some v → l.side v = some side →
      let x : OpenRun :=
        { side := side, startIndex := r.j, startChainage := r.chainage, lastIndex := r.j, lastChainage := r.chainage,
          severity := l.level v, peak := v, peakChainage := r.chainage, inside := 0, absent := 0, limitSet := set,
          lineCode := r.lineCode, segment := r.segment, uncertainSeen := r.uncertain, onsetSent := decide (l.level v = 3) }
      n = { place := some x, opened := 1,
            records := if l.level v = 3 then [{ closedRecord x p r.run .none with kind := .onset }] else [] }) ∧
    (∀ x, masked = false → place = some x → x.limitSet ≠ set ∨ x.lineCode ≠ r.lineCode →
      let m := judgeParam l false set p r none
      n = { m with records := closedRecord x p r.run .boundary :: m.records }) ∧
    ∀ x, masked = false → place = some x → x.limitSet = set → x.lineCode = r.lineCode → n = judgeOpen l p r x value

/-- A run judged on values under its own limits (R142 to R147): absent values up to the merge gap are bridged and leave all figures
but the absent count, and one more closes the run INVALID; a value on its side extends it, raises severity and peak, never lowers
them; a value in the band only restarts the inside count; values inside it close the run RETURNED at merge gap + 1; a value beyond
the other side closes it SIDE and opens a run there. A run that stays open and now spans 4000 samples is closed LONG, with the figures
the record left it and behind the ONSET the record brought. -/
def Obligations.AnOpenRunFollowsItsValues : Prop :=
  ∀ (l : ParamLimits) (p : Param) (r : OutputRecord) (x : OpenRun),
    let y : OpenRun := { x with uncertainSeen := x.uncertainSeen || r.uncertain }
    let kept (z : OpenRun) (es : List ExceptionRecord) : Judgement :=
      if (r.j - x.startIndex).natAbs + 1 < 4000 then { place := some z, records := es, opened := 0 }
      else { place := none, records := es ++ [closedRecord z p r.run .long], opened := 0 }
    (x.absent < l.mergeGap → judgeOpen l p r x none = kept { y with absent := x.absent + 1 } []) ∧
    (l.mergeGap ≤ x.absent →
      judgeOpen l p r x none = { place := none, records := [closedRecord y p r.run .invalid], opened := 0 }) ∧
    ∀ v : Int,
      (l.side v = some x.side → ∃ z es, judgeOpen l p r x (some v) = kept z es ∧
        z = { y with lastIndex := r.j, lastChainage := r.chainage, inside := 0, absent := 0, severity := max x.severity (l.level v),
                     peak := z.peak, peakChainage := z.peakChainage, onsetSent := z.onsetSent } ∧
        (z.onsetSent = true ↔ x.onsetSent = true ∨ l.level v = 3) ∧
        ((match x.side with
          | .high => x.peak < v
          | .low => v < x.peak) → z.peak = v ∧ z.peakChainage = r.chainage) ∧
        (¬(match x.side with
          | .high => x.peak < v
          | .low => v < x.peak) → z.peak = x.peak ∧ z.peakChainage = x.peakChainage) ∧
        (x.severity < 3 → z.severity = 3 → es = [{ closedRecord z p r.run .none with kind := .onset }]) ∧
        (¬(x.severity < 3 ∧ z.severity = 3) → es = [])) ∧
      (∀ t, l.side v = none → l.opening x.side = some t →
        let inBand : Prop := match x.side with
          | .high => t - l.hysteresis < v
          | .low => v < t + l.hysteresis
        (inBand → judgeOpen l p r x (some v) = kept { y with absent := 0, inside := 0 } []) ∧
        (¬inBand → x.inside < l.mergeGap →
          judgeOpen l p r x (some v) = kept { y with absent := 0, inside := x.inside + 1 } []) ∧
        (¬inBand → l.mergeGap ≤ x.inside →
          judgeOpen l p r x (some v) = { place := none, records := [closedRecord y p r.run .returned], opened := 0 })) ∧
      (∀ side, l.side v = some side → side ≠ x.side → ∃ z es,
        judgeOpen l p r x (some v) =
          { place := some z, records := closedRecord x p r.run .side :: es, opened := 1 } ∧
        z = { side := side, startIndex := r.j, startChainage := r.chainage, lastIndex := r.j, lastChainage := r.chainage,
              severity := l.level v, peak := v, peakChainage := r.chainage, inside := 0, absent := 0, limitSet := x.limitSet,
              lineCode := r.lineCode, segment := r.segment, uncertainSeen := r.uncertain, onsetSent := z.onsetSent } ∧
        (z.onsetSent = true ↔ l.level v = 3) ∧
        es = (if l.level v = 3 then [{ closedRecord z p r.run .none with kind := .onset }] else []))

/-- The EXU takes an output record, judges it for the seven parameters in order, adds one to the judged count and the runs opened, the
ONSET and the CLOSED records to theirs, and hands on the annotated record with the exception records behind it, in the order in which they
arose (R137, R139, R154); the annotation is 0 for a
masked or absent value and the level under the record's limit set otherwise (R135, R137), and the record itself is handed on as
the GCU formed it (R156). A stream-end notice closes every open run with its cause, in parameter order, and leaves the table
empty (R150); START empties the table and the counts (R151). -/
def Obligations.RecordsAreAnnotatedAndStreamsEndTheRuns : Prop :=
  (∀ (s : State) (r : OutputRecord) (rest : List ExuMessage), s.bus.toExu = .record r :: rest →
    let set := match r.segment with
      | some k => (s.pru.segment k).limitSet
      | none => 0
    let masked (p : Param) : Prop := ∃ k m, r.segment = some k ∧ m ∈ (s.pru.segment k).masks ∧
      m.params.getLsbD p.number = true ∧ m.lo ≤ r.chainage ∧ r.chainage ≤ m.hi
    ∃ (t : State) (levels : Seven Nat) (out : Seven (List ExceptionRecord)) (opened : Seven Nat), exec .outputRecord s = .next t ∧
      { t with exu := s.exu, bus := s.bus } = s ∧ t.exu.judged = s.exu.judged + 1 ∧ t.exu.limitSets = s.exu.limitSets ∧
      t.exu.opened = s.exu.opened + BitVec.ofNat 32 opened.toList.sum ∧
      t.exu.onsets = s.exu.onsets + BitVec.ofNat 32 (out.toList.flatten.countP (fun e => e.kind == .onset)) ∧
      t.exu.closed = s.exu.closed + BitVec.ofNat 32 (out.toList.flatten.countP (fun e => e.kind == .closed)) ∧
      t.bus = { s.bus with toExu := rest, toRds := s.bus.toRds ++ .geometry r levels ::
                                                       (out.toList.flatten.map RdsMessage.exception) } ∧
      ∀ p, (masked p → levels.get p = 0 ∧ t.exu.runs.get p = none) ∧
        (r.values.checked.get p = none → levels.get p = 0) ∧
        (∀ v, ¬masked p → r.values.checked.get p = some v → levels.get p = ((s.exu.limitSet set).get p).level v) ∧
        ∃ m : Bool, (m = true ↔ masked p) ∧
          let n := judgeParam ((s.exu.limitSet set).get p) m set p r (s.exu.runs.get p)
          t.exu.runs.get p = n.place ∧ out.get p = n.records ∧ opened.get p = n.opened) ∧
  (∀ (s : State) (cause : Cause) (run : Word32) (rest : List ExuMessage), s.bus.toExu = .streamEnd cause run :: rest →
    exec .streamEndNotice s = .next { s with
      exu := { s.exu with runs := ⟨none, none, none, none, none, none, none⟩,
                          closed := s.exu.closed + BitVec.ofNat 32 (s.exu.runs.toList.countP Option.isSome) },
      bus := { s.bus with toExu := rest, toRds := s.bus.toRds ++
        allParams.filterMap (fun p => (s.exu.runs.get p).map (fun x => RdsMessage.exception (closedRecord x p run cause))) } }) ∧
  ∀ (s : State) (rest : List ExuMessage), s.bus.toExu = .start :: rest →
    exec .exuStartNotice s = .next { s with
      exu := { s.exu with runs := ⟨none, none, none, none, none, none, none⟩, judged := 0, opened := 0, onsets := 0, closed := 0 },
      bus := { s.bus with toExu := rest } }

/-! ### Markers and triggers -/

/-- A marker edge (R158, R159): an edge that is not the active one, or on an unwritten line, or taken with the
MTU's run mark not RUNNING or while the ODU is in SUSPENDED (R162), does nothing; one less than the minimum spacing from the line's
previous capture is ignored and counted; any other is a capture: the count and the previous index advance, the entry is pushed with both
fields PENDING, and both requests go out. A captured index beyond the signed 32-bit range makes an entry without requests (log entry 26);
that the ODU is in SUSPENDED by its own record `view` is log entries 4 and 34, and that the run mark counts where a STOP notice of the run
before still waits after a START is log entry 37's. -/
def Obligations.AnEdgeIsCapturedOrIgnored : Prop :=
  ∀ (s : State) (m : MarkerLine) (edge : Edge),
    let x := s.mtu.marker m
    let j := s.odu.positionIndex + x.mount
    let active := edge = x.edge ∧ s.mtu.running = true ∧ s.odu.view ≠ .suspended ∧ s.rcu.isWritten (.marker m) = true
    let near := ∃ p, x.previous = some p ∧ (j - p).natAbs < x.spacing
    let q : CaptureRequest := { line := m, number := x.captures + 1, j := j }
    let captured (e : MarkerEntry) : Mtu :=
      { s.mtu.setMarker m { x with captures := x.captures + 1, previous := some j } with list := (e :: s.mtu.list).take 16 }
    (¬active → exec (.markerEdge m edge) s = .next s) ∧
    (active → near → exec (.markerEdge m edge) s = .next { s with
      mtu := s.mtu.setMarker m { x with ignored := min 65535 (x.ignored + 1) } }) ∧
    (active → ¬near → Fits32 j → exec (.markerEdge m edge) s = .next { s with
      mtu := captured { line := m, number := x.captures + 1, j := j, event := s.odu.frontier, projected := .pending,
                        placement := .pending },
      bus := { s.bus with chainageRequests := s.bus.chainageRequests ++ [q], markRequests := s.bus.markRequests ++ [q] } }) ∧
    (active → ¬near → ¬Fits32 j → exec (.markerEdge m edge) s = .next { s with
      mtu := captured { line := m, number := x.captures + 1, j := satS32 j, event := s.odu.frontier, projected := .stale,
                        placement := .notInStream } })

/-- What a capture learns (R98, R99, R160, R161): the PRU answers a chainage request with the recorded chainage plus the correction
since, with a projection for an index ahead, or with none for a stale one; each answer is written into the entry of its line and
number and into no other; a loss report sets NOT_IN_STREAM on the entries of the reported lines at the reported index.
The chainage is answered when no START notice waits at the PRU (log entry 13); that an answer or report of the run before, taken after the
next START, is written into an entry of the new run it names is log entry 36's. -/
def Obligations.AnswersReachTheEntriesThatAsked : Prop :=
  (∀ (s : State) (q : CaptureRequest) (rest : List CaptureRequest), s.bus.chainageRequests = q :: rest →
    s.startWaits = false →
    let p := s.pru
    ∃ answer : Option Int, exec .chainageRequest s = .next { s with
        bus := { s.bus with chainageRequests := rest, chainageAnswers := s.bus.chainageAnswers ++
                              [{ line := q.line, number := q.number, chainage := answer }] } } ∧
      (∀ h, p.historyAt q.j = some h → answer = some (h.chainage + (p.correction - h.correction))) ∧
      (p.historyAt q.j = none → p.latest = none → answer = none) ∧
      ∀ k, p.historyAt q.j = none → p.latest = some k →
        (p.direction.sign * (q.j - k) ≤ 0 → answer = none) ∧
        (0 < p.direction.sign * (q.j - k) →
          answer = some (p.ccur + p.orientation.sign * (q.j - k) * s.odu.interval))) ∧
  (∀ (s : State) (a : ChainageAnswer) (rest : List ChainageAnswer), s.bus.chainageAnswers = a :: rest →
    ∃ t : State, exec .chainageAnswer s = .next t ∧ { t with mtu := s.mtu } = { s with bus := { s.bus with chainageAnswers := rest } } ∧
      t.mtu = { s.mtu with list := t.mtu.list } ∧ t.mtu.list.length = s.mtu.list.length ∧
      ∀ (i : Nat) (e f : MarkerEntry), s.mtu.list[i]? = some e → t.mtu.list[i]? = some f →
        f = (if e.line = a.line ∧ e.number = a.number then
               { e with projected := (match a.chainage with
                           | some c => .at c
                           | none => .stale) } else e)) ∧
  (∀ (s : State) (line : MarkerLine) (number : Word16) (placed : Bool) (rest : List AsuAnswer),
    s.bus.asuAnswers = .placement line number placed :: rest →
    ∃ t : State, exec .placementAnswer s = .next t ∧ { t with mtu := s.mtu } = { s with bus := { s.bus with asuAnswers := rest } } ∧
      t.mtu = { s.mtu with list := t.mtu.list } ∧ t.mtu.list.length = s.mtu.list.length ∧
      ∀ (i : Nat) (e f : MarkerEntry), s.mtu.list[i]? = some e → t.mtu.list[i]? = some f →
        f = (if e.line = line ∧ e.number = number then
               { e with placement := if placed = true then .placed else .notInStream } else e)) ∧
  ∀ (s : State) (j : Int) (lost1 lost2 : Bool) (rest : List AsuAnswer), s.bus.asuAnswers = .loss j lost1 lost2 :: rest →
    ∃ t : State, exec .markLossReport s = .next t ∧ { t with mtu := s.mtu } = { s with bus := { s.bus with asuAnswers := rest } } ∧
      t.mtu = { s.mtu with list := t.mtu.list } ∧ t.mtu.list.length = s.mtu.list.length ∧
      ∀ (i : Nat) (e f : MarkerEntry), s.mtu.list[i]? = some e → t.mtu.list[i]? = some f →
        f = (if e.j = j ∧ ((e.line = .m1 ∧ lost1 = true) ∨ (e.line = .m2 ∧ lost2 = true)) then
               { e with placement := .notInStream } else e)

/-- At a sample event taken in RUNNING each enabled channel whose target index is on its lattice starts a pulse in IDLE, or drops
the trigger in PULSE; every other channel stays, and outside RUNNING all do (R165, R166). The expiry of a pulse returns the line to
its idle level (R167, R168). The tick of the time base is the model's (log entry 2). -/
def Obligations.TriggersFireOnTheLattice : Prop :=
  (∀ (s : State) (e : SampleEvent) (rest : List Message), s.bus.toMtu = .event e :: rest →
    ∃ t : State, exec .mtuSampleEvent s = .next t ∧ { t with mtu := s.mtu } = { s with bus := { s.bus with toMtu := rest } } ∧
      t.mtu.m1 = s.mtu.m1 ∧ t.mtu.m2 = s.mtu.m2 ∧ t.mtu.list = s.mtu.list ∧ t.mtu.running = s.mtu.running ∧
      ∀ c, let x := s.mtu.trigger c
        let target := e.k + x.mount
        let due := s.mtu.running = true ∧ x.enable = true ∧ (x.pitch : Int) ∣ target - x.phase
        (¬due → t.mtu.trigger c = x) ∧
        (due → x.timer = none → t.mtu.trigger c =
          { x with timer := some (s.now + x.width), level := (match x.polarity with
                     | .low => .high
                     | .high => .low), pulses := x.pulses + 1, lastStarted := some target }) ∧
        (due → x.timer ≠ none → t.mtu.trigger c =
          { x with dropped := min 65535 (x.dropped + 1), lastDropped := some target })) ∧
  ∀ (s : State) (c : Trigger) (tick : Nat), (s.mtu.trigger c).timer = some tick →
    exec (.pulseExpiry c) s = .next { s with
      now := max s.now tick,
      mtu := s.mtu.setTrigger c { s.mtu.trigger c with timer := none, level := (s.mtu.trigger c).polarity } }

/-! ### Run control and configuration -/

/-- START in STANDBY with every check of R172 passed begins the run (R173): run number one more, count 0, RUNNING, the notices in
the PRU's, SLC's and MTU's lists with sample event 0 behind them, the ODU prepared as R4 says, with source PACE its generator stopped at
the interval of ODOMETRY and in the direction of the run, state-news on all ports, and the reply with run number, generation and epoch.
Every needed item written, the mounts about the reference mark, the entry in the plan and the chainage in its segment are the checks. That
the ASU, the GCU and the EXU get the notice through the SLC is log entry 3's; what still waited at the RCU and the ODU is dropped, and
the tick of the event is the time base's (log entries 2, 21). -/
def Obligations.AnAcceptedStartBeginsTheRun : Prop :=
  ∀ (s : State) (port : Port) (rq : Request) (x : PlanEntry) (d : Direction) (source : CountSource),
    Serves s port rq .start → s.rcu.runState = .standby →
    let entry := getU8 rq.payload 0
    let c := getS32 rq.payload 1
    entry ≤ 31 → getU8 rq.payload 5 = d.code → getU8 rq.payload 6 = source.code → source ≠ .none →
    (∀ i ∈ [ItemId.odometry, .sensors, .compute, .fixPolicy, .plan, .limitSet 0], s.rcu.isWritten i = true) →
    (∀ y ∈ s.pru.plan, s.rcu.isWritten (.segment y.segment) = true ∧
      s.rcu.isWritten (.limitSet (s.pru.segment y.segment).limitSet) = true) →
    min s.asu.pGauge (min s.asu.pVertical s.asu.pLateral) ≤ 0 →
    0 ≤ max s.asu.pGauge (max s.asu.pVertical s.asu.pLateral) →
    max s.asu.pGauge (max s.asu.pVertical s.asu.pLateral) - min s.asu.pGauge (min s.asu.pVertical s.asu.pLateral) ≤ 200 →
    s.pru.plan[entry]? = some x → (s.pru.segment x.segment).lo ≤ c → c ≤ (s.pru.segment x.segment).hi →
    let i : StartInfo := { run := s.rcu.runNumber + 1, entry := entry, chainage := c, direction := d, source := source }
    ∃ (t : State) (e : SampleEvent), exec .start s = .next t ∧
      t.rcu = { s.rcu with runState := .running, runNumber := s.rcu.runNumber + 1, eventCount := 0, source := source } ∧
      e.k = 0 ∧ e.direction = d ∧ e.speed = 0 ∧ e.encSwitch = false ∧
      t.bus = { s.bus with toOdu := [], toRcu := [.event e], toPru := s.bus.toPru ++ [.start i, .event e],
                           toSlc := s.bus.toSlc ++ [.start i, .event e], toMtu := s.bus.toMtu ++ [.start i, .event e] } ∧
      t.odu.position = 0 ∧ t.odu.frontier = 0 ∧ t.odu.next = d.sign ∧ t.odu.direction = d ∧ t.odu.eventDirection = d ∧
      t.odu.extreme = 0 ∧ t.odu.source = source ∧ t.odu.active = s.odu.primary ∧ t.odu.epoch = s.odu.epoch + 1 ∧ t.odu.speed = 0 ∧
      t.odu.paceStopped = true ∧ t.odu.paceTimer = none ∧
      (source = .pace → t.odu.paceInterval = s.odu.paceIntervalField ∧ t.odu.paceDirection = d) ∧
      (source ≠ .pace → t.odu.paceInterval = s.odu.paceInterval ∧ t.odu.paceDirection = s.odu.paceDirection) ∧
      t.odu.encSwitch = false ∧ t.odu.eventTick = s.now ∧ t.odu.standstill = some (s.now + 2097152) ∧
      (∀ n, (t.odu.enc n).health = .ok ∧ (t.odu.enc n).strikes = 0 ∧ (t.odu.enc n).goodChecks = 0 ∧
        (t.odu.enc n).indexCount = 0 ∧ (t.odu.enc n).aligned = false ∧ (t.odu.enc n).prevSense = none ∧
        (t.odu.enc n).silence = 0 ∧ (t.odu.enc n).eventDistance = 0 ∧ (t.odu.enc n).weight = (s.odu.enc n).weight) ∧
      (∀ q, (t.cpc.port q).news = true) ∧
      (t.cpc.port port).phase = .replyReady (replyFrame rq.code rq.tag
        (.of .ok (be32 (s.rcu.runNumber + 1) ++ be32 s.rcu.generation ++ be16 (s.odu.epoch + 1)))) ∧
      t.cpc.lastServed = port ∧
      t.slc = s.slc ∧ t.asu = s.asu ∧ t.gcu = s.gcu ∧ t.pru = s.pru ∧ t.exu = s.exu ∧ t.mtu = s.mtu ∧ t.rds = s.rds ∧
      t.now = s.now ∧ t.power = s.power ∧ t.pending = s.pending

/-- A START that fails a check changes no state in any block, and its reply names what failed (R172, R199): STATE outside STANDBY,
the first unwritten item in the order of steps 2 to 4, SENSORS for the mounts, or the step 1, 6 or 7. The other fields of the reply are 0 but for the generation (log entry 15). -/
def Obligations.ARefusedStartNamesItsCheck : Prop :=
  ∀ (s : State) (port : Port) (rq : Request), Serves s port rq .start →
    let entry := getU8 rq.payload 0
    let c := getS32 rq.payload 1
    let g := s.rcu.generation
    let needed : List ItemId := [.odometry, .sensors, .compute, .fixPolicy, .plan] ++
      s.pru.plan.map (fun y => .segment y.segment) ++ s.pru.plan.map (fun y => .limitSet (s.pru.segment y.segment).limitSet) ++
      [.limitSet 0]
    let lowest := min s.asu.pGauge (min s.asu.pVertical s.asu.pLateral)
    let highest := max s.asu.pGauge (max s.asu.pVertical s.asu.pLateral)
    let refused (r : Reply) : Prop := exec .start s = .next (onlyReplies s port rq r)
    (s.rcu.runState ≠ .standby → refused (.of .state (refusalFields 0 0 0 0 g))) ∧
    (s.rcu.runState = .standby →
      (31 < entry ∨ 1 < getU8 rq.payload 5 ∨ getU8 rq.payload 6 = 0 ∨ 2 < getU8 rq.payload 6 →
        refused (.of .range (refusalFields 0 0 1 0 g))) ∧
      (entry ≤ 31 → getU8 rq.payload 5 ≤ 1 → 1 ≤ getU8 rq.payload 6 → getU8 rq.payload 6 ≤ 2 →
        (∀ before i after, needed = before ++ i :: after → (∀ k ∈ before, s.rcu.isWritten k = true) →
          s.rcu.isWritten i = false → refused (.of .notConfigured (refusalFields (kindCode i) (indexCode i) 0 0 g))) ∧
        ((∀ i ∈ needed, s.rcu.isWritten i = true) →
          (0 < lowest ∨ highest < 0 ∨ 200 < highest - lowest → refused (.of .config (refusalFields 2 0 0 0 g))) ∧
          (lowest ≤ 0 → 0 ≤ highest → highest - lowest ≤ 200 →
            (s.pru.plan.length ≤ entry → refused (.of .range (refusalFields 0 0 6 0 g))) ∧
            ∀ x, s.pru.plan[entry]? = some x →
              ¬((s.pru.segment x.segment).lo ≤ c ∧ c ≤ (s.pru.segment x.segment).hi) →
              refused (.of .range (refusalFields 0 0 7 0 g))))))

/-- The other changes of run state (R171, R174 to R176, R181): STOP ends a run and is refused in STANDBY; a loss taken in RUNNING
suspends, a restoration taken in SUSPENDED resumes, each with its notices and with state-news on all ports, and both are ignored in
any other state; a sample event is counted when it is taken in RUNNING. That the STOP and the suspension notice
reach the ASU, the GCU and the EXU through the SLC, behind the work handed before them, is log entry 3's. -/
def Obligations.TheRunStateFollowsItsEvents : Prop :=
  let news (c : Cpc) : Cpc := { c with cp0 := { c.cp0 with news := true }, cp1 := { c.cp1 with news := true },
                                       cp2 := { c.cp2 with news := true } }
  (∀ (s : State) (port : Port) (rq : Request), Serves s port rq .stop →
    (s.rcu.runState = .standby → exec .stop s = .next (onlyReplies s port rq (.of .state []))) ∧
    (s.rcu.runState ≠ .standby → exec .stop s = .next { s with
      rcu := { s.rcu with runState := .standby },
      bus := { s.bus with toOdu := s.bus.toOdu ++ [.stop], toPru := s.bus.toPru ++ [.stop], toSlc := s.bus.toSlc ++ [.stop],
                          toMtu := s.bus.toMtu ++ [.stop] },
      cpc := (news s.cpc).answer port rq (.of .ok (be32 s.rcu.runNumber ++ be32 s.rcu.eventCount ++
        putU8 (if s.rcu.runState = .running then 1 else 2))) })) ∧
  (∀ (s : State) (rest : List RcuMessage), s.bus.toRcu = .lost :: rest →
    (s.rcu.runState ≠ .running → exec .odometryLost s = .next { s with bus := { s.bus with toRcu := rest } }) ∧
    (s.rcu.runState = .running → exec .odometryLost s = .next { s with
      rcu := { s.rcu with runState := .suspended },
      bus := { s.bus with toRcu := rest, toPru := s.bus.toPru ++ [.suspend], toSlc := s.bus.toSlc ++ [.suspend],
                          toMtu := s.bus.toMtu ++ [.suspend] },
      cpc := news s.cpc })) ∧
  (∀ (s : State) (rest : List RcuMessage), s.bus.toRcu = .restored :: rest →
    (s.rcu.runState ≠ .suspended → exec .odometryRestored s = .next { s with bus := { s.bus with toRcu := rest } }) ∧
    (s.rcu.runState = .suspended → exec .odometryRestored s = .next { s with
      rcu := { s.rcu with runState := .running },
      bus := { s.bus with toRcu := rest, toOdu := s.bus.toOdu ++ [.resume], toPru := s.bus.toPru ++ [.resume],
                          toMtu := s.bus.toMtu ++ [.resume] },
      cpc := news s.cpc })) ∧
  ∀ (s : State) (e : SampleEvent) (rest : List RcuMessage), s.bus.toRcu = .event e :: rest →
    exec .rcuSampleEvent s = .next { s with
      rcu := { s.rcu with eventCount := if s.rcu.runState = .running then s.rcu.eventCount + 1 else s.rcu.eventCount },
      bus := { s.bus with toRcu := rest } }

/-- SET_ITEM (R177): a kind or length not of the table is refused with BAD_REQUEST, any other outside STANDBY with STATE, then an
index out of range or a failing field with RANGE and its offset, none of them with any effect; an accepted one writes the item in
the block that owns it, sets its written mark, adds one to the generation, and is answered with kind, index and generation. One
that would be accepted waits in service while a unit is still at work on the run before (log entry 29). READ_ITEM (R179): a kind out of
the table is refused with BAD_REQUEST, an index out of range with RANGE, a clear written mark with NOT_CONFIGURED; otherwise the kind, the
index, the generation and the fields are returned, and nothing changes. Which failing field a refusal names, and the fields of
refusals, follow log entries 15 and 18; that an index out of range is judged before the fields, with offset 0, is log entry 40's. -/
def Obligations.ItemsAreJudgedWrittenAndReturned : Prop :=
  (∀ (s : State) (port : Port) (rq : Request), Serves s port rq .setItem →
     let kind := getU8 rq.payload 0
     let index := getU8 rq.payload 1
     let b := rq.payload.drop 2
     let refused (status : Status) (off : Nat) : Prop :=
       exec .setItem s = .next (onlyReplies s port rq (.of status (refusalFields kind index 0 off s.rcu.generation)))
     (itemLength kind ≠ some (rq.payload.length - 2) ∨ rq.payload.length < 2 → refused .badRequest 0) ∧
     (itemLength kind = some b.length → 2 ≤ rq.payload.length →
       (s.rcu.runState ≠ .standby → refused .state 0) ∧
       (s.rcu.runState = .standby →
         (itemOf kind index = none → refused .range 0) ∧
         ∀ i, itemOf kind index = some i →
           (∀ before off after, itemChecks i b = before ++ (off, false) :: after → (∀ f ∈ before, f.2 = true) →
             refused .range off) ∧
           ((∀ f ∈ itemChecks i b, f.2 = true) → ¬Quiet s → exec .setItem s = .next s) ∧
           ((∀ f ∈ itemChecks i b, f.2 = true) → Quiet s →
             ∃ t : State, exec .setItem s = .next t ∧ t.rcu.isWritten i = true ∧
               (∀ k, k ≠ i → t.rcu.isWritten k = s.rcu.isWritten k) ∧ t.rcu.generation = s.rcu.generation + 1 ∧
               { t with rcu := s.rcu, cpc := s.cpc } = s.writeItem i b ∧
               { t.rcu with generation := s.rcu.generation, written := s.rcu.written } = s.rcu ∧
               t.cpc = s.cpc.answer port rq (.of .ok ([BitVec.ofNat 8 kind, BitVec.ofNat 8 index] ++
                 be32 (s.rcu.generation + 1))))))) ∧
  ∀ (s : State) (port : Port) (rq : Request), Serves s port rq .readItem →
    let kind := getU8 rq.payload 0
    let index := getU8 rq.payload 1
    let g := be32 s.rcu.generation
    (itemLength kind = none → exec .readItem s = .next (onlyReplies s port rq (.of .badRequest g))) ∧
    (itemLength kind ≠ none → itemOf kind index = none → exec .readItem s = .next (onlyReplies s port rq (.of .range g))) ∧
    ∀ i, itemOf kind index = some i →
      (s.rcu.isWritten i = false → exec .readItem s = .next (onlyReplies s port rq (.of .notConfigured g))) ∧
      (s.rcu.isWritten i = true → exec .readItem s = .next (onlyReplies s port rq
        (.of .ok ([BitVec.ofNat 8 kind, BitVec.ofNat 8 index] ++ g ++ s.itemBytes i))))

/-- The bytes that READ_ITEM returns for an item are the bytes SET_ITEM wrote (R179, R203), for every item whose contents are stored
whole and every field at every value its checks admit; ODOMETRY is followed by the weights, 2^16 × C / (1000 × N) halves up (R2). PLAN and
SEGMENT return the entries and the masks their counts name. -/
def Obligations.AnItemReadsBackAsWritten : Prop :=
  ∀ (s : State) (i : ItemId) (b : List Byte),
    itemOf (kindCode i) (indexCode i) = some i → itemLength (kindCode i) = some b.length →
    (∀ f ∈ itemChecks i b, f.2 = true) →
    let r := (s.writeItem i b).itemBytes i
    let w (off : Nat) : Nat := (2 * (getU32 b off * 65536) + 1000 * getU16 b (off + 4)) / (2 * (1000 * getU16 b (off + 4)))
    match i with
    | .odometry => r = b ++ putU32 (w 7) ++ putU32 (w 14)
    | .plan => r.length = 65 ∧ r.take (1 + 2 * getU8 b 0) = b.take (1 + 2 * getU8 b 0)
    | .segment _ => r.length = 48 ∧ r.take (12 + 9 * getU8 b 11) = b.take (12 + 9 * getU8 b 11)
    | _ => r = b

/-! ### Stores and ports -/

/-- An append takes the next sequence number, which then adds one; below capacity the store grows, at capacity the oldest record
goes and the oldest number adds one (R182, R183); in that case each port's cursor that named it moves on and its GAP mark is set, and
no other cursor or mark changes (R184). The geometry record is the wire form of the output
record, with its run modulo 2^16, index, chainage and levels (R88), its flags DIR, UNCERTAIN, STEP, LINE, SLIP, ENC_SWITCH, MARK1, MARK2,
CLIPPED and OFF_PLAN from bit 0 upward and every other bit 0. Both kinds of record have their 40 and 38 bytes at the offsets of
their tables (R201); the bytes are said for numbers their fields hold. -/
def Obligations.AppendsNumberAndReplaceTheOldest : Prop :=
  (∀ (s : State) (r : OutputRecord) (levels : Seven Nat) (rest : List RdsMessage), s.bus.toRds = .geometry r levels :: rest →
    let g := s.rds.geometry
    ∃ (t : State) (w : WireRecord), exec .geometryAppend s = .next t ∧ w.sequence = g.next ∧ w.run = r.run.setWidth 16 ∧
      w.j = r.j ∧ w.chainage = r.chainage ∧ w.lineCode = r.lineCode ∧ w.segment = r.segment ∧ w.planEntry = r.planEntry ∧
      w.speed = min 65535 ((r.speed + 5) / 10) ∧
      w = wireRecord r levels g.next ∧
      (∀ p, (levels.get p) ≤ 3 → (w.levels >>> (2 * p.number)) &&& 3 = BitVec.ofNat 16 (levels.get p)) ∧
      w.levels.getLsbD 14 = false ∧ w.levels.getLsbD 15 = false ∧
      (∀ i, w.flags.getLsbD i = [decide (r.direction = .rev), r.uncertain, r.step, r.line, r.slip, r.encSwitch, r.mark1, r.mark2,
        w.flags.getLsbD 8, r.offPlan].getD i false) ∧
      { t with rds := s.rds, cpc := s.cpc } = { s with bus := { s.bus with toRds := rest } } ∧
      t.rds.exceptions = s.rds.exceptions ∧ t.cpc.lastServed = s.cpc.lastServed ∧ t.cpc.inService = s.cpc.inService ∧
      t.rds.geometry.next = g.next + 1 ∧
      (g.records.length < 8192 → t.rds.geometry.records = g.records ++ [w] ∧ t.rds.geometry.oldest = g.oldest ∧ t.cpc = s.cpc) ∧
      (8192 ≤ g.records.length → t.rds.geometry.records = g.records.tail ++ [w] ∧ t.rds.geometry.oldest = g.oldest + 1 ∧
        ∀ p, t.cpc.port p = (if (s.cpc.port p).geoCursor = g.oldest then
          { s.cpc.port p with geoCursor := g.oldest + 1, geoGap := true } else s.cpc.port p))) ∧
  (∀ (s : State) (r : ExceptionRecord) (rest : List RdsMessage), s.bus.toRds = .exception r :: rest →
    let x := s.rds.exceptions
    ∃ t : State, exec .exceptionAppend s = .next t ∧
      { t with rds := s.rds, cpc := s.cpc } = { s with bus := { s.bus with toRds := rest } } ∧
      t.rds.geometry = s.rds.geometry ∧ t.cpc.lastServed = s.cpc.lastServed ∧ t.cpc.inService = s.cpc.inService ∧
      t.rds.exceptions.next = x.next + 1 ∧
      (x.records.length < 256 → t.rds.exceptions.records = x.records ++ [{ sequence := x.next, record := r }] ∧
        t.rds.exceptions.oldest = x.oldest ∧ t.cpc = s.cpc) ∧
      (256 ≤ x.records.length → t.rds.exceptions.records = x.records.tail ++ [{ sequence := x.next, record := r }] ∧
        t.rds.exceptions.oldest = x.oldest + 1 ∧
        ∀ p, t.cpc.port p = (if (s.cpc.port p).excCursor = x.oldest then
          { s.cpc.port p with excCursor := x.oldest + 1, excGap := true } else s.cpc.port p))) ∧
  (∀ w : WireRecord, GeometryLayout w w.toBytes) ∧ ∀ e : StoredException, ExceptionLayout e e.toBytes

/-- READ_RECORDS and READ_EXCEPTIONS return up to min(n, 24) records from the port's cursor onward, in order, advance the cursor by
their number, report the number still unread, and show and clear the GAP mark (R188, R189); the records travel in 40 and 38 bytes
each (R201). The stores and cursors are sound (R182 to R184). -/
def Obligations.ReadsAdvanceTheCursor : Prop :=
  ∀ (s : State) (port : Port) (rq : Request), StoresSound s →
    let x := s.cpc.port port
    let n := min (getU16 rq.payload 0) 24
    (Serves s port rq .readRecords →
      ∃ (t : State) (rs : List WireRecord) (bytes : List Byte), exec .readRecords s = .next t ∧
        rs = (s.rds.geometry.records.drop (x.geoCursor - s.rds.geometry.oldest).toNat).take n ∧
        rs.length = min n (s.rds.geometry.next - x.geoCursor).toNat ∧
        (∀ i r, rs[i]? = some r → r.sequence = x.geoCursor + BitVec.ofNat 32 i) ∧
        bytes = rs.flatMap WireRecord.toBytes ∧ bytes.length = 40 * rs.length ∧
        (t.cpc.port port).geoCursor = x.geoCursor + BitVec.ofNat 32 rs.length ∧ (t.cpc.port port).geoGap = false ∧
        (t.cpc.port port).excCursor = x.excCursor ∧ (t.cpc.port port).excGap = x.excGap ∧
        (t.cpc.port port).phase = .replyReady (replyFrame rq.code rq.tag
          { status := .ok, gap := x.geoGap,
            payload := putU8 rs.length ++ be32 (s.rds.geometry.next - (t.cpc.port port).geoCursor) ++ bytes }) ∧
        (∀ p, p ≠ port → t.cpc.port p = s.cpc.port p) ∧ { t with cpc := s.cpc } = s) ∧
    (Serves s port rq .readExceptions →
      ∃ (t : State) (rs : List StoredException) (bytes : List Byte), exec .readExceptions s = .next t ∧
        rs = (s.rds.exceptions.records.drop (x.excCursor - s.rds.exceptions.oldest).toNat).take n ∧
        rs.length = min n (s.rds.exceptions.next - x.excCursor).toNat ∧
        (∀ i r, rs[i]? = some r → r.sequence = x.excCursor + BitVec.ofNat 32 i) ∧
        bytes = rs.flatMap StoredException.toBytes ∧ bytes.length = 38 * rs.length ∧
        (t.cpc.port port).excCursor = x.excCursor + BitVec.ofNat 32 rs.length ∧ (t.cpc.port port).excGap = false ∧
        (t.cpc.port port).geoCursor = x.geoCursor ∧ (t.cpc.port port).geoGap = x.geoGap ∧
        (t.cpc.port port).phase = .replyReady (replyFrame rq.code rq.tag
          { status := .ok, gap := x.excGap,
            payload := putU8 rs.length ++ be32 (s.rds.exceptions.next - (t.cpc.port port).excCursor) ++ bytes }) ∧
        (∀ p, p ≠ port → t.cpc.port p = s.cpc.port p) ∧ { t with cpc := s.cpc } = s)

/-- R190: SET_CURSOR moves the cursor of the store it names to the oldest or the next sequence number, clears that GAP mark, and is
answered with the cursor and the number unread; another value of either field is refused with RANGE; in every run state.
In a sound store (R182, R183) that is empty the oldest sequence number is the next one. -/
def Obligations.SetCursorMovesToAnEnd : Prop :=
  ∀ (s : State) (port : Port) (rq : Request), Serves s port rq .setCursor →
    let x := s.cpc.port port
    let store := getU8 rq.payload 0
    let position := getU8 rq.payload 1
    (StoresSound s → (s.rds.geometry.records = [] → s.rds.geometry.oldest = s.rds.geometry.next) ∧
      (s.rds.exceptions.records = [] → s.rds.exceptions.oldest = s.rds.exceptions.next)) ∧
    (1 < store ∨ 1 < position → exec .setCursor s = .next (onlyReplies s port rq (.of .range []))) ∧
    (store = 0 → position ≤ 1 →
      let c := if position = 0 then s.rds.geometry.oldest else s.rds.geometry.next
      exec .setCursor s = .next { s with
        cpc := (s.cpc.setPort port { x with geoCursor := c, geoGap := false }).answer port rq
                 (.of .ok (be32 c ++ be32 (s.rds.geometry.next - c))) }) ∧
    (store = 1 → position ≤ 1 →
      let c := if position = 0 then s.rds.exceptions.oldest else s.rds.exceptions.next
      exec .setCursor s = .next { s with
        cpc := (s.cpc.setPort port { x with excCursor := c, excGap := false }).answer port rq
                 (.of .ok (be32 c ++ be32 (s.rds.exceptions.next - c))) })

/-- R193, R195: SET_ATTENTION replaces the port's watermark and threshold when both are in range, and is answered with them and the
ATTN after service, which is high exactly while the geometry, the exception or the state-news condition holds; out of range it is
refused with RANGE. The part is past its hold, where ATTN is driven. -/
def Obligations.SetAttentionJudgesAttnAfterService : Prop :=
  ∀ (s : State) (port : Port) (rq : Request), Serves s port rq .setAttention → s.power = .on →
    let x := s.cpc.port port
    let watermark := getU16 rq.payload 0
    let threshold := getU8 rq.payload 2
    (8192 < watermark ∨ 3 < threshold → exec .setAttention s = .next (onlyReplies s port rq (.of .range []))) ∧
    (watermark ≤ 8192 → threshold ≤ 3 →
      ∃ attn : Bool, exec .setAttention s = .next { s with
          cpc := (s.cpc.setPort port { x with watermark := watermark, threshold := threshold }).answer port rq
                   (.of .ok (putU16 watermark ++ putU8 threshold ++ [if attn then 1 else 0])) } ∧
        (attn = true ↔ (watermark ≠ 0 ∧ watermark ≤ (s.rds.geometry.next - x.geoCursor).toNat) ∨
          (threshold ≠ 0 ∧ ∃ e ∈ s.rds.exceptions.records.drop (x.excCursor - s.rds.exceptions.oldest).toNat,
            threshold ≤ e.record.severity) ∨ x.news = true))

/-- R87: a checked value on the wire is a tenth of it, halves away from zero, clipped to ±32,767, the curvature is clipped as it is,
an absent value is −32,768 and a present one never; CLIPPED, bit 8 of the flags, is set exactly when one of the eight was clipped. -/
def Obligations.WireValuesAreRoundedAndClipped : Prop :=
  ∀ (r : OutputRecord) (levels : Seven Nat) (sequence : Word32),
    let w := wireRecord r levels sequence
    let clip (q : Int) : Int := max (-32767) (min 32767 q)
    (∀ p v, r.values.checked.get p = some v → ∃ q, RoundsAway q v 10 ∧ w.values.get p = clip q ∧ w.values.get p ≠ -32768) ∧
    (∀ p, r.values.checked.get p = none → w.values.get p = -32768) ∧
    (∀ v, r.values.cv = some v → w.cv = clip v) ∧ (r.values.cv = none → w.cv = -32768) ∧
    (w.flags.getLsbD 8 = true ↔
      (∃ p v, r.values.checked.get p = some v ∧ ∀ q, RoundsAway q v 10 → q < -32767 ∨ 32767 < q) ∨
      ∃ v, r.values.cv = some v ∧ (v < -32767 ∨ 32767 < v))

/-- Select periods (R185, R186). Through the start-up hold and while the reset pin holds the part they are ignored, and RDY and ATTN
are low (R180, R196); what a held pin keeps is log entry 20's. Past the hold RDY is high exactly in REPLY_READY; a select period in IDLE
without a bit does nothing; a request frame as R198 lays it out is taken, the port goes to SERVING, and its service begins at once when none
is in progress, otherwise the service in progress goes on (R187); anything else is answered BAD_FRAME with its first two bytes echoed. In
SERVING the busy pattern is shifted out and the request stays; in REPLY_READY the reply is shifted out, a full read ends it and a shorter
one keeps it. The record of what was shifted out is the model's (log entry 16), and so is the field that names the service in progress (log
entry 30). -/
def Obligations.SelectPeriodsFollowThePhase : Prop :=
  (∀ (s : State) (p : Port), s.power ≠ .on →
    (∀ bytes extra, exec (.requestFrame p bytes extra) s = .next s) ∧ (∀ count, exec (.busySelect p count) s = .next s) ∧
    (∀ bits, exec (.replyRead p bits) s = .next s) ∧ s.rdy p = false ∧ s.attn p = false) ∧
  ∀ (s : State) (p : Port), s.power = .on →
    let x := s.cpc.port p
    (s.rdy p = true ↔ ∃ frame, x.phase = .replyReady frame) ∧
    (x.phase = .idle →
      exec (.requestFrame p [] 0) s = .next s ∧
      (∀ (code tag : Byte) (payload : List Byte), payload.length ≤ 1024 →
        let covered := [code, tag] ++ putU16 payload.length ++ payload
        ∃ served : Port, (s.cpc.nextService = none → served = p) ∧ (∀ q r, s.cpc.nextService = some (q, r) → served = q) ∧
          exec (.requestFrame p (covered ++ be16 (frameCheck covered)) 0) s = .next { s with
            cpc := { s.cpc.setPort p { x with phase := .serving { code := code, tag := tag, payload := payload } } with
                       inService := some served } }) ∧
      ∀ (bytes : List Byte) (extra : Nat), (bytes ≠ [] ∨ extra ≠ 0) →
        (bytes.length < 6 ∨ extra ≠ 0 ∨ 1024 < getU16 bytes 2 ∨ bytes.length ≠ 6 + getU16 bytes 2 ∨
          be16 (frameCheck (bytes.take (4 + getU16 bytes 2))) ≠ bytes.drop (4 + getU16 bytes 2)) →
        exec (.requestFrame p bytes extra) s = .next { s with
          cpc := s.cpc.setPort p { x with phase := .replyReady (replyFrame (bytes.getD 0 0) (bytes.getD 1 0) (.of .badFrame [])) } }) ∧
    (∀ rq count, x.phase = .serving rq → exec (.busySelect p count) s = .next { s with
      cpc := s.cpc.setPort p { x with shifted := List.replicate count 0xA5 } }) ∧
    ∀ (frame : List Byte) (bits : Nat), x.phase = .replyReady frame →
      ∃ out : List Byte, out.length = bits / 8 ∧ (∀ i, i < bits / 8 → out[i]? = some (frame.getD i 0)) ∧
        (8 * frame.length ≤ bits → exec (.replyRead p bits) s = .next { s with
          cpc := s.cpc.setPort p { x with phase := .idle, shifted := out } }) ∧
        (bits < 8 * frame.length → exec (.replyRead p bits) s = .next { s with
          cpc := s.cpc.setPort p { x with shifted := out } })

/-- A request frame reads back as the request it was made of, whatever code, tag and payload of up to 1024 bytes (R185, R198). The check
in it is a 16-bit register that starts at 0xFFFF and takes each byte most significant bit first; each bit shifts it one place up, and
where the bit shifted out and the data bit differ, 0x1021 is combined in; the high byte of the check is sent first (R197). -/
def Obligations.ARequestFrameReadsBack : Prop :=
  let shift (reg bit : Nat) : Nat := Nat.xor (2 * reg % 65536) (if (reg / 32768 + bit) % 2 = 1 then 4129 else 0)
  (frameCheck []).toNat = 65535 ∧
  (∀ (bytes : List Byte) (b : Byte), (frameCheck (bytes ++ [b])).toNat =
    ([128, 64, 32, 16, 8, 4, 2, 1].map (fun n => b.toNat / n % 2)).foldl shift (frameCheck bytes).toNat) ∧
  (∀ bytes : List Byte, (be16 (frameCheck bytes)).map BitVec.toNat =
    [(frameCheck bytes).toNat / 256, (frameCheck bytes).toNat % 256]) ∧
  ∀ (rq : Request), rq.payload.length ≤ 1024 →
    let frame (q : Request) : List Byte :=
      let covered := [q.code, q.tag] ++ putU16 q.payload.length ++ q.payload
      covered ++ be16 (frameCheck covered)
    takenFrame (frame rq) 0 = some rq ∧ (frame rq).length = 6 + rq.payload.length ∧
    (∀ extra, extra ≠ 0 → takenFrame (frame rq) extra = none) ∧ (∀ n, n < (frame rq).length → takenFrame ((frame rq).take n) 0 = none)

/-- The requests that change no measuring state (R153, R187, R191, R192, R194): an unknown one is refused with BAD_REQUEST, ECHO
returns its payload, the lists are returned entry by entry as they stand, 36, 23 and 17 bytes each with the fields of their layouts, and
READ_STATUS shows the eleven parts in order, each with the fields its rule lists, before the port's state-news mark, and that alone, is
cleared (R25, R48, R60, R89, R115, R132, R154, R170, R181, R196, R202). The position index and ATTN in it are as their rules form them (R5, R195). The
fields of a BAD_REQUEST of START and READ_ITEM follow log entry 15, its clear GAP flag log entry 38, the status reply log entry 14; the parts show what each unit holds,
which for a waiting notice is the run before (log entry 13) and in STANDBY the tables as they stand (log entry 33). -/
def Obligations.ReadsReturnTheListsAsTheyStand : Prop :=
  ∀ (s : State) (port : Port) (rq : Request),
    (Serves s port rq .unknown → exec .unknownRequest s = .next (onlyReplies s port rq (.of .badRequest
      (if rq.code = 0x10 then refusalFields 0 0 0 0 s.rcu.generation
       else if rq.code = 0x13 then be32 s.rcu.generation else [])))) ∧
    (Serves s port rq .echo → exec .echo s = .next (onlyReplies s port rq (.of .ok rq.payload))) ∧
    (Serves s port rq .readOpenRuns → ∃ es : List (List Byte), exec .readOpenRuns s = .next (onlyReplies s port rq (.of .ok es.flatten)) ∧
      es = allParams.map (fun p => openRunEntry p (s.exu.runs.get p)) ∧ es.length = 7 ∧ ∀ e ∈ es, e.length = 36) ∧
    (Serves s port rq .readFixes → ∃ es : List (List Byte),
      exec .readFixes s = .next (onlyReplies s port rq (.of .ok (putU8 s.pru.fixes.length ++ es.flatten))) ∧
      es = s.pru.fixes.map fixEntry ∧ ∀ e ∈ es, e.length = 23) ∧
    (Serves s port rq .readMarkers → ∃ es : List (List Byte),
      exec .readMarkers s = .next (onlyReplies s port rq (.of .ok (putU8 s.mtu.list.length ++ es.flatten))) ∧
      es = s.mtu.list.map markerEntry ∧ ∀ e ∈ es, e.length = 17) ∧
    (Serves s port rq .readStatus → ∃ (index : Int) (attn : Bool) (parts : List (List Byte)),
      exec .readStatus s = .next { s with
        cpc := (s.cpc.setPort port { s.cpc.port port with news := false }).answer port rq
                 (.of .ok (parts.flatMap (fun f => putU16 f.length ++ f))) } ∧
      parts = statusParts s port index attn ∧ parts.length = 11 ∧ (rcuPart s.rcu).length = 105 ∧
      (0 < s.odu.interval → RoundsAway index s.odu.position (s.odu.interval * 65536)) ∧
      let x := s.cpc.port port
      (s.power = .on → (attn = true ↔
        (x.watermark ≠ 0 ∧ x.watermark ≤ (s.rds.geometry.next - x.geoCursor).toNat) ∨
        (x.threshold ≠ 0 ∧ ∃ e ∈ s.rds.exceptions.records.drop (x.excCursor - s.rds.exceptions.oldest).toNat,
          x.threshold ≤ e.record.severity) ∨ x.news = true)))

/-- A port that takes a request while no service is in progress is served next; a request taken while another is in service leaves that
service as it is and waits (R187). After a service the first waiting port in the order CP0, CP1, CP2 that follows the served one is
served next, and no waiting port waits for more than two services of others, whatever the other ports take, read or send
between two services: after the second it is served. The field that names the service in progress is the model's (log entry 30). -/
def Obligations.NoPortWaitsForMoreThanTwoOthers : Prop :=
  let after : Port → Port
    | .cp0 => .cp1
    | .cp1 => .cp2
    | .cp2 => .cp0
  (∀ (c : Cpc) (p : Port) (rq : Request) (bytes : List Byte), takenFrame bytes 0 = some rq →
    let d := c.judge p bytes 0
    (d.port p).phase = .serving rq ∧ (∀ q, q ≠ p → d.port q = c.port q) ∧
    (c.nextService = none → d.nextService = some (p, rq)) ∧
    ∀ q r, c.nextService = some (q, r) → q ≠ p → d.nextService = some (q, r)) ∧
  (∀ (c : Cpc) (q : Port) (r : Request) (a : Reply), c.nextService = some (q, r) →
    let d := c.answer q r a
    let first := after q
    let second := after first
    (d.port q).phase = .replyReady (replyFrame r.code r.tag a) ∧ d.lastServed = q ∧ (∀ p, p ≠ q → d.port p = c.port p) ∧
    (∀ rq, (c.port first).phase = .serving rq → d.nextService = some (first, rq)) ∧
    ((∀ rq, (c.port first).phase ≠ .serving rq) →
      (∀ rq, (c.port second).phase = .serving rq → d.nextService = some (second, rq)) ∧
      ((∀ rq, (c.port second).phase ≠ .serving rq) → d.nextService = none))) ∧
  ∀ (c : Cpc) (p : Port) (rq : Request), (c.port p).phase = .serving rq →
    (∃ q r, c.nextService = some (q, r) ∧ (c.port q).phase = .serving r) ∧
    ∀ q1 r1 a1, c.nextService = some (q1, r1) → q1 ≠ p →
      let c1 := c.answer q1 r1 a1
      (c1.port p).phase = .serving rq ∧ (c1.port q1).phase = .replyReady (replyFrame r1.code r1.tag a1) ∧
      ∀ c2 : Cpc, c2.port p = c1.port p → c2.lastServed = c1.lastServed → c2.inService = c1.inService →
        ∀ q2 r2 a2, c2.nextService = some (q2, r2) → q2 ≠ p →
          let d := c2.answer q2 r2 a2
          ∀ c3 : Cpc, c3.port p = d.port p → c3.lastServed = d.lastServed → c3.inService = d.inService →
            c3.nextService = some (p, rq)

/-! ### What every command keeps -/

/-- While the run is RUNNING with source ENCODERS, the active encoder's health is OK: every step keeps it (R18). The run is the
ODU's own record of it (log entry 4). -/
def Obligations.TheActiveEncoderStaysOk : Prop :=
  ∀ s t : State, ActiveEncoderSound s → step s = .next t → ActiveEncoderSound t

/-- Both stores keep their capacity, their consecutive sequence numbers and their cursors within range at every step (R182 to
R184). -/
def Obligations.TheStoresStayConsecutive : Prop :=
  ∀ s t : State, StoresSound s → step s = .next t → StoresSound t

/-- The fix list keeps at most 8 entries more than 8 samples apart (R106), the marker list at most 16, and every idle trigger line
its idle level (R168), at every step. -/
def Obligations.ListsAndLinesStayWithinTheirBounds : Prop :=
  ∀ s t : State, FixListSound s → MtuSound s → step s = .next t → FixListSound t ∧ MtuSound t

/-- Every step keeps each open run's severity within 1 to 3 with its ONSET sent exactly at 3, and the opened count less the CLOSED
count equal to the number of open runs (R138, R148, R154). -/
def Obligations.OpenedLessClosedIsTheOpenRuns : Prop :=
  ∀ s t : State, OpenRunsSound s → step s = .next t → OpenRunsSound t

/-- Every step keeps the counts of the channels in range, a channel LOST exactly when it holds no value, each link's state that of
its channels, and the leaky integrators within ±(2^47 − 1) (R30 to R32, R34). -/
def Obligations.ChannelsLinksAndIntegratorsStayInRange : Prop :=
  ∀ s t : State, SlcSound s → step s = .next t → SlcSound t

/-- Every step keeps each table in its canonical form, with what stands at a place belonging there (R50, R70, R96, R116, R133). -/
def Obligations.EveryTableStaysCanonical : Prop :=
  ∀ s t : State, TablesSound s → step s = .next t → TablesSound t

/-- Reset meets every invariant that a step keeps, by the power-on values of the units (R24, R46, R61, R90, R114, R131, R151, R163,
R169, R196). -/
def Obligations.ResetMeetsTheInvariants : Prop :=
  ActiveEncoderSound State.reset ∧ StoresSound State.reset ∧ FixListSound State.reset ∧ MtuSound State.reset ∧
  OpenRunsSound State.reset ∧ SlcSound State.reset ∧ TablesSound State.reset

/-- No command but START, STOP, the two reports of the ODU and a power-on changes the run state, and each of the first four that
does sets the state-news mark of all three ports (R171); no command but the two appends and a power-on changes the stores (R182). -/
def Obligations.RunStateAndStoresChangeOnlyAtTheirCommands : Prop :=
  ∀ (c : Instr) (s t : State), exec c s = .next t → (∀ cause, c ≠ .powerOn cause) →
    (t.rcu.runState ≠ s.rcu.runState →
      c ∈ [Instr.start, .stop, .odometryLost, .odometryRestored] ∧ ∀ p, (t.cpc.port p).news = true) ∧
    (t.rds ≠ s.rds → c = .geometryAppend ∨ c = .exceptionAppend)

/-- The configuration is constant through a run (R177): outside STANDBY no command but a power-on changes any field that SET_ITEM
writes, any written mark or the generation; only CALIBRATE changes a count weight (R22); and in every run state the generation counts
on only at SET_ITEM, and only once no unit is at work on the run before (log entry 29). Power-on is left out: it clears all of this. -/
def Obligations.TheConfigurationIsConstantThroughARun : Prop :=
  ∀ (c : Instr) (s t : State), exec c s = .next t → (∀ cause, c ≠ .powerOn cause) →
    (s.rcu.runState ≠ .standby → SameConfiguration s t) ∧ (c ≠ .setItem → SameConfiguration s t) ∧
    (¬Quiet s → SameConfiguration s t) ∧
    (c ≠ .setItem → c ≠ .calibrate → ∀ e, (t.odu.enc e).weight = (s.odu.enc e).weight)

/-! ### The fields of the configuration items -/

/-- The fields of an item are held to the ranges and cross-checks of its kind, in the order of its layout (R2, R39, R49, R63, R64, R92,
R116, R118, R133, R134, R157, R164, R203); a field is read most significant byte first. An accepted item replaces every field in the
blocks that own it: those of ODOMETRY with the weights, which count the epoch on where that of the active encoder changes, and the interval
that the GCU works with; those of SENSORS in the SLC, the ASU and the GCU; those of COMPUTE with the reaches; a trigger line goes at once to its
new idle level unless a pulse runs (R168). The other places of a table stay. Which encoder counts after a run with source PACE is log
entry 27's; that a disabled threshold too is held to its range is log entry 19's. -/
def Obligations.ItemFieldsAreHeldToTheirRanges : Prop :=
  (∀ (b : List Byte) (o : Nat), o + 4 ≤ b.length →
    getU8 b o = field b o 1 ∧ getU16 b o = field b o 2 ∧ getU32 b o = field b o 4 ∧
    twos 8 (getS8 b o) = field b o 1 ∧ -128 ≤ getS8 b o ∧ getS8 b o ≤ 127 ∧ twos 32 (getS32 b o) = field b o 4 ∧ Fits32 (getS32 b o)) ∧
  (∀ kind, itemLength kind =
    [none, some 21, some 21, some 4, some 9, some 65, some 48, some 210, some 4, some 9].getD kind none) ∧
  (∀ (kind index : Nat) (i : ItemId), itemOf kind index = some i ↔
    match i with
    | .odometry => kind = 1 ∧ index = 0
    | .sensors => kind = 2 ∧ index = 0
    | .compute => kind = 3 ∧ index = 0
    | .fixPolicy => kind = 4 ∧ index = 0
    | .plan => kind = 5 ∧ index = 0
    | .segment k => kind = 6 ∧ index = k ∧ k < 64
    | .limitSet k => kind = 7 ∧ index = k ∧ k < 16
    | .marker m => kind = 8 ∧ index = (match m with
        | .m1 => 1
        | .m2 => 2)
    | .trigger t => kind = 9 ∧ index = (match t with
        | .t1 => 1
        | .t2 => 2
        | .t3 => 3
        | .t4 => 4)) ∧
  (∀ (i : ItemId) (b : List Byte),
    ((itemChecks i b).map (·.1)).Pairwise (· < ·) ∧
    ((∀ f ∈ itemChecks i b, f.2 = true) ↔
      match i with
      | .odometry => getU16 b 0 ∈ [125, 250, 500] ∧ getU8 b 2 ≤ 1 ∧ 8 ≤ getU8 b 3 ∧ 1 ≤ getU8 b 4 ∧ getU8 b 4 ≤ 10 ∧
          1 ≤ getU16 b 5 ∧ ∀ o ∈ [7, 14], 1500000 ≤ getU32 b o ∧ getU32 b o ≤ 4000000 ∧ 400 ≤ getU16 b (o + 4) ∧
            getU16 b (o + 4) ≤ 16384 ∧ getU8 b (o + 6) ≤ 1
      | .sensors => 6 ≤ getU8 b 0 ∧ getU8 b 0 ≤ 20 ∧ 6 ≤ getU8 b 1 ∧ getU8 b 1 ≤ 20 ∧ 1000 ≤ getU16 b 2 ∧ getU16 b 2 ≤ 20000 ∧
          getU16 b 4 ≤ 2000 ∧ getU16 b 4 < getU16 b 2 ∧ 8 ≤ getU16 b 6 ∧ getU16 b 6 ≤ 400 ∧
          (∀ o ∈ [8, 9, 10], -100 ≤ getS8 b o ∧ getS8 b o ≤ 100) ∧ 0 ≤ getS32 b 11 ∧ getS32 b 11 ≤ 2000000 ∧
          1000000 ≤ getS32 b 15 ∧ getS32 b 15 ≤ 2000000 ∧ 1400 ≤ getU16 b 19 ∧ getU16 b 19 ≤ 1700
      | .compute => ∀ o ∈ [0, 1, 2, 3], 1 ≤ getU8 b o ∧ getU8 b o ≤ 48
      | .fixPolicy => 100 ≤ getS32 b 0 ∧ getS32 b 0 ≤ 500000 ∧ 100 ≤ getS32 b 4 ∧ getS32 b 4 ≤ 100000 ∧ getU8 b 8 ≤ 25
      | .plan => 1 ≤ getU8 b 0 ∧ getU8 b 0 ≤ 32 ∧ ∀ e < getU8 b 0,
          getU8 b (1 + 2 * e) ≤ 63 ∧ (getS8 b (2 + 2 * e) = 1 ∨ getS8 b (2 + 2 * e) = -1)
      | .segment _ => 1 ≤ getU16 b 0 ∧ getS32 b 2 < getS32 b 6 ∧ getU8 b 10 ≤ 15 ∧ getU8 b 11 ≤ 4 ∧ ∀ m < getU8 b 11,
          getS32 b 2 ≤ getS32 b (12 + 9 * m) ∧ getS32 b (12 + 9 * m) ≤ getS32 b (16 + 9 * m) ∧
          getS32 b (16 + 9 * m) ≤ getS32 b 6 ∧ 1 ≤ getU8 b (20 + 9 * m) ∧ getU8 b (20 + 9 * m) ≤ 127
      | .limitSet _ => ∀ p : Param,
          let o := 30 * p.number
          let enabled (n : Nat) : Prop := (b.getD (o + 24) 0).getLsbD n = true
          (∀ n < 3, 0 ≤ getS32 b (o + 4 * n) ∧ getS32 b (o + 4 * n) ≤ 2000000 ∧ -2000000 ≤ getS32 b (o + 12 + 4 * n) ∧
            getS32 b (o + 12 + 4 * n) ≤ 0) ∧
          getU8 b (o + 24) ≤ 63 ∧ 0 ≤ getS32 b (o + 25) ∧ getS32 b (o + 25) ≤ 2000000 ∧ getU8 b (o + 29) ≤ 40 ∧
          ∀ l m, l < m → m < 3 → (enabled l → enabled m → getS32 b (o + 4 * l) ≤ getS32 b (o + 4 * m)) ∧
            (enabled (3 + l) → enabled (3 + m) → getS32 b (o + 12 + 4 * m) ≤ getS32 b (o + 12 + 4 * l))
      | .marker _ => getU8 b 0 ≤ 1 ∧ -100 ≤ getS8 b 1 ∧ getS8 b 1 ≤ 100 ∧ getU16 b 2 ≤ 4096
      | .trigger _ => getU8 b 0 ≤ 1 ∧ 1 ≤ getU16 b 1 ∧ getU16 b 1 ≤ 4096 ∧ getU16 b 3 < getU16 b 1 ∧ -100 ≤ getS8 b 5 ∧
          getS8 b 5 ≤ 100 ∧ 1 ≤ getU16 b 6 ∧ getU8 b 8 ≤ 1)) ∧
  ∀ (s : State) (i : ItemId) (b : List Byte), (∀ f ∈ itemChecks i b, f.2 = true) →
    let t := s.writeItem i b
    match i with
    | .odometry =>
      let w (off : Nat) : Nat := (2 * (getU32 b off * 65536) + 1000 * getU16 b (off + 4)) / (2 * (1000 * getU16 b (off + 4)))
      let set (x : EncoderState) (o : Nat) : EncoderState :=
        { x with circumference := getU32 b o, countsPerRev := getU16 b (o + 4),
                 mounting := if getU8 b (o + 6) = 0 then .normal else .inverted, weight := w o }
      t = { s with odu := t.odu, gcu := { s.gcu with interval := getU16 b 0 } } ∧
        t.odu = { s.odu with interval := getU16 b 0, primary := if getU8 b 2 = 0 then .e1 else .e2, reversalDistance := getU8 b 3,
                             slipTolerance := getU8 b 4, paceIntervalField := getU16 b 5, e1 := set s.odu.e1 7,
                             e2 := set s.odu.e2 14, epoch := t.odu.epoch } ∧
        t.odu.epoch = (if (t.odu.enc s.odu.active).weight = (s.odu.enc s.odu.active).weight then s.odu.epoch else s.odu.epoch + 1)
    | .sensors => t = { s with
        slc := { s.slc with kv := getU8 b 0, kp := getU8 b 1, vMin := getU16 b 2, hV := getU16 b 4, settleValue := getU16 b 6 },
        asu := { s.asu with pGauge := getS8 b 8, pVertical := getS8 b 9, pLateral := getS8 b 10 },
        gcu := { s.gcu with g0 := getS32 b 11, gNom := getS32 b 15, railDistance := getU16 b 19 } }
    | .compute => t = { s with gcu := { s.gcu with
        armA := getU8 b 0, armB := getU8 b 1, twistBase := getU8 b 2, halfBase := getU8 b 3,
        reachUp := max (getU8 b 0) (getU8 b 3), reachDown := max (getU8 b 1) (max (getU8 b 3) (getU8 b 2)) } }
    | .fixPolicy => t = { s with pru := { s.pru with
        acceptWindow := getS32 b 0, stepThreshold := getS32 b 4, slewLimit := getU8 b 8 } }
    | .plan => t = { s with pru := { s.pru with plan := t.pru.plan } } ∧ ∀ e, t.pru.plan[e]? =
        if e < getU8 b 0 then
          some { segment := getU8 b (1 + 2 * e), orientation := if getS8 b (2 + 2 * e) = 1 then .plus else .minus } else none
    | .segment k => t = { s with pru := { s.pru with segments := t.pru.segments } } ∧
        (∀ n, n ≠ k → t.pru.segment n = s.pru.segment n) ∧
        t.pru.segment k = { lineCode := getU16 b 0, lo := getS32 b 2, hi := getS32 b 6, limitSet := getU8 b 10,
                            masks := (t.pru.segment k).masks } ∧
        ∀ m, (t.pru.segment k).masks[m]? =
          if m < getU8 b 11 then
            some { lo := getS32 b (12 + 9 * m), hi := getS32 b (16 + 9 * m), params := b.getD (20 + 9 * m) 0 } else none
    | .limitSet k => t = { s with exu := { s.exu with limitSets := t.exu.limitSets } } ∧
        (∀ n, n ≠ k → t.exu.limitSet n = s.exu.limitSet n) ∧
        ∀ p, let o := 30 * p.number
          (t.exu.limitSet k).get p =
            { u1 := getS32 b o, u2 := getS32 b (o + 4), u3 := getS32 b (o + 8), l1 := getS32 b (o + 12), l2 := getS32 b (o + 16),
              l3 := getS32 b (o + 20), enable := b.getD (o + 24) 0, hysteresis := getS32 b (o + 25), mergeGap := getU8 b (o + 29) }
    | .marker m => t = { s with mtu := s.mtu.setMarker m { s.mtu.marker m with
        edge := if getU8 b 0 = 0 then .rising else .falling, mount := getS8 b 1, spacing := getU16 b 2 } }
    | .trigger c =>
      let x := s.mtu.trigger c
      let idle : Level := if getU8 b 8 = 0 then .low else .high
      t = { s with mtu := s.mtu.setTrigger c { x with
        enable := decide (getU8 b 0 = 1), pitch := getU16 b 1, phase := getU16 b 3, mount := getS8 b 5, width := getU16 b 6,
        polarity := idle, level := if x.timer = none then idle else x.level } }
end

