-- ==== Sys2Proof/Laws/State.lean ====
section
/-! SUPPORT. What each update of a member by name leaves of the record it stands in: one lemma per field per update, so
that no proof unfolds a record update. -/

namespace Sys2Proof.Machine

/-! ### Odu.setEnc -/

@[simp] theorem Odu.enc_setEnc (o : Odu) (i : Encoder) (x : EncoderState) : (o.setEnc i x).enc i = x := by
  cases i <;> rfl

theorem Odu.enc_setEnc_of_ne (o : Odu) {i k : Encoder} (x : EncoderState) (h : k ≠ i) :
    (o.setEnc i x).enc k = o.enc k := by
  cases i <;> cases k <;> first | rfl | exact absurd rfl h

@[simp] theorem Odu.setEnc_enc (o : Odu) (i : Encoder) : o.setEnc i (o.enc i) = o := by
  cases i <;> rfl

@[simp] theorem Odu.setEnc_setEnc (o : Odu) (i : Encoder) (x y : EncoderState) : (o.setEnc i x).setEnc i y = o.setEnc i y := by
  cases i <;> rfl

@[simp] theorem Odu.setEnc_source (o : Odu) (i : Encoder) (x : EncoderState) : (o.setEnc i x).source = o.source := by
  cases i <;> rfl

@[simp] theorem Odu.setEnc_active (o : Odu) (i : Encoder) (x : EncoderState) : (o.setEnc i x).active = o.active := by
  cases i <;> rfl

@[simp] theorem Odu.setEnc_primary (o : Odu) (i : Encoder) (x : EncoderState) : (o.setEnc i x).primary = o.primary := by
  cases i <;> rfl

@[simp] theorem Odu.setEnc_interval (o : Odu) (i : Encoder) (x : EncoderState) : (o.setEnc i x).interval = o.interval := by
  cases i <;> rfl

@[simp] theorem Odu.setEnc_reversalDistance (o : Odu) (i : Encoder) (x : EncoderState) : (o.setEnc i x).reversalDistance = o.reversalDistance := by
  cases i <;> rfl

@[simp] theorem Odu.setEnc_slipTolerance (o : Odu) (i : Encoder) (x : EncoderState) : (o.setEnc i x).slipTolerance = o.slipTolerance := by
  cases i <;> rfl

@[simp] theorem Odu.setEnc_paceIntervalField (o : Odu) (i : Encoder) (x : EncoderState) : (o.setEnc i x).paceIntervalField = o.paceIntervalField := by
  cases i <;> rfl

@[simp] theorem Odu.setEnc_position (o : Odu) (i : Encoder) (x : EncoderState) : (o.setEnc i x).position = o.position := by
  cases i <;> rfl

@[simp] theorem Odu.setEnc_frontier (o : Odu) (i : Encoder) (x : EncoderState) : (o.setEnc i x).frontier = o.frontier := by
  cases i <;> rfl

@[simp] theorem Odu.setEnc_next (o : Odu) (i : Encoder) (x : EncoderState) : (o.setEnc i x).next = o.next := by
  cases i <;> rfl

@[simp] theorem Odu.setEnc_direction (o : Odu) (i : Encoder) (x : EncoderState) : (o.setEnc i x).direction = o.direction := by
  cases i <;> rfl

@[simp] theorem Odu.setEnc_eventDirection (o : Odu) (i : Encoder) (x : EncoderState) : (o.setEnc i x).eventDirection = o.eventDirection := by
  cases i <;> rfl

@[simp] theorem Odu.setEnc_extreme (o : Odu) (i : Encoder) (x : EncoderState) : (o.setEnc i x).extreme = o.extreme := by
  cases i <;> rfl

@[simp] theorem Odu.setEnc_eventTick (o : Odu) (i : Encoder) (x : EncoderState) : (o.setEnc i x).eventTick = o.eventTick := by
  cases i <;> rfl

@[simp] theorem Odu.setEnc_speed (o : Odu) (i : Encoder) (x : EncoderState) : (o.setEnc i x).speed = o.speed := by
  cases i <;> rfl

@[simp] theorem Odu.setEnc_standstill (o : Odu) (i : Encoder) (x : EncoderState) : (o.setEnc i x).standstill = o.standstill := by
  cases i <;> rfl

@[simp] theorem Odu.setEnc_encSwitch (o : Odu) (i : Encoder) (x : EncoderState) : (o.setEnc i x).encSwitch = o.encSwitch := by
  cases i <;> rfl

@[simp] theorem Odu.setEnc_epoch (o : Odu) (i : Encoder) (x : EncoderState) : (o.setEnc i x).epoch = o.epoch := by
  cases i <;> rfl

@[simp] theorem Odu.setEnc_paceInterval (o : Odu) (i : Encoder) (x : EncoderState) : (o.setEnc i x).paceInterval = o.paceInterval := by
  cases i <;> rfl

@[simp] theorem Odu.setEnc_paceDirection (o : Odu) (i : Encoder) (x : EncoderState) : (o.setEnc i x).paceDirection = o.paceDirection := by
  cases i <;> rfl

@[simp] theorem Odu.setEnc_paceStopped (o : Odu) (i : Encoder) (x : EncoderState) : (o.setEnc i x).paceStopped = o.paceStopped := by
  cases i <;> rfl

@[simp] theorem Odu.setEnc_paceTimer (o : Odu) (i : Encoder) (x : EncoderState) : (o.setEnc i x).paceTimer = o.paceTimer := by
  cases i <;> rfl

@[simp] theorem Odu.setEnc_view (o : Odu) (i : Encoder) (x : EncoderState) : (o.setEnc i x).view = o.view := by
  cases i <;> rfl

@[simp] theorem Odu.setEnc_zeroSpeedNext (o : Odu) (i : Encoder) (x : EncoderState) : (o.setEnc i x).zeroSpeedNext = o.zeroSpeedNext := by
  cases i <;> rfl

@[simp] theorem Odu.setEnc_resuming (o : Odu) (i : Encoder) (x : EncoderState) : (o.setEnc i x).resuming = o.resuming := by
  cases i <;> rfl

/-! ### Slc.setLink -/

@[simp] theorem Slc.link_setLink (c : Slc) (i : Link) (x : LinkState) : (c.setLink i x).link i = x := by
  cases i <;> rfl

theorem Slc.link_setLink_of_ne (c : Slc) {i k : Link} (x : LinkState) (h : k ≠ i) :
    (c.setLink i x).link k = c.link k := by
  cases i <;> cases k <;> first | rfl | exact absurd rfl h

@[simp] theorem Slc.setLink_link (c : Slc) (i : Link) : c.setLink i (c.link i) = c := by
  cases i <;> rfl

@[simp] theorem Slc.setLink_setLink (c : Slc) (i : Link) (x y : LinkState) : (c.setLink i x).setLink i y = c.setLink i y := by
  cases i <;> rfl

@[simp] theorem Slc.setLink_channels (c : Slc) (i : Link) (x : LinkState) : (c.setLink i x).channels = c.channels := by
  cases i <;> rfl

@[simp] theorem Slc.setLink_vertLeft (c : Slc) (i : Link) (x : LinkState) : (c.setLink i x).vertLeft = c.vertLeft := by
  cases i <;> rfl

@[simp] theorem Slc.setLink_vertRight (c : Slc) (i : Link) (x : LinkState) : (c.setLink i x).vertRight = c.vertRight := by
  cases i <;> rfl

@[simp] theorem Slc.setLink_lateral (c : Slc) (i : Link) (x : LinkState) : (c.setLink i x).lateral = c.lateral := by
  cases i <;> rfl

@[simp] theorem Slc.setLink_yaw (c : Slc) (i : Link) (x : LinkState) : (c.setLink i x).yaw = c.yaw := by
  cases i <;> rfl

@[simp] theorem Slc.setLink_yawSaturated (c : Slc) (i : Link) (x : LinkState) : (c.setLink i x).yawSaturated = c.yawSaturated := by
  cases i <;> rfl

@[simp] theorem Slc.setLink_vertGroup (c : Slc) (i : Link) (x : LinkState) : (c.setLink i x).vertGroup = c.vertGroup := by
  cases i <;> rfl

@[simp] theorem Slc.setLink_latGroup (c : Slc) (i : Link) (x : LinkState) : (c.setLink i x).latGroup = c.latGroup := by
  cases i <;> rfl

@[simp] theorem Slc.setLink_kv (c : Slc) (i : Link) (x : LinkState) : (c.setLink i x).kv = c.kv := by
  cases i <;> rfl

@[simp] theorem Slc.setLink_kp (c : Slc) (i : Link) (x : LinkState) : (c.setLink i x).kp = c.kp := by
  cases i <;> rfl

@[simp] theorem Slc.setLink_vMin (c : Slc) (i : Link) (x : LinkState) : (c.setLink i x).vMin = c.vMin := by
  cases i <;> rfl

@[simp] theorem Slc.setLink_hV (c : Slc) (i : Link) (x : LinkState) : (c.setLink i x).hV = c.hV := by
  cases i <;> rfl

@[simp] theorem Slc.setLink_settleValue (c : Slc) (i : Link) (x : LinkState) : (c.setLink i x).settleValue = c.settleValue := by
  cases i <;> rfl

@[simp] theorem Slc.setLink_slotTimer (c : Slc) (i : Link) (x : LinkState) : (c.setLink i x).slotTimer = c.slotTimer := by
  cases i <;> rfl

@[simp] theorem Slc.setLink_slotStart (c : Slc) (i : Link) (x : LinkState) : (c.setLink i x).slotStart = c.slotStart := by
  cases i <;> rfl

/-! ### Channels.set -/

@[simp] theorem Channels.get_set (c : Channels) (i : ChannelId) (x : Channel) : (c.set i x).get i = x := by
  cases i <;> rfl

theorem Channels.get_set_of_ne (c : Channels) {i k : ChannelId} (x : Channel) (h : k ≠ i) :
    (c.set i x).get k = c.get k := by
  cases i <;> cases k <;> first | rfl | exact absurd rfl h

@[simp] theorem Channels.set_get (c : Channels) (i : ChannelId) : c.set i (c.get i) = c := by
  cases i <;> rfl

@[simp] theorem Channels.set_set (c : Channels) (i : ChannelId) (x y : Channel) : (c.set i x).set i y = c.set i y := by
  cases i <;> rfl

/-! ### Mtu.setMarker -/

@[simp] theorem Mtu.marker_setMarker (m : Mtu) (i : MarkerLine) (x : MarkerState) : (m.setMarker i x).marker i = x := by
  cases i <;> rfl

theorem Mtu.marker_setMarker_of_ne (m : Mtu) {i k : MarkerLine} (x : MarkerState) (h : k ≠ i) :
    (m.setMarker i x).marker k = m.marker k := by
  cases i <;> cases k <;> first | rfl | exact absurd rfl h

@[simp] theorem Mtu.setMarker_marker (m : Mtu) (i : MarkerLine) : m.setMarker i (m.marker i) = m := by
  cases i <;> rfl

@[simp] theorem Mtu.setMarker_setMarker (m : Mtu) (i : MarkerLine) (x y : MarkerState) : (m.setMarker i x).setMarker i y = m.setMarker i y := by
  cases i <;> rfl

@[simp] theorem Mtu.setMarker_t1 (m : Mtu) (i : MarkerLine) (x : MarkerState) : (m.setMarker i x).t1 = m.t1 := by
  cases i <;> rfl

@[simp] theorem Mtu.setMarker_t2 (m : Mtu) (i : MarkerLine) (x : MarkerState) : (m.setMarker i x).t2 = m.t2 := by
  cases i <;> rfl

@[simp] theorem Mtu.setMarker_t3 (m : Mtu) (i : MarkerLine) (x : MarkerState) : (m.setMarker i x).t3 = m.t3 := by
  cases i <;> rfl

@[simp] theorem Mtu.setMarker_t4 (m : Mtu) (i : MarkerLine) (x : MarkerState) : (m.setMarker i x).t4 = m.t4 := by
  cases i <;> rfl

@[simp] theorem Mtu.setMarker_list (m : Mtu) (i : MarkerLine) (x : MarkerState) : (m.setMarker i x).list = m.list := by
  cases i <;> rfl

@[simp] theorem Mtu.setMarker_running (m : Mtu) (i : MarkerLine) (x : MarkerState) : (m.setMarker i x).running = m.running := by
  cases i <;> rfl

/-! ### Mtu.setTrigger -/

@[simp] theorem Mtu.trigger_setTrigger (m : Mtu) (i : Trigger) (x : TriggerState) : (m.setTrigger i x).trigger i = x := by
  cases i <;> rfl

theorem Mtu.trigger_setTrigger_of_ne (m : Mtu) {i k : Trigger} (x : TriggerState) (h : k ≠ i) :
    (m.setTrigger i x).trigger k = m.trigger k := by
  cases i <;> cases k <;> first | rfl | exact absurd rfl h

@[simp] theorem Mtu.setTrigger_trigger (m : Mtu) (i : Trigger) : m.setTrigger i (m.trigger i) = m := by
  cases i <;> rfl

@[simp] theorem Mtu.setTrigger_setTrigger (m : Mtu) (i : Trigger) (x y : TriggerState) : (m.setTrigger i x).setTrigger i y = m.setTrigger i y := by
  cases i <;> rfl

@[simp] theorem Mtu.setTrigger_m1 (m : Mtu) (i : Trigger) (x : TriggerState) : (m.setTrigger i x).m1 = m.m1 := by
  cases i <;> rfl

@[simp] theorem Mtu.setTrigger_m2 (m : Mtu) (i : Trigger) (x : TriggerState) : (m.setTrigger i x).m2 = m.m2 := by
  cases i <;> rfl

@[simp] theorem Mtu.setTrigger_list (m : Mtu) (i : Trigger) (x : TriggerState) : (m.setTrigger i x).list = m.list := by
  cases i <;> rfl

@[simp] theorem Mtu.setTrigger_running (m : Mtu) (i : Trigger) (x : TriggerState) : (m.setTrigger i x).running = m.running := by
  cases i <;> rfl

/-! ### Cpc.setPort -/

@[simp] theorem Cpc.port_setPort (c : Cpc) (i : Port) (x : PortState) : (c.setPort i x).port i = x := by
  cases i <;> rfl

theorem Cpc.port_setPort_of_ne (c : Cpc) {i k : Port} (x : PortState) (h : k ≠ i) :
    (c.setPort i x).port k = c.port k := by
  cases i <;> cases k <;> first | rfl | exact absurd rfl h

@[simp] theorem Cpc.setPort_port (c : Cpc) (i : Port) : c.setPort i (c.port i) = c := by
  cases i <;> rfl

@[simp] theorem Cpc.setPort_setPort (c : Cpc) (i : Port) (x y : PortState) : (c.setPort i x).setPort i y = c.setPort i y := by
  cases i <;> rfl

@[simp] theorem Cpc.setPort_lastServed (c : Cpc) (i : Port) (x : PortState) : (c.setPort i x).lastServed = c.lastServed := by
  cases i <;> rfl

@[simp] theorem Cpc.setPort_inService (c : Cpc) (i : Port) (x : PortState) : (c.setPort i x).inService = c.inService := by
  cases i <;> rfl

@[simp] theorem Mtu.setMarker_trigger (m : Mtu) (i : MarkerLine) (x : MarkerState) (t : Trigger) :
    (m.setMarker i x).trigger t = m.trigger t := by
  cases i <;> cases t <;> rfl

@[simp] theorem Mtu.setTrigger_marker (m : Mtu) (i : Trigger) (x : TriggerState) (l : MarkerLine) :
    (m.setTrigger i x).marker l = m.marker l := by
  cases i <;> cases l <;> rfl

/-! ### Seven -/

@[simp] theorem Seven.get_set {α : Type} (x : Seven α) (p : Param) (a : α) : (x.set p a).get p = a := by
  cases p <;> rfl

theorem Seven.get_set_of_ne {α : Type} (x : Seven α) {p q : Param} (a : α) (h : q ≠ p) : (x.set p a).get q = x.get q := by
  cases p <;> cases q <;> first | rfl | exact absurd rfl h

@[simp] theorem Seven.get_map {α β : Type} (f : α → β) (x : Seven α) (p : Param) : (x.map f).get p = f (x.get p) := by
  cases p <;> rfl

theorem Seven.ext_get {α : Type} {x y : Seven α} (h : ∀ p, x.get p = y.get p) : x = y := by
  cases x; cases y
  have hg := h .g; have hcl := h .cl; have htw := h .tw; have hll := h .ll
  have hlr := h .lr; have hal := h .al; have har := h .ar
  simp only [Seven.get] at hg hcl htw hll hlr hal har
  simp [*]

theorem Seven.toList_eq_map {α : Type} (x : Seven α) : x.toList = allParams.map x.get := rfl

/-! ### Cpc.mapPorts, Cpc.answer, Cpc.news -/

@[simp] theorem Cpc.port_mapPorts (f : PortState → PortState) (c : Cpc) (p : Port) : (c.mapPorts f).port p = f (c.port p) := by
  cases p <;> rfl

@[simp] theorem Cpc.mapPorts_lastServed (f : PortState → PortState) (c : Cpc) : (c.mapPorts f).lastServed = c.lastServed := rfl

@[simp] theorem Cpc.mapPorts_inService (f : PortState → PortState) (c : Cpc) : (c.mapPorts f).inService = c.inService := rfl

@[simp] theorem Cpc.port_news (c : Cpc) (p : Port) : c.news.port p = { c.port p with news := true } := by cases p <;> rfl

@[simp] theorem Cpc.news_lastServed (c : Cpc) : c.news.lastServed = c.lastServed := rfl

@[simp] theorem Cpc.news_inService (c : Cpc) : c.news.inService = c.inService := rfl

@[simp] theorem Cpc.port_takeRequest (c : Cpc) (p : Port) (rq : Request) :
    (c.takeRequest p rq).port p = { c.port p with phase := .serving rq } := by
  cases p <;> rfl

theorem Cpc.port_takeRequest_of_ne (c : Cpc) {p q : Port} (rq : Request) (h : q ≠ p) :
    (c.takeRequest p rq).port q = c.port q := by
  cases p <;> cases q <;> first | rfl | exact absurd rfl h

@[simp] theorem Cpc.takeRequest_lastServed (c : Cpc) (p : Port) (rq : Request) :
    (c.takeRequest p rq).lastServed = c.lastServed := by
  cases p <;> rfl

@[simp] theorem Cpc.answer_lastServed (c : Cpc) (p : Port) (rq : Request) (r : Reply) : (c.answer p rq r).lastServed = p := rfl

@[simp] theorem Cpc.port_answer (c : Cpc) (p : Port) (rq : Request) (r : Reply) :
    (c.answer p rq r).port p = { c.port p with phase := .replyReady (replyFrame rq.code rq.tag r) } := by
  cases p <;> rfl

theorem Cpc.port_answer_of_ne (c : Cpc) {p q : Port} (rq : Request) (r : Reply) (h : q ≠ p) :
    (c.answer p rq r).port q = c.port q := by
  cases p <;> cases q <;> first | rfl | exact absurd rfl h

/-! ### State.runTo -/

@[simp] theorem State.runTo_power (s : State) (tick : Nat) : (s.runTo tick).power = s.power := rfl

@[simp] theorem State.runTo_odu (s : State) (tick : Nat) : (s.runTo tick).odu = s.odu := rfl

@[simp] theorem State.runTo_slc (s : State) (tick : Nat) : (s.runTo tick).slc = s.slc := rfl

@[simp] theorem State.runTo_asu (s : State) (tick : Nat) : (s.runTo tick).asu = s.asu := rfl

@[simp] theorem State.runTo_gcu (s : State) (tick : Nat) : (s.runTo tick).gcu = s.gcu := rfl

@[simp] theorem State.runTo_pru (s : State) (tick : Nat) : (s.runTo tick).pru = s.pru := rfl

@[simp] theorem State.runTo_exu (s : State) (tick : Nat) : (s.runTo tick).exu = s.exu := rfl

@[simp] theorem State.runTo_mtu (s : State) (tick : Nat) : (s.runTo tick).mtu = s.mtu := rfl

@[simp] theorem State.runTo_rcu (s : State) (tick : Nat) : (s.runTo tick).rcu = s.rcu := rfl

@[simp] theorem State.runTo_rds (s : State) (tick : Nat) : (s.runTo tick).rds = s.rds := rfl

@[simp] theorem State.runTo_cpc (s : State) (tick : Nat) : (s.runTo tick).cpc = s.cpc := rfl

@[simp] theorem State.runTo_bus (s : State) (tick : Nat) : (s.runTo tick).bus = s.bus := rfl

@[simp] theorem State.runTo_pending (s : State) (tick : Nat) : (s.runTo tick).pending = s.pending := rfl

@[simp] theorem State.runTo_now (s : State) (tick : Nat) : (s.runTo tick).now = max s.now tick := rfl

/-! ### Hand-overs -/

@[simp] theorem Bus.handAsu_toOdu (b : Bus) (m : AsuMessage) : (b.handAsu m).toOdu = b.toOdu := rfl

@[simp] theorem Bus.handAsu_toPru (b : Bus) (m : AsuMessage) : (b.handAsu m).toPru = b.toPru := rfl

@[simp] theorem Bus.handAsu_toSlc (b : Bus) (m : AsuMessage) : (b.handAsu m).toSlc = b.toSlc := rfl

@[simp] theorem Bus.handAsu_toMtu (b : Bus) (m : AsuMessage) : (b.handAsu m).toMtu = b.toMtu := rfl

@[simp] theorem Bus.handAsu_toRcu (b : Bus) (m : AsuMessage) : (b.handAsu m).toRcu = b.toRcu := rfl

@[simp] theorem Bus.handAsu_toGcu (b : Bus) (m : AsuMessage) : (b.handAsu m).toGcu = b.toGcu := rfl

@[simp] theorem Bus.handAsu_toExu (b : Bus) (m : AsuMessage) : (b.handAsu m).toExu = b.toExu := rfl

@[simp] theorem Bus.handAsu_toRds (b : Bus) (m : AsuMessage) : (b.handAsu m).toRds = b.toRds := rfl

@[simp] theorem Bus.handAsu_chainageRequests (b : Bus) (m : AsuMessage) : (b.handAsu m).chainageRequests = b.chainageRequests := rfl

@[simp] theorem Bus.handAsu_markRequests (b : Bus) (m : AsuMessage) : (b.handAsu m).markRequests = b.markRequests := rfl

@[simp] theorem Bus.handAsu_chainageAnswers (b : Bus) (m : AsuMessage) : (b.handAsu m).chainageAnswers = b.chainageAnswers := rfl

@[simp] theorem Bus.handAsu_asuAnswers (b : Bus) (m : AsuMessage) : (b.handAsu m).asuAnswers = b.asuAnswers := rfl

@[simp] theorem Bus.handAsu_toAsu (b : Bus) (m : AsuMessage) : (b.handAsu m).toAsu = b.toAsu ++ [m] := rfl

@[simp] theorem Bus.handGcu_toOdu (b : Bus) (m : GcuMessage) : (b.handGcu m).toOdu = b.toOdu := rfl

@[simp] theorem Bus.handGcu_toPru (b : Bus) (m : GcuMessage) : (b.handGcu m).toPru = b.toPru := rfl

@[simp] theorem Bus.handGcu_toSlc (b : Bus) (m : GcuMessage) : (b.handGcu m).toSlc = b.toSlc := rfl

@[simp] theorem Bus.handGcu_toMtu (b : Bus) (m : GcuMessage) : (b.handGcu m).toMtu = b.toMtu := rfl

@[simp] theorem Bus.handGcu_toRcu (b : Bus) (m : GcuMessage) : (b.handGcu m).toRcu = b.toRcu := rfl

@[simp] theorem Bus.handGcu_toAsu (b : Bus) (m : GcuMessage) : (b.handGcu m).toAsu = b.toAsu := rfl

@[simp] theorem Bus.handGcu_toExu (b : Bus) (m : GcuMessage) : (b.handGcu m).toExu = b.toExu := rfl

@[simp] theorem Bus.handGcu_toRds (b : Bus) (m : GcuMessage) : (b.handGcu m).toRds = b.toRds := rfl

@[simp] theorem Bus.handGcu_chainageRequests (b : Bus) (m : GcuMessage) : (b.handGcu m).chainageRequests = b.chainageRequests := rfl

@[simp] theorem Bus.handGcu_markRequests (b : Bus) (m : GcuMessage) : (b.handGcu m).markRequests = b.markRequests := rfl

@[simp] theorem Bus.handGcu_chainageAnswers (b : Bus) (m : GcuMessage) : (b.handGcu m).chainageAnswers = b.chainageAnswers := rfl

@[simp] theorem Bus.handGcu_asuAnswers (b : Bus) (m : GcuMessage) : (b.handGcu m).asuAnswers = b.asuAnswers := rfl

@[simp] theorem Bus.handGcu_toGcu (b : Bus) (m : GcuMessage) : (b.handGcu m).toGcu = b.toGcu ++ [m] := rfl

@[simp] theorem Bus.handExu_toOdu (b : Bus) (m : List ExuMessage) : (b.handExu m).toOdu = b.toOdu := rfl

@[simp] theorem Bus.handExu_toPru (b : Bus) (m : List ExuMessage) : (b.handExu m).toPru = b.toPru := rfl

@[simp] theorem Bus.handExu_toSlc (b : Bus) (m : List ExuMessage) : (b.handExu m).toSlc = b.toSlc := rfl

@[simp] theorem Bus.handExu_toMtu (b : Bus) (m : List ExuMessage) : (b.handExu m).toMtu = b.toMtu := rfl

@[simp] theorem Bus.handExu_toRcu (b : Bus) (m : List ExuMessage) : (b.handExu m).toRcu = b.toRcu := rfl

@[simp] theorem Bus.handExu_toAsu (b : Bus) (m : List ExuMessage) : (b.handExu m).toAsu = b.toAsu := rfl

@[simp] theorem Bus.handExu_toGcu (b : Bus) (m : List ExuMessage) : (b.handExu m).toGcu = b.toGcu := rfl

@[simp] theorem Bus.handExu_toRds (b : Bus) (m : List ExuMessage) : (b.handExu m).toRds = b.toRds := rfl

@[simp] theorem Bus.handExu_chainageRequests (b : Bus) (m : List ExuMessage) : (b.handExu m).chainageRequests = b.chainageRequests := rfl

@[simp] theorem Bus.handExu_markRequests (b : Bus) (m : List ExuMessage) : (b.handExu m).markRequests = b.markRequests := rfl

@[simp] theorem Bus.handExu_chainageAnswers (b : Bus) (m : List ExuMessage) : (b.handExu m).chainageAnswers = b.chainageAnswers := rfl

@[simp] theorem Bus.handExu_asuAnswers (b : Bus) (m : List ExuMessage) : (b.handExu m).asuAnswers = b.asuAnswers := rfl

@[simp] theorem Bus.handExu_toExu (b : Bus) (m : List ExuMessage) : (b.handExu m).toExu = b.toExu ++ m := rfl

@[simp] theorem Bus.handRds_toOdu (b : Bus) (m : List RdsMessage) : (b.handRds m).toOdu = b.toOdu := rfl

@[simp] theorem Bus.handRds_toPru (b : Bus) (m : List RdsMessage) : (b.handRds m).toPru = b.toPru := rfl

@[simp] theorem Bus.handRds_toSlc (b : Bus) (m : List RdsMessage) : (b.handRds m).toSlc = b.toSlc := rfl

@[simp] theorem Bus.handRds_toMtu (b : Bus) (m : List RdsMessage) : (b.handRds m).toMtu = b.toMtu := rfl

@[simp] theorem Bus.handRds_toRcu (b : Bus) (m : List RdsMessage) : (b.handRds m).toRcu = b.toRcu := rfl

@[simp] theorem Bus.handRds_toAsu (b : Bus) (m : List RdsMessage) : (b.handRds m).toAsu = b.toAsu := rfl

@[simp] theorem Bus.handRds_toGcu (b : Bus) (m : List RdsMessage) : (b.handRds m).toGcu = b.toGcu := rfl

@[simp] theorem Bus.handRds_toExu (b : Bus) (m : List RdsMessage) : (b.handRds m).toExu = b.toExu := rfl

@[simp] theorem Bus.handRds_chainageRequests (b : Bus) (m : List RdsMessage) : (b.handRds m).chainageRequests = b.chainageRequests := rfl

@[simp] theorem Bus.handRds_markRequests (b : Bus) (m : List RdsMessage) : (b.handRds m).markRequests = b.markRequests := rfl

@[simp] theorem Bus.handRds_chainageAnswers (b : Bus) (m : List RdsMessage) : (b.handRds m).chainageAnswers = b.chainageAnswers := rfl

@[simp] theorem Bus.handRds_asuAnswers (b : Bus) (m : List RdsMessage) : (b.handRds m).asuAnswers = b.asuAnswers := rfl

@[simp] theorem Bus.handRds_toRds (b : Bus) (m : List RdsMessage) : (b.handRds m).toRds = b.toRds ++ m := rfl

@[simp] theorem Bus.answerMtu_toOdu (b : Bus) (m : List AsuAnswer) : (b.answerMtu m).toOdu = b.toOdu := rfl

@[simp] theorem Bus.answerMtu_toPru (b : Bus) (m : List AsuAnswer) : (b.answerMtu m).toPru = b.toPru := rfl

@[simp] theorem Bus.answerMtu_toSlc (b : Bus) (m : List AsuAnswer) : (b.answerMtu m).toSlc = b.toSlc := rfl

@[simp] theorem Bus.answerMtu_toMtu (b : Bus) (m : List AsuAnswer) : (b.answerMtu m).toMtu = b.toMtu := rfl

@[simp] theorem Bus.answerMtu_toRcu (b : Bus) (m : List AsuAnswer) : (b.answerMtu m).toRcu = b.toRcu := rfl

@[simp] theorem Bus.answerMtu_toAsu (b : Bus) (m : List AsuAnswer) : (b.answerMtu m).toAsu = b.toAsu := rfl

@[simp] theorem Bus.answerMtu_toGcu (b : Bus) (m : List AsuAnswer) : (b.answerMtu m).toGcu = b.toGcu := rfl

@[simp] theorem Bus.answerMtu_toExu (b : Bus) (m : List AsuAnswer) : (b.answerMtu m).toExu = b.toExu := rfl

@[simp] theorem Bus.answerMtu_toRds (b : Bus) (m : List AsuAnswer) : (b.answerMtu m).toRds = b.toRds := rfl

@[simp] theorem Bus.answerMtu_chainageRequests (b : Bus) (m : List AsuAnswer) : (b.answerMtu m).chainageRequests = b.chainageRequests := rfl

@[simp] theorem Bus.answerMtu_markRequests (b : Bus) (m : List AsuAnswer) : (b.answerMtu m).markRequests = b.markRequests := rfl

@[simp] theorem Bus.answerMtu_chainageAnswers (b : Bus) (m : List AsuAnswer) : (b.answerMtu m).chainageAnswers = b.chainageAnswers := rfl

@[simp] theorem Bus.answerMtu_asuAnswers (b : Bus) (m : List AsuAnswer) : (b.answerMtu m).asuAnswers = b.asuAnswers ++ m := rfl

@[simp] theorem Bus.report_toOdu (b : Bus) (m : RcuMessage) : (b.report m).toOdu = b.toOdu := rfl

@[simp] theorem Bus.report_toPru (b : Bus) (m : RcuMessage) : (b.report m).toPru = b.toPru := rfl

@[simp] theorem Bus.report_toSlc (b : Bus) (m : RcuMessage) : (b.report m).toSlc = b.toSlc := rfl

@[simp] theorem Bus.report_toMtu (b : Bus) (m : RcuMessage) : (b.report m).toMtu = b.toMtu := rfl

@[simp] theorem Bus.report_toAsu (b : Bus) (m : RcuMessage) : (b.report m).toAsu = b.toAsu := rfl

@[simp] theorem Bus.report_toGcu (b : Bus) (m : RcuMessage) : (b.report m).toGcu = b.toGcu := rfl

@[simp] theorem Bus.report_toExu (b : Bus) (m : RcuMessage) : (b.report m).toExu = b.toExu := rfl

@[simp] theorem Bus.report_toRds (b : Bus) (m : RcuMessage) : (b.report m).toRds = b.toRds := rfl

@[simp] theorem Bus.report_chainageRequests (b : Bus) (m : RcuMessage) : (b.report m).chainageRequests = b.chainageRequests := rfl

@[simp] theorem Bus.report_markRequests (b : Bus) (m : RcuMessage) : (b.report m).markRequests = b.markRequests := rfl

@[simp] theorem Bus.report_chainageAnswers (b : Bus) (m : RcuMessage) : (b.report m).chainageAnswers = b.chainageAnswers := rfl

@[simp] theorem Bus.report_asuAnswers (b : Bus) (m : RcuMessage) : (b.report m).asuAnswers = b.asuAnswers := rfl

@[simp] theorem Bus.report_toRcu (b : Bus) (m : RcuMessage) : (b.report m).toRcu = b.toRcu ++ [m] := rfl

@[simp] theorem Bus.handEvent_toOdu (b : Bus) (e : SampleEvent) : (b.handEvent e).toOdu = b.toOdu := rfl

@[simp] theorem Bus.handEvent_toAsu (b : Bus) (e : SampleEvent) : (b.handEvent e).toAsu = b.toAsu := rfl

@[simp] theorem Bus.handEvent_toGcu (b : Bus) (e : SampleEvent) : (b.handEvent e).toGcu = b.toGcu := rfl

@[simp] theorem Bus.handEvent_toExu (b : Bus) (e : SampleEvent) : (b.handEvent e).toExu = b.toExu := rfl

@[simp] theorem Bus.handEvent_toRds (b : Bus) (e : SampleEvent) : (b.handEvent e).toRds = b.toRds := rfl

@[simp] theorem Bus.handEvent_chainageRequests (b : Bus) (e : SampleEvent) : (b.handEvent e).chainageRequests = b.chainageRequests := rfl

@[simp] theorem Bus.handEvent_markRequests (b : Bus) (e : SampleEvent) : (b.handEvent e).markRequests = b.markRequests := rfl

@[simp] theorem Bus.handEvent_chainageAnswers (b : Bus) (e : SampleEvent) : (b.handEvent e).chainageAnswers = b.chainageAnswers := rfl

@[simp] theorem Bus.handEvent_asuAnswers (b : Bus) (e : SampleEvent) : (b.handEvent e).asuAnswers = b.asuAnswers := rfl

@[simp] theorem Bus.handEvent_toPru (b : Bus) (e : SampleEvent) : (b.handEvent e).toPru = b.toPru ++ [.event e] := rfl

@[simp] theorem Bus.handEvent_toSlc (b : Bus) (e : SampleEvent) : (b.handEvent e).toSlc = b.toSlc ++ [.event e] := rfl

@[simp] theorem Bus.handEvent_toMtu (b : Bus) (e : SampleEvent) : (b.handEvent e).toMtu = b.toMtu ++ [.event e] := rfl

@[simp] theorem Bus.handEvent_toRcu (b : Bus) (e : SampleEvent) : (b.handEvent e).toRcu = b.toRcu ++ [.event e] := rfl

@[simp] theorem Bus.setToSlc_toOdu (b : Bus) (q : List Message) : (b.setToSlc q).toOdu = b.toOdu := rfl

@[simp] theorem Bus.setToSlc_toPru (b : Bus) (q : List Message) : (b.setToSlc q).toPru = b.toPru := rfl

@[simp] theorem Bus.setToSlc_toMtu (b : Bus) (q : List Message) : (b.setToSlc q).toMtu = b.toMtu := rfl

@[simp] theorem Bus.setToSlc_toRcu (b : Bus) (q : List Message) : (b.setToSlc q).toRcu = b.toRcu := rfl

@[simp] theorem Bus.setToSlc_toGcu (b : Bus) (q : List Message) : (b.setToSlc q).toGcu = b.toGcu := rfl

@[simp] theorem Bus.setToSlc_toExu (b : Bus) (q : List Message) : (b.setToSlc q).toExu = b.toExu := rfl

@[simp] theorem Bus.setToSlc_toRds (b : Bus) (q : List Message) : (b.setToSlc q).toRds = b.toRds := rfl

@[simp] theorem Bus.setToSlc_chainageRequests (b : Bus) (q : List Message) : (b.setToSlc q).chainageRequests = b.chainageRequests := rfl

@[simp] theorem Bus.setToSlc_markRequests (b : Bus) (q : List Message) : (b.setToSlc q).markRequests = b.markRequests := rfl

@[simp] theorem Bus.setToSlc_chainageAnswers (b : Bus) (q : List Message) : (b.setToSlc q).chainageAnswers = b.chainageAnswers := rfl

@[simp] theorem Bus.setToSlc_asuAnswers (b : Bus) (q : List Message) : (b.setToSlc q).asuAnswers = b.asuAnswers := rfl

@[simp] theorem Bus.setToSlc_toSlc (b : Bus) (q : List Message) : (b.setToSlc q).toSlc = (passReversals q).2 := rfl

@[simp] theorem Bus.setToSlc_toAsu (b : Bus) (q : List Message) : (b.setToSlc q).toAsu = b.toAsu ++ List.replicate (passReversals q).1 AsuMessage.reversal := rfl

@[simp] theorem Bus.handReversal_toOdu (b : Bus) : (b.handReversal).toOdu = b.toOdu := rfl

@[simp] theorem Bus.handReversal_toMtu (b : Bus) : (b.handReversal).toMtu = b.toMtu := rfl

@[simp] theorem Bus.handReversal_toRcu (b : Bus) : (b.handReversal).toRcu = b.toRcu := rfl

@[simp] theorem Bus.handReversal_toGcu (b : Bus) : (b.handReversal).toGcu = b.toGcu := rfl

@[simp] theorem Bus.handReversal_toExu (b : Bus) : (b.handReversal).toExu = b.toExu := rfl

@[simp] theorem Bus.handReversal_toRds (b : Bus) : (b.handReversal).toRds = b.toRds := rfl

@[simp] theorem Bus.handReversal_chainageRequests (b : Bus) : (b.handReversal).chainageRequests = b.chainageRequests := rfl

@[simp] theorem Bus.handReversal_markRequests (b : Bus) : (b.handReversal).markRequests = b.markRequests := rfl

@[simp] theorem Bus.handReversal_chainageAnswers (b : Bus) : (b.handReversal).chainageAnswers = b.chainageAnswers := rfl

@[simp] theorem Bus.handReversal_asuAnswers (b : Bus) : (b.handReversal).asuAnswers = b.asuAnswers := rfl

@[simp] theorem Bus.handReversal_toPru (b : Bus) : (b.handReversal).toPru = b.toPru ++ [.reversal] := rfl

@[simp] theorem Bus.handReversal_toSlc (b : Bus) : (b.handReversal).toSlc = (passReversals (b.toSlc ++ [.reversal])).2 := rfl

@[simp] theorem Bus.handReversal_toAsu (b : Bus) : (b.handReversal).toAsu = b.toAsu ++ List.replicate (passReversals (b.toSlc ++ [.reversal])).1 AsuMessage.reversal := rfl

@[simp] theorem Bus.handStart_toAsu (b : Bus) (i : StartInfo) : (b.handStart i).toAsu = b.toAsu := rfl

@[simp] theorem Bus.handStart_toGcu (b : Bus) (i : StartInfo) : (b.handStart i).toGcu = b.toGcu := rfl

@[simp] theorem Bus.handStart_toExu (b : Bus) (i : StartInfo) : (b.handStart i).toExu = b.toExu := rfl

@[simp] theorem Bus.handStart_toRds (b : Bus) (i : StartInfo) : (b.handStart i).toRds = b.toRds := rfl

@[simp] theorem Bus.handStart_chainageRequests (b : Bus) (i : StartInfo) : (b.handStart i).chainageRequests = b.chainageRequests := rfl

@[simp] theorem Bus.handStart_markRequests (b : Bus) (i : StartInfo) : (b.handStart i).markRequests = b.markRequests := rfl

@[simp] theorem Bus.handStart_chainageAnswers (b : Bus) (i : StartInfo) : (b.handStart i).chainageAnswers = b.chainageAnswers := rfl

@[simp] theorem Bus.handStart_asuAnswers (b : Bus) (i : StartInfo) : (b.handStart i).asuAnswers = b.asuAnswers := rfl

@[simp] theorem Bus.handStart_toOdu (b : Bus) (i : StartInfo) : (b.handStart i).toOdu = [] := rfl

@[simp] theorem Bus.handStart_toRcu (b : Bus) (i : StartInfo) : (b.handStart i).toRcu = [] := rfl

@[simp] theorem Bus.handStart_toPru (b : Bus) (i : StartInfo) : (b.handStart i).toPru = b.toPru ++ [.start i] := rfl

@[simp] theorem Bus.handStart_toSlc (b : Bus) (i : StartInfo) : (b.handStart i).toSlc = b.toSlc ++ [.start i] := rfl

@[simp] theorem Bus.handStart_toMtu (b : Bus) (i : StartInfo) : (b.handStart i).toMtu = b.toMtu ++ [.start i] := rfl

@[simp] theorem Bus.handStop_toRcu (b : Bus) : (b.handStop).toRcu = b.toRcu := rfl

@[simp] theorem Bus.handStop_toAsu (b : Bus) : (b.handStop).toAsu = b.toAsu := rfl

@[simp] theorem Bus.handStop_toGcu (b : Bus) : (b.handStop).toGcu = b.toGcu := rfl

@[simp] theorem Bus.handStop_toExu (b : Bus) : (b.handStop).toExu = b.toExu := rfl

@[simp] theorem Bus.handStop_toRds (b : Bus) : (b.handStop).toRds = b.toRds := rfl

@[simp] theorem Bus.handStop_chainageRequests (b : Bus) : (b.handStop).chainageRequests = b.chainageRequests := rfl

@[simp] theorem Bus.handStop_markRequests (b : Bus) : (b.handStop).markRequests = b.markRequests := rfl

@[simp] theorem Bus.handStop_chainageAnswers (b : Bus) : (b.handStop).chainageAnswers = b.chainageAnswers := rfl

@[simp] theorem Bus.handStop_asuAnswers (b : Bus) : (b.handStop).asuAnswers = b.asuAnswers := rfl

@[simp] theorem Bus.handStop_toOdu (b : Bus) : (b.handStop).toOdu = b.toOdu ++ [.stop] := rfl

@[simp] theorem Bus.handStop_toPru (b : Bus) : (b.handStop).toPru = b.toPru ++ [.stop] := rfl

@[simp] theorem Bus.handStop_toSlc (b : Bus) : (b.handStop).toSlc = b.toSlc ++ [.stop] := rfl

@[simp] theorem Bus.handStop_toMtu (b : Bus) : (b.handStop).toMtu = b.toMtu ++ [.stop] := rfl

@[simp] theorem Bus.handSuspend_toOdu (b : Bus) : (b.handSuspend).toOdu = b.toOdu := rfl

@[simp] theorem Bus.handSuspend_toRcu (b : Bus) : (b.handSuspend).toRcu = b.toRcu := rfl

@[simp] theorem Bus.handSuspend_toAsu (b : Bus) : (b.handSuspend).toAsu = b.toAsu := rfl

@[simp] theorem Bus.handSuspend_toGcu (b : Bus) : (b.handSuspend).toGcu = b.toGcu := rfl

@[simp] theorem Bus.handSuspend_toExu (b : Bus) : (b.handSuspend).toExu = b.toExu := rfl

@[simp] theorem Bus.handSuspend_toRds (b : Bus) : (b.handSuspend).toRds = b.toRds := rfl

@[simp] theorem Bus.handSuspend_chainageRequests (b : Bus) : (b.handSuspend).chainageRequests = b.chainageRequests := rfl

@[simp] theorem Bus.handSuspend_markRequests (b : Bus) : (b.handSuspend).markRequests = b.markRequests := rfl

@[simp] theorem Bus.handSuspend_chainageAnswers (b : Bus) : (b.handSuspend).chainageAnswers = b.chainageAnswers := rfl

@[simp] theorem Bus.handSuspend_asuAnswers (b : Bus) : (b.handSuspend).asuAnswers = b.asuAnswers := rfl

@[simp] theorem Bus.handSuspend_toPru (b : Bus) : (b.handSuspend).toPru = b.toPru ++ [.suspend] := rfl

@[simp] theorem Bus.handSuspend_toSlc (b : Bus) : (b.handSuspend).toSlc = b.toSlc ++ [.suspend] := rfl

@[simp] theorem Bus.handSuspend_toMtu (b : Bus) : (b.handSuspend).toMtu = b.toMtu ++ [.suspend] := rfl

@[simp] theorem Bus.handResume_toSlc (b : Bus) : (b.handResume).toSlc = b.toSlc := rfl

@[simp] theorem Bus.handResume_toRcu (b : Bus) : (b.handResume).toRcu = b.toRcu := rfl

@[simp] theorem Bus.handResume_toAsu (b : Bus) : (b.handResume).toAsu = b.toAsu := rfl

@[simp] theorem Bus.handResume_toGcu (b : Bus) : (b.handResume).toGcu = b.toGcu := rfl

@[simp] theorem Bus.handResume_toExu (b : Bus) : (b.handResume).toExu = b.toExu := rfl

@[simp] theorem Bus.handResume_toRds (b : Bus) : (b.handResume).toRds = b.toRds := rfl

@[simp] theorem Bus.handResume_chainageRequests (b : Bus) : (b.handResume).chainageRequests = b.chainageRequests := rfl

@[simp] theorem Bus.handResume_markRequests (b : Bus) : (b.handResume).markRequests = b.markRequests := rfl

@[simp] theorem Bus.handResume_chainageAnswers (b : Bus) : (b.handResume).chainageAnswers = b.chainageAnswers := rfl

@[simp] theorem Bus.handResume_asuAnswers (b : Bus) : (b.handResume).asuAnswers = b.asuAnswers := rfl

@[simp] theorem Bus.handResume_toOdu (b : Bus) : (b.handResume).toOdu = b.toOdu ++ [.resume] := rfl

@[simp] theorem Bus.handResume_toPru (b : Bus) : (b.handResume).toPru = b.toPru ++ [.resume] := rfl

@[simp] theorem Bus.handResume_toMtu (b : Bus) : (b.handResume).toMtu = b.toMtu ++ [.resume] := rfl

end Sys2Proof.Machine
end

