-- ==== Sys2Proof/Laws/Ops.lean ====
section
/-! SUPPORT. What the shared operations can do, said once: numbers, tables, fields of a frame, hand-overs, services, stores. The
provers cite these and unfold none of the operations. -/

namespace Sys2Proof.Machine

/-! ### Numbers -/

theorem clamp_eq (lo hi x : Int) (h : lo ≤ hi) : clamp lo hi x = max lo (min hi x) := by
  unfold clamp; split <;> try split
  all_goals omega

theorem satS32_eq (x : Int) : satS32 x = max (-2147483648) (min 2147483647 x) := clamp_eq _ _ _ (by decide)

theorem inS32_iff (x : Int) : inS32 x = true ↔ -2147483648 ≤ x ∧ x ≤ 2147483647 := by simp [inS32]

theorem satS32_of_inS32 {x : Int} (h : inS32 x = true) : satS32 x = x := by
  rw [inS32_iff] at h; rw [satS32_eq]; omega

@[simp] theorem inS32_satS32 (x : Int) : inS32 (satS32 x) = true := by
  rw [inS32_iff, satS32_eq]; omega

@[simp] theorem satS32_satS32 (x : Int) : satS32 (satS32 x) = satS32 x := satS32_of_inS32 (inS32_satS32 x)

theorem satSucc_eq (n : Nat) : satSucc n = min 65535 (n + 1) := by unfold satSucc countBound; split <;> omega

theorem toPosition_of_range {x : Int} (h : -9223372036854775808 ≤ x) (h' : x ≤ 9223372036854775807) : toPosition x = x := by
  simp [toPosition, h, h']

/-- A quotient by a positive number is the nearest integer, and at a half the one farther from zero. -/
theorem roundAway_spec (num : Int) {den : Nat} (h : 0 < den) :
    2 * (roundAway num den * den - num).natAbs ≤ den ∧
    (2 * (roundAway num den * den - num).natAbs = den → num.natAbs ≤ (roundAway num den * den).natAbs) := by
  have hd : (0 : Int) < 2 * den := by omega
  unfold roundAway
  rw [if_neg (by omega : ¬den = 0)]
  split
  · next hn =>
    generalize hq : (2 * num + den) / (2 * (den : Int)) = q
    have h1 := Int.emod_add_mul_ediv (2 * num + den) (2 * (den : Int))
    have h2 := Int.emod_nonneg (2 * num + den) (by omega : (2 * (den : Int)) ≠ 0)
    have h3 := Int.emod_lt_of_pos (2 * num + den) hd
    rw [hq] at h1
    have h4 : 2 * (den : Int) * q = 2 * (q * den) := by ring
    have h5 : 0 ≤ q := by rw [← hq]; exact Int.ediv_nonneg (by omega) (by omega)
    have h6 : 0 ≤ q * den := by positivity
    rw [h4] at h1
    generalize q * (den : Int) = m at *
    omega
  · next hn =>
    generalize hq : (2 * -num + den) / (2 * (den : Int)) = q
    have h1 := Int.emod_add_mul_ediv (2 * -num + den) (2 * (den : Int))
    have h2 := Int.emod_nonneg (2 * -num + den) (by omega : (2 * (den : Int)) ≠ 0)
    have h3 := Int.emod_lt_of_pos (2 * -num + den) hd
    rw [hq] at h1
    have h4 : 2 * (den : Int) * q = 2 * (q * den) := by ring
    have h5 : 0 ≤ q := by rw [← hq]; exact Int.ediv_nonneg (by omega) (by omega)
    have h6 : 0 ≤ q * den := by positivity
    have h7 : -q * (den : Int) = -(q * den) := by ring
    rw [h4] at h1
    rw [h7]
    generalize q * (den : Int) = m at *
    omega

/-- The nearest integer with halves away from zero is one number. -/
theorem roundAway_unique {num q : Int} {den : Nat} (h : 0 < den) (h1 : 2 * (q * den - num).natAbs ≤ den)
    (h2 : 2 * (q * den - num).natAbs = den → num.natAbs ≤ (q * den).natAbs) : q = roundAway num den := by
  obtain ⟨a, b⟩ := roundAway_spec num h
  have key : ∀ x y : Int, x < y → 2 * (x * den - num).natAbs ≤ den → 2 * (y * den - num).natAbs ≤ den →
      (2 * (x * den - num).natAbs = den → num.natAbs ≤ (x * den).natAbs) →
      (2 * (y * den - num).natAbs = den → num.natAbs ≤ (y * den).natAbs) → False := by
    intro x y hxy hx1 hy1 hx2 hy2
    have h1 : x * den + den ≤ y * den := by nlinarith
    have h2 : 0 ≤ x → 0 ≤ x * den := fun hx => by positivity
    have h3 : x ≤ -1 → x * den ≤ -den := fun hx => by nlinarith
    have h4 : 1 ≤ y → den ≤ y * den := fun hy => by nlinarith
    have h5 : y ≤ 0 → y * den ≤ 0 := fun hy => by nlinarith
    generalize x * (den : Int) = m at *
    generalize y * (den : Int) = n at *
    rcases le_or_gt 0 x with hx | hx <;> rcases le_or_gt y 0 with hy | hy <;> omega
  generalize roundAway num den = r at *
  rcases lt_trichotomy q r with hlt | heq | hlt
  · exact (key _ _ hlt h1 a h2 b).elim
  · exact heq
  · exact (key _ _ hlt a h1 b h2).elim

theorem roundUp_toNat (num den : Nat) (h : den ≠ 0) : (roundUp num den).toNat = (2 * num + den) / (2 * den) := by
  have hc : (2 * (num : Int) + den) / (2 * den) = ((2 * num + den) / (2 * den) : Nat) := by push_cast; rfl
  rw [roundUp, if_neg h, hc, Int.toNat_natCast]

@[simp] theorem Direction.flip_flip (d : Direction) : d.flip.flip = d := by cases d <;> rfl

theorem Direction.sign_flip (d : Direction) : d.flip.sign = -d.sign := by cases d <;> rfl

theorem Direction.sign_eq (d : Direction) : d.sign = 1 ∨ d.sign = -1 := by cases d <;> simp [Direction.sign]

theorem Orientation.sign_eq (o : Orientation) : o.sign = 1 ∨ o.sign = -1 := by cases o <;> simp [Orientation.sign]

@[simp] theorem encoderOther_ne (e : Encoder) : encoderOther e ≠ e := by cases e <;> decide

@[simp] theorem encoderOther_other (e : Encoder) : encoderOther (encoderOther e) = e := by cases e <;> rfl

/-! ### Tables -/

/-- What stands at each place after a put, in any list. -/
theorem Table.get?_put {α : Type} (t : Table α) (k i : Nat) (a : α) : (t.put k a).get? i = if i = k then some a else t.get? i := by
  induction t with
  | nil => simp [Table.put, Table.get?, eq_comm]
  | cons e rest ih =>
    obtain ⟨j, b⟩ := e
    unfold Table.put
    split_ifs with h1 h2 h3 h3 h3 <;> simp only [Table.get?, ih] <;> split_ifs <;> first | rfl | omega

/-- Every place of a well-formed table is above the first one. -/
theorem Table.wf_cons {α : Type} {i : Nat} {a : α} {t : Table α} :
    Table.wf ((i, a) :: t) = true ↔ (∀ e ∈ t, i < e.1) ∧ t.wf = true := by
  induction t generalizing i a with
  | nil => simp [Table.wf]
  | cons e rest ih =>
    obtain ⟨j, b⟩ := e
    simp only [Table.wf, Bool.and_eq_true, decide_eq_true_eq, List.mem_cons, forall_eq_or_imp]
    constructor
    · rintro ⟨h, h'⟩
      exact ⟨⟨h, fun e he => lt_trans h ((ih.1 h').1 e he)⟩, h'⟩
    · rintro ⟨⟨h, _⟩, h'⟩
      exact ⟨h, h'⟩

theorem Table.get?_eq_none_of_lt {α : Type} {t : Table α} {k : Nat} (h : ∀ e ∈ t, k < e.1) : t.get? k = none := by
  induction t with
  | nil => rfl
  | cons e rest ih =>
    obtain ⟨j, b⟩ := e
    have h1 : k < j := h (j, b) (by simp)
    simp only [Table.get?, if_neg (by omega : ¬j = k)]
    exact ih (fun e he => h e (by simp [he]))

theorem Table.mem_put {α : Type} {t : Table α} {k : Nat} {a : α} {e : Nat × α} (h : e ∈ t.put k a) : e = (k, a) ∨ e ∈ t := by
  induction t with
  | nil => simpa [Table.put] using h
  | cons f rest ih =>
    obtain ⟨j, b⟩ := f
    unfold Table.put at h
    split_ifs at h with h1 h2
    · simpa using h
    · rcases List.mem_cons.1 h with h | h <;> simp [h]
    · rcases List.mem_cons.1 h with h | h
      · simp [h]
      · rcases ih h with h | h <;> simp [h]

/-- A put keeps the canonical form. -/
theorem Table.wf_put {α : Type} {t : Table α} (h : t.wf = true) (k : Nat) (a : α) : (t.put k a).wf = true := by
  induction t with
  | nil => rfl
  | cons e rest ih =>
    obtain ⟨j, b⟩ := e
    obtain ⟨hlt, hwf⟩ := wf_cons.1 h
    unfold Table.put
    split_ifs with h1 h2
    · refine wf_cons.2 ⟨?_, h⟩
      intro e he
      rcases List.mem_cons.1 he with he | he
      · simpa [he] using h1
      · exact lt_trans h1 (hlt e he)
    · subst h2; exact wf_cons.2 ⟨hlt, hwf⟩
    · refine wf_cons.2 ⟨?_, ih hwf⟩
      intro e he
      rcases mem_put he with he | he
      · subst he; show j < k; omega
      · exact hlt e he

theorem Table.mem_drop {α : Type} {t : Table α} {k : Nat} {e : Nat × α} (h : e ∈ Table.drop t k) : e ∈ t := by
  induction t with
  | nil => simp [Table.drop] at h
  | cons f rest ih =>
    obtain ⟨j, b⟩ := f
    unfold Table.drop at h
    split_ifs at h with h1
    · simp [h]
    · rcases List.mem_cons.1 h with h | h
      · simp [h]
      · simp [ih h]

/-- What stands at each place after a place has been emptied. -/
theorem Table.get?_drop {α : Type} {t : Table α} (h : t.wf = true) (k i : Nat) :
    (Table.drop t k).get? i = if i = k then none else t.get? i := by
  induction t with
  | nil => simp [Table.drop, Table.get?]
  | cons e rest ih =>
    obtain ⟨j, b⟩ := e
    obtain ⟨hlt, hwf⟩ := wf_cons.1 h
    unfold Table.drop
    by_cases hjk : j = k
    · subst hjk
      rw [if_pos rfl]
      by_cases hi : i = j
      · subst hi; rw [if_pos rfl]; exact get?_eq_none_of_lt hlt
      · rw [if_neg hi]; simp only [Table.get?, if_neg (fun h => hi h.symm : ¬j = i)]
    · rw [if_neg hjk]
      simp only [Table.get?, ih hwf]
      by_cases hji : j = i
      · subst hji; simp [hjk]
      · rw [if_neg hji, if_neg hji]

/-- Emptying a place keeps the canonical form. -/
theorem Table.wf_drop {α : Type} {t : Table α} (h : t.wf = true) (k : Nat) : (Table.drop t k).wf = true := by
  induction t with
  | nil => rfl
  | cons e rest ih =>
    obtain ⟨j, b⟩ := e
    obtain ⟨hlt, hwf⟩ := wf_cons.1 h
    unfold Table.drop
    split_ifs with h1
    · exact hwf
    · exact wf_cons.2 ⟨fun e he => hlt e (mem_drop he), ih hwf⟩

theorem Table.mem_of_get? {α : Type} {t : Table α} {k : Nat} {a : α} (h : t.get? k = some a) : (k, a) ∈ t := by
  induction t with
  | nil => simp [Table.get?] at h
  | cons e rest ih =>
    obtain ⟨j, b⟩ := e
    unfold Table.get? at h
    split_ifs at h with h1
    · simp_all
    · simp [ih h]

theorem Table.get?_of_mem {α : Type} {t : Table α} (h : t.wf = true) {k : Nat} {a : α} (hm : (k, a) ∈ t) : t.get? k = some a := by
  induction t with
  | nil => simp at hm
  | cons e rest ih =>
    obtain ⟨j, b⟩ := e
    obtain ⟨hlt, hwf⟩ := wf_cons.1 h
    rcases List.mem_cons.1 hm with hm | hm
    · simp only [Prod.mk.injEq] at hm; simp [Table.get?, hm]
    · have := hlt _ hm
      simp only [Table.get?, if_neg (by simp only at this; omega : ¬j = k)]
      exact ih hwf hm

theorem placeOf_cast (j : Int) {size : Nat} (h : 0 < size) : (placeOf j size : Int) = j % size := by
  unfold placeOf; rw [Int.toNat_of_nonneg (Int.emod_nonneg _ (by omega))]

theorem placeOf_eq_iff (i j : Int) {size : Nat} (h : 0 < size) : placeOf i size = placeOf j size ↔ (i - j) % size = 0 := by
  rw [← Int.natCast_inj, placeOf_cast i h, placeOf_cast j h]
  exact Int.emod_eq_emod_iff_emod_sub_eq_zero

/-! ### Hand-overs -/

/-- STOP is taken from behind the sample events that wait before it. -/
theorem takeStop_events (es : List SampleEvent) (rest : List Message) :
    takeStop (es.map Message.event ++ .stop :: rest) = some (es.map Message.event ++ rest) := by
  induction es with
  | nil => rfl
  | cons e es ih => simp [takeStop, ih]

/-- A list from which STOP can be taken holds nothing but sample events before it. -/
theorem takeStop_eq_some {q r : List Message} (h : takeStop q = some r) :
    ∃ (es : List SampleEvent) (rest : List Message),
      q = es.map Message.event ++ .stop :: rest ∧ r = es.map Message.event ++ rest := by
  induction q generalizing r with
  | nil => simp [takeStop] at h
  | cons m q ih =>
    cases m <;> simp only [takeStop, Option.map_eq_some_iff, reduceCtorEq, Option.some.injEq] at h
    · obtain ⟨r', h1, h2⟩ := h
      obtain ⟨es, rest, h3, h4⟩ := ih h1
      subst h3 h4 h2
      exact ⟨_ :: es, rest, rfl, rfl⟩
    · exact ⟨[], q, rfl, by simp [h]⟩

theorem takeAsuStop_deliveries (ds : List Delivery) (rest : List AsuMessage) :
    takeAsuStop (ds.map AsuMessage.delivery ++ .stop :: rest) = some (ds.map AsuMessage.delivery ++ rest) := by
  induction ds with
  | nil => rfl
  | cons d ds ih => simp [takeAsuStop, ih]

theorem takeAsuStop_eq_some {q r : List AsuMessage} (h : takeAsuStop q = some r) :
    ∃ (ds : List Delivery) (rest : List AsuMessage),
      q = ds.map AsuMessage.delivery ++ .stop :: rest ∧ r = ds.map AsuMessage.delivery ++ rest := by
  induction q generalizing r with
  | nil => simp [takeAsuStop] at h
  | cons m q ih =>
    cases m <;> simp only [takeAsuStop, Option.map_eq_some_iff, reduceCtorEq, Option.some.injEq] at h
    · obtain ⟨r', h1, h2⟩ := h
      obtain ⟨ds, rest, h3, h4⟩ := ih h1
      subst h3 h4 h2
      exact ⟨_ :: ds, rest, rfl, rfl⟩
    · exact ⟨[], q, rfl, by simp [h]⟩

/-- The reversal notices at the front of a list are passed on, and the rest stands as it stood. -/
theorem passReversals_spec (q : List Message) :
    q = List.replicate (passReversals q).1 Message.reversal ++ (passReversals q).2 ∧
    (passReversals q).2.head? ≠ some Message.reversal := by
  induction q with
  | nil => simp [passReversals]
  | cons m q ih =>
    cases m <;> simp only [passReversals, List.replicate_zero, List.nil_append, List.head?_cons, ne_eq,
      Option.some.injEq, reduceCtorEq, not_false_eq_true, and_self]
    exact ⟨by simpa [List.replicate_succ] using ih.1, ih.2⟩

theorem passReversals_of_head {q : List Message} (h : q.head? ≠ some Message.reversal) : passReversals q = (0, q) := by
  cases q with
  | nil => rfl
  | cons m q => cases m <;> first | rfl | simp at h

/-! ### The arbiter -/

/-- A service does nothing unless its request is the one the arbiter serves next; then it is the handler's effect and its
reply at that port. -/
theorem State.serve_eq (s : State) (v : Service) (f : Port → Request → State → State × Reply) :
    (∃ p rq, s.cpc.nextService = some (p, rq) ∧ serviceOf rq = v ∧
      s.serve v f = { (f p rq s).1 with cpc := (f p rq s).1.cpc.answer p rq (f p rq s).2 }) ∨
    ((∀ p rq, s.cpc.nextService = some (p, rq) → serviceOf rq ≠ v) ∧ s.serve v f = s) := by
  unfold State.serve
  split
  · next p rq h =>
    split
    · next hv => exact .inl ⟨p, rq, h, hv, rfl⟩
    · next hv => exact .inr ⟨fun p' rq' h' => by rw [h] at h'; simp only [Option.some.injEq, Prod.mk.injEq] at h'; rw [← h'.2]; exact hv, rfl⟩
  · next h => exact .inr ⟨fun p' rq' h' => (by rw [h] at h'; cases h'), rfl⟩

theorem State.serve_of {s : State} {p : Port} {rq : Request} {v : Service} (f : Port → Request → State → State × Reply)
    (h : s.cpc.nextService = some (p, rq)) (hv : serviceOf rq = v) :
    s.serve v f = { (f p rq s).1 with cpc := (f p rq s).1.cpc.answer p rq (f p rq s).2 } := by
  simp [State.serve, h, hv]

theorem PortState.request_eq_some {x : PortState} {rq : Request} : x.request = some rq ↔ x.phase = .serving rq := by
  unfold PortState.request; split <;> simp_all

/-- The service in progress is that of a port that waits (R187). -/
theorem Cpc.inProgress_eq_some {c : Cpc} {p : Port} {rq : Request} :
    c.inProgress = some (p, rq) ↔ c.inService = some p ∧ (c.port p).phase = .serving rq := by
  unfold Cpc.inProgress
  split
  · next q h =>
    simp only [Option.map_eq_some_iff, Prod.mk.injEq, h, Option.some.injEq]
    constructor
    · rintro ⟨r, h1, rfl, rfl⟩; exact ⟨rfl, PortState.request_eq_some.1 h1⟩
    · rintro ⟨rfl, h1⟩; exact ⟨rq, PortState.request_eq_some.2 h1, rfl, rfl⟩
  · next h => simp [h]

/-- The first waiting port waits. -/
theorem Cpc.firstWaiting_serving {c : Cpc} {p : Port} {rq : Request} (h : c.firstWaiting = some (p, rq)) :
    (c.port p).phase = .serving rq := by
  unfold Cpc.firstWaiting at h
  obtain ⟨q, _, hq⟩ := List.exists_of_findSome?_eq_some h
  simp only [Option.map_eq_some_iff, Prod.mk.injEq] at hq
  obtain ⟨r, h1, rfl, rfl⟩ := hq
  exact PortState.request_eq_some.1 h1

/-- What is served next is the service in progress, or with none in progress that of the first waiting port (R187). -/
theorem Cpc.nextService_eq_some {c : Cpc} {p : Port} {rq : Request} : c.nextService = some (p, rq) ↔
    c.inProgress = some (p, rq) ∨ (c.inProgress = none ∧ c.firstWaiting = some (p, rq)) := by
  unfold Cpc.nextService; split <;> simp_all

/-- The port served next is waiting with the request served. -/
theorem Cpc.nextService_serving {c : Cpc} {p : Port} {rq : Request} (h : c.nextService = some (p, rq)) :
    (c.port p).phase = .serving rq := by
  rcases Cpc.nextService_eq_some.1 h with h | ⟨_, h⟩
  · exact (Cpc.inProgress_eq_some.1 h).2
  · exact Cpc.firstWaiting_serving h

/-- A request taken while another is being served waits for a later service (R187). -/
theorem Cpc.nextService_takeRequest {c : Cpc} {p q : Port} {rq r : Request} (h : c.nextService = some (q, r)) (hp : q ≠ p) :
    (c.takeRequest p rq).nextService = some (q, r) :=
  Cpc.nextService_eq_some.2 (.inl (Cpc.inProgress_eq_some.2
    ⟨by simp [Cpc.takeRequest, h], by rw [Cpc.port_takeRequest_of_ne _ _ hp]; exact Cpc.nextService_serving h⟩))

/-- A request taken while nothing is being served is served next (R187). -/
theorem Cpc.nextService_takeRequest_idle {c : Cpc} (p : Port) (rq : Request) (h : c.nextService = none) :
    (c.takeRequest p rq).nextService = some (p, rq) :=
  Cpc.nextService_eq_some.2 (.inl (Cpc.inProgress_eq_some.2 ⟨by simp [Cpc.takeRequest, h], by simp⟩))

/-! ### Fields of a frame -/

theorem getU8_lt (b : List Byte) (off : Nat) : getU8 b off < 256 := (b.getD off 0).isLt

theorem getU16_lt (b : List Byte) (off : Nat) : getU16 b off < 65536 := by
  have := getU8_lt b off; have := getU8_lt b (off + 1); unfold getU16; omega

theorem getU32_lt (b : List Byte) (off : Nat) : getU32 b off < 4294967296 := by
  have := getU16_lt b off; have := getU16_lt b (off + 2); unfold getU32; omega

theorem getS32_range (b : List Byte) (off : Nat) : -2147483648 ≤ getS32 b off ∧ getS32 b off ≤ 2147483647 := by
  have h1 := BitVec.le_toInt (BitVec.ofNat 32 (getU32 b off))
  have h2 := BitVec.toInt_lt (x := BitVec.ofNat 32 (getU32 b off))
  unfold getS32; norm_num at h1 h2; exact ⟨h1, by omega⟩

theorem inS32_getS32 (b : List Byte) (off : Nat) : inS32 (getS32 b off) = true := (inS32_iff _).2 (getS32_range b off)

/-- A written byte is the byte read. -/
theorem putU8_getU8 (b : List Byte) (off : Nat) : putU8 (getU8 b off) = [b.getD off 0] := by simp [putU8, getU8]

theorem putS8_getS8 (b : List Byte) (off : Nat) : putS8 (getS8 b off) = [b.getD off 0] := by simp [putS8, getS8]

theorem be16_bytes (x y : Byte) : be16 (BitVec.ofNat 16 (x.toNat * 256 + y.toNat)) = [x, y] := by
  have hx := x.isLt; have hy := y.isLt
  simp only [be16, List.cons.injEq, and_true]
  constructor <;> apply BitVec.eq_of_toNat_eq <;> simp [Nat.shiftRight_eq_div_pow] <;> omega

theorem be32_bytes (x y z w : Byte) :
    be32 (BitVec.ofNat 32 ((x.toNat * 256 + y.toNat) * 65536 + (z.toNat * 256 + w.toNat))) = [x, y, z, w] := by
  have hx := x.isLt; have hy := y.isLt; have hz := z.isLt; have hw := w.isLt
  simp only [be32, List.cons.injEq, and_true]
  refine ⟨?_, ?_, ?_, ?_⟩ <;> apply BitVec.eq_of_toNat_eq <;> simp [Nat.shiftRight_eq_div_pow] <;> omega

theorem putU16_getU16 (b : List Byte) (off : Nat) : putU16 (getU16 b off) = [b.getD off 0, b.getD (off + 1) 0] :=
  be16_bytes _ _

theorem putU32_getU32 (b : List Byte) (off : Nat) :
    putU32 (getU32 b off) = [b.getD off 0, b.getD (off + 1) 0, b.getD (off + 2) 0, b.getD (off + 3) 0] := by
  rw [putU32, if_pos (getU32_lt b off)]; exact be32_bytes _ _ _ _

theorem putS32_getS32 (b : List Byte) (off : Nat) :
    putS32 (getS32 b off) = [b.getD off 0, b.getD (off + 1) 0, b.getD (off + 2) 0, b.getD (off + 3) 0] := by
  rw [putS32, if_pos (inS32_getS32 b off), getS32, BitVec.ofInt_toInt]; exact be32_bytes _ _ _ _

@[simp] theorem be16_length (x : Word16) : (be16 x).length = 2 := rfl

@[simp] theorem be32_length (x : Word32) : (be32 x).length = 4 := rfl

@[simp] theorem putU8_length (n : Nat) : (putU8 n).length = 1 := rfl

@[simp] theorem putS8_length (x : Int) : (putS8 x).length = 1 := rfl

@[simp] theorem putMark_length (b : Bool) : (putMark b).length = 1 := rfl

@[simp] theorem putU16_length (n : Nat) : (putU16 n).length = 2 := rfl

@[simp] theorem putS32_length (x : Int) : (putS32 x).length = 4 := rfl

@[simp] theorem putU32_length (n : Nat) : (putU32 n).length = 4 := rfl

@[simp] theorem putOptS32_length (x : Option Int) : (putOptS32 x).length = 5 := by cases x <;> rfl

@[simp] theorem putOrFF_length (x : Option Nat) : (putOrFF x).length = 1 := by cases x <;> rfl

@[simp] theorem putS16_length (x : Int) : (putS16 x).length = 2 := rfl

/-- The length field of a frame reads as the number written, below 2^16. -/
theorem getU16_putU16 {n : Nat} (h : n < 65536) (rest : List Byte) : getU16 (putU16 n ++ rest) 0 = n := by
  simp [getU16, getU8, putU16, be16, Nat.shiftRight_eq_div_pow]; omega

/-- A geometry record takes 40 bytes. -/
@[simp] theorem WireRecord.toBytes_length (r : WireRecord) : r.toBytes.length = 40 := by
  simp [WireRecord.toBytes, Seven.toList]

/-- An exception record takes 38 bytes. -/
@[simp] theorem StoredException.toBytes_length (e : StoredException) : e.toBytes.length = 38 := by
  simp [StoredException.toBytes]

/-! ### Judging the fields of an item -/

theorem firstFailing_none {cs : List FieldCheck} : firstFailing cs = none ↔ ∀ f ∈ cs, f.2 = true := by
  induction cs with
  | nil => simp [firstFailing]
  | cons c cs ih =>
    obtain ⟨off, good⟩ := c
    cases good <;> simp [firstFailing, ih]

theorem firstFailing_first {before : List FieldCheck} (h : ∀ f ∈ before, f.2 = true) (off : Nat) (after : List FieldCheck) :
    firstFailing (before ++ (off, false) :: after) = some off := by
  induction before with
  | nil => rfl
  | cons c cs ih =>
    obtain ⟨o, good⟩ := c
    have hg : good = true := h (o, good) (by simp)
    subst hg
    simpa [firstFailing] using ih (fun f hf => h f (by simp [hf]))

/-! ### Stores -/

theorem Store.append_below {α : Type} {s : Store α} {n : Nat} (h : s.records.length < n) (f : Word32 → α) :
    s.append n f = { s with records := s.records ++ [f s.next], next := s.next + 1 } := if_pos h

theorem Store.append_full {α : Type} {s : Store α} {n : Nat} (h : n ≤ s.records.length) (f : Word32 → α) :
    s.append n f = { records := s.records.tail ++ [f s.next], oldest := s.oldest + 1, next := s.next + 1 } := by
  rw [Store.append, if_neg (by omega), List.drop_one]

@[simp] theorem Store.append_next {α : Type} (s : Store α) (n : Nat) (f : Word32 → α) :
    (s.append n f).next = s.next + 1 := by
  unfold Store.append; split <;> rfl

end Sys2Proof.Machine
end

