-- ==== Sys2Proof/Laws/Frames.lean ====
section
/-! SUPPORT. What the steps of a unit leave alone, said once for each, and what a step of the part can be. -/

namespace Sys2Proof.Machine

/-- `t` is `s` but for the ODU and the hand-overs. -/
def OnlyOdu (s t : State) : Prop := { t with odu := s.odu, bus := s.bus } = s

/-- `t` is `s` but for the GCU and the hand-overs. -/
def OnlyGcu (s t : State) : Prop := { t with gcu := s.gcu, bus := s.bus } = s

theorem OnlyOdu.refl (s : State) : OnlyOdu s s := rfl

theorem OnlyOdu.trans {s t u : State} (h : OnlyOdu s t) (h' : OnlyOdu t u) : OnlyOdu s u := by
  unfold OnlyOdu at *; rw [← h, ← h']

/-- An operation that starts from `s` with another ODU and other hand-overs. -/
theorem OnlyOdu.over {s u : State} {o : Odu} {b : Bus} (h : OnlyOdu { s with odu := o, bus := b } u) : OnlyOdu s u := by
  unfold OnlyOdu at *
  have := congrArg (fun x : State => { x with odu := s.odu, bus := s.bus }) h
  exact this

/-- Every other member of the state, by name. -/
theorem OnlyOdu.fields {s t : State} (h : OnlyOdu s t) :
    t.power = s.power ∧ t.now = s.now ∧ t.slc = s.slc ∧ t.asu = s.asu ∧ t.gcu = s.gcu ∧ t.pru = s.pru ∧ t.exu = s.exu ∧
    t.mtu = s.mtu ∧ t.rcu = s.rcu ∧ t.rds = s.rds ∧ t.cpc = s.cpc ∧ t.pending = s.pending := by
  unfold OnlyOdu at h; rw [← h]; simp

theorem OnlyGcu.trans {s t u : State} (h : OnlyGcu s t) (h' : OnlyGcu t u) : OnlyGcu s u := by
  unfold OnlyGcu at *; rw [← h, ← h']

/-- An operation that starts from `s` with another GCU and other hand-overs. -/
theorem OnlyGcu.over {s u : State} {c : Gcu} {b : Bus} (h : OnlyGcu { s with gcu := c, bus := b } u) : OnlyGcu s u := by
  unfold OnlyGcu at *
  have := congrArg (fun x : State => { x with gcu := s.gcu, bus := s.bus }) h
  exact this

/-- Every other member of the state, by name. -/
theorem OnlyGcu.fields {s t : State} (h : OnlyGcu s t) :
    t.power = s.power ∧ t.now = s.now ∧ t.odu = s.odu ∧ t.slc = s.slc ∧ t.asu = s.asu ∧ t.pru = s.pru ∧ t.exu = s.exu ∧
    t.mtu = s.mtu ∧ t.rcu = s.rcu ∧ t.rds = s.rds ∧ t.cpc = s.cpc ∧ t.pending = s.pending := by
  unfold OnlyGcu at h; rw [← h]; simp

/-! ### The ODU -/

theorem State.fireEvent_frame (s : State) : OnlyOdu s s.fireEvent := rfl

theorem State.fireIfReached_frame (s : State) : OnlyOdu s s.fireIfReached := by
  unfold State.fireIfReached; split
  · exact State.fireEvent_frame s
  · exact OnlyOdu.refl s

theorem State.declareReversal_frame (s : State) : OnlyOdu s s.declareReversal :=
  OnlyOdu.over (State.fireIfReached_frame _)

/-- A count that moves the accumulator changes the ODU and what it hands over, and nothing else (R3, R5 to R8). -/
theorem State.moveBy_frame (s : State) (du : Int) : OnlyOdu s (s.moveBy du) := by
  unfold State.moveBy; simp only; split
  · exact OnlyOdu.over (State.declareReversal_frame _)
  · split
    · exact OnlyOdu.over (State.fireIfReached_frame _)
    · rfl

/-- All that a count can do: it declares a reversal, it fires the next event, or it moves the position and X alone (R5, R7, R8). -/
theorem State.moveBy_cases (s : State) (du : Int) :
    let o := ({ s.odu with position := toPosition (s.odu.position + du) } : Odu).followExtreme
    (o.reversed = true ∧ s.moveBy du = State.declareReversal { s with odu := o }) ∨
    (o.reversed = false ∧ o.advances du = true ∧ o.reached = true ∧ s.moveBy du = State.fireEvent { s with odu := o }) ∨
    (o.reversed = false ∧ (o.advances du = false ∨ o.reached = false) ∧ s.moveBy du = { s with odu := o }) := by
  intro o
  have h : s.moveBy du = if o.reversed then State.declareReversal { s with odu := o }
      else if o.advances du then State.fireIfReached { s with odu := o } else { s with odu := o } := rfl
  rw [h]
  unfold State.fireIfReached
  cases o.reversed <;> cases o.advances du <;> cases o.reached <;> simp

/-- A count that moves the position back and declares no reversal moves the position and fires no event (R5). -/
theorem State.moveBy_back (s : State) (du : Int)
    (hr : ({ s.odu with position := toPosition (s.odu.position + du) } : Odu).followExtreme.reversed = false)
    (hd : ({ s.odu with position := toPosition (s.odu.position + du) } : Odu).followExtreme.advances du = false) :
    s.moveBy du =
      { s with odu := ({ s.odu with position := toPosition (s.odu.position + du) } : Odu).followExtreme } := by
  simp [State.moveBy, hr, hd]

theorem State.activeFailed_frame (s : State) : OnlyOdu s s.activeFailed := by
  unfold State.activeFailed; simp only; split <;> rfl

theorem State.failEncoder_frame (s : State) (e : Encoder) : OnlyOdu s (s.failEncoder e) := by
  unfold State.failEncoder; simp only; split
  · exact OnlyOdu.over (State.activeFailed_frame _)
  · rfl

theorem State.mismatch_frame (s : State) (e : Encoder) : OnlyOdu s (s.mismatch e) := by
  unfold State.mismatch; simp only; split
  · split
    · rfl
    · exact State.failEncoder_frame s e
  · rfl

theorem State.recoverEncoder_frame (s : State) (e : Encoder) : OnlyOdu s (s.recoverEncoder e) := by
  unfold State.recoverEncoder; simp only; split <;> rfl

theorem State.goodCheck_frame (s : State) (e : Encoder) : OnlyOdu s (s.goodCheck e) := by
  unfold State.goodCheck; simp only; split
  · rfl
  · split
    · rfl
    · exact State.recoverEncoder_frame s e

theorem State.indexAtCount_frame (s : State) (e : Encoder) (v : Sense) : OnlyOdu s (s.indexAtCount e v) := by
  unfold State.indexAtCount; simp only; split
  · exact OnlyOdu.over (State.mismatch_frame _ e)
  · rfl

theorem State.silenceAtCount_frame (s : State) (e : Encoder) (v : Sense) : OnlyOdu s (s.silenceAtCount e v) := by
  unfold State.silenceAtCount; simp only; split
  · rfl
  · split
    · exact OnlyOdu.over (State.failEncoder_frame _ _)
    · rfl

/-- A supervised count changes the ODU and what it hands over, and nothing else (R3, R13 to R18). -/
theorem State.takeCount_frame (s : State) (e : Encoder) (v : Sense) : OnlyOdu s (s.takeCount e v) := by
  have h : ∀ t : State, OnlyOdu s t → OnlyOdu s ((t.indexAtCount e v).silenceAtCount e v) := fun t ht =>
    (ht.trans (State.indexAtCount_frame t e v)).trans (State.silenceAtCount_frame _ e v)
  unfold State.takeCount; simp only; split
  · exact h _ (OnlyOdu.over (State.moveBy_frame _ _))
  · exact h _ rfl

theorem State.resumeOdu_frame (s : State) : OnlyOdu s s.resumeOdu := by
  unfold State.resumeOdu; simp only; split
  · rfl
  · exact OnlyOdu.over (State.activeFailed_frame _)

/-! ### The ODU, field by field, where nothing moves -/

/-- A switch-over or a loss moves nothing (R18). -/
theorem State.activeFailed_position (s : State) :
    s.activeFailed.odu.position = s.odu.position ∧ s.activeFailed.odu.frontier = s.odu.frontier ∧
    s.activeFailed.odu.next = s.odu.next ∧ s.activeFailed.odu.direction = s.odu.direction ∧
    s.activeFailed.odu.extreme = s.odu.extreme ∧ s.activeFailed.bus.toPru = s.bus.toPru ∧
    s.activeFailed.odu.e1 = s.odu.e1 ∧ s.activeFailed.odu.e2 = s.odu.e2 := by
  unfold State.activeFailed; simp only; split <;> simp [Odu.bumpEpoch, Bus.report]

/-- An encoder that fails moves nothing, and keeps its levels and its weight (R13, R18). -/
theorem State.failEncoder_position (s : State) (e : Encoder) :
    (s.failEncoder e).odu.position = s.odu.position ∧ (s.failEncoder e).odu.frontier = s.odu.frontier ∧
    (s.failEncoder e).odu.next = s.odu.next ∧ (s.failEncoder e).odu.direction = s.odu.direction ∧
    (s.failEncoder e).odu.extreme = s.odu.extreme ∧ (s.failEncoder e).bus.toPru = s.bus.toPru ∧
    ∀ i, (s.failEncoder e).odu.enc i = (s.odu.setEnc e { s.odu.enc e with health := .failed, strikes := 0, goodChecks := 0 }).enc i := by
  unfold State.failEncoder; simp only; split
  · obtain ⟨h1, h2, h3, h4, h5, h6, h7, h8⟩ := State.activeFailed_position
      { s with odu := s.odu.setEnc e { s.odu.enc e with health := .failed, strikes := 0, goodChecks := 0 } }
    refine ⟨by simp [h1], by simp [h2], by simp [h3], by simp [h4], by simp [h5], by simp [h6], ?_⟩
    intro i; cases i <;> first | exact h7 | exact h8
  · simp

/-! ### The GCU -/

theorem State.formRecord_frame (s : State) (e : WindowEntry) : OnlyGcu s (s.formRecord e) := rfl

theorem State.formRecords_frame (s : State) (es : List WindowEntry) : OnlyGcu s (s.formRecords es) := by
  induction es generalizing s with
  | nil => rfl
  | cons e es ih => exact (State.formRecord_frame s e).trans (ih (s.formRecord e))

/-- A base record changes the GCU and what it hands over, and nothing else (R71, R72, R74). -/
theorem State.takeBase_frame (s : State) (b : BaseRecord) : OnlyGcu s (s.takeBase b) := by
  unfold State.takeBase; split
  · exact OnlyGcu.over (State.formRecords_frame _ _)
  · rfl

/-- A flush changes the GCU and what it hands over, and nothing else (R84). -/
theorem State.flush_frame (s : State) (cause : Cause) : OnlyGcu s (s.flush cause) :=
  OnlyGcu.trans (State.formRecords_frame s _) rfl

/-- The records of a list of entries are formed one by one: each is marked formed and counted, and its record handed on, formed
from the window as the records before it left it. -/
theorem State.formRecords_cons (s : State) (e : WindowEntry) (es : List WindowEntry) :
    s.formRecords (e :: es) = (s.formRecord e).formRecords es := rfl

@[simp] theorem State.formRecords_output (s : State) (es : List WindowEntry) :
    (s.formRecords es).gcu.output = s.gcu.output + BitVec.ofNat 32 es.length := by
  induction es generalizing s with
  | nil => simp [State.formRecords]
  | cons e es ih =>
    rw [State.formRecords_cons, ih]
    simp only [State.formRecord, List.length_cons, BitVec.ofNat_add]
    rw [BitVec.add_assoc, BitVec.add_comm (1 : Word32)]
    rfl

/-! ### The step -/

/-- A step with a command waiting is that command; with none it is what the part does by itself. -/
theorem step_cases {s : State} {o : Host.Outcome State Fault Refusal} (h : step s = o) :
    (s.pending = [] ∧ o = .next s.idle) ∨ ∃ c rest, s.pending = c :: rest ∧ exec c { s with pending := rest } = o := by
  unfold step at h
  split at h
  · next c rest hp => exact .inr ⟨c, rest, hp, h⟩
  · next hp => exact .inl ⟨hp, h.symm⟩

/-- Idling changes only the queue and the time base. -/
theorem State.idle_frame (s : State) : { s.idle with pending := s.pending, now := s.now } = s := by
  unfold State.idle; split <;> rfl

/-- No command faults and none is refused: each answers a next state. -/
theorem exec_answers (c : Instr) (s : State) : ∃ t, exec c s = .next t := by
  cases c with
  | powerOn cause => cases cause <;> exact ⟨_, rfl⟩
  | _ =>
    first
    | exact ⟨_, rfl⟩
    | (simp only [exec, execZPulse, execPaceCount, execStandstillExpiry, execOduStopNotice, execOduResumptionNotice,
        execSlotStart, execSlotEnd, execSlcSampleEvent, execSlcStartNotice, execSlcSuspendNotice, execSlcStopNotice,
        execDelivery, execAsuReversalNotice, execAsuStartNotice, execAsuSuspendNotice, execAsuStopNotice, execMarkRequest,
        execBaseRecord, execGcuReversalNotice, execGcuStartNotice, execGcuSuspendNotice, execGcuStopNotice,
        execPruSampleEvent, execPruReversalNotice, execPruStartNotice, execPruSuspendNotice, execPruResumptionNotice,
        execPruStopNotice, execChainageRequest, execOutputRecord, execStreamEndNotice, execExuStartNotice, execMarkerEdge,
        execChainageAnswer, execPlacementAnswer, execMarkLossReport, execMtuSampleEvent, execPulseExpiry,
        execMtuStartNotice, execMtuSuspendNotice, execMtuResumptionNotice, execMtuStopNotice, execResetPinRelease,
        execStartUpHoldEnd, execRcuSampleEvent, execOdometryLost, execOdometryRestored, execGeometryAppend,
        execExceptionAppend, execRequestFrame, execBusySelect, execReplyRead]
       repeat' (first | exact ⟨_, rfl⟩ | split))

end Sys2Proof.Machine
end

