-- ==== Sys2Proof/Laws/Units.lean ====
section
/-! SUPPORT. What the operations of single units can do: stores and cursors, integrators and channels, levels and runs, the
window, the fix list. -/

namespace Sys2Proof.Machine

open Sys2Proof.Safety

/-! ### Stores and cursors (R182 to R184, R188) -/

/-- An append keeps a store's capacity and its consecutive numbers, for a record that carries the number it is given. -/
theorem Store.append_sound {α : Type} {n : Nat} {seq : α → Word32} {s : Store α} (h : StoreSound n seq s) (hn : 0 < n)
    (f : Word32 → α) (hf : ∀ w, seq (f w) = w) : StoreSound n seq (s.append n f) := by
  obtain ⟨h1, h2, h3⟩ := h
  rcases lt_or_ge s.records.length n with hl | hl
  · rw [Store.append_below hl]
    refine ⟨by simp only [List.length_append, List.length_singleton]; omega, ?_, ?_⟩
    · simp only [List.length_append, List.length_singleton, BitVec.ofNat_add]
      rw [h2, BitVec.add_assoc]; rfl
    · intro i x hx
      rw [List.getElem?_append] at hx
      split_ifs at hx with hi
      · exact h3 i x hx
      · have : i - s.records.length = 0 := by
          by_contra hne
          rw [List.getElem?_eq_none (by simp; omega)] at hx
          cases hx
        rw [this] at hx
        simp only [List.getElem?_cons_zero, Option.some.injEq] at hx
        rw [← hx, hf, h2, show i = s.records.length by omega]
  · rw [Store.append_full hl]
    have hlen : s.records.length = n := by omega
    refine ⟨by simp only [List.length_append, List.length_tail, List.length_singleton]; omega, ?_, ?_⟩
    · simp only [List.length_append, List.length_tail, List.length_singleton]
      rw [h2, hlen, show n - 1 + 1 = n by omega, BitVec.add_assoc, BitVec.add_comm (BitVec.ofNat 32 n), ← BitVec.add_assoc]
    · intro i x hx
      rw [List.getElem?_append] at hx
      simp only [List.length_tail] at hx
      split_ifs at hx with hi
      · rw [List.getElem?_tail] at hx
        rw [h3 (i + 1) x hx, BitVec.ofNat_add, BitVec.add_assoc, BitVec.add_comm (BitVec.ofNat 32 i)]; rfl
      · have : i - (s.records.length - 1) = 0 := by
          by_contra hne
          rw [List.getElem?_eq_none (by simp; omega)] at hx
          cases hx
        rw [this] at hx
        simp only [List.getElem?_cons_zero, Option.some.injEq] at hx
        rw [← hx, hf, h2, show s.records.length = i + 1 by omega, BitVec.ofNat_add, BitVec.add_assoc,
          BitVec.add_comm (BitVec.ofNat 32 i)]
        rfl

/-- The number of records at and after a cursor within its range is the number unread. -/
theorem Store.from_length {α : Type} {n : Nat} {seq : α → Word32} {s : Store α} {c : Word32} (h : StoreSound n seq s)
    (hn : n < 4294967296) (hc : CursorSound s c) : (s.from c).length = (s.unread c).toNat := by
  obtain ⟨h1, h2, -⟩ := h
  unfold CursorSound at hc
  have hu : s.unread c = BitVec.ofNat 32 s.records.length - (c - s.oldest) := by
    unfold Store.unread
    rw [h2]
    generalize BitVec.ofNat 32 s.records.length = l
    bv_omega
  rw [hu, Store.from, List.length_drop]
  generalize c - s.oldest = d at *
  have hl : (BitVec.ofNat 32 s.records.length).toNat = s.records.length := by
    rw [BitVec.toNat_ofNat, Nat.mod_eq_of_lt (by omega)]
  rw [BitVec.toNat_sub_of_le (by rw [BitVec.le_def, hl]; exact hc), hl]

/-- A read returns the first records at the cursor, and the cursor advances by their number. -/
theorem Store.read_eq {α : Type} (s : Store α) (c : Word32) (n : Nat) :
    s.read c n = ((s.from c).take (min n 24), c + BitVec.ofNat 32 ((s.from c).take (min n 24)).length) := rfl

/-! ### Integrators (R34) -/

theorem leakStage_bounds (x a : Int) (k : Nat) :
    -140737488355327 ≤ (leakStage x a k).1 ∧ (leakStage x a k).1 ≤ 140737488355327 := by
  simp only [leakStage, integratorBound, clamp]; split_ifs <;> omega

theorem leakStage_eq (x a : Int) (k : Nat) :
    (leakStage x a k).1 = max (-140737488355327) (min 140737488355327 (x + a - x / ((2 ^ k : Nat) : Int))) := by
  simp only [leakStage, integratorBound, clamp_eq (-140737488355327) 140737488355327 _ (by decide)]

theorem leakStage_saturates (x a : Int) (k : Nat) :
    (leakStage x a k).2 = true ↔
      x + a - x / ((2 ^ k : Nat) : Int) < -140737488355327 ∨ 140737488355327 < x + a - x / ((2 ^ k : Nat) : Int) := by
  simp [leakStage, integratorBound]

theorem Integrator.step_sound (i : Integrator) (a : Int) (kv kp : Nat) : IntegratorSound (i.step a kv kp) := by
  have h1 := leakStage_bounds i.v a kv
  have h2 := leakStage_bounds i.p (leakStage i.v a kv).1 kp
  simp only [IntegratorSound, Integrator.step]
  constructor <;> omega

/-! ### Channels (R30, R31) -/

/-- A slot's outcome keeps a channel within its ranges. -/
theorem Channel.take_sound {c : Channel} (h : ChannelSound c) (value : Option Int) : ChannelSound (c.take value) := by
  obtain ⟨st, held, miss, recovery⟩ := c
  cases st <;> cases value <;> simp only [ChannelSound] at h <;> simp only [Channel.take]
  · exact ⟨h.1, by simp, by simp, h.2.2⟩
  · exact ⟨rfl, rfl, h.2.2⟩
  · split
    · exact ⟨h.1, by simp, by simp; omega, h.2.2.2⟩
    · exact ⟨rfl, rfl, by simp⟩
  · exact ⟨rfl, rfl, h.2.2.2⟩
  · exact ⟨h.1, h.2.1, by simp⟩
  · split
    · exact ⟨h.1, h.2.1, by simp; omega⟩
    · exact ⟨rfl, rfl, rfl⟩

/-! ### Levels (R136) -/

theorem ParamLimits.level_le (l : ParamLimits) (v : Int) : l.level v ≤ 3 := by
  simp only [ParamLimits.level, ParamLimits.highLevel, ParamLimits.lowLevel]; split_ifs <;> decide

theorem ParamLimits.side_some {l : ParamLimits} {v : Int} {side : Side} (h : l.side v = some side) : 1 ≤ l.level v := by
  simp only [ParamLimits.side, ParamLimits.level] at *; split_ifs at h <;> omega

theorem ParamLimits.side_none {l : ParamLimits} {v : Int} (h : l.side v = none) : l.level v = 0 := by
  simp only [ParamLimits.side, ParamLimits.level] at *; split_ifs at h; omega

/-- A run still open after a record is within the long-run limit; else it is closed LONG (R147). -/
theorem judgeLong_eq (x : OpenRun) (p : Param) (r : OutputRecord) (es : List ExceptionRecord) :
    ((r.j - x.startIndex).natAbs + 1 < 4000 ∧ judgeLong x p r es = { place := some x, records := es, opened := 0 }) ∨
    (4000 ≤ (r.j - x.startIndex).natAbs + 1 ∧
      judgeLong x p r es = { place := none, records := es ++ [x.closed p r.run .long], opened := 0 }) := by
  unfold judgeLong; split
  · next h => exact .inr ⟨h, rfl⟩
  · next h => exact .inl ⟨by omega, rfl⟩

/-! ### The window's entries in order (R72, R84) -/

theorem mem_insertByIndex {d : Direction} {e f : WindowEntry} {l : List WindowEntry} :
    f ∈ insertByIndex d e l ↔ f = e ∨ f ∈ l := by
  induction l with
  | nil => simp [insertByIndex]
  | cons g l ih =>
    unfold insertByIndex
    split
    · simp
    · simp only [List.mem_cons, ih]; tauto

theorem insertByIndex_length (d : Direction) (e : WindowEntry) (l : List WindowEntry) :
    (insertByIndex d e l).length = l.length + 1 := by
  induction l with
  | nil => rfl
  | cons g l ih => unfold insertByIndex; split <;> simp [ih]

/-- The entries to be formed are those that pass the test, each once. -/
theorem Gcu.mem_pendingEntries {c : Gcu} {due : Int → Bool} {e : WindowEntry} :
    e ∈ c.pendingEntries due ↔ (∃ i, (i, e) ∈ c.window) ∧ e.pending = true ∧ due e.j = true := by
  unfold Gcu.pendingEntries
  have h : ∀ l : List WindowEntry, e ∈ l.foldr (insertByIndex c.direction) [] ↔ e ∈ l := by
    intro l
    induction l with
    | nil => simp
    | cons f l ih => simp [mem_insertByIndex, ih]
  rw [h]; simp

theorem Gcu.pendingEntries_length (c : Gcu) (due : Int → Bool) :
    (c.pendingEntries due).length = c.window.countP (fun e => e.2.pending && due e.2.j) := by
  unfold Gcu.pendingEntries
  have h : ∀ l : List WindowEntry, (l.foldr (insertByIndex c.direction) []).length = l.length := by
    intro l
    induction l with
    | nil => rfl
    | cons f l ih => simp [insertByIndex_length, ih]
  rw [h, List.countP_eq_length_filter, List.filter_map, List.length_map]; rfl

/-! ### Fixes (R103, R106) -/

/-- A push leaves at most 8 entries, no two within 8 samples of each other. -/
theorem Pru.pushFix_sound {p : Pru} (f : Fix) (h : p.fixes.Pairwise (fun f g => 8 < (f.j - g.j).natAbs)) :
    (p.pushFix f).fixes.length ≤ 8 ∧ (p.pushFix f).fixes.Pairwise (fun f g => 8 < (f.j - g.j).natAbs) := by
  refine ⟨List.length_take_le _ _, List.Pairwise.sublist (List.take_sublist _ _) (List.pairwise_cons.2 ⟨?_, ?_⟩)⟩
  · intro g hg
    simp only [Pru.keptFixes, Fix.conflicts, List.mem_filter, Bool.not_eq_true', decide_eq_false_iff_not] at hg
    omega
  · exact List.Pairwise.sublist List.filter_sublist h

/-! ### SET_ITEM and the run before (R61, R91, R117; log entry 29) -/

/-- The part is quiet exactly when nothing of a run waits at a unit that works with the configuration. -/
theorem State.isQuiet_iff (s : State) : s.isQuiet = true ↔ Quiet s := by
  simp [State.isQuiet, Quiet, and_assoc]

/-- What SET_ITEM in service can do: wait, when it would be accepted and the part is not quiet, or be served. -/
theorem execSetItem_cases (s : State) :
    (exec .setItem s = .next s ∧ ¬Quiet s ∧ ∃ p rq i b, s.cpc.nextService = some (p, rq) ∧
      judgeItem s.rcu.runState rq.payload = .accepted i b) ∨
    exec .setItem s = .next (s.serve .setItem serveSetItem) := by
  show (Host.Outcome.next (if s.itemWaits then s else s.serve .setItem serveSetItem) = _ ∧ _) ∨
    Host.Outcome.next (if s.itemWaits then s else s.serve .setItem serveSetItem) = _
  by_cases h : s.itemWaits = true
  · refine .inl ⟨by rw [if_pos h], ?_⟩
    unfold State.itemWaits at h
    split at h
    · next p rq hn =>
      split at h
      · next i b hj => exact ⟨fun hq => by simp [(State.isQuiet_iff s).2 hq] at h, p, rq, i, b, hn, hj⟩
      · cases h
    · cases h
  · exact .inr (by rw [if_neg h])

end Sys2Proof.Machine
end

