-- ==== Sys2Proof/Tests/Slice0.lean ====
section
/-! SUPPORT. Tests: ill-formed terms that WellFormed refuses, worked examples of the manual, one step each, and for every
statement with hypotheses a concrete state and operands that meet them. Expected results come from the manual's examples and
tables, named at each test. -/

namespace Sys2Proof.Tests

open Sys2Proof.Machine Sys2Proof.Safety

/-! ### WellFormed and Decode -/

/-- A frame of S1 has 11 bytes (R200). -/
theorem test_wellFormed_slotEnd_length : (Instr.slotEnd .s1 true (List.replicate 10 0)).wellFormed = false := by decide

theorem test_wellFormed_slotEnd : (Instr.slotEnd .s2 true (List.replicate 17 0)).wellFormed = true := by decide

/-- Bits beyond the last whole byte are fewer than 8 (R185). -/
theorem test_wellFormed_requestFrame_bits : (Instr.requestFrame .cp0 [] 8).wellFormed = false := by decide

theorem test_wellFormed_requestFrame : (Instr.requestFrame .cp0 [] 7).wellFormed = true := by decide

/-- No row has bits, so no word spells a command. -/
theorem test_decode_none : decodeTableWord 16 0 = none := by decide

/-- The queue is left as it is where a word spells no command. -/
theorem test_withFetchWord : State.reset.withFetchWord 16 0 = State.reset := by decide +kernel

/-! ### States the tests start from -/

/-- The encoders of the manual's examples: W 46,244 du, N 4096 (R2). -/
def encoder : EncoderState := { EncoderState.reset with weight := 46244, countsPerRev := 4096, circumference := 2890265 }

/-- A run with source ENCODERS at position 0, sample interval 250 mm, R_d 8. -/
def running : State :=
  { State.reset with
    power := .on, odu := { Odu.reset with source := .encoders, view := .running, interval := 250, reversalDistance := 8,
                                          slipTolerance := 5, e1 := encoder, e2 := encoder, next := 1 },
    rcu := { Rcu.reset with runState := .running, source := .encoders, runNumber := 1 } }

/-- The same with source PACE, the generator running backward. -/
def pacing : State :=
  { running with odu := { running.odu with source := .pace, paceStopped := false, paceDirection := .rev, paceTimer := some 4000,
                                           paceInterval := 4000 },
                 rcu := { running.rcu with source := .pace } }

/-- CP0 waits with one request, in service. -/
def asking (s : State) (code : Byte) (payload : List Byte) : State :=
  { s with
    power := .on,
    cpc := { s.cpc.setPort .cp0 { s.cpc.cp0 with phase := .serving { code := code, tag := 7, payload := payload } } with
             inService := some .cp0 } }

/-- A frame of a link as the front-end presents it, with its check (R200). -/
def sensorFrame (sequence flags : Byte) (words : List Byte) : List Byte :=
  let covered := [0xB4, sequence, flags] ++ words
  covered ++ be16 (frameCheck covered)

/-- A sample event. -/
def event (k : Int) : SampleEvent := { k := k, direction := .fwd, speed := 1000, slip := false, encSwitch := false }

/-- The delivery of a sample event with everything absent. -/
def emptyDelivery (k : Int) : Delivery :=
  { k := k, direction := .fwd, slip := false, encSwitch := false, gauge := { gl := none, gr := none },
    vertical := { hL := none, hR := none, zl := none, zr := none }, lateral := { hy := none, roll := none, psi := none } }

/-- A base record with everything absent. -/
def emptyBase (j : Int) : BaseRecord :=
  { j := j, direction := .fwd, gauge := { gl := none, gr := none }, vertical := { hL := none, hR := none, zl := none, zr := none },
    lateral := { hy := none, roll := none, psi := none }, mark1 := false, mark2 := false, slip := false, encSwitch := false }

/-- The plan of the manual's examples: segments 4 and 5 of line 210, 9 and 10 of line 305. -/
def planned : Pru :=
  { Pru.reset with
    segments := [(4, { lineCode := 210, lo := 12000000, hi := 15500000, limitSet := 2, masks := [] }),
                 (5, { lineCode := 210, lo := 15500000, hi := 17250000, limitSet := 3,
                       masks := [{ lo := 16100000, hi := 16180000, params := 7 }] }),
                 (9, { lineCode := 305, lo := 880000, hi := 2400000, limitSet := 5, masks := [] }),
                 (10, { lineCode := 305, lo := 300000, hi := 880000, limitSet := 5, masks := [] })],
    plan := [{ segment := 4, orientation := .plus }, { segment := 5, orientation := .plus },
             { segment := 9, orientation := .minus }, { segment := 10, orientation := .minus }],
    cursor := some 1, orientation := .plus, lineCode := 210, ccur := 16500000, latest := some 100, running := true,
    acceptWindow := 5000, stepThreshold := 2000, slewLimit := 5 }

/-- A run on that plan. -/
def travelling : State := { running with pru := planned }

/-- The limits of the manual's example for gauge. -/
def gaugeLimits : ParamLimits :=
  { u1 := 4000, u2 := 8000, u3 := 12000, l1 := -2000, l2 := -4000, l3 := 0, enable := 0x1F, hysteresis := 300, mergeGap := 3 }

/-- An output record with one value of gauge. -/
def gaugeRecord (j : Int) (g : Option Int) : OutputRecord :=
  { j := j, run := 1, direction := .fwd, chainage := 16500000, planEntry := some 1, segment := some 5, lineCode := 210, speed := 1000,
    uncertain := false, step := false, line := false, slip := false, encSwitch := false, offPlan := false, mark1 := false,
    mark2 := false, values := { checked := ⟨g, none, none, none, none, none, none⟩, cv := none } }

/-- An open run of gauge on the high side. -/
def gaugeRun : OpenRun :=
  { side := .high, startIndex := 100, startChainage := 0, lastIndex := 100, lastChainage := 0, severity := 1, peak := 4500,
    peakChainage := 0, inside := 0, absent := 0, limitSet := 3, lineCode := 210, segment := some 5, uncertainSeen := false,
    onsetSent := false }

/-- A fix list entry of line 210 in epoch 0. -/
def fixAt (j c : Int) : Fix :=
  { j := j, chainage := c, error := 0, errorNow := 0, grade := 1, port := .cp0, lineCode := 210, epoch := 0, kind := .step }

/-- What a START notice carries. -/
def startInfo : StartInfo := { run := 1, entry := 1, chainage := 16000000, direction := .fwd, source := .pace }

/-- The state a command leaves. -/
def after (c : Instr) (s : State) : State :=
  match exec c s with
  | .next t => t
  | _ => s

/-- The reply frame that waits at CP0: status, and payload without the check. -/
def reply (s : State) : Nat × List Nat :=
  match s.cpc.cp0.phase with
  | .replyReady f => (getU8 f 2, ((f.drop 6).dropLast.dropLast).map (·.toNat))
  | _ => (255, [])

/-! ### Worked examples of the manual -/

/-- The check of the nine bytes "123456789" from an all-ones register with 0x1021 is 0x29B1 (R197 and its test value). -/
theorem test_frameCheck : frameCheck [0x31, 0x32, 0x33, 0x34, 0x35, 0x36, 0x37, 0x38, 0x39] = 0x29B1 := by decide +kernel

/-- C 2,890,265 µm and N 4,096 give W 46,244 du (R2). -/
theorem test_weight : weightOf 2890265 4096 = 46244 := by decide +kernel

/-- 954,384 ticks for 250 mm are 275 mm/s, 957,080 are 274 (R12, Example). -/
theorem test_speed : speedOf 250 954384 = 275 ∧ speedOf 250 957080 = 274 := by decide +kernel

/-- A count that brings the position to the boundary of index 1, 16,384,000 du, fires its event; one du short of it fires none (R5). -/
theorem test_encoderCount_boundary :
    (after (.encoderCount .e1 .a 10) { running with odu := { running.odu with position := 16337756 } }).odu.frontier = 1 ∧
    (after (.encoderCount .e1 .a 10) { running with odu := { running.odu with position := 16337755 } }).odu.frontier = 0 := by
  decide +kernel

/-- A count that moves the position back fires no event, though n's boundary is already passed (R5, log entry 6). -/
theorem test_encoderCount_back :
    (after (.encoderCount .e1 .b 10) { running with odu := { running.odu with position := 92488, next := 0 } }).odu.next = 0 ∧
    (after (.encoderCount .e1 .a 10) { running with odu := { running.odu with position := 92488, next := 0 } }).odu.next = 1 := by
  decide +kernel

/-- An edge while the ODU is in SUSPENDED captures nothing, though the MTU has not taken the notice (R162). -/
theorem test_markerEdge_suspended :
    let s : State := { running with mtu := { Mtu.reset with running := true }, rcu := { running.rcu with written := [.marker .m1] } }
    (after (.markerEdge .m1 .rising) s).mtu.list.length = 1 ∧
    (after (.markerEdge .m1 .rising) { s with odu := { s.odu with view := .suspended } }).mtu.list = [] := by
  decide +kernel

/-- 354 counts of 46,244 du against 345 of 46,300 with tolerance 2 % are a slip (R17, Example). -/
theorem test_slip :
    ({ running.odu with slipTolerance := 2, e1 := { encoder with eventDistance := 354 },
                        e2 := { encoder with weight := 46300, eventDistance := 345 } } : Odu).slips = true := by
  decide +kernel

/-- SET_PACE 2,696, FWD, running: the first count comes 2,696 ticks after service (R12, Example). -/
theorem test_setPace :
    (after .setPace (asking pacing 0x20 [0x0A, 0x88, 0, 0])).odu.paceTimer = some 2696 ∧
    reply (after .setPace (asking pacing 0x20 [0x0A, 0x88, 0, 0])) = (0, [0x0A, 0x88, 0, 0, 0, 0, 0, 0, 0]) := by
  decide +kernel

/-- The word 0xFFFFFE is −2; the flags' bit 7 belongs to the first channel, bit 6 to the second (R200). -/
theorem test_slotEnd_words :
    let s := { running with slc := { Slc.reset with
      slotTimer := some 512, s1 := { LinkState.reset with slotOpen := true },
      channels := { Slc.reset.channels with gl := { state := .ok, held := some 5, miss := 0, recovery := 0 },
                                            gr := { state := .ok, held := some 7, miss := 0, recovery := 0 } } } }
    let t := after (.slotEnd .s1 true (sensorFrame 9 0x80 [0xFF, 0xFF, 0xFE, 0, 0, 1])) s
    t.slc.channels.gl.held = some (-2) ∧ t.slc.channels.gr.state = .held ∧ t.slc.channels.gr.held = some 7 ∧
    t.slc.s1.expected = some 10 := by
  decide +kernel

/-- A frame whose last check byte is wrong is missing with cause CHECK; a line low at the end of frame sync is TIMING (R27). -/
theorem test_slotEnd_causes :
    frameFault .s1 true (sensorFrame 9 0x80 [0, 0, 1, 0, 0, 1]) = .none ∧
    frameFault .s1 true ((sensorFrame 9 0x80 [0, 0, 1, 0, 0, 1]).set 10 0) = .check ∧
    frameFault .s1 false (sensorFrame 9 0x80 [0, 0, 1, 0, 0, 1]) = .timing ∧
    frameFault .s1 true ((sensorFrame 9 0x80 [0, 0, 1, 0, 0, 1]).set 0 0xB5) = .sync := by
  decide +kernel

/-- The floor of the leak rounds toward minus infinity: V = −1 leaks −1, so it goes to 0 with no input (R34). -/
theorem test_integrator_floor : (Integrator.step { v := -1, p := -1, saturated := false } 0 12 12).v = 0 := by decide +kernel

/-- In FWD the slot of k + p_min, in REV that of k + p_max, is completed (R52). -/
theorem test_rearIndex :
    let a := { Asu.reset with pGauge := -9, pVertical := 0, pLateral := 12 }
    a.rearIndex 100 .fwd = 91 ∧ a.rearIndex 100 .rev = 112 := by
  decide +kernel

/-- FIX_AT j 4,000, c 12,346,230, grade 2 beside C(4,000) = 12,345,000: e and ε +1,230 mm, r 1,230, kind SLEW (R104, Example). -/
theorem test_fixAt :
    let p := { planned with
      ccur := 12347500, latest := some 4010,
      history := [(4000, { index := 4000, chainage := 12345000, correction := 0, planEntry := some 1, segment := some 5, lineCode := 210,
                           speed := 1000, uncertain := false, step := false, line := false, slip := false, encSwitch := false })] }
    let t := after .fixAt (asking { travelling with pru := p } 0x21
      [0, 0, 0x0F, 0xA0, 0x00, 0xBC, 0x63, 0x76, 0, 210, 2, 0])
    t.pru.residual = 1230 ∧ t.pru.uncertain = false ∧ t.pru.fixes.map (fun f => (f.j, f.error, f.errorNow, f.kind)) = [(4000, 1230, 1230, .slew)] := by
  decide +kernel

/-- FIX_NOW offset +8 at position index 7,300: j 7,308 lies ahead, c_ref 15,822,000, e +150, r 150 (R107, Example). -/
theorem test_fixNow :
    let s := { travelling with odu := { travelling.odu with position := 7300 * 16384000 },
                               pru := { planned with ccur := 15820000, latest := some 7300, correction := 300 } }
    let t := after .fixNow (asking s 0x22 [0, 8, 0x00, 0xF1, 0x6D, 0x46, 0, 210, 3, 0])
    t.pru.residual = 150 ∧ t.pru.fixes.map (·.j) = [7308] := by
  decide +kernel

/-- CALIBRATE: D_meas 2,000,000, D_true 2,001,400: W 46,276 du; D_true 1,001,400: TOLERANCE (R111, Example). -/
theorem test_calibrate :
    let s (c : Int) := { running with pru := { planned with fixes := [fixAt 12000 c, { fixAt 8700 2178000 with lineCode := 305 }, fixAt 4000 2002700] } }
    (after .calibrate (asking (s 4004100) 0x23 [])).odu.e1.weight = 46276 ∧
    (after .calibrate (asking (s 4004100) 0x23 [])).odu.epoch = 1 ∧
    (reply (after .calibrate (asking (s 3004100) 0x23 []))).1 = 12 := by
  decide +kernel

/-- JUMP_PLAN e 3, C 700,000 in SUSPENDED: cursor 3, o −1, line 305, LINE pending; C 900,000 is refused with RANGE (R130, Example). -/
theorem test_jumpPlan :
    let s := { travelling with rcu := { travelling.rcu with runState := .suspended } }
    let t := after .jumpPlan (asking s 0x24 [3, 0x00, 0x0A, 0xAE, 0x60])
    (t.pru.cursor, t.pru.orientation, t.pru.lineCode, t.pru.ccur, t.pru.lineMark) = (some 3, .minus, 305, 700000, true) ∧
    (reply (after .jumpPlan (asking s 0x24 [3, 0x00, 0x0D, 0xBB, 0xA0]))).1 = 4 := by
  decide +kernel

/-- A value equal to a threshold does not exceed it; the level is the highest exceeded (R136). -/
theorem test_level : gaugeLimits.level 4000 = 0 ∧ gaugeLimits.level 4001 = 1 ∧ gaugeLimits.level (-2001) = 1 ∧ gaugeLimits.level 12001 = 3 := by
  decide +kernel

/-- At 3,700 µm, U1 less the hysteresis, a value is inside; at 3,701 in the band (R145). -/
theorem test_band : gaugeLimits.inBand .high 3700 = false ∧ gaugeLimits.inBand .high 3701 = true := by decide +kernel

/-- Tens of µm, halves away from zero, clipped to ±32,767; absent is −32,768 (R87). -/
theorem test_wire :
    wireValue (some 12345) = (1235, false) ∧ wireValue (some (-12345)) = (-1235, false) ∧ wireValue (some 327674) = (32767, false) ∧
    wireValue (some 327675) = (32767, true) ∧ wireValue (some (-400000)) = (-32767, true) ∧ wireValue none = (-32768, false) := by
  decide +kernel

/-- The lattice lies on both sides of index 0: phase 3, pitch 10 is due at −7 and 3 (R165). -/
theorem test_trigger_due :
    let x := { TriggerState.reset with enable := true, pitch := 10, phase := 3 }
    x.isDue (-7) = true ∧ x.isDue 3 = true ∧ x.isDue 7 = false := by
  decide +kernel

/-- START before any item is written names ODOMETRY: status NOT_CONFIGURED, kind 1, index 0 (R172, R199). -/
theorem test_start_notConfigured :
    reply (after .start (asking State.reset 0x10 [1, 0, 0, 0, 0, 0, 1])) = (5, [1, 0, 0, 0, 0, 0, 0, 0, 0]) := by decide +kernel

/-- START with a source byte 0 fails step 1 (R172, R199). -/
theorem test_start_range : reply (after .start (asking State.reset 0x10 [1, 0, 0, 0, 0, 0, 0])) = (4, [0, 0, 1, 0, 0, 0, 0, 0, 0]) := by
  decide +kernel

/-- A second STOP is refused with STATE (R174). -/
theorem test_stop_standby : reply (after .stop (asking State.reset 0x11 [])) = (3, []) := by decide +kernel

/-- LIMITSET with U2 below U1, both enabled, is refused at U2's offset, 64, for TW (R134, R177, Example): kind 7, index 5. -/
theorem test_setItem_graded :
    let group (u1 u2 u3 : Nat) : List Byte := putU32 u1 ++ putU32 u2 ++ putU32 u3 ++ List.replicate 12 0 ++ [7] ++ List.replicate 5 0
    let item := group 0 0 0 ++ group 0 0 0 ++ group 5000 4000 6000 ++ group 0 0 0 ++ group 0 0 0 ++ group 0 0 0 ++ group 0 0 0
    firstFailing (itemChecks (.limitSet 5) item) = some 64 := by
  decide +kernel

/-- SET_ITEM COMPUTE 12, 28, 12, 10 sets reaches 12 and 28, and the generation becomes 1 (R64, R177). -/
theorem test_setItem_compute :
    let t := after .setItem (asking State.reset 0x12 [3, 0, 12, 28, 12, 10])
    t.gcu.reachUp = 12 ∧ t.gcu.reachDown = 28 ∧ t.rcu.generation = 1 ∧ reply t = (0, [3, 0, 0, 0, 0, 1]) := by
  decide +kernel

/-- SET_CURSOR GEOMETRY NEWEST: cursor 18,194, 0 unread; OLDEST: cursor 10,002 (R190, Example). -/
theorem test_setCursor :
    let s := { State.reset with rds := { Rds.reset with geometry := { records := [], oldest := 10002, next := 18194 } } }
    (after .setCursor (asking s 0x05 [0, 1])).cpc.cp0.geoCursor = 18194 ∧
    (after .setCursor (asking s 0x05 [0, 0])).cpc.cp0.geoCursor = 10002 := by
  decide +kernel

/-- SET_ATTENTION 4,000, 3 with 3,193 unread leaves ATTN low; with 4,000 unread it is high (R193, Example). -/
theorem test_setAttention :
    let s (next : Word32) := { State.reset with
      rds := { Rds.reset with geometry := { records := [], oldest := 10002, next := next } },
      cpc := { Cpc.reset with cp0 := { PortState.reset with geoCursor := 15000 } } }
    reply (after .setAttention (asking (s 18193) 0x06 [0x0F, 0xA0, 3])) = (0, [0x0F, 0xA0, 3, 0]) ∧
    reply (after .setAttention (asking (s 19000) 0x06 [0x0F, 0xA0, 3])) = (0, [0x0F, 0xA0, 3, 1]) := by
  decide +kernel

/-- ECHO of 1, 2, 3 (R194, Example). -/
theorem test_echo : reply (after .echo (asking State.reset 0x01 [1, 2, 3])) = (0, [1, 2, 3]) := by decide +kernel

/-- Two bytes are no request frame: BAD_FRAME with the bytes echoed (R185). -/
theorem test_requestFrame_bad :
    reply (after (.requestFrame .cp0 [1, 2] 0) { State.reset with power := .on }) = (1, []) := by decide +kernel

/-- READ_ITEM of an unwritten item is answered NOT_CONFIGURED with the generation (R179). -/
theorem test_readItem_unwritten : reply (after .readItem (asking State.reset 0x13 [4, 0])) = (5, [0, 0, 0, 0]) := by decide +kernel

/-- CP1's frame is taken while the arbiter is idle and CP0's after it: CP1 is served first, though CP2 was served last (R187). -/
theorem test_arbiter_atOnce :
    let frame (tag : Byte) : List Byte := let covered : List Byte := [1, tag, 0, 0]; covered ++ be16 (frameCheck covered)
    let s := after (.requestFrame .cp0 (frame 7) 0) (after (.requestFrame .cp1 (frame 8) 0) { State.reset with power := .on })
    s.cpc.nextService.map (·.1) = some .cp1 ∧ (after .echo s).cpc.nextService.map (·.1) = some .cp0 := by decide +kernel

/-- A SET_ITEM served after STOP waits while the profile window still holds the run, and is then taken (R91, log entry 29). -/
theorem test_setItem_waits :
    let s := asking State.reset 0x12 [3, 0, 12, 28, 12, 10]
    let busy := { s with gcu := { s.gcu with active := true } }
    after .setItem busy = busy ∧ (after .setItem s).gcu.armB = 28 := by decide +kernel

/-! ### Witnesses: for each statement with hypotheses a state and operands that meet them, clause by clause -/

/-- A request of `asking` is the one the arbiter serves next. -/
theorem serves_asking {s : State} {code : Byte} {payload : List Byte} {v : Service}
    (hv : serviceOf { code := code, tag := 7, payload := payload } = v) :
    Serves (asking s code payload) .cp0 { code := code, tag := 7, payload := payload } v :=
  ⟨rfl, hv⟩

theorem witness_StepRunsTheFrontCommand : ({ State.reset with pending := [.echo] } : State).pending = .echo :: [] := rfl

theorem witness_PowerOnLeavesThePowerOnValues :
    ({ State.reset with power := .held } : State).power = .held ∧ State.reset.power = .startUp 52429 := ⟨rfl, rfl⟩

theorem witness_TheDecoderFollowsTheLines :
    State.reset.odu.view = .standby ∧ pacing.odu.view ≠ .standby ∧ pacing.odu.source ≠ .encoders := by decide

theorem witness_CountsMoveThePositionOnlyWhenActive :
    running.odu.source = .encoders ∧ running.odu.view = .running ∧ running.odu.active = .e1 ∧
    (∀ e, -9223372036854775808 ≤ running.odu.position + countValue (running.odu.enc e) .a * (running.odu.enc e).weight ∧
      running.odu.position + countValue (running.odu.enc e) .a * (running.odu.enc e).weight ≤ 9223372036854775807) := by
  refine ⟨rfl, rfl, rfl, fun e => ?_⟩
  cases e <;> decide

/-- Both clauses: the count that just reaches the boundary of index 1; one that stops a du short of it, and one that moves back. -/
theorem witness_ABoundaryFiresTheSampleEvent :
    running.odu.source = .encoders ∧ running.odu.view = .running ∧ running.odu.active = .e1 ∧
    countValue (running.odu.enc .e1) .a = running.odu.direction.sign ∧
    0 < running.odu.reversalDistance * (running.odu.enc .e1).weight ∧
    (let moved : Int := 16337756 + countValue (running.odu.enc .e1) .a * (running.odu.enc .e1).weight
     running.odu.direction.sign * running.odu.extreme <
       running.odu.direction.sign * moved + running.odu.reversalDistance * (running.odu.enc .e1).weight ∧
     running.odu.next * (running.odu.interval * 65536) = moved ∧ ¬running.odu.next * (running.odu.interval * 65536) ≤ moved - 1) ∧
    countValue (running.odu.enc .e1) .b ≠ running.odu.direction.sign ∧
    running.odu.direction.sign * (92488 : Int) <
      running.odu.direction.sign * (92488 + countValue (running.odu.enc .e1) .b * (running.odu.enc .e1).weight) +
        running.odu.reversalDistance * (running.odu.enc .e1).weight := by
  decide

/-- The eighth count backward and the first, which goes back; a count forward that just reaches the boundary of index 1. -/
theorem witness_PaceCountsMoveAndReverse :
    pacing.odu.paceTimer = some 4000 ∧ pacing.odu.view = .running ∧ pacing.odu.source = .pace ∧ pacing.odu.paceStopped = false ∧
    (let back : Int := pacing.odu.reversalDistance * pacing.odu.e1.weight
     let moved (x : Int) : Int := x + pacing.odu.paceDirection.sign * pacing.odu.e1.weight
     0 < back ∧ pacing.odu.direction.sign * moved (-7 * 46244) = pacing.odu.direction.sign * pacing.odu.extreme - back ∧
     pacing.odu.direction.sign * pacing.odu.extreme - back < pacing.odu.direction.sign * moved 0) ∧
    pacing.odu.paceDirection ≠ pacing.odu.direction ∧
    (let o : Odu := { pacing.odu with paceDirection := .fwd, position := 16337756, extreme := 16337756 }
     o.paceDirection = o.direction ∧ o.next * (o.interval * 65536) = o.position + o.paceDirection.sign * o.e1.weight) := by
  decide

/-- The five clauses at the bounds of their counts: difference 2 and 3, strikes 1, good checks 6. -/
theorem witness_AZPulseChecksTheRevolution :
    running.odu.source = .encoders ∧ running.odu.view ≠ .standby ∧ running.odu.e1.aligned = false ∧
    (let x (n : Nat) : EncoderState := { encoder with aligned := true, indexCount := n }
     let far (y : EncoderState) : Prop := 2 < ((y.indexCount : Int) - y.countsPerRev).natAbs
     ¬far (x 4098) ∧ (x 4098).health = .ok ∧ far (x 4099) ∧ { x 4099 with strikes := 1 }.strikes < 2 ∧
     { x 4094 with health := .failed, goodChecks := 6 }.goodChecks < 7 ∧ ¬far (x 4094) ∧ far (x 4093)) := by
  decide

/-- The third strike with the other encoder OK and FAILED, and the eighth good check in SUSPENDED. -/
theorem witness_SupervisionSwitchesSuspendsAndRestores :
    running.odu.source = .encoders ∧ running.odu.view = .running ∧ running.odu.active = .e1 ∧
    (let x : EncoderState := { encoder with aligned := true, indexCount := 4099, strikes := 2 }
     let y : EncoderState := { encoder with aligned := true, indexCount := 4098, health := .failed, goodChecks := 7 }
     x.aligned = true ∧ 2 < ((x.indexCount : Int) - x.countsPerRev).natAbs ∧ x.health = .ok ∧ x.strikes = 2 ∧
     (running.odu.enc (encoderOther .e1)).health = .ok ∧ y.aligned = true ∧ ¬2 < ((y.indexCount : Int) - y.countsPerRev).natAbs ∧
     y.health = .failed ∧ y.goodChecks = 7) ∧
    { running.odu with view := .suspended }.view = .suspended ∧ running.odu.resuming = false := by
  decide

theorem witness_TheOduTakesItsNotices :
    { Bus.reset with toOdu := [.stop] }.toOdu = .stop :: [] ∧ { Bus.reset with toOdu := [.resume] }.toOdu = .resume :: [] ∧
    (running.odu.enc running.odu.active).health = .ok ∧ { running.odu with standstill := some 5 }.standstill = some 5 := by
  decide

/-- The part before its first slot, between two slots, and with a slot open on each link; a good frame, one with a wrong check, one with line low. -/
theorem witness_SlotsBeginTogetherAndEndByLink :
    (∀ l, ({ Slc.reset with slotTimer := some 52429 }.link l).slotOpen = false) ∧ Slc.reset.slotTimer ≠ some (Slc.reset.slotStart + 512) ∧
    ({ Slc.reset with s1 := { LinkState.reset with slotOpen := true } }.link .s1).slotOpen = true ∧
    (∀ opened, (Instr.slotEnd .s1 opened (sensorFrame 9 0x80 [0, 0, 1, 0, 0, 1])).wellFormed = true) ∧
    causeOf .s1 true (sensorFrame 9 0x80 [0, 0, 1, 0, 0, 1]) = .none ∧
    causeOf .s1 false (sensorFrame 9 0x80 [0, 0, 1, 0, 0, 1]) = .timing := by
  refine ⟨fun l => by cases l <;> rfl, by decide, rfl, fun o => by cases o <;> decide +kernel, by decide +kernel, by decide +kernel⟩

theorem witness_ChannelsFallAfterFiveAndRecoverAfterSixteen :
    { Channel.reset with state := .ok, held := some 3 }.state = .ok ∧ Channel.reset.state = .lost ∧ Channel.reset.recovery = 0 ∧
    { Channel.reset with state := .held, held := some 3, miss := 4 }.state ≠ .lost := by
  decide

/-- S2 and S3 with their inputs held and with them LOST. -/
theorem witness_IntegratorsStepWithTheirLink :
    ({ Slc.reset with s2 := { LinkState.reset with slotOpen := true } }.link .s2).slotOpen = true ∧
    (Instr.slotEnd .s2 true (List.replicate 17 0)).wellFormed = true ∧
    ({ Slc.reset with s3 := { LinkState.reset with slotOpen := true } }.link .s3).slotOpen = true ∧
    (Instr.slotEnd .s3 true (List.replicate 14 0)).wellFormed = true ∧
    held (Channel.take Channel.reset none) = none ∧
    held (Channel.take { state := .ok, held := some 7, miss := 0, recovery := 0 } none) = some 7 := by
  decide

theorem witness_ASampleEventIsDelivered :
    { Bus.reset with toSlc := [.event (event 1), .reversal] }.toSlc = .event (event 1) :: [.reversal] ∧
    (Bus.reset.toPru.filter Message.isEvent).length < ([Message.event (event 1), .reversal].filter Message.isEvent).length := by
  decide

theorem witness_TheSlcTakesItsNotices :
    NoReversalFirst [] ∧ NoReversalFirst [.event (event 1)] ∧
    { Bus.reset with toSlc := [.start startInfo] }.toSlc = .start startInfo :: [] ∧
    { Bus.reset with toSlc := [.suspend] }.toSlc = .suspend :: [] ∧
    { Bus.reset with toSlc := [.event (event 1), .stop] }.toSlc = [event 1].map Message.event ++ .stop :: [] := by
  unfold NoReversalFirst; decide

/-- Mounts at the ends of their range. -/
theorem witness_ADeliveryIsFiledByTrackIndex :
    let a := { Asu.reset with pGauge := -100, pVertical := 0, pLateral := 100 }
    ∀ p ∈ [a.pGauge, a.pVertical, a.pLateral], -100 ≤ p ∧ p ≤ 100 ∧ Fits32 ((emptyDelivery 2147483547).k + p) := by
  unfold Fits32; decide

/-- With equal mounts the slot is complete at once; with unequal ones the first is incomplete. -/
theorem witness_ADeliveryCompletesTheRearSlot :
    { Bus.reset with toAsu := [.delivery (emptyDelivery 0)] }.toAsu = .delivery (emptyDelivery 0) :: [] ∧
    Asu.reset.assembling = false ∧ Fits32 0 ∧
    (let a := Asu.file { Asu.reset with assembling := true, latest := some 0 } (emptyDelivery 0)
     ∃ x g v l, a.table.get? 0 = some x ∧ x.gauge = some g ∧ x.vertical = some v ∧ x.lateral = some l) ∧
    (let a := Asu.file { Asu.reset with assembling := true, latest := some 0, pGauge := 1 } (emptyDelivery 0)
     ∃ x, a.table.get? 0 = some x ∧ x.gauge = none) := by
  refine ⟨rfl, rfl, by unfold Fits32; decide, ⟨_, _, _, _, rfl, rfl, rfl, rfl⟩, ⟨_, rfl, rfl⟩⟩

theorem witness_ARestartEmptiesTheAssemblyTable :
    { Bus.reset with toAsu := [.reversal] }.toAsu = .reversal :: [] ∧
    { Bus.reset with toAsu := [.start startInfo] }.toAsu = .start startInfo :: [] ∧
    { Bus.reset with toAsu := [.suspend] }.toAsu = .suspend :: [] ∧
    { Bus.reset with toAsu := [.delivery (emptyDelivery 1), .stop] }.toAsu =
      [emptyDelivery 1].map AsuMessage.delivery ++ .stop :: [] := by
  decide

/-- With k 100, p −9 to 12 in FWD: 92 and 112 lie in the window, 91 and 113 outside it (R56). -/
theorem witness_AMarkRequestIsTestedAgainstTheWindow :
    let a := { Asu.reset with assembling := true, latest := some 100, pGauge := -9, pLateral := 12 }
    { Bus.reset with markRequests := [{ line := .m1, number := 1, j := 92 }] }.markRequests = { line := .m1, number := 1, j := 92 } :: [] ∧
    a.assembling = true ∧ Fits32 92 ∧ InWindow a 92 ∧ InWindow a 112 ∧ ¬InWindow a 91 ∧ ¬InWindow a 113 := by
  have inside (j : Int) (h : 100 + min (-9 : Int) (min 0 12) < j ∧ j ≤ 100 + max (-9 : Int) (max 0 12)) :
      InWindow { Asu.reset with assembling := true, latest := some 100, pGauge := -9, pLateral := 12 } j := ⟨100, rfl, h⟩
  have within (j : Int) (h : InWindow { Asu.reset with assembling := true, latest := some 100, pGauge := -9, pLateral := 12 } j) :
      100 + min (-9 : Int) (min 0 12) < j ∧ j ≤ 100 + max (-9 : Int) (max 0 12) := by
    obtain ⟨k, hk, h⟩ := h; cases hk; exact h
  exact ⟨rfl, rfl, by unfold Fits32; decide, inside 92 (by decide), inside 112 (by decide), fun h => absurd (within 91 h) (by decide),
    fun h => absurd (within 113 h) (by decide)⟩

/-- An empty window in IDLE and in ACTIVE, and one with an entry. -/
theorem witness_ABaseRecordFormsWhatIsDue :
    { Bus.reset with toGcu := [.base (emptyBase 5)] }.toGcu = .base (emptyBase 5) :: [] ∧ Gcu.reset.active = false ∧
    { Gcu.reset with active := true }.active = true ∧ WindowSound { Gcu.reset with active := true } ∧
    WindowSound (Gcu.file { Gcu.reset with active := true } (emptyBase 5) none) := by
  refine ⟨rfl, rfl, rfl, ⟨rfl, by intro i e h; cases h⟩, ⟨rfl, ?_⟩⟩
  intro i e h
  simp only [Gcu.file, Gcu.reset, Table.put, Table.get?] at h
  split at h
  · next hi => cases h; rw [← hi]; decide
  · cases h

theorem witness_AStreamEndFlushesTheWindow :
    { Bus.reset with toGcu := [.reversal] }.toGcu = .reversal :: [] ∧ { Bus.reset with toGcu := [.suspend] }.toGcu = .suspend :: [] ∧
    { Bus.reset with toGcu := [.stop] }.toGcu = .stop :: [] ∧ { Bus.reset with toGcu := [.start startInfo] }.toGcu = .start startInfo :: [] ∧
    Gcu.reset.active = false ∧ (Gcu.file { Gcu.reset with active := true } (emptyBase 5) none).active = true := by
  decide

/-- Arms and half base at their least; each profile with its three values, and a heading at both ends. -/
theorem witness_ParametersFollowTheirFormulas :
    let c := { Gcu.reset with armA := 1, armB := 0, halfBase := 1, interval := 125 }
    0 < c.armA + c.armB ∧ 0 < c.halfBase ∧ 0 < c.interval ∧
    { emptyBase 5 with lateral := { hy := none, roll := some 3, psi := none } }.lateral.roll = some 3 := by
  decide

/-- A slew of the limit itself, at a chainage on the exit, with the cursor on an entry. -/
theorem witness_AnAssignmentAdvancesAndSlews :
    { Bus.reset with toPru := [.event (event 101)] }.toPru = .event (event 101) :: [] ∧
    (let p := { planned with residual := 5, ccur := 17249745 }
     0 ≤ p.slewLimit ∧ assigned p (event 101) 250 = 17250000 ∧ Fits32 17250000 ∧ Fits32 (p.correction + 5) ∧ p.running = true ∧
     p.cursor = some 1 ∧ ∃ x, p.plan[1]? = some x ∧ ¬Beyond p x .fwd 17250000) := by
  refine ⟨rfl, by decide, by decide, by unfold Fits32; decide, by unfold Fits32; decide, rfl, rfl, _, rfl, ?_⟩
  unfold Beyond; decide

/-- One millimetre beyond the exit: from entry 1 the neighbour is on another line, from entry 0 on the same one, at entry 3 there is none. -/
theorem witness_TheCursorMovesWithTheChainage :
    planned.running = true ∧ 0 ≤ planned.slewLimit ∧ Fits32 17250001 ∧
    (∃ x, planned.plan[1]? = some x ∧ Beyond planned x .fwd 17250001) ∧ neighbourOf planned .fwd 1 = some (2, ⟨9, .minus⟩) ∧
    (planned.segment 9).lineCode ≠ planned.lineCode ∧
    (∃ x, planned.plan[0]? = some x ∧ Beyond planned x .fwd 15500001) ∧ neighbourOf planned .fwd 0 = some (1, ⟨5, .plus⟩) ∧
    (planned.segment 5).lineCode = planned.lineCode ∧ (planned.segment 5).lo ≤ 15500001 ∧ 15500001 ≤ (planned.segment 5).hi ∧
    neighbourOf planned .fwd 3 = none ∧ (∃ x, planned.plan[3]? = some x ∧ Beyond planned x .fwd 299999) ∧
    assigned { planned with ccur := 17249751 } (event 101) 250 = 17250001 := by
  refine ⟨rfl, by decide, by unfold Fits32; decide, ⟨_, rfl, ?_⟩, by decide, by decide, ⟨_, rfl, ?_⟩, by decide, by decide, by decide,
    by decide, by decide, ⟨_, rfl, ?_⟩, by decide⟩ <;> (unfold Beyond; decide)

theorem witness_TheHistoryHoldsTheLatest4096 : Pru.reset.history = [] := rfl

theorem witness_ThePruAndTheMtuTakeTheirNotices :
    { Bus.reset with toPru := [.reversal] }.toPru = .reversal :: [] ∧ { Bus.reset with toPru := [.start startInfo] }.toPru = .start startInfo :: [] ∧
    (∃ x, planned.plan[startInfo.entry]? = some x) ∧ { Bus.reset with toPru := [.suspend] }.toPru = .suspend :: [] ∧
    { Bus.reset with toPru := [.resume] }.toPru = .resume :: [] ∧
    { Bus.reset with toPru := [.event (event 1), .stop] }.toPru = [event 1].map Message.event ++ .stop :: [] ∧
    { Bus.reset with toMtu := [.start startInfo] }.toMtu = .start startInfo :: [] ∧ { Bus.reset with toMtu := [.suspend] }.toMtu = .suspend :: [] ∧
    { Bus.reset with toMtu := [.resume] }.toMtu = .resume :: [] ∧
    { Bus.reset with toMtu := [.event (event 1), .stop] }.toMtu = [event 1].map Message.event ++ .stop :: [] := by
  refine ⟨rfl, rfl, ⟨_, rfl⟩, rfl, rfl, rfl, rfl, rfl, rfl, rfl⟩

/-- The fix of the worked example, j 4,000 of line 210 with grade 2, in history and in RUNNING; outside RUNNING; a stale index; an error
of the accept window itself and one beyond it; an entry of grade 2 and of grade 1 at eight samples; the cursor on the plan and off it. -/
theorem witness_AFixOfTheCurrentLineIsCheckedAndApplied :
    let payload : List Byte := [0, 0, 0x0F, 0xA0, 0x00, 0xBC, 0x63, 0x76, 0, 210, 2, 0]
    let now : List Byte := [0, 8, 0x00, 0xF1, 0x6D, 0x46, 0, 210, 3, 0]
    Serves (asking travelling 0x21 payload) .cp0 { code := 0x21, tag := 7, payload := payload } .fixAt ∧
    Serves (asking travelling 0x22 now) .cp0 { code := 0x22, tag := 7, payload := now } .fixNow ∧
    travelling.rcu.runState = .running ∧ State.reset.rcu.runState ≠ .running ∧ travelling.resumeWaits = false ∧
    { travelling with bus := { Bus.reset with toPru := [.resume] } }.resumeWaits = true ∧
    travelling.startWaits = false ∧ getU16 payload 8 = planned.lineCode ∧ planned.lineCode ≠ 0 ∧ 1 ≤ getU8 payload 10 ∧
    getU8 payload 10 ≤ 3 ∧ getU8 payload 11 ≤ 1 ∧ Fits32 (getS32 payload 0) ∧
    planned.reference 99 250 = none ∧ planned.reference 4000 250 = some (17475000, 0) ∧ planned.historyAt 4000 = none ∧
    (let e : Int := 17480000 - 17475000
     (e.natAbs : Int) ≤ planned.acceptWindow ∧ planned.acceptWindow < ((e + 1).natAbs : Int)) ∧
    (let entries (grade : Nat) : List Fix := [{ fixAt 3992 0 with grade := grade }]
     (∃ f, ((entries 2).filter (fun f => decide (((4000 : Int) - f.j).natAbs ≤ 8))).head? = some f ∧ getU8 payload 10 ≤ f.grade) ∧
     ∀ g ∈ (entries 1).filter (fun f => decide (((4000 : Int) - f.j).natAbs ≤ 8)), g.grade < getU8 payload 10) ∧
    planned.cursor ≠ none ∧ { planned with cursor := none }.cursor = none ∧
    (∃ x, planned.plan[0]? = some x ∧ (planned.segment x.segment).lineCode = planned.lineCode) := by
  refine ⟨serves_asking rfl, serves_asking rfl, rfl, by decide, by decide, by decide, by decide, by decide, by decide, by decide, by decide,
    by decide, by unfold Fits32; decide, by decide, by decide, by decide, by decide, ⟨⟨_, rfl, by decide⟩, by decide⟩, by decide, rfl,
    ⟨_, rfl, by decide⟩⟩

/-- A fix of line 305 at 700,000 mm, which entry 3 holds and no earlier one; at 2,400,001, which none holds; a stale index; a point
recorded on line 305. -/
theorem witness_AFixOfAnotherLineIsPlacedOnThePlan :
    let payload : List Byte := [0, 0, 0, 100, 0x00, 0x0A, 0xAE, 0x60, 0x01, 0x31, 1, 0]
    let h : HistoryEntry :=
      { index := 100, chainage := 16500000, correction := 0, planEntry := some 1, segment := some 5, lineCode := 210, speed := 1000,
        uncertain := false, step := false, line := false, slip := false, encSwitch := false }
    let p := { planned with history := [(100, h)] }
    Serves (asking travelling 0x21 payload) .cp0 { code := 0x21, tag := 7, payload := payload } .fixAt ∧
    travelling.rcu.runState = .running ∧ travelling.resumeWaits = false ∧ travelling.startWaits = false ∧
    getU16 payload 8 ≠ planned.lineCode ∧ getU16 payload 8 ≠ 0 ∧ 1 ≤ getU8 payload 10 ∧ getU8 payload 10 ≤ 3 ∧ getU8 payload 11 ≤ 1 ∧
    p.reference 100 250 ≠ none ∧ p.reference 99 250 = none ∧ (∀ g, p.historyAt 100 = some g → g.lineCode ≠ 305) ∧
    (∀ g, { planned with history := [(100, { h with lineCode := 305 })] }.historyAt 100 = some g → g.lineCode = 305) ∧
    (let holds (c : Int) (x : PlanEntry) : Prop :=
       (p.segment x.segment).lineCode = 305 ∧ (p.segment x.segment).lo ≤ c ∧ c ≤ (p.segment x.segment).hi
     (∀ x ∈ p.plan, ¬holds 2400001 x) ∧ p.plan[3]? = some ⟨10, .minus⟩ ∧ holds 700000 ⟨10, .minus⟩ ∧
     (∀ i y, i < 3 → p.plan[i]? = some y → ¬holds 700000 y)) ∧
    p.latest = some 100 ∧ ∀ f ∈ p.fixes, 8 < ((100 : Int) - f.j).natAbs := by
  refine ⟨serves_asking rfl, rfl, by decide, by decide, by decide, by decide, by decide, by decide, by decide, by decide, by decide,
    ?_, ?_, ⟨by decide, rfl, by decide, ?_⟩, rfl, by decide⟩
  · intro g hg; cases hg; decide
  · intro g hg; cases hg; rfl
  · intro i y hi hy
    match i, hi with
    | 0, _ => cases hy; decide
    | 1, _ => cases hy; decide
    | 2, _ => cases hy; decide

/-- The pair of the worked example; a base of 1,000,000 mm itself and one below; a ratio of 2 % itself and one beyond. -/
theorem witness_CalibrateCorrectsTheWeightInUse :
    Serves (asking running 0x23 []) .cp0 { code := 0x23, tag := 7, payload := [] } .calibrate ∧
    running.rcu.runState ≠ .suspended ∧ pairOf 0 [] = none ∧
    pairOf 0 [fixAt 12000 4004100, { fixAt 8700 2178000 with lineCode := 305 }, fixAt 4000 2002700] =
      some (fixAt 12000 4004100, fixAt 4000 2002700) ∧
    (let measured (f g : Fix) : Nat := (g.j - f.j).natAbs * 250
     let off (f g : Fix) : Nat := (((g.chainage - f.chainage).natAbs : Int) - measured f g).natAbs * 50
     1000000 ≤ measured (fixAt 4000 0) (fixAt 0 0) ∧ measured (fixAt 3999 0) (fixAt 0 0) < 1000000 ∧
     off (fixAt 4000 1020000) (fixAt 0 0) ≤ measured (fixAt 4000 0) (fixAt 0 0) ∧
     measured (fixAt 4000 0) (fixAt 0 0) < off (fixAt 4000 1020001) (fixAt 0 0)) := by
  refine ⟨serves_asking rfl, by decide, by decide, by decide, by decide⟩

/-- JUMP_PLAN in the three run states, to the last entry and beyond it, at the end of its segment and one beyond; SET_PACE with its least interval and
bytes, and with each out of range. -/
theorem witness_JumpPlanAndSetPaceActInTheirStates :
    Serves (asking travelling 0x24 [3, 0x00, 0x0D, 0x6D, 0x80]) .cp0 { code := 0x24, tag := 7, payload := [3, 0x00, 0x0D, 0x6D, 0x80] } .jumpPlan ∧
    State.reset.rcu.runState = .standby ∧ (travelling.rcu.runState = .running ∧ planned.latest ≠ none ∧ travelling.startWaits = false) ∧
    planned.plan[4]? = none ∧ planned.plan[3]? = some ⟨10, .minus⟩ ∧ (planned.segment 10).lo ≤ 880000 ∧ 880000 ≤ (planned.segment 10).hi ∧
    ¬880001 ≤ (planned.segment 10).hi ∧
    Serves (asking pacing 0x20 [0, 1, 1, 1]) .cp0 { code := 0x20, tag := 7, payload := [0, 1, 1, 1] } .setPace ∧
    (pacing.rcu.runState = .running ∧ pacing.rcu.source = .pace) ∧ ¬(running.rcu.runState = .running ∧ running.rcu.source = .pace) ∧
    getU16 [0, 1, 1, 1] 0 ≠ 0 ∧ getU8 [0, 1, 1, 1] 2 ≤ 1 ∧ getU8 [0, 1, 1, 1] 3 ≤ 1 ∧ 1 < getU8 [0, 1, 2, 1] 2 := by
  refine ⟨serves_asking rfl, rfl, by decide, by decide, by decide, by decide, by decide, by decide, serves_asking rfl, by decide,
    by decide, by decide, by decide, by decide, by decide⟩

theorem witness_TheLevelIsTheHighestExceeded :
    let l := gaugeLimits
    0 ≤ l.u1 ∧ 0 ≤ l.u2 ∧ 0 ≤ l.u3 ∧ l.l1 ≤ 0 ∧ l.l2 ≤ 0 ∧ l.l3 ≤ 0 ∧ l.u1 ≤ l.u2 ∧ l.u2 ≤ l.u3 ∧ -l.l1 ≤ -l.l2 ∧
    l.enable.getLsbD 5 = false := by
  decide

theorem witness_EveryRunYieldsOneClosedRecord : ∀ x, some gaugeRun = some x → RunSound x := by
  intro x h; cases h; unfold RunSound; decide

/-- The last index before the long-run limit; absent values at and below the merge gap; a value on the run's side that beats the peak and reaches
level 3; one in the band; one inside with the count below and at the merge gap; one on the other side. -/
theorem witness_AnOpenRunFollowsItsValues :
    let l := gaugeLimits
    let x := gaugeRun
    ((gaugeRecord 4098 none).j - x.startIndex).natAbs + 1 < 4000 ∧ { x with absent := 2 }.absent < l.mergeGap ∧
    l.mergeGap ≤ { x with absent := 3 }.absent ∧ l.side 12001 = some x.side ∧ x.peak < 12001 ∧ x.severity < 3 ∧ l.level 12001 = 3 ∧
    l.side 3701 = none ∧ l.opening x.side = some 4000 ∧ 4000 - l.hysteresis < 3701 ∧ ¬4000 - l.hysteresis < 3700 ∧
    { x with inside := 2 }.inside < l.mergeGap ∧ l.mergeGap ≤ { x with inside := 3 }.inside ∧ l.side (-2001) = some .low ∧ Side.low ≠ x.side := by
  decide

/-- A masked record, one with a value and one without. -/
theorem witness_RecordsAreAnnotatedAndStreamsEndTheRuns :
    { Bus.reset with toExu := [.record (gaugeRecord 5 (some 4500))] }.toExu = .record (gaugeRecord 5 (some 4500)) :: [] ∧
    (∃ k m, (gaugeRecord 5 none).segment = some k ∧ m ∈ (planned.segment k).masks ∧ m.params.getLsbD Param.g.number = true ∧
      m.lo ≤ 16180000 ∧ 16180000 ≤ m.hi) ∧
    (gaugeRecord 5 none).values.checked.get .g = none ∧ (gaugeRecord 5 (some 4500)).values.checked.get .g = some 4500 ∧
    { Bus.reset with toExu := [.streamEnd .stopped 1] }.toExu = .streamEnd .stopped 1 :: [] ∧
    { Bus.reset with toExu := [.start] }.toExu = .start :: [] := by
  refine ⟨rfl, ⟨5, { lo := 16100000, hi := 16180000, params := 7 }, rfl, by decide, by decide, by decide, by decide⟩, rfl, rfl, rfl, rfl⟩

/-- A written line in RUNNING; a candidate at the minimum spacing and one sample nearer; the last index of the range and the next. -/
theorem witness_AnEdgeIsCapturedOrIgnored :
    let s := { running with mtu := { Mtu.reset with running := true, m1 := { MarkerState.reset with spacing := 8, previous := some 92 } },
                            rcu := { running.rcu with written := [.marker .m1] } }
    Edge.rising = (s.mtu.marker .m1).edge ∧ s.mtu.running = true ∧ s.odu.view ≠ .suspended ∧
    ¬{ s.odu with view := .suspended }.view ≠ .suspended ∧ s.rcu.isWritten (.marker .m1) = true ∧ Mtu.reset.running = false ∧
    ((99 : Int) - 92).natAbs < (s.mtu.marker .m1).spacing ∧ ¬((100 : Int) - 92).natAbs < (s.mtu.marker .m1).spacing ∧
    Fits32 2147483647 ∧ ¬Fits32 2147483648 := by
  unfold Fits32; decide

theorem witness_AnswersReachTheEntriesThatAsked :
    { Bus.reset with chainageRequests := [⟨.m1, 1, 99⟩] }.chainageRequests = ⟨.m1, 1, 99⟩ :: [] ∧ travelling.startWaits = false ∧
    planned.historyAt 99 = none ∧ planned.latest = some 100 ∧ planned.direction.sign * ((99 : Int) - 100) ≤ 0 ∧
    0 < planned.direction.sign * ((101 : Int) - 100) ∧ Pru.reset.latest = none ∧
    { Bus.reset with chainageAnswers := [⟨.m1, 1, none⟩] }.chainageAnswers = ⟨.m1, 1, none⟩ :: [] ∧
    { Bus.reset with asuAnswers := [.placement .m1 1 true] }.asuAnswers = .placement .m1 1 true :: [] ∧
    { Bus.reset with asuAnswers := [.loss 5 true false] }.asuAnswers = .loss 5 true false :: [] := by
  decide

/-- A channel due in IDLE and in PULSE, one not due, and a pulse that runs. -/
theorem witness_TriggersFireOnTheLattice :
    { Bus.reset with toMtu := [.event (event 3)] }.toMtu = .event (event 3) :: [] ∧
    (let x := { TriggerState.reset with enable := true, pitch := 10, phase := 3 }
     x.enable = true ∧ (x.pitch : Int) ∣ (3 + x.mount) - x.phase ∧ ¬(x.pitch : Int) ∣ (4 + x.mount) - x.phase ∧ x.timer = none ∧
     { x with timer := some 9 }.timer ≠ none) ∧
    ({ Mtu.reset with t1 := { TriggerState.reset with timer := some 9 } }.trigger .t1).timer = some 9 := by
  decide

/-- A part whose needed items are written, asked to start entry 1 at the ends of its segment. -/
theorem witness_AnAcceptedStartBeginsTheRun :
    let s := { State.reset with pru := planned, rcu := { Rcu.reset with
      written := [.odometry, .sensors, .compute, .fixPolicy, .plan, .limitSet 0, .limitSet 2, .limitSet 3, .limitSet 5, .segment 4,
                  .segment 5, .segment 9, .segment 10] } }
    let payload : List Byte := [1, 0x01, 0x07, 0x36, 0xD0, 0, 2]
    Serves (asking s 0x10 payload) .cp0 { code := 0x10, tag := 7, payload := payload } .start ∧ s.rcu.runState = .standby ∧
    getU8 payload 0 ≤ 31 ∧ getU8 payload 5 = Direction.fwd.code ∧ getU8 payload 6 = CountSource.pace.code ∧
    (∀ i ∈ [ItemId.odometry, .sensors, .compute, .fixPolicy, .plan, .limitSet 0], s.rcu.isWritten i = true) ∧
    (∀ y ∈ s.pru.plan, s.rcu.isWritten (.segment y.segment) = true ∧
      s.rcu.isWritten (.limitSet (s.pru.segment y.segment).limitSet) = true) ∧
    min s.asu.pGauge (min s.asu.pVertical s.asu.pLateral) ≤ 0 ∧ 0 ≤ max s.asu.pGauge (max s.asu.pVertical s.asu.pLateral) ∧
    max s.asu.pGauge (max s.asu.pVertical s.asu.pLateral) - min s.asu.pGauge (min s.asu.pVertical s.asu.pLateral) ≤ 200 ∧
    s.pru.plan[1]? = some ⟨5, .plus⟩ ∧ (s.pru.segment 5).lo ≤ getS32 payload 1 ∧ getS32 payload 1 ≤ (s.pru.segment 5).hi ∧
    getS32 payload 1 = 17250000 := by
  refine ⟨serves_asking rfl, rfl, by decide, by decide, by decide, by decide, by decide, by decide, by decide, by decide, by decide,
    by decide, by decide, by decide⟩

/-- Each refusal of START: outside STANDBY; an entry, a direction and a source out of range; an unwritten item; mounts that do not pass; an entry beyond
the plan; a chainage beyond the segment. -/
theorem witness_ARefusedStartNamesItsCheck :
    Serves (asking running 0x10 [32, 0, 0, 0, 0, 0, 1]) .cp0 { code := 0x10, tag := 7, payload := [32, 0, 0, 0, 0, 0, 1] } .start ∧
    running.rcu.runState ≠ .standby ∧ State.reset.rcu.runState = .standby ∧ 31 < getU8 [32, 0, 0, 0, 0, 0, 1] 0 ∧
    1 < getU8 [1, 0, 0, 0, 0, 2, 1] 5 ∧ getU8 [1, 0, 0, 0, 0, 0, 0] 6 = 0 ∧ 2 < getU8 [1, 0, 0, 0, 0, 0, 3] 6 ∧
    State.reset.rcu.isWritten .odometry = false ∧
    (let mounts (a : Asu) : Int × Int := (min a.pGauge (min a.pVertical a.pLateral), max a.pGauge (max a.pVertical a.pLateral))
     0 < (mounts { Asu.reset with pGauge := 1, pVertical := 1, pLateral := 1 }).1 ∧
     (mounts { Asu.reset with pGauge := -1, pVertical := -1, pLateral := -1 }).2 < 0 ∧
     200 < (mounts { Asu.reset with pGauge := -100, pLateral := 101 }).2 - (mounts { Asu.reset with pGauge := -100, pLateral := 101 }).1) ∧
    planned.plan.length ≤ 4 ∧ ¬17250001 ≤ (planned.segment 5).hi := by
  refine ⟨serves_asking rfl, by decide, rfl, by decide, by decide, by decide, by decide, by decide, by decide, by decide, by decide⟩

theorem witness_TheRunStateFollowsItsEvents :
    Serves (asking running 0x11 []) .cp0 { code := 0x11, tag := 7, payload := [] } .stop ∧ running.rcu.runState ≠ .standby ∧
    State.reset.rcu.runState = .standby ∧ { Bus.reset with toRcu := [.lost] }.toRcu = .lost :: [] ∧
    { Bus.reset with toRcu := [.restored] }.toRcu = .restored :: [] ∧ running.rcu.runState = .running ∧
    { running.rcu with runState := .suspended }.runState = .suspended ∧ { Bus.reset with toRcu := [.event (event 1)] }.toRcu = .event (event 1) :: [] := by
  refine ⟨serves_asking rfl, by decide, rfl, rfl, rfl, rfl, rfl, rfl⟩

/-- SET_ITEM COMPUTE accepted at the ends of its fields, and each refusal: kind 10, a length one short, RUNNING, index 1, an arm of 49; and the three
refusals of READ_ITEM. -/
theorem witness_ItemsAreJudgedWrittenAndReturned :
    let b : List Byte := [1, 48, 1, 48]
    Serves (asking State.reset 0x12 ([3, 0] ++ b)) .cp0 { code := 0x12, tag := 7, payload := [3, 0] ++ b } .setItem ∧
    itemLength 10 = none ∧ itemLength 3 ≠ some ([3, 0, 1, 48, 1].length - 2) ∧ itemLength 3 = some b.length ∧
    running.rcu.runState ≠ .standby ∧ State.reset.rcu.runState = .standby ∧ itemOf 3 1 = none ∧ itemOf 3 0 = some .compute ∧
    (∀ f ∈ itemChecks .compute b, f.2 = true) ∧ itemChecks .compute [49, 48, 1, 48] = [] ++ (0, false) :: [(1, true), (2, true), (3, true)] ∧
    Serves (asking State.reset 0x13 [3, 0]) .cp0 { code := 0x13, tag := 7, payload := [3, 0] } .readItem ∧
    State.reset.rcu.isWritten .compute = false ∧ { Rcu.reset with written := [.compute] }.isWritten .compute = true := by
  refine ⟨serves_asking rfl, by decide, by decide, by decide, by decide, rfl, by decide, by decide, by decide, by decide,
    serves_asking rfl, by decide, by decide⟩

/-- MARKER at the ends of its fields. -/
theorem witness_AnItemReadsBackAsWritten :
    let b : List Byte := [1, 0x9C, 0x10, 0]
    itemOf (kindCode (.marker .m2)) (indexCode (.marker .m2)) = some (.marker .m2) ∧
    itemLength (kindCode (.marker .m2)) = some b.length ∧ ∀ f ∈ itemChecks (.marker .m2) b, f.2 = true := by
  decide

/-- A store with no record; one at its capacity. -/
theorem witness_AppendsNumberAndReplaceTheOldest :
    { Bus.reset with toRds := [.geometry (gaugeRecord 5 none) ⟨0, 0, 0, 0, 0, 0, 3⟩] }.toRds =
      .geometry (gaugeRecord 5 none) ⟨0, 0, 0, 0, 0, 0, 3⟩ :: [] ∧
    { Bus.reset with toRds := [.exception (gaugeRun.closed .g 1 .stopped)] }.toRds = .exception (gaugeRun.closed .g 1 .stopped) :: [] ∧
    (⟨0, 0, 0, 0, 0, 0, 3⟩ : Seven Nat).get .ar ≤ 3 ∧ State.reset.rds.geometry.records.length < 8192 ∧
    8192 ≤ (List.replicate 8192 (wireRecord (gaugeRecord 5 none) ⟨0, 0, 0, 0, 0, 0, 0⟩ 0)).length ∧
    256 ≤ (List.replicate 256 ({ sequence := 0, record := gaugeRun.closed .g 1 .stopped } : StoredException)).length := by
  refine ⟨rfl, rfl, by decide, by decide, ?_, ?_⟩ <;> simp only [List.length_replicate, Nat.le_refl]

/-- Reset's empty stores are sound, with every cursor at the next number. -/
theorem stores_sound_reset : StoresSound State.reset := by
  refine ⟨⟨by decide, by decide, by intro i x h; cases h⟩, ⟨by decide, by decide, by intro i x h; cases h⟩, ?_, ?_⟩ <;>
    (intro p; cases p <;> (unfold CursorSound; decide))

theorem witness_ReadsAdvanceTheCursor :
    StoresSound State.reset ∧
    Serves (asking State.reset 0x03 [0, 24]) .cp0 { code := 0x03, tag := 7, payload := [0, 24] } .readRecords ∧
    Serves (asking State.reset 0x04 [0, 25]) .cp0 { code := 0x04, tag := 7, payload := [0, 25] } .readExceptions :=
  ⟨stores_sound_reset, serves_asking rfl, serves_asking rfl⟩

theorem witness_SetCursorMovesToAnEnd :
    Serves (asking State.reset 0x05 [1, 1]) .cp0 { code := 0x05, tag := 7, payload := [1, 1] } .setCursor ∧ getU8 [1, 1] 0 = 1 ∧
    getU8 [1, 1] 1 ≤ 1 ∧ getU8 [0, 1] 0 = 0 ∧ 1 < getU8 [2, 1] 0 ∧ 1 < getU8 [0, 2] 1 ∧ StoresSound State.reset ∧
    State.reset.rds.geometry.records = [] ∧ State.reset.rds.exceptions.records = [] := by
  refine ⟨serves_asking rfl, by decide, by decide, by decide, by decide, by decide, stores_sound_reset, rfl, rfl⟩

/-- Watermark 8192 and threshold 3, and one more of each. -/
theorem witness_SetAttentionJudgesAttnAfterService :
    Serves (asking State.reset 0x06 [0x20, 0, 3]) .cp0 { code := 0x06, tag := 7, payload := [0x20, 0, 3] } .setAttention ∧
    (asking State.reset 0x06 [0x20, 0, 3]).power = .on ∧ getU16 [0x20, 0, 3] 0 ≤ 8192 ∧ getU8 [0x20, 0, 3] 2 ≤ 3 ∧
    8192 < getU16 [0x20, 1, 3] 0 ∧ 3 < getU8 [0x20, 0, 4] 2 := by
  refine ⟨serves_asking rfl, rfl, by decide, by decide, by decide, by decide⟩

/-- The hold and the held pin; an idle port; five bytes, a spare bit, and a wrong check; a port that serves, and one with a reply, read whole and a bit short. -/
theorem witness_SelectPeriodsFollowThePhase :
    State.reset.power ≠ .on ∧ { State.reset with power := .held }.power ≠ .on ∧ { State.reset with power := .on }.power = .on ∧
    (State.reset.cpc.port .cp0).phase = .idle ∧ ([] : List Byte).length ≤ 1024 ∧
    [1, 2, 3, 4, 5].length < 6 ∧ be16 (frameCheck ([1, 0, 0, 0, 0, 0].take 4)) ≠ [1, 0, 0, 0, 0, 0].drop 4 ∧
    ((asking State.reset 0x01 []).cpc.port .cp0).phase = .serving { code := 0x01, tag := 7, payload := [] } ∧
    (({ Cpc.reset with cp0 := { PortState.reset with phase := .replyReady [1, 7] } } : Cpc).port .cp0).phase = .replyReady [1, 7] ∧
    8 * [1, 7].length ≤ 16 ∧ 15 < 8 * [1, 7].length := by
  decide +kernel

theorem witness_ARequestFrameReadsBack : (List.replicate 1024 (0 : Byte)).length ≤ 1024 := by simp only [List.length_replicate, Nat.le_refl]

theorem witness_ReadsReturnTheListsAsTheyStand :
    Serves (asking State.reset 0x99 []) .cp0 { code := 0x99, tag := 7, payload := [] } .unknown ∧
    Serves (asking State.reset 0x01 [1, 2, 3]) .cp0 { code := 0x01, tag := 7, payload := [1, 2, 3] } .echo ∧
    Serves (asking State.reset 0x07 []) .cp0 { code := 0x07, tag := 7, payload := [] } .readOpenRuns ∧
    Serves (asking State.reset 0x08 []) .cp0 { code := 0x08, tag := 7, payload := [] } .readFixes ∧
    Serves (asking State.reset 0x09 []) .cp0 { code := 0x09, tag := 7, payload := [] } .readMarkers ∧
    Serves (asking State.reset 0x02 []) .cp0 { code := 0x02, tag := 7, payload := [] } .readStatus ∧
    allParams[6]? = some .ar ∧ ({ Exu.reset with runs := ⟨some gaugeRun, none, none, none, none, none, none⟩ }.runs.get .g) = some gaugeRun ∧
    [fixAt 5200 13000640][0]? = some (fixAt 5200 13000640) :=
  ⟨serves_asking rfl, serves_asking rfl, serves_asking rfl, serves_asking rfl, serves_asking rfl, serves_asking rfl,
   rfl, rfl, rfl⟩

/-- Three ports wait; CP2 is served last. -/
theorem witness_NoPortWaitsForMoreThanTwoOthers :
    let rq : Request := { code := 1, tag := 7, payload := [] }
    let x := { PortState.reset with phase := .serving rq }
    let c : Cpc := { Cpc.reset with cp0 := x, cp1 := x, cp2 := x }
    (c.port .cp2).phase = .serving rq ∧ c.nextService = some (.cp0, rq) ∧ Port.cp0 ≠ .cp2 ∧
    ((c.answer .cp0 rq (.of .ok [])).setPort .cp0 x).nextService = some (.cp1, rq) ∧ Port.cp1 ≠ .cp2 := by
  decide +kernel

/-- Every invariant holds of reset, where a step goes on. -/
theorem witness_invariants : ActiveEncoderSound running ∧ StoresSound State.reset ∧ FixListSound State.reset ∧ MtuSound State.reset ∧
    ∃ t, step State.reset = .next t :=
  ⟨fun _ _ => rfl, stores_sound_reset, ⟨by decide, List.Pairwise.nil⟩, ⟨fun t => by cases t <;> decide, by decide⟩, ⟨_, rfl⟩⟩

theorem witness_OpenedLessClosedIsTheOpenRuns :
    OpenRunsSound { State.reset with exu := { Exu.reset with runs := ⟨some gaugeRun, none, none, none, none, none, none⟩, opened := 1 } } := by
  refine ⟨?_, by decide⟩
  intro p x h
  cases p <;> cases h
  unfold RunSound; decide

theorem witness_ChannelsLinksAndIntegratorsStayInRange : SlcSound State.reset := by
  refine ⟨fun i => ?_, fun l => ?_, by unfold IntegratorSound; decide, by unfold IntegratorSound; decide, by unfold IntegratorSound; decide⟩
  · cases i <;> exact ⟨by decide, by decide, by decide⟩
  · cases l <;> decide

theorem witness_EveryTableStaysCanonical : TablesSound State.reset := by
  refine ⟨⟨rfl, ?_⟩, ⟨rfl, ?_⟩, ⟨rfl, ?_⟩, ⟨rfl, ?_⟩, ⟨rfl, ?_⟩⟩ <;> (intro i x h; cases h)

/-- A STOP that ends a run, and an append. -/
theorem witness_RunStateAndStoresChangeOnlyAtTheirCommands :
    (after .stop (asking running 0x11 [])).rcu.runState ≠ (asking running 0x11 []).rcu.runState ∧
    (∃ t, exec .stop (asking running 0x11 []) = .next t) ∧ ∀ cause, Instr.stop ≠ .powerOn cause := by
  refine ⟨by decide +kernel, ⟨_, rfl⟩, by intro cause h; cases h⟩

/-- A command in RUNNING that is neither SET_ITEM nor CALIBRATE; a SET_ITEM while the GCU is ACTIVE stands in the witness of Quiet. -/
theorem witness_TheConfigurationIsConstantThroughARun :
    running.rcu.runState ≠ .standby ∧ Instr.paceCount ≠ .setItem ∧ Instr.paceCount ≠ .calibrate ∧ (∃ t, exec .paceCount running = .next t) ∧
    ∀ cause, Instr.paceCount ≠ .powerOn cause := by
  refine ⟨by decide, by decide, by decide, ⟨_, rfl⟩, by intro cause h; cases h⟩

/-! ### Witnesses of further clauses, at the bounds of their ranges -/

/-- The count that makes the index count N + 3 and one that starts it again; a silence count that reaches 512 and one that does not. -/
theorem witness_CountsMoveThePositionOnlyWhenActive_supervised :
    let x : EncoderState := { encoder with prevSense := some .forward, indexCount := 4098, aligned := true }
    (∃ q, x.prevSense = some q ∧ q.value = countValue x .a) ∧ x.indexCount + 1 = x.countsPerRev + 3 ∧
    (¬∃ q, x.prevSense = some q ∧ q.value = countValue x .b) ∧
    512 ≤ ((511 : Int) + countValue x .a).natAbs ∧ ((511 : Int) + countValue x .b).natAbs < 512 := by
  refine ⟨⟨_, rfl, by decide⟩, by decide, ?_, by decide, by decide⟩
  rintro ⟨q, hq, h⟩
  cases hq
  exact absurd h (by decide)

/-- With source ENCODERS, the eighth count backward and the first. -/
theorem witness_PaceCountsMoveAndReverse_encoders :
    running.odu.source = .encoders ∧ running.odu.view = .running ∧ running.odu.active = .e1 ∧ countValue running.odu.e1 .b = -1 ∧
    (let back : Int := running.odu.reversalDistance * running.odu.e1.weight
     let moved (x : Int) : Int := x + countValue running.odu.e1 .b * running.odu.e1.weight
     0 < back ∧ running.odu.direction.sign * moved (-7 * 46244) = running.odu.direction.sign * running.odu.extreme - back ∧
     running.odu.direction.sign * running.odu.extreme - back < running.odu.direction.sign * moved 0) := by
  decide

/-- The third strike by a count at N + 3, and the silence of an active OK encoder. -/
theorem witness_SupervisionSwitchesSuspendsAndRestores_counts :
    let x : EncoderState := { encoder with prevSense := some .forward, indexCount := 4098, strikes := 2 }
    let y : EncoderState := { encoder with silence := 511 }
    running.odu.view = .running ∧ running.odu.active = .e1 ∧ x.health = .ok ∧ x.strikes = 2 ∧ x.prevSense = some .forward ∧
    Sense.forward.value = countValue x .a ∧ x.indexCount + 1 = x.countsPerRev + 3 ∧ (encoder.silence + countValue x .a).natAbs < 512 ∧
    running.odu.active = encoderOther .e2 ∧ y.health = .ok ∧ 512 ≤ (y.silence + countValue x .a).natAbs := by
  decide

/-- The active encoder FAILED at the resumption notice. -/
theorem witness_TheOduTakesItsNotices_failed :
    let o : Odu := { running.odu with view := .suspended, e1 := { encoder with health := .failed } }
    { Bus.reset with toOdu := [.resume] }.toOdu = .resume :: [] ∧ (o.enc o.active).health = .failed := by
  decide

/-- One sample beyond the last index of the range, for a snapshot and for the rear slot. -/
theorem witness_IndicesBeyondTheRange :
    ¬Fits32 ((emptyDelivery 2147483647).k + 1) ∧
    (let a := { Asu.reset with pGauge := 1, pVertical := 1, pLateral := 1 }
     ¬Fits32 (2147483647 + min a.pGauge (min a.pVertical a.pLateral))) := by
  unfold Fits32; decide

/-- A pending entry that a base record of its own index makes due where the reach is 0, and one that it leaves pending. -/
theorem witness_ABaseRecordFormsWhatIsDue_due :
    let c := Gcu.file { Gcu.reset with active := true } (emptyBase 5) none
    (∃ e, c.window.get? 5 = some e ∧ e.pending = true ∧ e.j = 5) ∧ Due c 5 5 ∧ ¬Due { c with reachUp := 1 } 5 5 := by
  exact ⟨⟨_, rfl, rfl, rfl⟩, show (5 : Int) ≤ 5 - ((0 : Nat) : Int) by decide, show ¬(5 : Int) ≤ 5 - ((1 : Nat) : Int) by decide⟩

/-- From entry 0 a chainage beyond entry 1 of the same line passes it and meets entry 2; from entry 2 one below entry 3 passes it and meets none. -/
theorem witness_TheCursorMovesWithTheChainage_passed :
    entryFrom planned .fwd 0 1 = some ⟨5, .plus⟩ ∧ (planned.segment 5).lineCode = planned.lineCode ∧
    ¬Before planned ⟨5, .plus⟩ .fwd 17250001 ∧ Beyond planned ⟨5, .plus⟩ .fwd 17250001 ∧ Beyond planned ⟨4, .plus⟩ .fwd 17250001 ∧
    entryFrom planned .fwd 0 2 = some ⟨9, .minus⟩ ∧
    (let p := { planned with cursor := some 2, lineCode := 305 }
     Beyond p ⟨9, .minus⟩ .fwd 299999 ∧ entryFrom p .fwd 2 1 = some ⟨10, .minus⟩ ∧ (p.segment 10).lineCode = p.lineCode ∧
     ¬Before p ⟨10, .minus⟩ .fwd 299999 ∧ Beyond p ⟨10, .minus⟩ .fwd 299999 ∧ entryFrom p .fwd 2 2 = none) := by
  unfold Beyond Before; decide

/-- Each RANGE refusal of a fix; an index in history on another line, and on its own. -/
theorem witness_AFixOfTheCurrentLineIsCheckedAndApplied_refused :
    let fix (line grade force : Byte) : List Byte := [0, 0, 0x0F, 0xA0, 0, 0, 0, 0, 0, line, grade, force]
    let h : HistoryEntry :=
      { index := 4000, chainage := 0, correction := 0, planEntry := none, segment := none, lineCode := 305, speed := 0,
        uncertain := false, step := false, line := false, slip := false, encSwitch := false }
    let p := { planned with history := [(4000, h)] }
    getU16 (fix 0 1 0) 8 = 0 ∧ getU8 (fix 210 0 0) 10 = 0 ∧ 3 < getU8 (fix 210 4 0) 10 ∧ 1 < getU8 (fix 210 1 2) 11 ∧
    ¬Fits32 ((2147483647 : Int) + getS16 [0, 1] 0) ∧ p.historyAt 4000 = some h ∧ h.lineCode ≠ p.lineCode ∧
    (p.reference 4000 250).isSome = true ∧ (∀ g, { p with lineCode := 305 }.historyAt 4000 = some g → g.lineCode = 305) := by
  refine ⟨by decide, by decide, by decide, by decide, by unfold Fits32; decide, by decide, by decide, by decide, ?_⟩
  intro g hg; cases hg; rfl

/-- FIX_NOW of another line, and an entry of its grade eight samples off and one nine off. -/
theorem witness_AFixOfAnotherLineIsPlacedOnThePlan_duplicate :
    let now : List Byte := [0, 8, 0x00, 0x0A, 0xAE, 0x60, 0x01, 0x31, 1, 0]
    let conflicts (fs : List Fix) : List Fix := fs.filter (fun f => decide (((100 : Int) - f.j).natAbs ≤ 8))
    Serves (asking travelling 0x22 now) .cp0 { code := 0x22, tag := 7, payload := now } .fixNow ∧
    getU16 now 6 ≠ planned.lineCode ∧ getU8 now 8 = 1 ∧ (conflicts [fixAt 108 0]).head? = some (fixAt 108 0) ∧
    (∃ g ∈ conflicts [fixAt 108 0], 1 ≤ g.grade) ∧ conflicts [fixAt 109 0] = [] := by
  refine ⟨serves_asking rfl, by decide, by decide, by decide, ⟨fixAt 108 0, by decide, by decide⟩, by decide⟩

/-- A run under another limit set or of another line, one under its own; a value that opens and one that does not. -/
theorem witness_EveryRunYieldsOneClosedRecord_clauses :
    gaugeRun.limitSet ≠ 2 ∧ gaugeRun.lineCode ≠ { gaugeRecord 101 none with lineCode := 305 }.lineCode ∧
    gaugeRun.limitSet = 3 ∧ gaugeRun.lineCode = (gaugeRecord 101 none).lineCode ∧
    (gaugeRecord 101 (some 4001)).values.checked.get .g = some 4001 ∧ gaugeLimits.side 4001 = some .high ∧
    gaugeLimits.side 4000 = none := by
  decide

/-- A run that comes to span 4000 samples. -/
theorem witness_AnOpenRunFollowsItsValues_long : ¬((gaugeRecord 4099 none).j - gaugeRun.startIndex).natAbs + 1 < 4000 := by decide

/-- The part at rest, and one whose GCU is still ACTIVE. -/
theorem witness_ItemsAreJudgedWrittenAndReturned_quiet :
    Quiet (asking State.reset 0x12 [3, 0, 1, 48, 1, 48]) ∧ ¬Quiet { State.reset with gcu := { Gcu.reset with active := true } } := by
  unfold Quiet; decide

/-- A port that takes a frame with no service in progress, and one that takes it while another is in service. -/
theorem witness_NoPortWaitsForMoreThanTwoOthers_taken :
    let covered : List Byte := [1, 7, 0, 0]
    takenFrame (covered ++ be16 (frameCheck covered)) 0 = some { code := 1, tag := 7, payload := [] } ∧ Cpc.reset.nextService = none ∧
    (asking State.reset 1 []).cpc.nextService = some (.cp0, { code := 1, tag := 7, payload := [] }) ∧ Port.cp0 ≠ .cp1 := by
  decide +kernel

/-- An item of each kind at bounds of its fields, and ODOMETRY with four bytes beyond an offset. -/
theorem witness_ItemFieldsAreHeldToTheirRanges :
    let passes (i : ItemId) (b : List Byte) : Prop := ∀ f ∈ itemChecks i b, f.2 = true
    passes .odometry [0, 125, 1, 8, 10, 0, 1, 0, 0x16, 0xE3, 0x60, 1, 0x90, 0, 0, 0x3D, 0x09, 0x00, 0x40, 0, 1] ∧
    passes .sensors [6, 20, 3, 0xE8, 0, 0, 0, 8, 0x9C, 100, 0, 0, 0, 0, 0, 0, 0x1E, 0x84, 0x80, 5, 0x78] ∧
    passes .compute [1, 48, 1, 48] ∧ passes .fixPolicy [0, 0, 0, 100, 0, 1, 0x86, 0xA0, 25] ∧
    passes .plan (1 :: 63 :: 0xFF :: List.replicate 62 0) ∧
    passes (.segment 63) ([0, 1, 0, 0, 0, 0, 0, 0, 0, 1, 15, 1, 0, 0, 0, 0, 0, 0, 0, 1, 127] ++ List.replicate 27 0) ∧
    passes (.limitSet 15) (List.replicate 210 0) ∧ passes (.marker .m2) [1, 0x9C, 0x10, 0] ∧
    passes (.trigger .t4) [1, 0, 1, 0, 0, 100, 0xFF, 0xFF, 1] ∧ 17 + 4 ≤ (List.replicate 21 (0 : Byte)).length := by
  decide +kernel

end Sys2Proof.Tests
end

