-- ==== Sys2Proof/Proofs/WireValues.lean ====
section
/-! PROOFS. The values of a geometry record on the wire and its CLIPPED flag (R87): a flag word bit by bit, the clipping and the
rounding of one value, then the eight values of a record. -/

namespace Sys2Proof.Proofs.WireValues

open Sys2Proof.Machine Sys2Proof.Safety

/-! ### Flag words -/

theorem getLsbD_flagWord (marks : List Bool) {i : Nat} (hi : i < 16) : (flagWord marks).getLsbD i = marks.getD i false := by
  induction marks generalizing i with
  | nil => simp [flagWord]
  | cons b bs ih =>
    have hcons : flagWord (b :: bs) = (flagWord bs <<< 1) ||| (if b then 1 else 0) := rfl
    rw [hcons, BitVec.getLsbD_or, BitVec.getLsbD_shiftLeft]
    cases i with
    | zero => cases b <;> simp
    | succ k =>
      have hk := ih (i := k) (by omega)
      cases b <;> simp [hi, hk]

/-- CLIPPED is bit 8 of a geometry record's flags (R201). -/
theorem flags_clipped_bit (r : OutputRecord) (c : Bool) : (r.flags c).getLsbD 8 = c := by
  rw [OutputRecord.flags, getLsbD_flagWord _ (by decide)]
  rfl

/-! ### One value: rounding and clipping -/

theorem roundsAway_iff {q num : Int} {den : Nat} (h : 0 < den) : RoundsAway q num den ↔ q = roundAway num den := by
  constructor
  · rintro ⟨hnear, htie⟩
    exact roundAway_unique h hnear htie
  · rintro rfl
    exact roundAway_spec num h

theorem clipped_fst (x : Int) : (clipped x).1 = max (-32767) (min 32767 x) := clamp_eq _ _ _ (by decide)

theorem clipped_fst_ne_absent (x : Int) : (clipped x).1 ≠ -32768 := by
  rw [clipped_fst]; omega

/-- A value is marked exactly when it lies outside the wire range. -/
theorem clipped_snd_iff (x : Int) : (clipped x).2 = true ↔ x < -32767 ∨ 32767 < x := by
  have hmark : (clipped x).2 = true ↔ (clipped x).1 ≠ x := by simp [clipped]
  rw [hmark, clipped_fst]; omega

/-- A checked value is marked exactly when it is present and its rounded tenth lies outside the wire range. -/
theorem wireValue_snd_iff (x : Option Int) : (wireValue x).2 = true ↔
    ∃ v, x = some v ∧ ∀ q, RoundsAway q v 10 → q < -32767 ∨ 32767 < q := by
  cases x with
  | none => simp [wireValue]
  | some v => simp [wireValue, clipped_snd_iff, roundsAway_iff]

theorem wireCurvature_snd_iff (x : Option Int) : (wireCurvature x).2 = true ↔ ∃ v, x = some v ∧ (v < -32767 ∨ 32767 < v) := by
  cases x with
  | none => simp [wireCurvature]
  | some v => simp [wireCurvature, clipped_snd_iff]

/-! ### The eight values of a record -/

theorem any_toList_iff (x : Seven Bool) : x.toList.any id = true ↔ ∃ p, x.get p = true := by
  have hall : ∀ p : Param, p ∈ allParams := by intro p; cases p <;> decide
  simp [Seven.toList_eq_map, hall]

section
variable (r : OutputRecord) (levels : Seven Nat) (sequence : Word32)

theorem wireRecord_get (p : Param) :
    (wireRecord r levels sequence).values.get p = (wireValue (r.values.checked.get p)).1 := by
  simp [wireRecord]

theorem wireRecord_cv : (wireRecord r levels sequence).cv = (wireCurvature r.values.cv).1 := rfl

/-- The record's CLIPPED flag gathers the marks of its seven checked values and of its curvature. -/
theorem wireRecord_clipped_iff : (wireRecord r levels sequence).flags.getLsbD 8 = true ↔
    (∃ p, (wireValue (r.values.checked.get p)).2 = true) ∨ (wireCurvature r.values.cv).2 = true := by
  have hbit : (wireRecord r levels sequence).flags.getLsbD 8 =
      ((((r.values.checked.map wireValue).map (·.2)).toList.any id) || (wireCurvature r.values.cv).2) := flags_clipped_bit r _
  rw [hbit, Bool.or_eq_true, any_toList_iff]
  simp only [Seven.get_map]

end

/-- Settles O46: each value by the rounding and clipping of one value, the flag by the marks of the eight. -/
theorem wireValuesAreRoundedAndClipped : Obligations.WireValuesAreRoundedAndClipped := by
  intro r levels sequence
  refine ⟨fun p v hv => ?present, fun p hp => ?absent, fun v hv => ?curvature, fun hc => ?noCurvature, ?flag⟩
  case present =>
    have hw : (wireRecord r levels sequence).values.get p = (clipped (roundAway v 10)).1 := by
      rw [wireRecord_get, hv]; rfl
    exact ⟨roundAway v 10, roundAway_spec v (by decide), hw.trans (clipped_fst _), hw ▸ clipped_fst_ne_absent _⟩
  case absent => rw [wireRecord_get, hp]; rfl
  case curvature =>
    rw [wireRecord_cv, hv]
    exact clipped_fst v
  case noCurvature => rw [wireRecord_cv, hc]; rfl
  case flag =>
    rw [wireRecord_clipped_iff, wireCurvature_snd_iff]
    simp only [wireValue_snd_iff]

end Sys2Proof.Proofs.WireValues
end

