-- ==== Sys2Proof/Proofs/RecordStore.lean ====
section
/-! PROOFS. The requests on the record store and on the attention settings of a port (R188 to R190, R193): what a read takes from a
sound store, when ATTN is high, what each request makes of the state it is served in, then the statements. -/

namespace Sys2Proof.Proofs.RecordStore

open Sys2Proof.Machine Sys2Proof.Safety

/-! ### What a read takes from a sound store (R188, R189) -/

section
variable {α : Type} {capacity : Nat} {sequence : α → Word32} {st : Store α} {c : Word32}

theorem length_read (h : StoreSound capacity sequence st) (hcap : capacity < 2 ^ 32) (hc : CursorSound st c) (n : Nat) :
    (st.read c n).1.length = min (min n 24) (st.unread c).toNat := by
  rw [Store.read_eq, List.length_take, Store.from_length h hcap hc]

/-- The records of a read carry the sequence numbers from the cursor onward. -/
theorem sequence_read (h : StoreSound capacity sequence st) {n i : Nat} {r : α} (hr : (st.read c n).1[i]? = some r) :
    sequence r = c + BitVec.ofNat 32 i := by
  have hfrom : (st.from c)[i]? = some r := by
    rw [Store.read_eq, List.getElem?_take] at hr
    split at hr
    · exact hr
    · cases hr
  have hheld : st.records[(c - st.oldest).toNat + i]? = some r := by rwa [Store.from, List.getElem?_drop] at hfrom
  calc sequence r = st.oldest + BitVec.ofNat 32 ((c - st.oldest).toNat + i) := h.numbered _ r hheld
    _ = st.oldest + ((c - st.oldest) + BitVec.ofNat 32 i) := by rw [BitVec.ofNat_add, BitVec.ofNat_toNat, BitVec.setWidth_eq]
    _ = c + BitVec.ofNat 32 i := by ring

theorem oldest_eq_next_of_empty (h : StoreSound capacity sequence st) (hempty : st.records = []) : st.oldest = st.next := by
  simp [h.counted, hempty]

theorem length_flatMap_of_length {f : α → List Byte} {k : Nat} (hf : ∀ a, (f a).length = k) (l : List α) :
    (l.flatMap f).length = k * l.length := by
  simp [List.length_flatMap, hf, Nat.mul_comm]

end

section
variable {s : State} {port : Port} {rq : Request}

/-! ### When ATTN is high (R195) -/

theorem geometryAttn_iff (d : Rds) (x : PortState) :
    geometryAttn d x = true ↔ x.watermark ≠ 0 ∧ x.watermark ≤ (d.geometry.next - x.geoCursor).toNat := by
  rw [geometryAttn, Bool.and_eq_true, decide_eq_true_iff, decide_eq_true_iff, Store.unread]

theorem exceptionAttn_iff (d : Rds) (x : PortState) :
    exceptionAttn d x = true ↔ x.threshold ≠ 0 ∧
      ∃ e ∈ d.exceptions.records.drop (x.excCursor - d.exceptions.oldest).toNat, x.threshold ≤ e.record.severity := by
  simp only [exceptionAttn, Store.from, Bool.and_eq_true, decide_eq_true_iff, List.any_eq_true]

/-- Past the hold, ATTN is high exactly while one of its three conditions holds. -/
theorem attn_iff (hon : s.power = .on) :
    s.attn port = true ↔ geometryAttn s.rds (s.cpc.port port) = true ∨ exceptionAttn s.rds (s.cpc.port port) = true ∨
      (s.cpc.port port).news = true := by
  simp [State.attn, hon, or_assoc]

/-! ### A service and the port it answers (R187) -/

theorem serve_of_serves {v : Service} {f : Port → Request → State → State × Reply} {t : State} {r : Reply}
    (h : Serves s port rq v) (hf : f port rq s = (t, r)) : s.serve v f = { t with cpc := t.cpc.answer port rq r } := by
  obtain ⟨hnext, hservice⟩ := h
  rw [State.serve_of f hnext hservice, hf]

theorem port_setPort_answer (c : Cpc) (x : PortState) (r : Reply) :
    ((c.setPort port x).answer port rq r).port port = { x with phase := .replyReady (replyFrame rq.code rq.tag r) } := by
  rw [Cpc.port_answer, Cpc.port_setPort]

/-- A service that sets the fields of its own port leaves every other port as it was. -/
theorem port_setPort_answer_of_ne (c : Cpc) {p : Port} (x : PortState) (r : Reply) (h : p ≠ port) :
    ((c.setPort port x).answer port rq r).port p = c.port p :=
  (Cpc.port_answer_of_ne _ rq r h).trans (Cpc.port_setPort_of_ne c x h)

/-! ### The reads (R188, R189) -/

theorem exec_readRecords (h : Serves s port rq .readRecords) :
    let x := s.cpc.port port
    let r := s.rds.geometry.read x.geoCursor (getU16 rq.payload 0)
    exec .readRecords s = .next { s with
      cpc := (s.cpc.setPort port { x with geoCursor := r.2, geoGap := false }).answer port rq
        (readReply r.1.length (s.rds.geometry.unread r.2) (r.1.flatMap WireRecord.toBytes) x.geoGap) } :=
  congrArg Host.Outcome.next (serve_of_serves (f := serveReadRecords) h rfl)

theorem exec_readExceptions (h : Serves s port rq .readExceptions) :
    let x := s.cpc.port port
    let r := s.rds.exceptions.read x.excCursor (getU16 rq.payload 0)
    exec .readExceptions s = .next { s with
      cpc := (s.cpc.setPort port { x with excCursor := r.2, excGap := false }).answer port rq
        (readReply r.1.length (s.rds.exceptions.unread r.2) (r.1.flatMap StoredException.toBytes) x.excGap) } :=
  congrArg Host.Outcome.next (serve_of_serves (f := serveReadExceptions) h rfl)

/-! ### SET_CURSOR (R190) -/

theorem exec_setCursor {t : State} {r : Reply} (h : Serves s port rq .setCursor) (hr : serveSetCursor port rq s = (t, r)) :
    exec .setCursor s = .next { t with cpc := t.cpc.answer port rq r } :=
  congrArg Host.Outcome.next (serve_of_serves h hr)

theorem serveSetCursor_geometry (hstore : getU8 rq.payload 0 = 0) (hpos : getU8 rq.payload 1 ≤ 1) :
    let c := if getU8 rq.payload 1 = 0 then s.rds.geometry.oldest else s.rds.geometry.next
    serveSetCursor port rq s =
      ({ s with cpc := s.cpc.setPort port { s.cpc.port port with geoCursor := c, geoGap := false } },
       .of .ok (be32 c ++ be32 (s.rds.geometry.next - c))) := by
  rcases Nat.le_one_iff_eq_zero_or_eq_one.1 hpos with holdest | hnewest
  · simp [serveSetCursor, Store.unread, hstore, holdest]
  · simp [serveSetCursor, Store.unread, hstore, hnewest]

theorem serveSetCursor_exceptions (hstore : getU8 rq.payload 0 = 1) (hpos : getU8 rq.payload 1 ≤ 1) :
    let c := if getU8 rq.payload 1 = 0 then s.rds.exceptions.oldest else s.rds.exceptions.next
    serveSetCursor port rq s =
      ({ s with cpc := s.cpc.setPort port { s.cpc.port port with excCursor := c, excGap := false } },
       .of .ok (be32 c ++ be32 (s.rds.exceptions.next - c))) := by
  rcases Nat.le_one_iff_eq_zero_or_eq_one.1 hpos with holdest | hnewest
  · simp [serveSetCursor, Store.unread, hstore, holdest]
  · simp [serveSetCursor, Store.unread, hstore, hnewest]

/-- No store has a number above 1, and no position of a store a number above 1. -/
theorem serveSetCursor_range (hbad : 1 < getU8 rq.payload 0 ∨ 1 < getU8 rq.payload 1) :
    serveSetCursor port rq s = (s, .of .range []) := by
  unfold serveSetCursor
  rcases hbad with hstore | hpos
  · obtain ⟨k, hk⟩ := Nat.exists_eq_add_of_le' hstore
    rw [hk]; rfl
  · obtain ⟨k, hk⟩ := Nat.exists_eq_add_of_le' hpos
    rw [hk]
    match getU8 rq.payload 0 with
    | 0 | 1 | _ + 2 => rfl

/-! ### SET_ATTENTION (R193) -/

theorem exec_setAttention {t : State} {r : Reply} (h : Serves s port rq .setAttention)
    (hr : serveSetAttention port rq s = (t, r)) : exec .setAttention s = .next { t with cpc := t.cpc.answer port rq r } :=
  congrArg Host.Outcome.next (serve_of_serves h hr)

theorem serveSetAttention_range (hbad : 8192 < getU16 rq.payload 0 ∨ 3 < getU8 rq.payload 2) :
    serveSetAttention port rq s = (s, .of .range []) :=
  if_neg (by omega)

theorem serveSetAttention_ok (hw : getU16 rq.payload 0 ≤ 8192) (ht : getU8 rq.payload 2 ≤ 3) :
    let t : State := { s with
      cpc := s.cpc.setPort port { s.cpc.port port with watermark := getU16 rq.payload 0, threshold := getU8 rq.payload 2 } }
    serveSetAttention port rq s =
      (t, .of .ok (putU16 (getU16 rq.payload 0) ++ putU8 (getU8 rq.payload 2) ++ putMark (t.attn port))) :=
  if_pos ⟨hw, ht⟩

end

/-! ### The statements -/

/-- Settles O43: for each store, what the read takes, and the port as the service leaves it. -/
theorem readsAdvanceTheCursor : Obligations.ReadsAdvanceTheCursor := by
  intro s port rq hs x n
  refine ⟨fun hserves => ?records, fun hserves => ?exceptions⟩
  case records =>
    refine ⟨_, _, _, exec_readRecords hserves, rfl, length_read hs.geometry (by decide) (hs.geoCursors port) _,
      fun i r => sequence_read hs.geometry, rfl, length_flatMap_of_length WireRecord.toBytes_length _, ?_, ?_, ?_, ?_, ?_,
      fun p => port_setPort_answer_of_ne _ _ _, rfl⟩ <;> rw [port_setPort_answer] <;> rfl
  case exceptions =>
    refine ⟨_, _, _, exec_readExceptions hserves, rfl, length_read hs.exceptions (by decide) (hs.excCursors port) _,
      fun i r => sequence_read hs.exceptions, rfl, length_flatMap_of_length StoredException.toBytes_length _, ?_, ?_, ?_, ?_, ?_,
      fun p => port_setPort_answer_of_ne _ _ _, rfl⟩ <;> rw [port_setPort_answer] <;> rfl

/-- Settles O44: by the store the request names, and the refusal of any other field. -/
theorem setCursorMovesToAnEnd : Obligations.SetCursorMovesToAnEnd := by
  intro s port rq hserves x store position
  exact ⟨fun hs => ⟨oldest_eq_next_of_empty hs.geometry, oldest_eq_next_of_empty hs.exceptions⟩,
    fun hbad => exec_setCursor hserves (serveSetCursor_range hbad),
    fun hstore hpos => exec_setCursor hserves (serveSetCursor_geometry hstore hpos),
    fun hstore hpos => exec_setCursor hserves (serveSetCursor_exceptions hstore hpos)⟩

/-- Settles O45: the ATTN of the reply is that of the port with its new settings. -/
theorem setAttentionJudgesAttnAfterService : Obligations.SetAttentionJudgesAttnAfterService := by
  intro s port rq hserves hon x watermark threshold
  refine ⟨fun hbad => exec_setAttention hserves (serveSetAttention_range hbad), fun hw ht =>
    ⟨_, exec_setAttention hserves (serveSetAttention_ok hw ht), ?attn⟩⟩
  rw [attn_iff (by exact hon), geometryAttn_iff, exceptionAttn_iff, Cpc.port_setPort]

end Sys2Proof.Proofs.RecordStore
end

