-- ==== Sys2Proof/Proofs/Footprints.lean ====
section
/-! PROOFS. Which units a command can change, said once for all commands, and how an invariant of the commands becomes one of the
step. -/

namespace Sys2Proof.Proofs.Footprints

open Sys2Proof.Machine Sys2Proof.Safety

/-- The units that a command may change; `false` promises that the unit stays. -/
structure Footprint where
  odu : Bool := false
  slc : Bool := false
  asu : Bool := false
  gcu : Bool := false
  pru : Bool := false
  exu : Bool := false
  mtu : Bool := false
  rcu : Bool := false
  rds : Bool := false
  cpc : Bool := false

/-- The units each command may change, as the steps of the manual name them. -/
def footprint : Instr → Footprint
  | .powerOn _ => { odu := true, slc := true, asu := true, gcu := true, pru := true, exu := true, mtu := true, rcu := true,
                    rds := true, cpc := true }
  | .startUpHoldEnd | .slotStart | .slotEnd _ _ _ | .slcSampleEvent | .slcStartNotice | .slcSuspendNotice
  | .slcStopNotice => { slc := true }
  | .encoderCount _ _ _ | .illegalTransition _ | .zPulse _ | .paceCount | .standstillExpiry | .oduStopNotice
  | .oduResumptionNotice => { odu := true }
  | .delivery | .asuReversalNotice | .asuStartNotice | .asuSuspendNotice | .asuStopNotice | .markRequest => { asu := true }
  | .baseRecord | .gcuReversalNotice | .gcuSuspendNotice | .gcuStopNotice | .gcuStartNotice => { gcu := true }
  | .pruSampleEvent | .pruReversalNotice | .pruStartNotice | .pruSuspendNotice | .pruResumptionNotice
  | .pruStopNotice => { pru := true }
  | .outputRecord | .streamEndNotice | .exuStartNotice => { exu := true }
  | .geometryAppend | .exceptionAppend => { rds := true, cpc := true }
  | .markerEdge _ _ | .chainageAnswer | .placementAnswer | .markLossReport | .mtuSampleEvent | .pulseExpiry _
  | .mtuStartNotice | .mtuSuspendNotice | .mtuResumptionNotice | .mtuStopNotice => { mtu := true }
  | .rcuSampleEvent => { rcu := true }
  | .odometryLost | .odometryRestored | .stop => { rcu := true, cpc := true }
  | .start => { odu := true, rcu := true, cpc := true }
  | .setItem => { odu := true, slc := true, asu := true, gcu := true, pru := true, exu := true, mtu := true, rcu := true,
                  cpc := true }
  | .setPace | .calibrate => { odu := true, cpc := true }
  | .fixAt | .fixNow | .jumpPlan => { pru := true, cpc := true }
  | .chainageRequest | .resetPinRelease => {}
  | .requestFrame _ _ _ | .busySelect _ _ | .replyRead _ _ | .unknownRequest | .echo | .readStatus | .readRecords
  | .readExceptions | .setCursor | .setAttention | .readOpenRuns | .readFixes | .readMarkers | .readItem => { cpc := true }

/-- `t` is `s` in every unit outside a footprint. -/
structure Keeps (f : Footprint) (s t : State) : Prop where
  odu : f.odu = false → t.odu = s.odu
  slc : f.slc = false → t.slc = s.slc
  asu : f.asu = false → t.asu = s.asu
  gcu : f.gcu = false → t.gcu = s.gcu
  pru : f.pru = false → t.pru = s.pru
  exu : f.exu = false → t.exu = s.exu
  mtu : f.mtu = false → t.mtu = s.mtu
  rcu : f.rcu = false → t.rcu = s.rcu
  rds : f.rds = false → t.rds = s.rds
  cpc : f.cpc = false → t.cpc = s.cpc

theorem Keeps.refl (f : Footprint) (s : State) : Keeps f s s := by constructor <;> intro _ <;> rfl

theorem OnlyOdu.keeps {s t : State} (h : OnlyOdu s t) : Keeps { odu := true } s t := by
  obtain ⟨-, -, hslc, hasu, hgcu, hpru, hexu, hmtu, hrcu, hrds, hcpc, -⟩ := h.fields
  constructor <;> simp [*]

theorem OnlyGcu.keeps {s t : State} (h : OnlyGcu s t) : Keeps { gcu := true } s t := by
  obtain ⟨-, -, hodu, hslc, hasu, hpru, hexu, hmtu, hrcu, hrds, hcpc, -⟩ := h.fields
  constructor <;> simp [*]

/-- A service keeps what its handler keeps, but for the ports. -/
theorem serve_keeps {f : Footprint} {s : State} (v : Service) {handler : Port → Request → State → State × Reply}
    (hf : ∀ p rq, Keeps f s (handler p rq s).1) : Keeps { f with cpc := true } s (s.serve v handler) := by
  rcases State.serve_eq s v handler with ⟨p, rq, -, -, heq⟩ | ⟨-, heq⟩
  · rw [heq]
    obtain ⟨hodu, hslc, hasu, hgcu, hpru, hexu, hmtu, hrcu, hrds, -⟩ := hf p rq
    exact ⟨hodu, hslc, hasu, hgcu, hpru, hexu, hmtu, hrcu, hrds, by simp⟩
  · rw [heq]; exact Keeps.refl _ s

/-! ### The handlers of the requests -/

theorem serveSetCursor_keeps (p : Port) (rq : Request) (s : State) : Keeps { cpc := true } s (serveSetCursor p rq s).1 := by
  unfold serveSetCursor answered
  simp only
  split <;> constructor <;> simp

theorem serveSetAttention_keeps (p : Port) (rq : Request) (s : State) :
    Keeps { cpc := true } s (serveSetAttention p rq s).1 := by
  unfold serveSetAttention answered
  simp only
  split <;> constructor <;> simp

theorem serveReadItem_keeps (p : Port) (rq : Request) (s : State) : Keeps {} s (serveReadItem p rq s).1 := by
  unfold serveReadItem answered
  simp only
  split <;> (try split) <;> constructor <;> simp

theorem serveSetPace_keeps (p : Port) (rq : Request) (s : State) :
    Keeps { odu := true } s (serveSetPace p rq s).1 := by
  unfold serveSetPace answered
  simp only
  repeat' split
  all_goals constructor <;> simp

theorem applyFix_keeps (s : State) (q : FixRequest) : Keeps { pru := true } s (s.applyFix q).1 := by
  constructor <;> simp [State.applyFix]

theorem serveFixAt_keeps (p : Port) (rq : Request) (s : State) :
    Keeps { pru := true } s (serveFixAt p rq s).1 := by
  unfold serveFixAt answered
  split
  · split
    · exact applyFix_keeps s _
    · exact Keeps.refl _ s
  · exact Keeps.refl _ s

theorem serveFixNow_keeps (p : Port) (rq : Request) (s : State) :
    Keeps { pru := true } s (serveFixNow p rq s).1 := by
  unfold serveFixNow answered
  simp only
  split
  · split
    · split
      · exact applyFix_keeps s _
      · exact Keeps.refl _ s
    · exact Keeps.refl _ s
  · exact Keeps.refl _ s

theorem serveCalibrate_keeps (p : Port) (rq : Request) (s : State) :
    Keeps { odu := true } s (serveCalibrate p rq s).1 := by
  unfold serveCalibrate answered
  simp only
  repeat' split
  all_goals constructor <;> simp

/-- JUMP_PLAN changes nothing, or places the cursor on a plan entry. -/
theorem serveJumpPlan_cases (p : Port) (rq : Request) (s : State) : (serveJumpPlan p rq s).1 = s ∨
    ∃ e x c, (serveJumpPlan p rq s).1 = { s with pru := s.pru.placeOn e x c } := by
  unfold serveJumpPlan answered
  simp only
  repeat' split
  case h_1.isTrue => exact .inr ⟨_, _, _, rfl⟩
  all_goals exact .inl rfl

theorem serveJumpPlan_keeps (p : Port) (rq : Request) (s : State) :
    Keeps { pru := true } s (serveJumpPlan p rq s).1 := by
  rcases serveJumpPlan_cases p rq s with heq | ⟨e, x, c, heq⟩ <;> rw [heq]
  · exact Keeps.refl _ s
  · constructor <;> simp

theorem started_keeps (s : State) (i : StartInfo) : Keeps { odu := true, rcu := true, cpc := true } s (s.started i) := by
  constructor <;> simp [State.started, State.fireEvent]

theorem serveStart_keeps (p : Port) (rq : Request) (s : State) :
    Keeps { odu := true, rcu := true, cpc := true } s (serveStart p rq s).1 := by
  unfold serveStart answered
  simp only
  repeat' split
  all_goals first | exact Keeps.refl _ s | exact started_keeps s _

theorem serveStop_keeps (p : Port) (rq : Request) (s : State) :
    Keeps { rcu := true, cpc := true } s (serveStop p rq s).1 := by
  unfold serveStop answered
  split <;> constructor <;> simp [State.stopped]

/-- FIXPOLICY writes three fields of the PRU. With the new values by name, what else stays is seen without evaluating them. -/
theorem writeItem_fixPolicy (s : State) (b : List Byte) : ∃ accept threshold limit, s.writeItem .fixPolicy b =
    { s with pru := { s.pru with acceptWindow := accept, stepThreshold := threshold, slewLimit := limit } } := ⟨_, _, _, rfl⟩

theorem writeItem_rds (s : State) (i : ItemId) (b : List Byte) : (s.writeItem i b).rds = s.rds := by
  cases i
  case fixPolicy => obtain ⟨_, _, _, heq⟩ := writeItem_fixPolicy s b; rw [heq]
  all_goals rfl

theorem writeItem_cpc (s : State) (i : ItemId) (b : List Byte) : (s.writeItem i b).cpc = s.cpc := by
  cases i
  case fixPolicy => obtain ⟨_, _, _, heq⟩ := writeItem_fixPolicy s b; rw [heq]
  all_goals rfl

theorem writeItem_rcu (s : State) (i : ItemId) (b : List Byte) : (s.writeItem i b).rcu = s.rcu := by
  cases i
  case fixPolicy => obtain ⟨_, _, _, heq⟩ := writeItem_fixPolicy s b; rw [heq]
  all_goals rfl

theorem serveSetItem_keeps (p : Port) (rq : Request) (s : State) :
    Keeps { footprint .setItem with cpc := false } s (serveSetItem p rq s).1 := by
  unfold serveSetItem answered
  split
  · exact Keeps.refl _ s
  · constructor <;> simp [footprint, State.acceptItem, writeItem_rds, writeItem_cpc]

theorem serveReadStatus_keeps (p : Port) (rq : Request) (s : State) : Keeps { cpc := true } s (serveReadStatus p rq s).1 := by
  constructor <;> simp [serveReadStatus]

theorem serveReadRecords_keeps (p : Port) (rq : Request) (s : State) : Keeps { cpc := true } s (serveReadRecords p rq s).1 := by
  constructor <;> simp [serveReadRecords]

theorem serveReadExceptions_keeps (p : Port) (rq : Request) (s : State) : Keeps { cpc := true } s (serveReadExceptions p rq s).1 := by
  constructor <;> simp [serveReadExceptions]

/-! ### The commands of the units -/

theorem execEncoderCount_keeps {e : Encoder} {ch : QuadChannel} {ticks : Nat} {s t : State}
    (h : execEncoderCount e ch ticks s = .next t) : Keeps { odu := true } s t := by
  cases h
  split
  · obtain ⟨-, hslc, hasu, hgcu, hpru, hexu, hmtu, hrcu, hrds, hcpc⟩ := OnlyOdu.keeps (State.takeCount_frame
      { s with now := s.now + ticks, odu := s.odu.setEnc e ((s.odu.enc e).decode ch).1 } e ((s.odu.enc e).decode ch).2)
    exact ⟨by simp, hslc, hasu, hgcu, hpru, hexu, hmtu, hrcu, hrds, hcpc⟩
  · constructor <;> simp

theorem execZPulse_keeps {e : Encoder} {s t : State} (h : execZPulse e s = .next t) : Keeps { odu := true } s t := by
  unfold execZPulse at h
  simp only at h
  split at h
  · split at h
    · cases h
      split
      · exact OnlyOdu.keeps (OnlyOdu.over (State.goodCheck_frame _ e))
      · exact OnlyOdu.keeps (OnlyOdu.over (State.mismatch_frame _ e))
    · cases h; constructor <;> simp
  · cases h; exact Keeps.refl _ s

theorem execPaceCount_keeps {s t : State} (h : execPaceCount s = .next t) : Keeps { odu := true } s t := by
  unfold execPaceCount at h
  simp only at h
  split at h
  · next tick _ =>
    split at h
    · cases h
      obtain ⟨-, hslc, hasu, hgcu, hpru, hexu, hmtu, hrcu, hrds, hcpc⟩ := OnlyOdu.keeps (State.moveBy_frame
        { s.runTo tick with odu := { s.odu with paceTimer := some ((s.runTo tick).now + s.odu.paceInterval) } }
        (s.odu.paceDirection.sign * s.odu.e1.weight))
      exact ⟨by simp, hslc, hasu, hgcu, hpru, hexu, hmtu, hrcu, hrds, hcpc⟩
    · cases h; exact Keeps.refl _ s
  · cases h; exact Keeps.refl _ s

theorem execOduResumptionNotice_keeps {s t : State} (h : execOduResumptionNotice s = .next t) :
    Keeps { odu := true } s t := by
  unfold execOduResumptionNotice at h
  split at h
  · cases h; exact OnlyOdu.keeps (OnlyOdu.over (State.resumeOdu_frame _))
  · cases h; exact Keeps.refl _ s

theorem execBaseRecord_keeps {s t : State} (h : execBaseRecord s = .next t) : Keeps { gcu := true } s t := by
  unfold execBaseRecord at h
  split at h
  · cases h; exact OnlyGcu.keeps (OnlyGcu.over (State.takeBase_frame _ _))
  · cases h; exact Keeps.refl _ s

theorem endStream_frame (s : State) (cause : Cause) : OnlyGcu s (s.endStream cause) := by
  unfold State.endStream
  split
  · exact State.flush_frame s cause
  · rfl

/-- A notice that ends a stream, with what it then makes of the GCU. -/
theorem streamEnd_keeps {s t : State} {rest : List GcuMessage} {cause : Cause}
    (h : OnlyGcu (State.endStream { s with bus := { s.bus with toGcu := rest } } cause) t) : Keeps { gcu := true } s t :=
  OnlyGcu.keeps (OnlyGcu.over ((endStream_frame _ cause).trans h))

theorem execGcuReversalNotice_keeps {s t : State} (h : execGcuReversalNotice s = .next t) : Keeps { gcu := true } s t := by
  unfold execGcuReversalNotice at h
  split at h
  · cases h
    split
    · exact streamEnd_keeps rfl
    · exact streamEnd_keeps rfl
  · cases h; exact Keeps.refl _ s

theorem execGcuSuspendNotice_keeps {s t : State} (h : execGcuSuspendNotice s = .next t) : Keeps { gcu := true } s t := by
  unfold execGcuSuspendNotice at h
  split at h
  · cases h; exact streamEnd_keeps rfl
  · cases h; exact Keeps.refl _ s

theorem execGcuStopNotice_keeps {s t : State} (h : execGcuStopNotice s = .next t) : Keeps { gcu := true } s t := by
  unfold execGcuStopNotice at h
  split at h
  · cases h; exact streamEnd_keeps rfl
  · cases h; exact Keeps.refl _ s

theorem execMarkerEdge_keeps {m : MarkerLine} {edge : Edge} {s t : State} (h : execMarkerEdge m edge s = .next t) :
    Keeps { mtu := true } s t := by
  unfold execMarkerEdge State.capture at h
  simp only at h
  split at h
  · split at h <;> cases h <;> constructor <;> simp
  · cases h; exact Keeps.refl _ s

theorem execSetItem_keeps {s t : State} (h : exec .setItem s = .next t) : Keeps (footprint .setItem) s t := by
  rcases execSetItem_cases s with ⟨hwait, -, -⟩ | hserve
  · rw [hwait] at h; cases h; exact Keeps.refl _ s
  · rw [hserve] at h; cases h; exact serve_keeps _ (serveSetItem_keeps · · s)

/-- A command changes no unit outside its footprint. -/
theorem exec_keeps {c : Instr} {s t : State} (h : exec c s = .next t) : Keeps (footprint c) s t := by
  cases c with
  | encoderCount e ch ticks => exact execEncoderCount_keeps h
  | zPulse e => exact execZPulse_keeps h
  | paceCount => exact execPaceCount_keeps h
  | oduResumptionNotice => exact execOduResumptionNotice_keeps h
  | baseRecord => exact execBaseRecord_keeps h
  | gcuReversalNotice => exact execGcuReversalNotice_keeps h
  | gcuSuspendNotice => exact execGcuSuspendNotice_keeps h
  | gcuStopNotice => exact execGcuStopNotice_keeps h
  | markerEdge m edge => exact execMarkerEdge_keeps h
  | setItem => exact execSetItem_keeps h
  | unknownRequest => cases h; exact serve_keeps (handler := serveUnknown) _ (fun _ _ => Keeps.refl {} s)
  | echo => cases h; exact serve_keeps (handler := serveEcho) _ (fun _ _ => Keeps.refl {} s)
  | readOpenRuns => cases h; exact serve_keeps (handler := serveReadOpenRuns) _ (fun _ _ => Keeps.refl {} s)
  | readFixes => cases h; exact serve_keeps (handler := serveReadFixes) _ (fun _ _ => Keeps.refl {} s)
  | readMarkers => cases h; exact serve_keeps (handler := serveReadMarkers) _ (fun _ _ => Keeps.refl {} s)
  | readStatus => cases h; exact serve_keeps _ (serveReadStatus_keeps · · s)
  | readRecords => cases h; exact serve_keeps _ (serveReadRecords_keeps · · s)
  | readExceptions => cases h; exact serve_keeps _ (serveReadExceptions_keeps · · s)
  | setCursor => cases h; exact serve_keeps _ (serveSetCursor_keeps · · s)
  | setAttention => cases h; exact serve_keeps _ (serveSetAttention_keeps · · s)
  | readItem => cases h; exact serve_keeps _ (serveReadItem_keeps · · s)
  | setPace => cases h; exact serve_keeps _ (serveSetPace_keeps · · s)
  | fixAt => cases h; exact serve_keeps _ (serveFixAt_keeps · · s)
  | fixNow => cases h; exact serve_keeps _ (serveFixNow_keeps · · s)
  | calibrate => cases h; exact serve_keeps _ (serveCalibrate_keeps · · s)
  | jumpPlan => cases h; exact serve_keeps _ (serveJumpPlan_keeps · · s)
  | start => cases h; exact serve_keeps _ (serveStart_keeps · · s)
  | stop => cases h; exact serve_keeps _ (serveStop_keeps · · s)
  | powerOn cause => cases cause <;> cases h <;> constructor <;> simp [footprint]
  | illegalTransition e => cases h; constructor <;> simp [footprint]
  | _ =>
    simp only [exec, execStartUpHoldEnd, execResetPinRelease, execStandstillExpiry, execOduStopNotice, execSlotStart,
      execSlotEnd, execSlcSampleEvent, execSlcStartNotice, execSlcSuspendNotice, execSlcStopNotice, execDelivery,
      execAsuReversalNotice, execAsuStartNotice, execAsuSuspendNotice, execAsuStopNotice, execMarkRequest,
      execGcuStartNotice, execPruSampleEvent, execPruReversalNotice, execPruStartNotice, execPruSuspendNotice,
      execPruResumptionNotice, execPruStopNotice, execChainageRequest, execOutputRecord, execStreamEndNotice,
      execExuStartNotice, execGeometryAppend, execExceptionAppend, execChainageAnswer, execPlacementAnswer,
      execMarkLossReport, execMtuSampleEvent, execPulseExpiry, execMtuStartNotice, execMtuSuspendNotice,
      execMtuResumptionNotice, execMtuStopNotice, execRcuSampleEvent, execOdometryLost, execOdometryRestored,
      execRequestFrame, execBusySelect, execReplyRead] at h
    repeat' split at h
    all_goals
      cases h
      constructor <;> intro hf <;> first | rfl | (cases hf)

/-- What holds of the units however an accepted item writes them holds after SET_ITEM, which may also wait or refuse. -/
theorem setItem_keeps_of_writeItem {P : State → Prop} (hP : ∀ (s : State) (r : Rcu) (c : Cpc), P { s with rcu := r, cpc := c } ↔ P s)
    {s t : State} (hs : P s)
    (hwrite : ∀ payload i b, judgeItem s.rcu.runState payload = .accepted i b → P (s.writeItem i b))
    (h : exec .setItem s = .next t) : P t := by
  rcases execSetItem_cases s with ⟨hwait, -, -⟩ | hserve
  · rw [hwait] at h; cases h; exact hs
  · rw [hserve] at h; cases h
    rcases State.serve_eq s .setItem serveSetItem with ⟨p, rq, -, -, heq⟩ | ⟨-, heq⟩ <;> rw [heq]
    · rw [serveSetItem]
      split
      · exact (hP s s.rcu _).2 hs
      · next i b hjudge => exact (hP (s.writeItem i b) _ _).2 (hwrite _ i b hjudge)
    · exact hs

/-! ### From the commands to the step -/

/-- A property of the units, which the queue and the time base do not enter, holds after a step if every command keeps it. -/
theorem step_keeps_of_exec {P : State → Prop} (hP : ∀ (s : State) (q : List Instr) (n : Nat), P { s with pending := q, now := n } ↔ P s)
    (hexec : ∀ c s t, P s → exec c s = .next t → P t) {s t : State} (hs : P s) (h : step s = .next t) : P t := by
  rcases step_cases h with ⟨-, hidle⟩ | ⟨c, rest, -, hc⟩
  · cases hidle
    rwa [← hP s.idle s.pending s.now, State.idle_frame]
  · exact hexec c _ t ((hP s rest s.now).2 hs) hc

end Sys2Proof.Proofs.Footprints
end

