-- ==== Sys2Proof/Proofs/ActiveEncoder.lean ====
section
/-! PROOFS. While a run with source ENCODERS is RUNNING its active encoder is OK (R18): each operation of the ODU keeps it, then each
command. -/

namespace Sys2Proof.Proofs.ActiveEncoder

open Sys2Proof.Machine Sys2Proof.Safety Sys2Proof.Proofs.Footprints

/-- Two ODU states agree on what the health of the active encoder depends on. -/
structure SameHealths (o p : Odu) : Prop where
  view : p.view = o.view
  source : p.source = o.source
  active : p.active = o.active
  health : ∀ e, (p.enc e).health = (o.enc e).health

theorem SameHealths.trans {o p q : Odu} (h : SameHealths o p) (h' : SameHealths p q) : SameHealths o q :=
  ⟨h'.view.trans h.view, h'.source.trans h.source, h'.active.trans h.active, fun e => (h'.health e).trans (h.health e)⟩

theorem sound_of_same {s t : State} (h : SameHealths s.odu t.odu) (hs : ActiveEncoderSound s) : ActiveEncoderSound t := by
  intro hview hsource
  rw [h.view] at hview
  rw [h.source] at hsource
  rw [h.active, h.health]
  exact hs hview hsource

/-- A change of one encoder that leaves its health. -/
theorem same_setEnc {o : Odu} {e : Encoder} {x : EncoderState} (hx : x.health = (o.enc e).health) :
    SameHealths o (o.setEnc e x) := by
  refine ⟨by simp, by simp, by simp, fun i => ?_⟩
  by_cases hi : i = e
  · subst hi; simpa using hx
  · rw [Odu.enc_setEnc_of_ne _ _ hi]

theorem decode_health (x : EncoderState) (ch : QuadChannel) : (x.decode ch).1.health = x.health := by cases ch <;> rfl

theorem countIndex_health (x : EncoderState) (v : Sense) : (x.countIndex v).health = x.health := by
  unfold EncoderState.countIndex; split <;> rfl

/-! ### Movement and sample events -/

theorem same_fireEvent (s : State) : SameHealths s.odu s.fireEvent.odu :=
  ⟨rfl, rfl, rfl, fun e => by cases e <;> rfl⟩

theorem same_fireIfReached (s : State) : SameHealths s.odu s.fireIfReached.odu := by
  unfold State.fireIfReached
  split
  · exact same_fireEvent s
  · exact ⟨rfl, rfl, rfl, fun _ => rfl⟩

theorem same_declareReversal (s : State) : SameHealths s.odu s.declareReversal.odu := by
  refine SameHealths.trans ?_ (same_fireIfReached _)
  exact ⟨rfl, rfl, rfl, fun e => by cases e <;> rfl⟩

theorem same_followExtreme (o : Odu) : SameHealths o o.followExtreme := by
  unfold Odu.followExtreme
  split <;> split <;> exact ⟨rfl, rfl, rfl, fun e => by cases e <;> rfl⟩

/-- The ODU with its position moved by a number of du, and X after it, before a reversal or an event follows (R3, R7). -/
def moved (o : Odu) (du : Int) : Odu := ({ o with position := toPosition (o.position + du) } : Odu).followExtreme

/-- What a count can do, by the ODU it has moved. -/
theorem moveBy_cases (s : State) (du : Int) :
    ((moved s.odu du).reversed = true ∧ s.moveBy du = State.declareReversal { s with odu := moved s.odu du }) ∨
    ((moved s.odu du).reversed = false ∧ (moved s.odu du).advances du = true ∧ (moved s.odu du).reached = true ∧
      s.moveBy du = State.fireEvent { s with odu := moved s.odu du }) ∨
    ((moved s.odu du).reversed = false ∧ ((moved s.odu du).advances du = false ∨ (moved s.odu du).reached = false) ∧
      s.moveBy du = { s with odu := moved s.odu du }) :=
  State.moveBy_cases s du

theorem same_moved (o : Odu) (du : Int) : SameHealths o (moved o du) := by
  refine SameHealths.trans ?_ (same_followExtreme _)
  exact ⟨rfl, rfl, rfl, fun e => by cases e <;> rfl⟩

theorem same_moveBy (s : State) (du : Int) : SameHealths s.odu (s.moveBy du).odu := by
  refine (same_moved s.odu du).trans ?_
  rcases moveBy_cases s du with ⟨-, heq⟩ | ⟨-, -, -, heq⟩ | ⟨-, -, heq⟩ <;> rw [heq]
  · exact same_declareReversal { s with odu := moved s.odu du }
  · exact same_fireEvent { s with odu := moved s.odu du }
  · exact ⟨rfl, rfl, rfl, fun _ => rfl⟩

/-! ### Supervision -/

/-- Whatever the state: the failed active encoder is replaced by an OK one, or RUNNING is left. -/
theorem activeFailed_sound (s : State) : ActiveEncoderSound s.activeFailed := by
  unfold State.activeFailed
  simp only
  split
  · next hok => intro _ _; simpa [Odu.bumpEpoch, Odu.enc] using hok
  · intro hview; cases hview

theorem failEncoder_sound {s : State} (e : Encoder) (hs : ActiveEncoderSound s) : ActiveEncoderSound (s.failEncoder e) := by
  unfold State.failEncoder
  simp only
  split
  · exact activeFailed_sound _
  · next hother =>
    intro hview hsource
    simp only [Odu.setEnc_view, Odu.setEnc_source, Odu.setEnc_active] at hview hsource hother ⊢
    rw [Odu.enc_setEnc_of_ne _ _ (fun h => hother ⟨hview, h⟩)]
    exact hs hview hsource

theorem mismatch_sound {s : State} (e : Encoder) (hs : ActiveEncoderSound s) : ActiveEncoderSound (s.mismatch e) := by
  unfold State.mismatch
  simp only
  split
  · split
    · exact sound_of_same (same_setEnc rfl) hs
    · exact failEncoder_sound e hs
  · exact sound_of_same (same_setEnc rfl) hs

theorem recoverEncoder_sound {s : State} (e : Encoder) (hs : ActiveEncoderSound s) :
    ActiveEncoderSound (s.recoverEncoder e) := by
  unfold State.recoverEncoder
  simp only
  split
  · next hsuspended =>
    intro hview
    rw [Odu.setEnc_view] at hsuspended
    simp [Odu.bumpEpoch, hsuspended.1] at hview
  · intro hview hsource
    simp only [Odu.setEnc_view, Odu.setEnc_source, Odu.setEnc_active] at hview hsource ⊢
    by_cases he : s.odu.active = e
    · rw [he, Odu.enc_setEnc]
    · rw [Odu.enc_setEnc_of_ne _ _ he]; exact hs hview hsource

theorem goodCheck_sound {s : State} (e : Encoder) (hs : ActiveEncoderSound s) : ActiveEncoderSound (s.goodCheck e) := by
  unfold State.goodCheck
  simp only
  split
  · exact sound_of_same (same_setEnc rfl) hs
  · split
    · exact sound_of_same (same_setEnc rfl) hs
    · exact recoverEncoder_sound e hs

theorem indexAtCount_sound {s : State} (e : Encoder) (v : Sense) (hs : ActiveEncoderSound s) :
    ActiveEncoderSound (s.indexAtCount e v) := by
  unfold State.indexAtCount
  simp only
  split
  · exact mismatch_sound e (sound_of_same (same_setEnc (countIndex_health _ v)) hs)
  · exact sound_of_same (same_setEnc (countIndex_health _ v)) hs

theorem silenceAtCount_sound {s : State} (e : Encoder) (v : Sense) (hs : ActiveEncoderSound s) :
    ActiveEncoderSound (s.silenceAtCount e v) := by
  have hown : SameHealths s.odu (s.odu.setEnc e { s.odu.enc e with silence := 0 }) := same_setEnc rfl
  unfold State.silenceAtCount
  simp only
  split
  · exact sound_of_same (hown.trans (same_setEnc rfl)) hs
  · split
    · exact failEncoder_sound _ (sound_of_same (hown.trans (same_setEnc rfl)) hs)
    · exact sound_of_same (hown.trans (same_setEnc rfl)) hs

theorem takeCount_sound {s : State} (e : Encoder) (v : Sense) (hs : ActiveEncoderSound s) :
    ActiveEncoderSound (s.takeCount e v) := by
  have hdistance : SameHealths s.odu (s.odu.addDistance e v) := same_setEnc rfl
  unfold State.takeCount
  simp only
  refine silenceAtCount_sound e v (indexAtCount_sound e v ?_)
  split
  · exact sound_of_same (hdistance.trans (same_moveBy { s with odu := s.odu.addDistance e v } _)) hs
  · exact sound_of_same hdistance hs

theorem resumeOdu_sound (s : State) : ActiveEncoderSound s.resumeOdu := by
  unfold State.resumeOdu
  simp only
  split
  · next hok => exact fun _ _ => hok
  · exact activeFailed_sound _

/-! ### The commands that change the ODU -/

theorem same_setOdometry (o : Odu) (b : List Byte) : SameHealths o (o.setOdometry b) := by
  unfold Odu.setOdometry
  simp only
  split <;> exact ⟨rfl, rfl, rfl, fun e => by cases e <;> rfl⟩

theorem writeItem_sound {s : State} (i : ItemId) (b : List Byte) (hs : ActiveEncoderSound s) :
    ActiveEncoderSound (s.writeItem i b) := by
  cases i
  case odometry => exact sound_of_same (same_setOdometry s.odu b) hs
  case fixPolicy => obtain ⟨_, _, _, heq⟩ := writeItem_fixPolicy s b; rw [heq]; exact hs
  all_goals exact hs

theorem same_calibrated (o : Odu) (w : Nat) : SameHealths o (o.calibrated w) := by
  unfold Odu.calibrated
  simp only
  split
  · exact ⟨rfl, rfl, rfl, fun e => by cases e <;> rfl⟩
  · refine SameHealths.trans (p := o.bumpEpoch) ?_ (same_setEnc rfl)
    exact ⟨rfl, rfl, rfl, fun e => by cases e <;> rfl⟩

/-- A service keeps the invariant if its handler does. -/
theorem serve_sound {s : State} (v : Service) {handler : Port → Request → State → State × Reply} (hs : ActiveEncoderSound s)
    (hf : ∀ p rq, ActiveEncoderSound (handler p rq s).1) : ActiveEncoderSound (s.serve v handler) := by
  rcases State.serve_eq s v handler with ⟨p, rq, -, -, heq⟩ | ⟨-, heq⟩ <;> rw [heq]
  · exact hf p rq
  · exact hs

theorem serveStart_sound {s : State} (p : Port) (rq : Request) (hs : ActiveEncoderSound s) :
    ActiveEncoderSound (serveStart p rq s).1 := by
  have hstarted : ∀ i, ActiveEncoderSound (s.started i) := by
    refine fun i => sound_of_same (same_fireEvent _) (fun _ _ => ?_)
    show ((s.odu.started i).enc s.odu.primary).health = .ok
    cases s.odu.primary <;> rfl
  unfold serveStart answered
  simp only
  repeat' split
  all_goals first | exact hs | exact hstarted _

theorem serveSetPace_sound {s : State} (p : Port) (rq : Request) (hs : ActiveEncoderSound s) :
    ActiveEncoderSound (serveSetPace p rq s).1 := by
  unfold serveSetPace answered
  simp only
  repeat' split
  all_goals exact hs

theorem serveCalibrate_sound {s : State} (p : Port) (rq : Request) (hs : ActiveEncoderSound s) :
    ActiveEncoderSound (serveCalibrate p rq s).1 := by
  unfold serveCalibrate answered
  simp only
  repeat' split
  all_goals first | exact hs | exact sound_of_same (same_calibrated _ _) hs

theorem exec_sound {c : Instr} {s t : State} (hs : ActiveEncoderSound s) (h : exec c s = .next t) : ActiveEncoderSound t := by
  by_cases hodu : (footprint c).odu = false
  · have heq := (exec_keeps h).odu hodu
    exact fun hview hsource => by rw [heq] at *; exact hs hview hsource
  cases c
  case encoderCount e ch ticks =>
    have hdecoded : SameHealths s.odu (s.odu.setEnc e ((s.odu.enc e).decode ch).1) := same_setEnc (decode_health _ ch)
    cases h
    split
    · exact takeCount_sound e _ (sound_of_same hdecoded hs)
    · exact sound_of_same hdecoded hs
  case illegalTransition e => cases h; exact sound_of_same (same_setEnc rfl) hs
  case zPulse e =>
    simp only [exec, execZPulse] at h
    have haligned : ActiveEncoderSound { s with odu := s.odu.setEnc e { s.odu.enc e with indexCount := 0, aligned := true } } :=
      sound_of_same (same_setEnc rfl) hs
    split at h
    · split at h
      · cases h
        split
        · exact goodCheck_sound e haligned
        · exact mismatch_sound e haligned
      · cases h; exact haligned
    · cases h; exact hs
  case paceCount =>
    simp only [exec, execPaceCount] at h
    split at h
    · next tick _ =>
      split at h
      · cases h
        exact sound_of_same (SameHealths.trans ⟨rfl, rfl, rfl, fun e => by cases e <;> rfl⟩
          (same_moveBy { s.runTo tick with odu := { s.odu with paceTimer := some ((s.runTo tick).now + s.odu.paceInterval) } } _)) hs
      · cases h; exact hs
    · cases h; exact hs
  case standstillExpiry =>
    simp only [exec, execStandstillExpiry] at h
    split at h <;> cases h <;> exact hs
  case oduStopNotice =>
    simp only [exec, execOduStopNotice] at h
    split at h <;> cases h
    · intro hview; cases hview
    · exact hs
  case oduResumptionNotice =>
    simp only [exec, execOduResumptionNotice] at h
    split at h <;> cases h
    · exact resumeOdu_sound _
    · exact hs
  case powerOn cause => cases cause <;> cases h <;> intro hview <;> cases hview
  case start => cases h; exact serve_sound _ hs (fun p rq => serveStart_sound p rq hs)
  case setPace => cases h; exact serve_sound _ hs (fun p rq => serveSetPace_sound p rq hs)
  case calibrate => cases h; exact serve_sound _ hs (fun p rq => serveCalibrate_sound p rq hs)
  case setItem =>
    exact setItem_keeps_of_writeItem (P := ActiveEncoderSound) (fun _ _ _ => Iff.rfl) hs
      (fun _ i b _ => writeItem_sound i b hs) h
  all_goals exact absurd rfl hodu

/-- Settles O51: by the commands that change the ODU. -/
theorem theActiveEncoderStaysOk : Obligations.TheActiveEncoderStaysOk :=
  fun _ _ => step_keeps_of_exec (fun _ _ _ => Iff.rfl) (fun _ _ _ => exec_sound)

end Sys2Proof.Proofs.ActiveEncoder
end

