-- ==== Sys2Proof/Proofs/StoresSound.lean ====
section
/-! PROOFS. The stores keep their capacity, their numbers and their cursors (R182 to R184, R188 to R190): first the commands that move no
cursor, then reads, cursor settings and appends. -/

namespace Sys2Proof.Proofs.StoresSound

open Sys2Proof.Machine Sys2Proof.Safety Sys2Proof.Proofs.Footprints

/-! ### What leaves every cursor -/

/-- Two controllers have the same cursors on all ports. -/
def SameCursors (c d : Cpc) : Prop :=
  ∀ p, (d.port p).geoCursor = (c.port p).geoCursor ∧ (d.port p).excCursor = (c.port p).excCursor

theorem SameCursors.refl (c : Cpc) : SameCursors c c := fun _ => ⟨rfl, rfl⟩

theorem SameCursors.trans {c d e : Cpc} (h : SameCursors c d) (h' : SameCursors d e) : SameCursors c e :=
  fun p => ⟨(h' p).1.trans (h p).1, (h' p).2.trans (h p).2⟩

theorem sameCursors_setPort {c : Cpc} {p : Port} {x : PortState} (hgeo : x.geoCursor = (c.port p).geoCursor)
    (hexc : x.excCursor = (c.port p).excCursor) : SameCursors c (c.setPort p x) := by
  intro q
  by_cases hq : q = p
  · subst hq; simpa using ⟨hgeo, hexc⟩
  · simp [Cpc.port_setPort_of_ne c x hq]

theorem sameCursors_answer (c : Cpc) (p : Port) (rq : Request) (r : Reply) : SameCursors c (c.answer p rq r) := by
  intro q
  by_cases hq : q = p
  · subst hq; simp
  · simp [Cpc.port_answer_of_ne c rq r hq]

theorem sameCursors_news (c : Cpc) : SameCursors c c.news := fun p => by simp

theorem sameCursors_takeRequest (c : Cpc) (p : Port) (rq : Request) : SameCursors c (c.takeRequest p rq) := by
  intro q
  by_cases hq : q = p
  · subst hq; simp
  · simp [Cpc.port_takeRequest_of_ne c rq hq]

theorem sameCursors_judge (c : Cpc) (p : Port) (bytes : List Byte) (extraBits : Nat) :
    SameCursors c (c.judge p bytes extraBits) := by
  unfold Cpc.judge
  split
  · exact SameCursors.refl c
  · split
    · exact sameCursors_takeRequest c p _
    · exact sameCursors_setPort rfl rfl

/-- What `StoresSound` says of a state, of its stores and its ports alone. -/
structure Sound (d : Rds) (c : Cpc) : Prop where
  geometry : StoreSound 8192 (·.sequence) d.geometry
  exceptions : StoreSound 256 (·.sequence) d.exceptions
  geoCursors : ∀ p, CursorSound d.geometry (c.port p).geoCursor
  excCursors : ∀ p, CursorSound d.exceptions (c.port p).excCursor

theorem storesSound_iff (s : State) : StoresSound s ↔ Sound s.rds s.cpc :=
  ⟨fun ⟨hgeo, hexc, hgeoCursors, hexcCursors⟩ => ⟨hgeo, hexc, hgeoCursors, hexcCursors⟩,
   fun ⟨hgeo, hexc, hgeoCursors, hexcCursors⟩ => ⟨hgeo, hexc, hgeoCursors, hexcCursors⟩⟩

theorem Sound.of_sameCursors {d : Rds} {c c' : Cpc} (hs : Sound d c) (h : SameCursors c c') : Sound d c' := by
  obtain ⟨hgeo, hexc, hgeoCursors, hexcCursors⟩ := hs
  refine ⟨hgeo, hexc, fun p => ?_, fun p => ?_⟩
  · rw [(h p).1]; exact hgeoCursors p
  · rw [(h p).2]; exact hexcCursors p

/-! ### Cursors in range -/

/-- A port whose cursors are in range leaves the stores sound. -/
theorem Sound.setPort {d : Rds} {c : Cpc} {p : Port} {x : PortState} (hs : Sound d c)
    (hgeo : CursorSound d.geometry x.geoCursor) (hexc : CursorSound d.exceptions x.excCursor) : Sound d (c.setPort p x) := by
  refine ⟨hs.geometry, hs.exceptions, fun q => ?_, fun q => ?_⟩
  · by_cases hq : q = p
    · subst hq; simpa using hgeo
    · rw [Cpc.port_setPort_of_ne _ x hq]; exact hs.geoCursors q
  · by_cases hq : q = p
    · subst hq; simpa using hexc
    · rw [Cpc.port_setPort_of_ne _ x hq]; exact hs.excCursors q

section
variable {α : Type} {capacity : Nat} {sequence : α → Word32} {st : Store α}

theorem cursorSound_oldest (st : Store α) : CursorSound st st.oldest := by simp [CursorSound]

theorem cursorSound_next (h : StoreSound capacity sequence st) : CursorSound st st.next := by
  have hnumber : st.next - st.oldest = BitVec.ofNat 32 st.records.length := by rw [h.counted]; ring
  rw [CursorSound, hnumber, BitVec.toNat_ofNat]
  exact Nat.mod_le _ _

/-- A read stops at the newest record. -/
theorem cursorSound_read {c : Word32} (h : CursorSound st c) (n : Nat) : CursorSound st (st.read c n).2 := by
  have hlen : ((st.from c).take (min n 24)).length ≤ st.records.length - (c - st.oldest).toNat := by
    simp [Store.from]
  rw [CursorSound] at h ⊢
  rw [Store.read_eq]
  generalize ((st.from c).take (min n 24)).length = k at hlen
  have hsum : c + BitVec.ofNat 32 k - st.oldest = (c - st.oldest) + BitVec.ofNat 32 k := by ring
  rw [hsum, BitVec.toNat_add, BitVec.toNat_ofNat]
  calc ((c - st.oldest).toNat + k % 2 ^ 32) % 2 ^ 32 ≤ (c - st.oldest).toNat + k % 2 ^ 32 := Nat.mod_le _ _
    _ ≤ (c - st.oldest).toNat + k := by have := Nat.mod_le k (2 ^ 32); omega
    _ ≤ st.records.length := by omega

/-- A cursor in range is still in range after an append: the one on the replaced record has moved on (R184). -/
theorem cursorSound_append {c : Word32} {gap : Bool} (h : StoreSound capacity sequence st) (hc : CursorSound st c)
    (hpos : 0 < capacity) (f : Word32 → α) :
    CursorSound (st.append capacity f) (moveCursor (decide (capacity ≤ st.records.length)) st.oldest c gap).1 := by
  have hbounded := h.bounded
  rw [CursorSound] at hc ⊢
  rcases lt_or_ge st.records.length capacity with hbelow | hfull
  · rw [Store.append_below hbelow, show decide (capacity ≤ st.records.length) = false by simp [hbelow]]
    simp only [moveCursor, Bool.false_and, Bool.false_eq_true, if_false, List.length_append, List.length_singleton]
    omega
  · rw [Store.append_full hfull, show decide (capacity ≤ st.records.length) = true by simp [hfull]]
    simp only [moveCursor, Bool.true_and, beq_iff_eq, List.length_append, List.length_tail, List.length_singleton]
    split
    · next heq =>
      subst heq
      simp
    · next hne =>
      have hpred : c - (st.oldest + 1) = (c - st.oldest) - 1 := by ring
      have hpositive : c - st.oldest ≠ 0 := fun h0 => hne (sub_eq_zero.1 h0)
      show (c - (st.oldest + 1)).toNat ≤ _
      rw [hpred]
      generalize c - st.oldest = d at *
      have : (d - 1).toNat = d.toNat - 1 := by bv_omega
      omega

end

/-! ### The services -/

/-- A service leaves the stores sound if its handler does. -/
theorem serve_sound {s : State} (v : Service) {handler : Port → Request → State → State × Reply} (hs : Sound s.rds s.cpc)
    (hf : ∀ p rq, Sound (handler p rq s).1.rds (handler p rq s).1.cpc) : Sound (s.serve v handler).rds (s.serve v handler).cpc := by
  rcases State.serve_eq s v handler with ⟨p, rq, -, -, heq⟩ | ⟨-, heq⟩ <;> rw [heq]
  · exact (hf p rq).of_sameCursors (sameCursors_answer _ p rq _)
  · exact hs

/-- A handler that leaves the stores and the ports leaves them sound. -/
theorem sound_of_keeps {f : Footprint} {s t : State} (h : Keeps f s t) (hrds : f.rds = false) (hcpc : f.cpc = false)
    (hs : Sound s.rds s.cpc) : Sound t.rds t.cpc := by
  rw [h.rds hrds, h.cpc hcpc]; exact hs

theorem serveSetAttention_sound {s : State} (p : Port) (rq : Request) (hs : Sound s.rds s.cpc) :
    Sound (serveSetAttention p rq s).1.rds (serveSetAttention p rq s).1.cpc := by
  unfold serveSetAttention answered
  simp only
  split
  · exact hs.setPort (hs.geoCursors p) (hs.excCursors p)
  · exact hs

theorem serveSetCursor_sound {s : State} (p : Port) (rq : Request) (hs : Sound s.rds s.cpc) :
    Sound (serveSetCursor p rq s).1.rds (serveSetCursor p rq s).1.cpc := by
  unfold serveSetCursor answered
  simp only
  split
  · next hcursor =>
    refine hs.setPort ?_ (hs.excCursors p)
    split at hcursor <;> cases hcursor
    · exact cursorSound_oldest _
    · exact cursorSound_next hs.geometry
  · next hcursor =>
    refine hs.setPort (hs.geoCursors p) ?_
    split at hcursor <;> cases hcursor
    · exact cursorSound_oldest _
    · exact cursorSound_next hs.exceptions
  · exact hs

theorem serveStart_sound {s : State} (p : Port) (rq : Request) (hs : Sound s.rds s.cpc) : Sound (serveStart p rq s).1.rds (serveStart p rq s).1.cpc := by
  have hstarted : ∀ i, Sound (s.started i).rds (s.started i).cpc := fun i => hs.of_sameCursors (sameCursors_news s.cpc)
  unfold serveStart answered
  simp only
  repeat' split
  all_goals first | exact hs | exact hstarted _

theorem serveStop_sound {s : State} (p : Port) (rq : Request) (hs : Sound s.rds s.cpc) : Sound (serveStop p rq s).1.rds (serveStop p rq s).1.cpc := by
  unfold serveStop answered
  split
  · exact hs
  · exact hs.of_sameCursors (sameCursors_news s.cpc)

/-! ### The appends -/

theorem appendGeometry_sound {s : State} (r : OutputRecord) (levels : Seven Nat) (hs : Sound s.rds s.cpc) :
    Sound (s.appendGeometry r levels).rds (s.appendGeometry r levels).cpc := by
  obtain ⟨hgeo, hexc, hgeoCursors, hexcCursors⟩ := hs
  refine ⟨Store.append_sound hgeo (by decide) _ (fun _ => rfl), hexc, fun p => ?_, fun p => ?_⟩
  · simp only [State.appendGeometry, Cpc.followGeometry, Cpc.port_mapPorts]
    exact cursorSound_append hgeo (hgeoCursors p) (by decide) _
  · simpa [State.appendGeometry, Cpc.followGeometry] using hexcCursors p

theorem appendException_sound {s : State} (r : ExceptionRecord) (hs : Sound s.rds s.cpc) :
    Sound (s.appendException r).rds (s.appendException r).cpc := by
  obtain ⟨hgeo, hexc, hgeoCursors, hexcCursors⟩ := hs
  have happend : StoreSound 256 (·.sequence) (s.appendException r).rds.exceptions :=
    Store.append_sound hexc (by decide) (fun sequence => { sequence := sequence, record := r }) (fun _ => rfl)
  refine ⟨hgeo, happend, fun p => ?_, fun p => ?_⟩
  · simpa [State.appendException, Cpc.followExceptions] using hgeoCursors p
  · simp only [State.appendException, Cpc.followExceptions, Cpc.port_mapPorts]
    exact cursorSound_append hexc (hexcCursors p) (by decide) _

theorem reset_sound : Sound Rds.reset Cpc.reset := by
  have hempty {α : Type} {n : Nat} {seq : α → Word32} : StoreSound n seq { records := [], oldest := 0, next := 0 } :=
    ⟨Nat.zero_le n, rfl, fun i x hx => by simp at hx⟩
  exact ⟨hempty, hempty, fun p => by cases p <;> exact Nat.le_refl 0, fun p => by cases p <;> exact Nat.le_refl 0⟩

theorem exec_sound {c : Instr} {s t : State} (hs : Sound s.rds s.cpc) (h : exec c s = .next t) : Sound t.rds t.cpc := by
  by_cases hcpc : (footprint c).rds = false ∧ (footprint c).cpc = false
  · exact sound_of_keeps (exec_keeps h) hcpc.1 hcpc.2 hs
  cases c
  case powerOn cause => cases cause <;> cases h <;> exact reset_sound
  case geometryAppend =>
    simp only [exec, execGeometryAppend] at h
    split at h <;> cases h
    · exact appendGeometry_sound _ _ hs
    · exact hs
  case exceptionAppend =>
    simp only [exec, execExceptionAppend] at h
    split at h <;> cases h
    · exact appendException_sound _ hs
    · exact hs
  case odometryLost =>
    simp only [exec, execOdometryLost] at h
    split at h
    · cases h; split
      · exact hs.of_sameCursors (sameCursors_news s.cpc)
      · exact hs
    · cases h; exact hs
  case odometryRestored =>
    simp only [exec, execOdometryRestored] at h
    split at h
    · cases h; split
      · exact hs.of_sameCursors (sameCursors_news s.cpc)
      · exact hs
    · cases h; exact hs
  case requestFrame p bytes extraBits =>
    simp only [exec, execRequestFrame] at h
    split at h <;> cases h
    · exact hs.of_sameCursors (sameCursors_judge s.cpc p bytes extraBits)
    · exact hs
  case busySelect p count =>
    simp only [exec, execBusySelect] at h
    split at h <;> cases h
    · exact hs.of_sameCursors (sameCursors_setPort rfl rfl)
    · exact hs
  case replyRead p bits =>
    simp only [exec, execReplyRead] at h
    split at h <;> cases h
    · refine hs.of_sameCursors (sameCursors_setPort ?_ ?_) <;> split <;> rfl
    · exact hs
  case unknownRequest => cases h; exact serve_sound _ hs (fun _ _ => hs)
  case echo => cases h; exact serve_sound _ hs (fun _ _ => hs)
  case readOpenRuns => cases h; exact serve_sound _ hs (fun _ _ => hs)
  case readFixes => cases h; exact serve_sound _ hs (fun _ _ => hs)
  case readMarkers => cases h; exact serve_sound _ hs (fun _ _ => hs)
  case readStatus => cases h; exact serve_sound _ hs (fun p _ => hs.setPort (hs.geoCursors p) (hs.excCursors p))
  case readRecords =>
    cases h; exact serve_sound _ hs (fun p _ => hs.setPort (cursorSound_read (hs.geoCursors p) _) (hs.excCursors p))
  case readExceptions =>
    cases h; exact serve_sound _ hs (fun p _ => hs.setPort (hs.geoCursors p) (cursorSound_read (hs.excCursors p) _))
  case setCursor => cases h; exact serve_sound _ hs (fun p rq => serveSetCursor_sound p rq hs)
  case setAttention => cases h; exact serve_sound _ hs (fun p rq => serveSetAttention_sound p rq hs)
  case readItem => cases h; exact serve_sound _ hs (fun p rq => sound_of_keeps (serveReadItem_keeps p rq s) rfl rfl hs)
  case setPace => cases h; exact serve_sound _ hs (fun p rq => sound_of_keeps (serveSetPace_keeps p rq s) rfl rfl hs)
  case fixAt => cases h; exact serve_sound _ hs (fun p rq => sound_of_keeps (serveFixAt_keeps p rq s) rfl rfl hs)
  case fixNow => cases h; exact serve_sound _ hs (fun p rq => sound_of_keeps (serveFixNow_keeps p rq s) rfl rfl hs)
  case calibrate => cases h; exact serve_sound _ hs (fun p rq => sound_of_keeps (serveCalibrate_keeps p rq s) rfl rfl hs)
  case jumpPlan => cases h; exact serve_sound _ hs (fun p rq => sound_of_keeps (serveJumpPlan_keeps p rq s) rfl rfl hs)
  case start => cases h; exact serve_sound _ hs (fun p rq => serveStart_sound p rq hs)
  case stop => cases h; exact serve_sound _ hs (fun p rq => serveStop_sound p rq hs)
  case setItem =>
    rcases execSetItem_cases s with ⟨hwait, -, -⟩ | hserve
    · rw [hwait] at h; cases h; exact hs
    · rw [hserve] at h; cases h
      exact serve_sound _ hs (fun p rq => sound_of_keeps (serveSetItem_keeps p rq s) rfl rfl hs)
  all_goals exact absurd ⟨rfl, rfl⟩ hcpc

/-- Settles O52: by the commands that move a cursor or append. -/
theorem theStoresStayConsecutive : Obligations.TheStoresStayConsecutive := by
  intro s t hs h
  rw [storesSound_iff] at hs ⊢
  exact step_keeps_of_exec (P := fun s => Sound s.rds s.cpc) (fun _ _ _ => Iff.rfl) (fun _ _ _ => exec_sound) hs h

end Sys2Proof.Proofs.StoresSound
end

