-- ==== Sys2Proof/Proofs/Levels.lean ====
section
/-! PROOFS. The level and the side of a value (R134, R136): each side's level by its thresholds, then the two together. -/

namespace Sys2Proof.Proofs.Levels

open Sys2Proof.Machine Sys2Proof.Safety

section
variable {l : ParamLimits} {v : Int}

/-- The highest enabled upper threshold exceeded, as a bound over all of them. -/
theorem highLevel_iff (n : Nat) : n ≤ l.highLevel v ↔ n = 0 ∨
    (n ≤ 1 ∧ l.enable.getLsbD 0 = true ∧ l.u1 < v) ∨ (n ≤ 2 ∧ l.enable.getLsbD 1 = true ∧ l.u2 < v) ∨
    (n ≤ 3 ∧ l.enable.getLsbD 2 = true ∧ l.u3 < v) := by
  simp only [ParamLimits.highLevel, Bool.and_eq_true, decide_eq_true_eq]
  split_ifs <;> grind

theorem lowLevel_iff (n : Nat) : n ≤ l.lowLevel v ↔ n = 0 ∨
    (n ≤ 1 ∧ l.enable.getLsbD 3 = true ∧ v < l.l1) ∨ (n ≤ 2 ∧ l.enable.getLsbD 4 = true ∧ v < l.l2) ∨
    (n ≤ 3 ∧ l.enable.getLsbD 5 = true ∧ v < l.l3) := by
  simp only [ParamLimits.lowLevel, Bool.and_eq_true, decide_eq_true_eq]
  split_ifs <;> grind

/-- The level of a side is 0 or that of an enabled threshold it exceeds. -/
theorem highLevel_cases : l.highLevel v = 0 ∨ (l.highLevel v = 1 ∧ l.enable.getLsbD 0 = true ∧ l.u1 < v) ∨
    (l.highLevel v = 2 ∧ l.enable.getLsbD 1 = true ∧ l.u2 < v) ∨ (l.highLevel v = 3 ∧ l.enable.getLsbD 2 = true ∧ l.u3 < v) := by
  simp only [ParamLimits.highLevel, Bool.and_eq_true, decide_eq_true_eq]
  split_ifs <;> grind

theorem lowLevel_cases : l.lowLevel v = 0 ∨ (l.lowLevel v = 1 ∧ l.enable.getLsbD 3 = true ∧ v < l.l1) ∨
    (l.lowLevel v = 2 ∧ l.enable.getLsbD 4 = true ∧ v < l.l2) ∨ (l.lowLevel v = 3 ∧ l.enable.getLsbD 5 = true ∧ v < l.l3) := by
  simp only [ParamLimits.lowLevel, Bool.and_eq_true, decide_eq_true_eq]
  split_ifs <;> grind

theorem side_high_iff : l.side v = some .high ↔ 0 < l.highLevel v := by
  unfold ParamLimits.side; split_ifs <;> simp [*]

theorem side_low_iff : l.side v = some .low ↔ l.highLevel v = 0 ∧ 0 < l.lowLevel v := by
  unfold ParamLimits.side; split_ifs <;> simp [*] <;> omega

theorem side_none_iff : l.side v = none ↔ l.level v = 0 := by
  unfold ParamLimits.side ParamLimits.level; split_ifs <;> simp <;> omega

/-- The opening threshold is exceeded with any graded threshold of its side. -/
theorem opening_high_iff (h12 : l.enable.getLsbD 0 = true → l.enable.getLsbD 1 = true → l.u1 ≤ l.u2)
    (h13 : l.enable.getLsbD 0 = true → l.enable.getLsbD 2 = true → l.u1 ≤ l.u3)
    (h23 : l.enable.getLsbD 1 = true → l.enable.getLsbD 2 = true → l.u2 ≤ l.u3) :
    (∃ t, l.opening .high = some t ∧ t < v) ↔ 0 < l.highLevel v := by
  simp only [ParamLimits.opening, ParamLimits.highLevel, Bool.and_eq_true, decide_eq_true_eq]
  split_ifs <;> grind

theorem opening_low_iff (h12 : l.enable.getLsbD 3 = true → l.enable.getLsbD 4 = true → -l.l1 ≤ -l.l2)
    (h13 : l.enable.getLsbD 3 = true → l.enable.getLsbD 5 = true → -l.l1 ≤ -l.l3)
    (h23 : l.enable.getLsbD 4 = true → l.enable.getLsbD 5 = true → -l.l2 ≤ -l.l3) :
    (∃ t, l.opening .low = some t ∧ v < t) ↔ 0 < l.lowLevel v := by
  simp only [ParamLimits.opening, ParamLimits.lowLevel, Bool.and_eq_true, decide_eq_true_eq]
  split_ifs <;> grind

/-- With upper thresholds at least 0 and lower ones at most 0 no value exceeds on both sides. -/
theorem one_side (hu1 : 0 ≤ l.u1) (hu2 : 0 ≤ l.u2) (hu3 : 0 ≤ l.u3) (hl1 : l.l1 ≤ 0) (hl2 : l.l2 ≤ 0) (hl3 : l.l3 ≤ 0) :
    l.highLevel v = 0 ∨ l.lowLevel v = 0 := by
  rcases highLevel_cases (l := l) (v := v) with h | h | h | h <;>
    rcases lowLevel_cases (l := l) (v := v) with h' | h' | h' | h' <;> omega

end

/-- Settles O30: by the level of each side. -/
theorem theLevelIsTheHighestExceeded : Obligations.TheLevelIsTheHighestExceeded := by
  intro l v hu1 hu2 hu3 hl1 hl2 hl3 up low
  have hone : l.highLevel v = 0 ∨ l.lowLevel v = 0 := one_side hu1 hu2 hu3 hl1 hl2 hl3
  have hup : ∀ n, up n → n ≤ l.highLevel v := fun n h => (highLevel_iff n).2 (by grind)
  have hlow : ∀ n, low n → n ≤ l.lowLevel v := fun n h => (lowLevel_iff n).2 (by grind)
  have hupLevel : l.highLevel v = 0 ∨ up (l.highLevel v) := by have := highLevel_cases (l := l) (v := v); grind
  have hlowLevel : l.lowLevel v = 0 ∨ low (l.lowLevel v) := by have := lowLevel_cases (l := l) (v := v); grind
  have hupPos : 0 < l.highLevel v ↔ ∃ n, up n :=
    ⟨fun h => ⟨_, hupLevel.resolve_left (by omega)⟩, fun ⟨n, hn⟩ => by have := hup n hn; grind⟩
  have hlowPos : 0 < l.lowLevel v ↔ ∃ n, low n :=
    ⟨fun h => ⟨_, hlowLevel.resolve_left (by omega)⟩, fun ⟨n, hn⟩ => by have := hlow n hn; grind⟩
  have hsideLow : l.side v = some .low ↔ 0 < l.lowLevel v := by
    rw [side_low_iff]
    exact ⟨And.right, fun h => ⟨hone.resolve_right (Nat.pos_iff_ne_zero.1 h), h⟩⟩
  refine ⟨fun n hn => ?bound, ?attained, ?high, ?low, side_none_iff, fun h12 h13 h23 => ?openingHigh, fun h12 h13 h23 => ?openingLow⟩
  case bound => exact hn.elim (fun h => (hup n h).trans (le_max_left _ _)) (fun h => (hlow n h).trans (le_max_right _ _))
  case attained =>
    rcases hone with h | h
    · rw [ParamLimits.level, h, Nat.zero_max]; exact hlowLevel.imp_right .inr
    · rw [ParamLimits.level, h, Nat.max_zero]; exact hupLevel.imp_right .inl
  case high => rw [side_high_iff, hupPos]
  case low => rw [hsideLow, hlowPos]
  case openingHigh => rw [side_high_iff, opening_high_iff h12 h13 h23]
  case openingLow => rw [hsideLow, opening_low_iff h12 h13 h23]

end Sys2Proof.Proofs.Levels
end

