-- ==== Sys2Proof/Proofs/Runs.lean ====
section
/-! PROOFS. The runs of the Exception Unit (R137 to R152): the judging of one parameter and its account of runs and records, an open run
value by value, the judging of a record and the end of a stream, and the balance of the counts at every step (R154). -/

namespace Sys2Proof.Proofs.Runs

open Sys2Proof.Machine Sys2Proof.Safety Sys2Proof.Proofs.Footprints

/-- The judging of nothing. -/
def noJudgement : Judgement := { place := none, records := [], opened := 0 }

theorem closed_eq (x : OpenRun) (p : Param) (run : Word32) (cause : Cause) : x.closed p run cause = closedRecord x p run cause :=
  rfl

theorem onset_eq (x : OpenRun) (p : Param) (run : Word32) :
    x.onset p run = { closedRecord x p run .none with kind := .onset } := rfl

/-- The run a value opens (R141). -/
def openedRun (l : ParamLimits) (set : Nat) (r : OutputRecord) (v : Int) (side : Side) : OpenRun :=
  { side := side, startIndex := r.j, startChainage := r.chainage, lastIndex := r.j, lastChainage := r.chainage,
    severity := l.level v, peak := v, peakChainage := r.chainage, inside := 0, absent := 0, limitSet := set,
    lineCode := r.lineCode, segment := r.segment, uncertainSeen := r.uncertain, onsetSent := decide (l.level v = 3) }

section
variable {l : ParamLimits} {masked : Bool} {set : Nat} {p : Param} {r : OutputRecord} {place : Option OpenRun} {x : OpenRun}

/-! ### One parameter, case by case -/

theorem judgeNone_nothing {value : Option Int} (h : ∀ v, value = some v → l.side v = none) :
    judgeNone l set p r value = noJudgement := by
  cases value with
  | none => rfl
  | some v => simp [judgeNone, h v rfl, noJudgement]

theorem judgeNone_opens {v : Int} {side : Side} (h : l.side v = some side) :
    judgeNone l set p r (some v) =
      { place := some (openedRun l set r v side), opened := 1,
        records := if l.level v = 3 then [(openedRun l set r v side).onset p r.run] else [] } := by
  simp [judgeNone, h, openedRun]

theorem judgeNone_cases (l : ParamLimits) (set : Nat) (p : Param) (r : OutputRecord) (value : Option Int) :
    judgeNone l set p r value = noJudgement ∨ ∃ v side, l.side v = some side ∧
      judgeNone l set p r value =
        { place := some (openedRun l set r v side), opened := 1,
          records := if l.level v = 3 then [(openedRun l set r v side).onset p r.run] else [] } := by
  cases value with
  | none => exact .inl rfl
  | some v =>
    cases hside : l.side v with
    | none => exact .inl (judgeNone_nothing (fun w hw => by cases hw; exact hside))
    | some side => exact .inr ⟨v, side, hside, judgeNone_opens hside⟩

theorem judgeParam_boundary (h : x.limitSet ≠ set ∨ x.lineCode ≠ r.lineCode) :
    judgeParam l false set p r (some x) =
      { judgeParam l false set p r none with
        records := x.closed p r.run .boundary :: (judgeParam l false set p r none).records } :=
  if_neg (by tauto)

theorem judgeParam_open (hset : x.limitSet = set) (hline : x.lineCode = r.lineCode) :
    judgeParam l false set p r (some x) = judgeOpen l p r x (r.values.checked.get p) :=
  if_pos ⟨hset, hline⟩

/-! ### The account of one judging (R148, R149) -/

/-- What one judging owes: every run opened or open before is closed or still open, and the records are those of the rules. -/
structure Accounted (p : Param) (r : OutputRecord) (place : Option OpenRun) (n : Judgement) : Prop where
  balance : n.records.countP (fun e => e.kind == .closed) + n.place.toList.length = n.opened + place.toList.length
  onsets : n.records.countP (fun e => e.kind == .onset) ≤ 1
  sound : ∀ x, n.place = some x → RunSound x
  records : ∀ e ∈ n.records, e.run = r.run ∧ e.param = p ∧ (e.kind = .onset → e.severity = 3 ∧ e.cause = .none)
  once : (∀ x, place = some x → x.onsetSent = true) → n.opened = 0 → ∀ e ∈ n.records, e.kind = .closed

theorem openedRun_sound {v : Int} {side : Side} (h : l.side v = some side) : RunSound (openedRun l set r v side) :=
  ⟨ParamLimits.side_some h, ParamLimits.level_le l v, by simp [openedRun]⟩

theorem noJudgement_accounted : Accounted p r none noJudgement := by constructor <;> simp [noJudgement]

theorem judgeNone_accounted (value : Option Int) : Accounted p r none (judgeNone l set p r value) := by
  rcases judgeNone_cases l set p r value with heq | ⟨v, side, hside, heq⟩ <;> rw [heq]
  · exact noJudgement_accounted
  · by_cases h3 : l.level v = 3
    · rw [if_pos h3]
      refine ⟨rfl, Nat.le_refl 1, fun x hx => by cases hx; exact openedRun_sound hside, fun e he => ?_, fun _ h => by cases h⟩
      rw [List.mem_singleton.1 he]
      exact ⟨rfl, rfl, fun _ => ⟨h3, rfl⟩⟩
    · rw [if_neg h3]
      exact ⟨rfl, Nat.zero_le 1, fun x hx => by cases hx; exact openedRun_sound hside, by simp, by simp⟩

theorem judgeClose_accounted (y : OpenRun) (cause : Cause) : Accounted p r (some x) (judgeClose y p r cause) := by
  refine ⟨rfl, Nat.zero_le 1, by simp [judgeClose], fun e he => ?_, fun _ _ e he => ?_⟩
  all_goals rw [List.mem_singleton.1 he]
  · exact ⟨rfl, rfl, fun h => by cases h⟩
  · rfl

/-- A run closed in front of a judging with no run open. -/
theorem Accounted.closing {n : Judgement} (h : Accounted p r none n) (cause : Cause) :
    Accounted p r (some x) { n with records := x.closed p r.run cause :: n.records } := by
  obtain ⟨hbalance, honsets, hsound, hrecords, honce⟩ := h
  have hclosed : (x.closed p r.run cause).kind = .closed := rfl
  refine ⟨?_, ?_, hsound, fun e he => ?_, fun _ hopened e he => ?_⟩
  · simp [hclosed] at hbalance ⊢; omega
  · simpa [List.countP_cons, hclosed] using honsets
  · rcases List.mem_cons.1 he with rfl | he
    · exact ⟨rfl, rfl, fun h => by cases h⟩
    · exact hrecords e he
  · rcases List.mem_cons.1 he with rfl | he
    · exact hclosed
    · exact honce (fun _ h => by cases h) hopened e he

/-- A run kept open, with at most its ONSET, or closed LONG behind it. -/
theorem judgeLong_accounted {z : OpenRun} {es : List ExceptionRecord} (hz : RunSound z)
    (hes : es = [] ∨ (z.severity = 3 ∧ x.onsetSent = false ∧ es = [z.onset p r.run])) :
    Accounted p r (some x) (judgeLong z p r es) := by
  rcases judgeLong_eq z p r es with ⟨-, heq⟩ | ⟨-, heq⟩ <;> rw [heq] <;> rcases hes with rfl | ⟨h3, hsent, rfl⟩
  · exact ⟨rfl, Nat.zero_le 1, fun _ h => by cases h; exact hz, by simp, by simp⟩
  · refine ⟨rfl, Nat.le_refl 1, fun _ h => by cases h; exact hz, fun e he => ?_, fun h => ?_⟩
    · rw [List.mem_singleton.1 he]; exact ⟨rfl, rfl, fun _ => ⟨h3, rfl⟩⟩
    · exact absurd (h x rfl) (by simp [hsent])
  · exact judgeClose_accounted z .long
  · refine ⟨rfl, Nat.le_refl 1, by simp, fun e he => ?_, fun h => ?_⟩
    · rcases List.mem_cons.1 he with rfl | he
      · exact ⟨rfl, rfl, fun _ => ⟨h3, rfl⟩⟩
      · rw [List.mem_singleton.1 he]; exact ⟨rfl, rfl, fun h => by cases h⟩
    · exact absurd (h x rfl) (by simp [hsent])

theorem extend_sound (hx : RunSound x) (v : Int) : RunSound { (x.takes r).extend l r v with absent := 0 } := by
  obtain ⟨h1, h3, hsent⟩ := hx
  have hle := ParamLimits.level_le l v
  refine ⟨?_, ?_, ?_⟩
  · show 1 ≤ max x.severity (l.level v); omega
  · show max x.severity (l.level v) ≤ 3; omega
  · show (x.onsetSent || decide (l.level v = 3)) = true ↔ max x.severity (l.level v) = 3
    rw [Bool.or_eq_true, hsent, decide_eq_true_iff]; omega

theorem judgeOpen_accounted (hx : RunSound x) (value : Option Int) : Accounted p r (some x) (judgeOpen l p r x value) := by
  have hsent : ¬x.severity = 3 → x.onsetSent = false := fun h => by simpa using mt hx.2.2.1 h
  cases value with
  | none =>
    simp only [judgeOpen]
    split
    · exact judgeClose_accounted _ _
    · exact judgeLong_accounted hx (.inl rfl)
  | some v =>
    simp only [judgeOpen]
    split
    · split
      · refine judgeLong_accounted (extend_sound hx v) ?_
        split
        · next h => exact .inr ⟨h.2, hsent (by omega), rfl⟩
        · exact .inl rfl
      · exact (judgeNone_accounted (some v)).closing .side
    · split
      · exact judgeLong_accounted hx (.inl rfl)
      · split
        · exact judgeClose_accounted _ _
        · exact judgeLong_accounted hx (.inl rfl)

theorem judgeParam_accounted (hplace : ∀ x, place = some x → RunSound x) :
    Accounted p r place (judgeParam l masked set p r place) := by
  cases place with
  | none =>
    cases masked
    · exact judgeNone_accounted _
    · exact noJudgement_accounted
  | some x =>
    cases masked
    · by_cases hsame : x.limitSet = set ∧ x.lineCode = r.lineCode
      · rw [judgeParam_open hsame.1 hsame.2]; exact judgeOpen_accounted (hplace x rfl) _
      · rw [judgeParam_boundary (by tauto)]
        exact (judgeNone_accounted _).closing .boundary
    · exact judgeClose_accounted x .masked

theorem judgeParam_masked : (judgeParam l true set p r place).place = none ∧ (judgeParam l true set p r place).opened = 0 := by
  cases place <;> exact ⟨rfl, rfl⟩

end

/-- Settles O31: the account of one judging, then its cases. -/
theorem everyRunYieldsOneClosedRecord : Obligations.EveryRunYieldsOneClosedRecord := by
  intro l masked set p r place n value
  refine ⟨fun hplace => ?account, fun hm hp => ?maskedNone, fun x hm hp => ?maskedOpen, fun hm hp hno => ?nothing,
    fun v side hm hp hv hside => ?opens, fun x hm hp hother => ?boundary, fun x hm hp hset hline => ?run⟩
  case account =>
    obtain ⟨hbalance, honsets, hsound, hrecords, honce⟩ := judgeParam_accounted (l := l) (masked := masked) (set := set)
      (p := p) (r := r) hplace
    refine ⟨hbalance, honsets, hsound, hrecords, fun x hx hsent => honce (fun y hy => ?_), fun hm => ?_⟩
    · rw [hx] at hy; cases hy; exact hsent
    · subst hm; exact judgeParam_masked
  all_goals subst hm hp
  case maskedNone => rfl
  case maskedOpen => rfl
  case nothing => exact judgeNone_nothing hno
  case opens =>
    show judgeNone l set p r value = _
    rw [hv]
    exact judgeNone_opens hside
  case boundary => exact judgeParam_boundary hother
  case run => exact judgeParam_open hset hline

/-! ### An open run, value by value (R142 to R147) -/

section
variable {l : ParamLimits} {p : Param} {r : OutputRecord} {x : OpenRun}

theorem judgeLong_if (z : OpenRun) (es : List ExceptionRecord) : judgeLong z p r es =
    if (r.j - z.startIndex).natAbs + 1 < 4000 then { place := some z, records := es, opened := 0 }
    else { place := none, records := es ++ [closedRecord z p r.run .long], opened := 0 } := by
  rcases judgeLong_eq z p r es with ⟨h, heq⟩ | ⟨h, heq⟩
  · rw [heq, if_pos h]
  · rw [heq, if_neg (by omega)]; rfl

theorem judgeOpen_extends {v : Int} (hside : l.side v = some x.side) :
    let z := { (x.takes r).extend l r v with absent := 0 }
    judgeOpen l p r x (some v) = judgeLong z p r (if x.severity < 3 ∧ z.severity = 3 then [z.onset p r.run] else []) := by
  simp only [judgeOpen, hside, if_pos]

theorem judgeOpen_inside {v : Int} (hside : l.side v = none) :
    judgeOpen l p r x (some v) =
      if l.inBand x.side v then judgeLong { x.takes r with absent := 0, inside := 0 } p r []
      else if l.mergeGap < x.inside + 1 then judgeClose { x.takes r with absent := 0, inside := x.inside + 1 } p r .returned
      else judgeLong { x.takes r with absent := 0, inside := x.inside + 1 } p r [] := by
  simp only [judgeOpen, hside]

theorem judgeOpen_crosses {v : Int} {side : Side} (hside : l.side v = some side) (hother : side ≠ x.side) :
    judgeOpen l p r x (some v) =
      { place := some (openedRun l x.limitSet r v side), opened := 1,
        records := x.closed p r.run .side ::
          (if l.level v = 3 then [(openedRun l x.limitSet r v side).onset p r.run] else []) } := by
  simp only [judgeOpen, hside, if_neg hother, judgeNone_opens hside]

theorem inBand_high {t v : Int} (ht : l.opening .high = some t) : l.inBand .high v = true ↔ t - l.hysteresis < v := by
  simp [ParamLimits.inBand, ht]

theorem inBand_low {t v : Int} (ht : l.opening .low = some t) : l.inBand .low v = true ↔ v < t + l.hysteresis := by
  simp [ParamLimits.inBand, ht]

theorem beatsPeak_iff (v : Int) : x.beatsPeak v = true ↔
    match x.side with
    | .high => x.peak < v
    | .low => v < x.peak := by
  unfold OpenRun.beatsPeak; split <;> simp [*]

end

/-- Settles O32: by the value, absent, on the run's side, in neither side's excess, or on the other side. -/
theorem anOpenRunFollowsItsValues : Obligations.AnOpenRunFollowsItsValues := by
  intro l p r x y kept
  have hkept : ∀ (z : OpenRun) es, z.startIndex = x.startIndex → judgeLong z p r es = kept z es := by
    intro z es hz
    rw [judgeLong_if, hz]
  refine ⟨fun h => ?bridged, fun h => ?invalid, fun v => ⟨fun hside => ?extended, fun t hside ht => ?inside,
    fun side hside hother => ?crossed⟩⟩
  case bridged =>
    refine Eq.trans (if_neg ?_) (hkept _ _ rfl)
    show ¬l.mergeGap < x.absent + 1; omega
  case invalid =>
    -- the CLOSED record has no field for the absent count
    exact if_pos (by show l.mergeGap < x.absent + 1; omega)
  case extended =>
    refine ⟨_, _, (judgeOpen_extends hside).trans (hkept _ _ rfl), rfl, ?_, fun h => ?_, fun h => ?_, fun h h' => ?_, fun h => ?_⟩
    · simp [OpenRun.extend, OpenRun.takes]
    · have hbeats : (x.takes r).beatsPeak v = true := (beatsPeak_iff v).2 h
      simp [OpenRun.extend, hbeats]
    · have hbeats : ¬(x.takes r).beatsPeak v = true := fun hb => h ((beatsPeak_iff v).1 hb)
      simp only [OpenRun.extend, if_neg hbeats]
      exact ⟨rfl, rfl⟩
    · exact if_pos ⟨h, h'⟩
    · exact if_neg h
  case inside =>
    intro inBand
    have hband : l.inBand x.side v = true ↔ inBand := by
      unfold inBand
      cases hx : x.side <;> rw [hx] at ht
      · exact inBand_high ht
      · exact inBand_low ht
    rw [judgeOpen_inside hside]
    refine ⟨fun h => ?_, fun h hgap => ?_, fun h hgap => ?_⟩
    · rw [if_pos (hband.2 h)]; exact hkept _ _ rfl
    · rw [if_neg (mt hband.1 h), if_neg (by omega)]; exact hkept _ _ rfl
    · rw [if_neg (mt hband.1 h), if_pos (by omega)]; rfl
  case crossed =>
    exact ⟨openedRun l x.limitSet r v side, _, judgeOpen_crosses hside hother, rfl, by simp [openedRun], rfl⟩

/-! ### A whole record (R137, R139) -/

/-- The judging of one parameter of a record, by the runs open before the record. -/
def judgementOf (x : Exu) (pru : Pru) (r : OutputRecord) (p : Param) : Judgement :=
  judgeParam ((x.limitSet (pru.limitSetIndex r)).get p) (pru.isMasked r p) (pru.limitSetIndex r) p r (x.runs.get p)

/-- `z` is `y` after the judging of the parameters of a list: each writes its own place and adds to the counts. -/
structure JudgedAs (J : Param → Judgement) (ps : List Param) (y z : Exu) : Prop where
  limitSets : z.limitSets = y.limitSets
  judged : z.judged = y.judged
  opened : z.opened = y.opened + BitVec.ofNat 32 (ps.map (fun p => (J p).opened)).sum
  onsets : z.onsets = y.onsets + kindCount .onset (ps.flatMap (fun p => (J p).records))
  closed : z.closed = y.closed + kindCount .closed (ps.flatMap (fun p => (J p).records))
  runs : ∀ p, z.runs.get p = if p ∈ ps then (J p).place else y.runs.get p

theorem kindCount_append (kind : ExceptionKind) (es fs : List ExceptionRecord) :
    kindCount kind (es ++ fs) = kindCount kind es + kindCount kind fs := by
  simp [kindCount, BitVec.ofNat_add]

theorem judgeNext_fold {x : Exu} {pru : Pru} {r : OutputRecord} (ps : List Param) (hps : ps.Nodup) (y : Exu)
    (es : List ExceptionRecord) (hlimits : y.limitSets = x.limitSets) (hruns : ∀ p ∈ ps, y.runs.get p = x.runs.get p) :
    ∃ z, ps.foldl (Exu.judgeNext pru r) (y, es) = (z, es ++ ps.flatMap (fun p => (judgementOf x pru r p).records)) ∧
      JudgedAs (judgementOf x pru r) ps y z := by
  induction ps generalizing y es with
  | nil => exact ⟨y, by simp, rfl, rfl, by simp, by simp [kindCount], by simp [kindCount], by simp⟩
  | cons p ps ih =>
    obtain ⟨hp, hps⟩ := List.nodup_cons.1 hps
    have hnext : Exu.judgeNext pru r (y, es) p =
        (y.apply p (judgementOf x pru r p), es ++ (judgementOf x pru r p).records) := by
      simp only [Exu.judgeNext, judgementOf, Exu.limitSet, hlimits, hruns p (by simp)]
    obtain ⟨z, hz, hlimits', hjudged', hopened', honsets', hclosed', hruns'⟩ := ih hps (y.apply p (judgementOf x pru r p))
      (es ++ (judgementOf x pru r p).records) hlimits (fun q hq => by
        have hne : q ≠ p := fun h => hp (h ▸ hq)
        rw [← hruns q (by simp [hq])]
        exact Seven.get_set_of_ne _ _ hne)
    refine ⟨z, by rw [List.foldl_cons, hnext, hz]; simp, hlimits', hjudged', ?_, ?_, ?_, fun q => ?_⟩
    · rw [hopened', List.map_cons, List.sum_cons, BitVec.ofNat_add, ← BitVec.add_assoc]; rfl
    · rw [honsets', List.flatMap_cons, kindCount_append, ← BitVec.add_assoc]; rfl
    · rw [hclosed', List.flatMap_cons, kindCount_append, ← BitVec.add_assoc]; rfl
    · rw [hruns' q]
      by_cases hq : q = p
      · subst hq; rw [if_neg hp, if_pos List.mem_cons_self]; exact Seven.get_set _ _ _
      · simp only [List.mem_cons, hq, false_or]
        split
        · rfl
        · exact Seven.get_set_of_ne _ _ hq

theorem mem_allParams (p : Param) : p ∈ allParams := by cases p <;> decide

/-- The judging of a record: that of its seven parameters, each by the runs open before the record. -/
theorem judge_eq (x : Exu) (pru : Pru) (r : OutputRecord) :
    ∃ z, x.judge pru r = ({ z with judged := z.judged + 1 }, allParams.flatMap (fun p => (judgementOf x pru r p).records)) ∧
      JudgedAs (judgementOf x pru r) allParams x z := by
  obtain ⟨z, hz, hjudged⟩ := judgeNext_fold (x := x) (pru := pru) (r := r) allParams (by decide) x [] rfl (fun _ _ => rfl)
  exact ⟨z, by simp [Exu.judge, hz], hjudged⟩

theorem isMasked_iff (pru : Pru) (r : OutputRecord) (p : Param) : pru.isMasked r p = true ↔
    ∃ k m, r.segment = some k ∧ m ∈ (pru.segment k).masks ∧ m.params.getLsbD p.number = true ∧ m.lo ≤ r.chainage ∧
      r.chainage ≤ m.hi := by
  unfold Pru.isMasked
  split
  · next k hk => simp [hk, Mask.covers, and_assoc]
  · next hk => simp [hk]

/-- One thing for each parameter, by a function of the parameter. -/
def sevenOf {α : Type} (f : Param → α) : Seven α := ⟨f .g, f .cl, f .tw, f .ll, f .lr, f .al, f .ar⟩

@[simp] theorem get_sevenOf {α : Type} (f : Param → α) (p : Param) : (sevenOf f).get p = f p := by cases p <;> rfl

theorem toList_sevenOf {α : Type} (f : Param → α) : (sevenOf f).toList = allParams.map f := rfl

theorem get_annotations (x : Exu) (pru : Pru) (r : OutputRecord) (p : Param) :
    (x.annotations pru r).get p = x.annotation pru r p := by cases p <;> rfl

/-! ### The end of a stream (R150) -/

theorem set_get {α : Type} (x : Seven α) (p : Param) : x.set p (x.get p) = x := by cases p <;> rfl

/-- The CLOSED record a stream end makes of a place. -/
def endRecord (cause : Cause) (run : Word32) (x : Exu) (p : Param) : Option ExceptionRecord :=
  (x.runs.get p).map (fun y => closedRecord y p run cause)

theorem endNext_eq (cause : Cause) (run : Word32) (x : Exu) (es : List ExceptionRecord) (p : Param) :
    Exu.endNext cause run (x, es) p =
      ({ x with runs := x.runs.set p none, closed := x.closed + BitVec.ofNat 32 (endRecord cause run x p).toList.length },
       es ++ (endRecord cause run x p).toList) := by
  unfold Exu.endNext endRecord
  cases h : x.runs.get p with
  | some y => simp [Exu.apply, kindCount, OpenRun.closed, OpenRun.record, closedRecord, OpenRun.length]
  | none =>
    have hset : x.runs.set p none = x.runs := by rw [← h, set_get]
    simp [hset]

theorem endNext_fold {cause : Cause} {run : Word32} {x : Exu} (ps : List Param) (hps : ps.Nodup) (y : Exu)
    (es : List ExceptionRecord) (hruns : ∀ p ∈ ps, y.runs.get p = x.runs.get p) :
    ∃ runs, ps.foldl (Exu.endNext cause run) (y, es) =
        ({ y with runs := runs, closed := y.closed + BitVec.ofNat 32 (ps.filterMap (endRecord cause run x)).length },
         es ++ ps.filterMap (endRecord cause run x)) ∧
      ∀ p, runs.get p = if p ∈ ps then none else y.runs.get p := by
  induction ps generalizing y es with
  | nil => exact ⟨y.runs, by simp, by simp⟩
  | cons p ps ih =>
    obtain ⟨hp, hps⟩ := List.nodup_cons.1 hps
    have hrecord : endRecord cause run y p = endRecord cause run x p := by simp [endRecord, hruns p (by simp)]
    have hcons : (p :: ps).filterMap (endRecord cause run x) =
        (endRecord cause run x p).toList ++ ps.filterMap (endRecord cause run x) := by
      cases h : endRecord cause run x p <;> simp [h]
    rw [List.foldl_cons, endNext_eq, hrecord]
    obtain ⟨runs, hfold, hget⟩ := ih hps
      { y with runs := y.runs.set p none, closed := y.closed + BitVec.ofNat 32 (endRecord cause run x p).toList.length }
      (es ++ (endRecord cause run x p).toList) (fun q hq => by
        have hne : q ≠ p := fun h => hp (h ▸ hq)
        rw [← hruns q (by simp [hq])]
        exact Seven.get_set_of_ne _ _ hne)
    refine ⟨runs, ?_, fun q => ?_⟩
    · rw [hfold, hcons, List.length_append, BitVec.ofNat_add, BitVec.add_assoc, List.append_assoc]
    · rw [hget q]
      by_cases hq : q = p
      · subst hq; simp
      · simp only [List.mem_cons, hq, false_or]
        split
        · rfl
        · exact Seven.get_set_of_ne _ _ hq

theorem endStream_eq (x : Exu) (cause : Cause) (run : Word32) : x.endStream cause run =
    ({ x with runs := ⟨none, none, none, none, none, none, none⟩,
              closed := x.closed + BitVec.ofNat 32 (allParams.filterMap (endRecord cause run x)).length },
     allParams.filterMap (endRecord cause run x)) := by
  obtain ⟨runs, hfold, hget⟩ := endNext_fold (cause := cause) (run := run) (x := x) allParams (by decide) x [] (fun _ _ => rfl)
  have hruns : runs = ⟨none, none, none, none, none, none, none⟩ := Seven.ext_get fun p => by
    rw [hget p, if_pos (mem_allParams p)]; cases p <;> rfl
  rw [Exu.endStream, hfold, hruns, List.nil_append]

/-- A stream end closes as many runs as are open. -/
theorem endRecord_length (x : Exu) (cause : Cause) (run : Word32) :
    (allParams.filterMap (endRecord cause run x)).length = x.openRuns := by
  rw [Exu.openRuns, Seven.toList_eq_map, List.countP_map, List.length_filterMap_eq_countP]
  simp [endRecord, Function.comp_def]

/-- Settles O33: the judging of the seven parameters, the end of a stream, and START. -/
theorem recordsAreAnnotatedAndStreamsEndTheRuns : Obligations.RecordsAreAnnotatedAndStreamsEndTheRuns := by
  refine ⟨fun s r rest hbus => ?record, fun s cause run rest hbus => ?streamEnd, fun s rest hbus => ?start⟩
  case record =>
    intro set masked
    have hset : s.pru.limitSetIndex r = set := rfl
    have hmasked : ∀ p, s.pru.isMasked r p = true ↔ masked p := isMasked_iff s.pru r
    obtain ⟨z, hjudge, hlimits, hjudged, hopened, honsets, hclosed, hruns⟩ := judge_eq s.exu s.pru r
    let J := judgementOf s.exu s.pru r
    have hrecords : (sevenOf (fun p => (J p).records)).toList.flatten = allParams.flatMap (fun p => (J p).records) := by
      rw [toList_sevenOf, List.flatMap_def]
    have hexec : exec .outputRecord s = .next { s with
        exu := { z with judged := z.judged + 1 },
        bus := Bus.handRds { s.bus with toExu := rest } (.geometry r (s.exu.annotations s.pru r) ::
          (allParams.flatMap (fun p => (J p).records)).map RdsMessage.exception) } := by
      simp only [exec, execOutputRecord, hbus, hjudge]; rfl
    refine ⟨_, s.exu.annotations s.pru r, sevenOf (fun p => (J p).records), sevenOf (fun p => (J p).opened), hexec, rfl, ?_, hlimits, hopened, ?_, ?_, ?_, fun p => ?_⟩
    · show z.judged + 1 = _; rw [hjudged]
    · rw [hrecords]; exact honsets
    · rw [hrecords]; exact hclosed
    · rw [hrecords]; rfl
    have hplace : z.runs.get p = (J p).place := by rw [hruns p, if_pos (mem_allParams p)]
    refine ⟨fun hm => ⟨?_, ?_⟩, fun hv => ?_, fun v hm hv => ?_, s.pru.isMasked r p, hmasked p, ?_⟩
    · simp [get_annotations, Exu.annotation, (hmasked p).2 hm]
    · show z.runs.get p = none
      rw [hplace]
      simp only [J, judgementOf, (hmasked p).2 hm]
      exact judgeParam_masked.1
    · simp [get_annotations, Exu.annotation, hv]
    · simp [get_annotations, Exu.annotation, mt (hmasked p).1 hm, hv, hset]
    · exact ⟨hplace, by simp [J, judgementOf, hset], by simp [J, judgementOf, hset]⟩
  case streamEnd =>
    have hexceptions : (allParams.filterMap (endRecord cause run s.exu)).map RdsMessage.exception = allParams.filterMap
        (fun p => (s.exu.runs.get p).map (fun x => RdsMessage.exception (closedRecord x p run cause))) := by
      simp [List.map_filterMap, endRecord, Function.comp_def]
    simp only [exec, execStreamEndNotice, hbus, endStream_eq, endRecord_length, hexceptions]
    rfl
  case start => simp only [exec, execExuStartNotice, hbus]; rfl

/-! ### The balance at every step (R138, R154) -/

/-- The number of open runs, place by place. -/
theorem openRuns_eq (x : Exu) : x.openRuns = (allParams.map (fun p => (x.runs.get p).toList.length)).sum := by
  have hcount : ∀ ps : List Param, (ps.map x.runs.get).countP Option.isSome =
      (ps.map (fun p => (x.runs.get p).toList.length)).sum := by
    intro ps
    induction ps with
    | nil => rfl
    | cons p ps ih => cases h : x.runs.get p <;> simp [h, ih, Nat.add_comm]
  exact hcount allParams

/-- The balance of one judging, summed over a list of parameters. -/
theorem balance_sum {J : Param → Judgement} {r : OutputRecord} {places : Param → Option OpenRun}
    (hJ : ∀ p, Accounted p r (places p) (J p)) (ps : List Param) :
    (ps.flatMap (fun p => (J p).records)).countP (fun e => e.kind == .closed) +
      (ps.map (fun p => (J p).place.toList.length)).sum =
    (ps.map (fun p => (J p).opened)).sum + (ps.map (fun p => (places p).toList.length)).sum := by
  induction ps with
  | nil => rfl
  | cons p ps ih =>
    have := (hJ p).balance
    simp only [List.flatMap_cons, List.countP_append, List.map_cons, List.sum_cons]
    omega

/-- What `OpenRunsSound` says of a state, of its EXU alone. -/
def Balanced (x : Exu) : Prop :=
  (∀ p y, x.runs.get p = some y → RunSound y) ∧ x.opened - x.closed = BitVec.ofNat 32 x.openRuns

theorem judge_balanced {x : Exu} (pru : Pru) (r : OutputRecord) (hx : Balanced x) : Balanced (x.judge pru r).1 := by
  obtain ⟨hsound, hcount⟩ := hx
  obtain ⟨z, hjudge, -, -, hopened, -, hclosed, hruns⟩ := judge_eq x pru r
  have hplace : ∀ p, z.runs.get p = (judgementOf x pru r p).place := fun p => by rw [hruns p, if_pos (mem_allParams p)]
  have haccount : ∀ p, Accounted p r (x.runs.get p) (judgementOf x pru r p) := fun p => judgeParam_accounted (hsound p)
  rw [hjudge]
  refine ⟨fun p y hy => (haccount p).sound y (by rw [← hplace p]; exact hy), ?_⟩
  show z.opened - z.closed = BitVec.ofNat 32 z.openRuns
  have hsum := congrArg (BitVec.ofNat 32) (balance_sum haccount allParams)
  have hbefore : (allParams.map (fun p => (x.runs.get p).toList.length)).sum = x.openRuns := (openRuns_eq x).symm
  have hafter : (allParams.map (fun p => (judgementOf x pru r p).place.toList.length)).sum = z.openRuns := by
    simp only [openRuns_eq, hplace]
  rw [hbefore, hafter, BitVec.ofNat_add, BitVec.ofNat_add, ← hcount] at hsum
  rw [hopened, hclosed, kindCount]
  linear_combination -hsum

/-- An empty table is balanced by equal counts. -/
theorem balanced_of_empty {x : Exu} (hruns : x.runs = ⟨none, none, none, none, none, none, none⟩) (hcounts : x.opened = x.closed) :
    Balanced x := by
  refine ⟨fun p y hy => ?_, ?_⟩
  · rw [hruns] at hy; cases p <;> cases hy
  · rw [hcounts, Exu.openRuns, hruns]; exact BitVec.sub_self _

theorem endStream_balanced {x : Exu} (cause : Cause) (run : Word32) (hx : Balanced x) : Balanced (x.endStream cause run).1 := by
  rw [endStream_eq, endRecord_length, ← hx.2]
  exact balanced_of_empty rfl (show x.opened = x.closed + (x.opened - x.closed) by ring)

theorem writeItem_balanced {s : State} (i : ItemId) (b : List Byte) (hs : Balanced s.exu) : Balanced (s.writeItem i b).exu := by
  cases i
  case fixPolicy => obtain ⟨_, _, _, heq⟩ := writeItem_fixPolicy s b; rw [heq]; exact hs
  all_goals exact hs

theorem exec_balanced {c : Instr} {s t : State} (hs : Balanced s.exu) (h : exec c s = .next t) : Balanced t.exu := by
  by_cases hexu : (footprint c).exu = false
  · rw [(exec_keeps h).exu hexu]; exact hs
  cases c
  case powerOn cause => cases cause <;> cases h <;> exact balanced_of_empty rfl rfl
  case outputRecord =>
    simp only [exec, execOutputRecord] at h
    split at h <;> cases h
    · exact judge_balanced s.pru _ hs
    · exact hs
  case streamEndNotice =>
    simp only [exec, execStreamEndNotice] at h
    split at h <;> cases h
    · exact endStream_balanced _ _ hs
    · exact hs
  case exuStartNotice =>
    simp only [exec, execExuStartNotice] at h
    split at h <;> cases h
    · exact balanced_of_empty rfl rfl
    · exact hs
  case setItem =>
    exact setItem_keeps_of_writeItem (P := fun s => Balanced s.exu) (fun _ _ _ => Iff.rfl) hs
      (fun _ i b _ => writeItem_balanced i b hs) h
  all_goals exact absurd rfl hexu

/-- Settles O54: by the commands that change the EXU. -/
theorem openedLessClosedIsTheOpenRuns : Obligations.OpenedLessClosedIsTheOpenRuns :=
  fun _ _ => step_keeps_of_exec (P := fun s => Balanced s.exu) (fun _ _ _ => Iff.rfl) (fun _ _ _ => exec_balanced)

end Sys2Proof.Proofs.Runs
end

