-- ==== Sys2Proof/Proofs/LinksSound.lean ====
section
/-! PROOFS. Channels, link states and leaky integrators stay in range (R30 to R32, R34): a slot end, then every command. -/

namespace Sys2Proof.Proofs.LinksSound

open Sys2Proof.Machine Sys2Proof.Safety Sys2Proof.Proofs.Footprints

/-- What `SlcSound` says of a state, of its SLC alone. -/
structure Sound (c : Slc) : Prop where
  channels : ∀ i, ChannelSound (c.channels.get i)
  links : ∀ l, (c.link l).state = linkCondition l c.channels
  vertLeft : IntegratorSound c.vertLeft
  vertRight : IntegratorSound c.vertRight
  lateral : IntegratorSound c.lateral

theorem slcSound_iff (s : State) : SlcSound s ↔ Sound s.slc :=
  ⟨fun ⟨hchannels, hlinks, hleft, hright, hlateral⟩ => ⟨hchannels, hlinks, hleft, hright, hlateral⟩,
   fun ⟨hchannels, hlinks, hleft, hright, hlateral⟩ => ⟨hchannels, hlinks, hleft, hright, hlateral⟩⟩

/-- A change that leaves the channels, the link states and the figures of the integrators. -/
theorem Sound.of_same {c d : Slc} (h : Sound c) (hchannels : d.channels = c.channels)
    (hlinks : ∀ l, (d.link l).state = (c.link l).state) (hleft : d.vertLeft.v = c.vertLeft.v ∧ d.vertLeft.p = c.vertLeft.p)
    (hright : d.vertRight.v = c.vertRight.v ∧ d.vertRight.p = c.vertRight.p)
    (hlateral : d.lateral.v = c.lateral.v ∧ d.lateral.p = c.lateral.p) : Sound d := by
  refine ⟨?_, fun l => ?_, ?_, ?_, ?_⟩
  · rw [hchannels]; exact h.channels
  · rw [hchannels, hlinks]; exact h.links l
  · rw [IntegratorSound, hleft.1, hleft.2]; exact h.vertLeft
  · rw [IntegratorSound, hright.1, hright.2]; exact h.vertRight
  · rw [IntegratorSound, hlateral.1, hlateral.2]; exact h.lateral

/-! ### A slot end -/

/-- A channel takes a slot's outcome, or stays where it belongs to another link. -/
theorem takeFrame_get (l : Link) (good : Bool) (frame : List Byte) (c : Channels) (i : ChannelId) :
    (takeFrame l good frame c).get i = c.get i ∨ ∃ value, (takeFrame l good frame c).get i = (c.get i).take value := by
  cases l <;> cases i <;> first | exact .inl rfl | exact .inr ⟨_, rfl⟩

theorem takeFrame_sound (l : Link) (good : Bool) (frame : List Byte) {c : Channels} (h : ∀ i, ChannelSound (c.get i)) (i : ChannelId) :
    ChannelSound ((takeFrame l good frame c).get i) := by
  rcases takeFrame_get l good frame c i with heq | ⟨value, heq⟩ <;> rw [heq]
  · exact h i
  · exact Channel.take_sound (h i) value

/-- The channels of the other links stay, and so does the condition they give. -/
theorem linkCondition_takeFrame_of_ne {l k : Link} (hk : k ≠ l) (good : Bool) (frame : List Byte) (c : Channels) :
    linkCondition k (takeFrame l good frame c) = linkCondition k c := by
  cases l <;> cases k <;> first | rfl | exact absurd rfl hk

theorem zeroed_sound : IntegratorSound Integrator.zeroed := ⟨by decide, by decide⟩

theorem verticalStep_sound (i : Integrator) (a : Option Int) (kv kp : Nat) : IntegratorSound (verticalStep i a kv kp) := by
  cases a
  · exact zeroed_sound
  · exact Integrator.step_sound i _ kv kp

theorem lateralStep_sound (i : Integrator) (ay roll : Option Int) (kv kp : Nat) :
    IntegratorSound (lateralStep i ay roll kv kp) := by
  unfold lateralStep
  split
  · exact Integrator.step_sound _ _ kv kp
  · exact zeroed_sound

theorem integrate_sound {c : Slc} (l : Link) (h : Sound c) : Sound (c.integrate l) := by
  obtain ⟨hchannels, hlinks, hleft, hright, hlateral⟩ := h
  cases l
  · exact ⟨hchannels, hlinks, hleft, hright, hlateral⟩
  · exact ⟨hchannels, fun l => by cases l; exacts [hlinks .s1, hlinks .s2, hlinks .s3], verticalStep_sound _ _ _ _, verticalStep_sound _ _ _ _, hlateral⟩
  · exact ⟨hchannels, fun l => by cases l; exacts [hlinks .s1, hlinks .s2, hlinks .s3], hleft, hright, lateralStep_sound _ _ _ _ _⟩

theorem seeLoss_sound {c : Slc} (l : Link) (h : Sound c) : Sound (c.seeLoss l) := by
  have hsame : ∀ g k, Sound { c with vertGroup := g, latGroup := k } := fun g k =>
    h.of_same rfl (fun l => by cases l <;> rfl) ⟨rfl, rfl⟩ ⟨rfl, rfl⟩ ⟨rfl, rfl⟩
  unfold Slc.seeLoss
  split
  · exact h
  · split
    · exact hsame _ _
    · exact h
  · split
    · exact hsame _ _
    · exact h

theorem endSlot_sound {c : Slc} (l : Link) (opened : Bool) (bytes : List Byte) (h : Sound c) : Sound (c.endSlot l opened bytes) := by
  obtain ⟨hchannels, hlinks, hleft, hright, hlateral⟩ := h
  refine seeLoss_sound l (integrate_sound l ⟨fun i => ?_, fun k => ?_, ?_, ?_, ?_⟩)
  · rw [Slc.setLink_channels]; exact takeFrame_sound l _ _ hchannels i
  · rw [Slc.setLink_channels]
    by_cases hk : k = l
    · subst hk; rw [Slc.link_setLink]
    · rw [Slc.link_setLink_of_ne _ _ hk, linkCondition_takeFrame_of_ne hk]
      exact hlinks k
  · rw [Slc.setLink_vertLeft]; exact hleft
  · rw [Slc.setLink_vertRight]; exact hright
  · rw [Slc.setLink_lateral]; exact hlateral

/-! ### The commands -/

theorem reset_sound : Sound Slc.reset :=
  ⟨fun i => by cases i <;> exact ⟨rfl, rfl, Nat.zero_le _⟩, fun l => by cases l <;> rfl, zeroed_sound, zeroed_sound, zeroed_sound⟩

theorem writeItem_sound {s : State} (i : ItemId) (b : List Byte) (hs : Sound s.slc) : Sound (s.writeItem i b).slc := by
  cases i
  case fixPolicy => obtain ⟨_, _, _, heq⟩ := writeItem_fixPolicy s b; rw [heq]; exact hs
  case sensors => exact hs.of_same rfl (fun l => by cases l <;> rfl) ⟨rfl, rfl⟩ ⟨rfl, rfl⟩ ⟨rfl, rfl⟩
  all_goals exact hs

theorem exec_sound {c : Instr} {s t : State} (hs : Sound s.slc) (h : exec c s = .next t) : Sound t.slc := by
  by_cases hslc : (footprint c).slc = false
  · rw [(exec_keeps h).slc hslc]; exact hs
  cases c
  case powerOn cause => cases cause <;> cases h <;> exact reset_sound
  case startUpHoldEnd =>
    simp only [exec, execStartUpHoldEnd] at h
    split at h <;> cases h
    · exact hs.of_same rfl (fun l => by cases l <;> rfl) ⟨rfl, rfl⟩ ⟨rfl, rfl⟩ ⟨rfl, rfl⟩
    · exact hs
  case slotStart =>
    simp only [exec, execSlotStart] at h
    split at h
    · split at h <;> cases h
      · exact hs.of_same rfl (fun l => by cases l <;> rfl) ⟨rfl, rfl⟩ ⟨rfl, rfl⟩ ⟨rfl, rfl⟩
      · exact hs
    · cases h; exact hs
  case slotEnd l opened bytes =>
    simp only [exec, execSlotEnd] at h
    split at h <;> cases h
    · exact endSlot_sound l opened bytes hs
    · exact hs
  case slcSampleEvent =>
    simp only [exec, execSlcSampleEvent] at h
    split at h
    · split at h <;> cases h
      · exact hs.of_same rfl (fun l => by cases l <;> rfl) ⟨rfl, rfl⟩ ⟨rfl, rfl⟩ ⟨rfl, rfl⟩
      · exact hs
    · cases h; exact hs
  case slcStartNotice =>
    simp only [exec, execSlcStartNotice] at h
    split at h <;> cases h
    · exact hs.of_same rfl (fun l => by cases l <;> rfl) ⟨rfl, rfl⟩ ⟨rfl, rfl⟩ ⟨rfl, rfl⟩
    · exact hs
  case slcSuspendNotice =>
    simp only [exec, execSlcSuspendNotice] at h
    split at h <;> cases h
    · exact hs.of_same rfl (fun l => by cases l <;> rfl) ⟨rfl, rfl⟩ ⟨rfl, rfl⟩ ⟨rfl, rfl⟩
    · exact hs
  case slcStopNotice =>
    simp only [exec, execSlcStopNotice] at h
    split at h <;> cases h
    · exact hs.of_same rfl (fun l => by cases l <;> rfl) ⟨rfl, rfl⟩ ⟨rfl, rfl⟩ ⟨rfl, rfl⟩
    · exact hs
  case setItem =>
    exact setItem_keeps_of_writeItem (P := fun s => Sound s.slc) (fun _ _ _ => Iff.rfl) hs
      (fun _ i b _ => writeItem_sound i b hs) h
  all_goals exact absurd rfl hslc

/-- Settles O55: by the commands that change the SLC. -/
theorem channelsLinksAndIntegratorsStayInRange : Obligations.ChannelsLinksAndIntegratorsStayInRange := by
  intro s t hs h
  rw [slcSound_iff] at hs ⊢
  exact step_keeps_of_exec (P := fun s => Sound s.slc) (fun _ _ _ => Iff.rfl) (fun _ _ _ => exec_sound) hs h

end Sys2Proof.Proofs.LinksSound
end

