-- ==== Sys2Proof/Proofs/TablesSound.lean ====
section
/-! PROOFS. The five tables keep their canonical form and their places (R50, R70, R96, R116, R133): what puts and drops keep, then each
unit that writes a table. -/

namespace Sys2Proof.Proofs.TablesSound

open Sys2Proof.Machine Sys2Proof.Safety Sys2Proof.Proofs.Footprints

/-! ### Tables whose contents belong at their places -/

/-- A canonical table in which what stands at a place belongs there. -/
def Placed {α : Type} (belongs : Nat → α → Prop) (t : Table α) : Prop :=
  t.wf = true ∧ ∀ i x, t.get? i = some x → belongs i x

section
variable {α : Type} {belongs : Nat → α → Prop} {t : Table α}

theorem placed_nil : Placed belongs ([] : Table α) := ⟨rfl, fun i x h => by simp [Table.get?] at h⟩

theorem Placed.put (h : Placed belongs t) {k : Nat} {a : α} (ha : belongs k a) : Placed belongs (t.put k a) := by
  refine ⟨Table.wf_put h.1 k a, fun i x hx => ?_⟩
  rw [Table.get?_put] at hx
  split at hx
  · next hi => cases hx; rw [hi]; exact ha
  · exact h.2 i x hx

theorem Placed.drop (h : Placed belongs t) (k : Nat) : Placed belongs (Table.drop t k) := by
  refine ⟨Table.wf_drop h.1 k, fun i x hx => ?_⟩
  rw [Table.get?_drop h.1] at hx
  split at hx
  · cases hx
  · exact h.2 i x hx

end

/-- A place is the residue of the index it is the place of. -/
theorem placeOf_slot (j : Int) : (placeOf j slotCount : Int) = j % 256 := placeOf_cast j (by decide)

theorem placeOf_window (j : Int) : (placeOf j windowSize : Int) = j % 128 := placeOf_cast j (by decide)

theorem placeOf_history (j : Int) : (placeOf j historySize : Int) = j % 4096 := placeOf_cast j (by decide)

/-! ### The assembly table -/

/-- The slots stand at their places (R50). -/
def SlotsPlaced (a : Asu) : Prop := Placed (fun i x => (i : Int) = x.j % 256) a.table

theorem inSlot_placed {a : Asu} (h : SlotsPlaced a) (j : Int) {f : Slot → Slot} (hf : ∀ x, (f x).j = x.j) :
    SlotsPlaced (a.inSlot j f) := by
  unfold Asu.inSlot
  split
  · refine Placed.put h ?_
    rw [hf]
    cases hget : a.table.get? (placeOf j slotCount) with
    | none => exact placeOf_slot j
    | some x => exact h.2 _ x hget
  · exact h

theorem file_placed {a : Asu} (h : SlotsPlaced a) (d : Delivery) : SlotsPlaced (a.file d) := by
  unfold Asu.file
  refine inSlot_placed (inSlot_placed (inSlot_placed h _ ?_) _ ?_) _ ?_ <;> exact fun _ => rfl

theorem place_placed {a : Asu} (h : SlotsPlaced a) (line : MarkerLine) (j : Int) : SlotsPlaced (a.place line j) :=
  inSlot_placed h j (fun x => by cases line <;> rfl)

theorem complete_placed {a : Asu} (h : SlotsPlaced a) (k : Int) (d : Direction) : SlotsPlaced (a.complete k d).1 := by
  unfold Asu.complete
  simp only
  split
  · exact h
  · split <;> exact Placed.drop h _

/-! ### The profile window -/

theorem formRecord_sound {s : State} {e : WindowEntry} (h : WindowSound s.gcu) : WindowSound (s.formRecord e).gcu :=
  Placed.put h (placeOf_window e.j)

theorem formRecords_sound {s : State} (es : List WindowEntry) (h : WindowSound s.gcu) : WindowSound (s.formRecords es).gcu := by
  induction es generalizing s with
  | nil => exact h
  | cons e es ih => exact ih (formRecord_sound h)

theorem takeBase_sound {s : State} (b : BaseRecord) (h : WindowSound s.gcu) : WindowSound (s.takeBase b).gcu := by
  unfold State.takeBase
  split
  · exact formRecords_sound _ (Placed.put h (placeOf_window b.j))
  · exact h

theorem endStream_sound {s : State} (cause : Cause) (h : WindowSound s.gcu) : WindowSound (s.endStream cause).gcu := by
  unfold State.endStream
  split
  · exact placed_nil
  · exact h

/-! ### The position history and the segments -/

/-- The tables of the PRU (R96, R116). -/
structure PruPlaced (p : Pru) : Prop where
  history : Placed (fun i h => (i : Int) = h.index % 4096) p.history
  segments : Placed (fun i _ => i < 64) p.segments

/-- A cursor step writes no table. -/
theorem cursorLoop_tables (fuel : Nat) (p : Pru) :
    (p.cursorLoop fuel).history = p.history ∧ (p.cursorLoop fuel).segments = p.segments := by
  induction fuel generalizing p with
  | zero => exact ⟨rfl, rfl⟩
  | succ fuel ih =>
    unfold Pru.cursorLoop
    simp only
    repeat' split
    all_goals first | exact ⟨rfl, rfl⟩ | exact ih _

theorem takeEvent_placed {p : Pru} (h : PruPlaced p) (e : SampleEvent) (interval : Nat) : PruPlaced (p.takeEvent e interval) := by
  have hwrite : ∀ q : Pru, PruPlaced q → PruPlaced (q.writeHistory e) := fun q hq =>
    ⟨Placed.put hq.history (placeOf_history e.k), hq.segments⟩
  refine hwrite _ ?_
  split
  · obtain ⟨hhistory, hsegments⟩ := cursorLoop_tables ((p.assign e interval).plan.length + 1) (p.assign e interval)
    exact ⟨hhistory ▸ h.history, hsegments ▸ h.segments⟩
  · exact ⟨h.history, h.segments⟩

theorem started_placed {p : Pru} (h : PruPlaced p) (i : StartInfo) : PruPlaced (p.started i) := by
  unfold Pru.started
  simp only
  split <;> exact ⟨placed_nil, h.segments⟩

/-- A fix writes no table. -/
theorem fixHere_tables (p : Pru) (q : FixRequest) (ref : Option (Int × Int)) (epoch : Word16) :
    (p.fixHere q ref epoch).1.history = p.history ∧ (p.fixHere q ref epoch).1.segments = p.segments := by
  unfold Pru.fixHere Pru.resolve Pru.correct
  simp only
  repeat' split
  all_goals exact ⟨rfl, rfl⟩

theorem fixElsewhere_tables (p : Pru) (q : FixRequest) (ref : Option (Int × Int)) (epoch : Word16) (interval : Nat) :
    (p.fixElsewhere q ref epoch interval).1.history = p.history ∧
    (p.fixElsewhere q ref epoch interval).1.segments = p.segments := by
  unfold Pru.fixElsewhere
  simp only
  repeat' split
  all_goals exact ⟨rfl, rfl⟩

theorem applyFix_placed {s : State} (q : FixRequest) (h : PruPlaced s.pru) : PruPlaced (s.applyFix q).1.pru := by
  unfold State.applyFix
  simp only
  split
  · obtain ⟨hhistory, hsegments⟩ := fixHere_tables s.pru q (s.reference q.j) s.odu.epoch
    exact ⟨hhistory ▸ h.history, hsegments ▸ h.segments⟩
  · obtain ⟨hhistory, hsegments⟩ := fixElsewhere_tables s.pru q (s.reference q.j) s.odu.epoch s.odu.interval
    exact ⟨hhistory ▸ h.history, hsegments ▸ h.segments⟩

/-! ### Every command -/

/-- What `TablesSound` says, unit by unit. -/
structure Sound (s : State) : Prop where
  slots : SlotsPlaced s.asu
  window : WindowSound s.gcu
  pru : PruPlaced s.pru
  limitSets : Placed (fun i _ => i < 16) s.exu.limitSets

theorem tablesSound_iff (s : State) : TablesSound s ↔ Sound s :=
  ⟨fun ⟨hslots, hwindow, hhistory, hsegments, hlimits⟩ => ⟨hslots, hwindow, ⟨hhistory, hsegments⟩, hlimits⟩,
   fun ⟨hslots, hwindow, ⟨hhistory, hsegments⟩, hlimits⟩ => ⟨hslots, hwindow, hhistory, hsegments, hlimits⟩⟩

/-- An item is accepted at a place its kind has (R177, R203). -/
theorem itemOf_bounds {kind index : Nat} {i : ItemId} (h : itemOf kind index = some i) :
    (∀ k, i = .segment k → k < 64) ∧ (∀ k, i = .limitSet k → k < 16) := by
  unfold itemOf at h
  repeat' split at h
  all_goals cases h
  all_goals constructor <;> rintro k ⟨⟩ <;> assumption

theorem judgeItem_bounds {runState : RunState} {payload : List Byte} {i : ItemId} {b : List Byte}
    (h : judgeItem runState payload = .accepted i b) : (∀ k, i = .segment k → k < 64) ∧ (∀ k, i = .limitSet k → k < 16) := by
  unfold judgeItem at h
  simp only at h
  split at h
  · cases h
  · split at h
    · cases h
    · split at h
      · cases h
      · split at h
        · cases h
        · next i' hitem =>
          split at h <;> cases h
          exact itemOf_bounds hitem

/-- SENSORS writes three fields of the GCU. -/
theorem setSensors_eq (c : Gcu) (b : List Byte) :
    ∃ g0 gNom distance, c.setSensors b = { c with g0 := g0, gNom := gNom, railDistance := distance } := ⟨_, _, _, rfl⟩

theorem writeItem_sound {s : State} {i : ItemId} (b : List Byte) (hs : Sound s)
    (hi : (∀ k, i = .segment k → k < 64) ∧ (∀ k, i = .limitSet k → k < 16)) : Sound (s.writeItem i b) := by
  obtain ⟨hslots, hwindow, ⟨hhistory, hsegments⟩, hlimits⟩ := hs
  cases i
  case fixPolicy =>
    obtain ⟨_, _, _, heq⟩ := writeItem_fixPolicy s b
    rw [heq]
    exact ⟨hslots, hwindow, ⟨hhistory, hsegments⟩, hlimits⟩
  case sensors =>
    obtain ⟨_, _, _, heq⟩ := setSensors_eq s.gcu b
    refine ⟨hslots, ?_, ⟨hhistory, hsegments⟩, hlimits⟩
    show WindowSound (s.gcu.setSensors b)
    rw [heq]
    exact hwindow
  case segment k => exact ⟨hslots, hwindow, ⟨hhistory, hsegments.put (hi.1 k rfl)⟩, hlimits⟩
  case limitSet k => exact ⟨hslots, hwindow, ⟨hhistory, hsegments⟩, hlimits.put (hi.2 k rfl)⟩
  all_goals exact ⟨hslots, hwindow, ⟨hhistory, hsegments⟩, hlimits⟩

theorem reset_sound : TablesSound State.reset :=
  ⟨placed_nil, placed_nil, placed_nil, placed_nil, placed_nil⟩

theorem exec_slots {c : Instr} {s t : State} (hs : SlotsPlaced s.asu) (h : exec c s = .next t) (hitem : c ≠ .setItem) :
    SlotsPlaced t.asu := by
  by_cases hasu : (footprint c).asu = false
  · rw [(exec_keeps h).asu hasu]; exact hs
  cases c
  case powerOn cause => cases cause <;> cases h <;> exact placed_nil
  case delivery =>
    simp only [exec, execDelivery] at h
    split at h
    · next d rest _ =>
      have hfiled : SlotsPlaced ((Asu.file { s.asu with latest := some d.k } d).complete d.k d.direction).1 :=
        complete_placed (file_placed (a := { s.asu with latest := some d.k }) hs d) _ _
      split at h
      · split at h <;> cases h <;> exact hfiled
      · cases h; exact hs
    · cases h; exact hs
  case asuReversalNotice =>
    simp only [exec, execAsuReversalNotice] at h
    split at h <;> cases h
    · exact placed_nil
    · exact hs
  case asuStartNotice =>
    simp only [exec, execAsuStartNotice] at h
    split at h <;> cases h
    · exact placed_nil
    · exact hs
  case asuSuspendNotice =>
    simp only [exec, execAsuSuspendNotice] at h
    split at h <;> cases h
    · exact placed_nil
    · exact hs
  case asuStopNotice =>
    simp only [exec, execAsuStopNotice] at h
    split at h <;> cases h
    · exact placed_nil
    · exact hs
  case markRequest =>
    simp only [exec, execMarkRequest] at h
    split at h <;> cases h
    · split
      · exact place_placed hs _ _
      · exact hs
    · exact hs
  case setItem => exact absurd rfl hitem
  all_goals exact absurd rfl hasu

theorem exec_window {c : Instr} {s t : State} (hs : WindowSound s.gcu) (h : exec c s = .next t) (hitem : c ≠ .setItem) :
    WindowSound t.gcu := by
  by_cases hgcu : (footprint c).gcu = false
  · rw [(exec_keeps h).gcu hgcu]; exact hs
  cases c
  case powerOn cause => cases cause <;> cases h <;> exact placed_nil
  case baseRecord =>
    simp only [exec, execBaseRecord] at h
    split at h <;> cases h
    · exact takeBase_sound _ hs
    · exact hs
  case gcuReversalNotice =>
    simp only [exec, execGcuReversalNotice] at h
    split at h <;> cases h
    · split <;> exact endStream_sound (s := { s with bus := { s.bus with toGcu := _ } }) .reversed hs
    · exact hs
  case gcuSuspendNotice =>
    simp only [exec, execGcuSuspendNotice] at h
    split at h <;> cases h
    · exact endStream_sound (s := { s with bus := { s.bus with toGcu := _ } }) .suspended hs
    · exact hs
  case gcuStopNotice =>
    simp only [exec, execGcuStopNotice] at h
    split at h <;> cases h
    · exact endStream_sound (s := { s with bus := { s.bus with toGcu := _ } }) .stopped hs
    · exact hs
  case gcuStartNotice =>
    simp only [exec, execGcuStartNotice] at h
    split at h <;> cases h <;> exact hs
  case setItem => exact absurd rfl hitem
  all_goals exact absurd rfl hgcu

/-- A service keeps the tables of the PRU if its handler does. -/
theorem serve_pru {s : State} (v : Service) {handler : Port → Request → State → State × Reply} (hs : PruPlaced s.pru)
    (hf : ∀ p rq, PruPlaced (handler p rq s).1.pru) : PruPlaced (s.serve v handler).pru := by
  rcases State.serve_eq s v handler with ⟨p, rq, -, -, heq⟩ | ⟨-, heq⟩ <;> rw [heq]
  · exact hf p rq
  · exact hs

theorem exec_pru {c : Instr} {s t : State} (hs : PruPlaced s.pru) (h : exec c s = .next t) (hitem : c ≠ .setItem) :
    PruPlaced t.pru := by
  by_cases hpru : (footprint c).pru = false
  · rw [(exec_keeps h).pru hpru]; exact hs
  cases c
  case powerOn cause => cases cause <;> cases h <;> exact ⟨placed_nil, placed_nil⟩
  case pruSampleEvent =>
    simp only [exec, execPruSampleEvent] at h
    split at h <;> cases h
    · exact takeEvent_placed hs _ _
    · exact hs
  case pruReversalNotice =>
    simp only [exec, execPruReversalNotice] at h
    split at h <;> cases h <;> exact ⟨hs.history, hs.segments⟩
  case pruStartNotice =>
    simp only [exec, execPruStartNotice] at h
    split at h <;> cases h
    · exact started_placed hs _
    · exact hs
  case pruSuspendNotice =>
    simp only [exec, execPruSuspendNotice] at h
    split at h <;> cases h <;> exact ⟨hs.history, hs.segments⟩
  case pruResumptionNotice =>
    simp only [exec, execPruResumptionNotice] at h
    split at h <;> cases h <;> exact ⟨hs.history, hs.segments⟩
  case pruStopNotice =>
    simp only [exec, execPruStopNotice] at h
    split at h <;> cases h <;> exact ⟨hs.history, hs.segments⟩
  case fixAt =>
    cases h
    refine serve_pru _ hs (fun p rq => ?_)
    unfold serveFixAt answered
    repeat' split
    all_goals first | exact hs | exact applyFix_placed _ hs
  case fixNow =>
    cases h
    refine serve_pru _ hs (fun p rq => ?_)
    unfold serveFixNow answered
    simp only
    repeat' split
    all_goals first | exact hs | exact applyFix_placed _ hs
  case jumpPlan =>
    cases h
    refine serve_pru _ hs (fun p rq => ?_)
    rcases serveJumpPlan_cases p rq s with heq | ⟨e, x, c, heq⟩ <;> rw [heq]
    all_goals exact ⟨hs.history, hs.segments⟩
  case setItem => exact absurd rfl hitem
  all_goals exact absurd rfl hpru

/-- The judging of records writes no limit set. -/
theorem exec_limitSets {c : Instr} {s t : State} (h : exec c s = .next t) (hitem : c ≠ .setItem)
    (hpower : ∀ cause, c ≠ .powerOn cause) : t.exu.limitSets = s.exu.limitSets := by
  by_cases hexu : (footprint c).exu = false
  · rw [(exec_keeps h).exu hexu]
  cases c
  case powerOn cause => exact absurd rfl (hpower cause)
  case outputRecord =>
    simp only [exec, execOutputRecord] at h
    split at h <;> cases h
    · next r _ _ =>
      obtain ⟨z, hjudge, hlimits, -⟩ := Runs.judge_eq s.exu s.pru r
      show (s.exu.judge s.pru r).1.limitSets = _
      rw [hjudge]; exact hlimits
    · rfl
  case streamEndNotice =>
    simp only [exec, execStreamEndNotice] at h
    split at h <;> cases h
    · next cause run _ _ =>
      show (s.exu.endStream cause run).1.limitSets = _
      rw [Runs.endStream_eq]
    · rfl
  case exuStartNotice =>
    simp only [exec, execExuStartNotice] at h
    split at h <;> cases h <;> rfl
  case setItem => exact absurd rfl hitem
  all_goals exact absurd rfl hexu

theorem exec_sound {c : Instr} {s t : State} (hs : Sound s) (h : exec c s = .next t) : Sound t := by
  by_cases hitem : c = .setItem
  · subst hitem
    exact setItem_keeps_of_writeItem (P := Sound)
      (fun _ _ _ => ⟨fun ⟨h1, h2, h3, h4⟩ => ⟨h1, h2, h3, h4⟩, fun ⟨h1, h2, h3, h4⟩ => ⟨h1, h2, h3, h4⟩⟩) hs
      (fun _ i b hjudge => writeItem_sound b hs (judgeItem_bounds hjudge)) h
  · refine ⟨exec_slots hs.slots h hitem, exec_window hs.window h hitem, exec_pru hs.pru h hitem, ?_⟩
    by_cases hpower : ∃ cause, c = .powerOn cause
    · obtain ⟨cause, rfl⟩ := hpower
      cases cause <;> cases h <;> exact placed_nil
    · rw [exec_limitSets h hitem (not_exists.1 hpower)]
      exact hs.limitSets

/-- Settles O56: by the commands that write a table. -/
theorem everyTableStaysCanonical : Obligations.EveryTableStaysCanonical := by
  intro s t hs h
  rw [tablesSound_iff] at hs ⊢
  exact step_keeps_of_exec (P := Sound)
    (fun _ _ _ => ⟨fun ⟨h1, h2, h3, h4⟩ => ⟨h1, h2, h3, h4⟩, fun ⟨h1, h2, h3, h4⟩ => ⟨h1, h2, h3, h4⟩⟩)
    (fun _ _ _ => exec_sound) hs h

end Sys2Proof.Proofs.TablesSound
end

