-- ==== Sys2Proof/Proofs/BoundedLists.lean ====
section
/-! PROOFS. The fix list, the marker list and the idle trigger lines stay within their bounds (R106, R159, R168), and reset meets every
invariant. -/

namespace Sys2Proof.Proofs.BoundedLists

open Sys2Proof.Machine Sys2Proof.Safety Sys2Proof.Proofs.Footprints

/-! ### The fix list -/

/-- What `FixListSound` says, of the list alone. -/
def Spread (fs : List Fix) : Prop := fs.length ≤ 8 ∧ fs.Pairwise (fun f g => 8 < (f.j - g.j).natAbs)

theorem spread_nil : Spread [] := ⟨Nat.zero_le 8, List.Pairwise.nil⟩

/-- A cursor step leaves the fix list. -/
theorem cursorLoop_fixes (fuel : Nat) (p : Pru) : (p.cursorLoop fuel).fixes = p.fixes := by
  induction fuel generalizing p with
  | zero => rfl
  | succ fuel ih =>
    unfold Pru.cursorLoop
    simp only
    repeat' split
    all_goals first | rfl | exact ih _

theorem takeEvent_fixes (p : Pru) (e : SampleEvent) (interval : Nat) : (p.takeEvent e interval).fixes = p.fixes := by
  unfold Pru.takeEvent Pru.writeHistory
  simp only
  split
  · exact cursorLoop_fixes _ _
  · rfl

theorem resolve_fixes (p : Pru) (c : Int) : (p.resolve c).1.fixes = p.fixes := by
  unfold Pru.resolve; split <;> rfl

theorem correct_fixes (p : Pru) (e : Int) (step : Bool) : (p.correct e step).fixes = p.fixes := by
  unfold Pru.correct; split <;> rfl

theorem fixHere_spread {p : Pru} (h : Spread p.fixes) (q : FixRequest) (ref : Option (Int × Int)) (epoch : Word16) :
    Spread (p.fixHere q ref epoch).1.fixes := by
  unfold Pru.fixHere
  simp only
  split
  · exact h
  · split
    · exact h
    · split
      · exact h
      · split
        · exact h
        · rw [resolve_fixes]
          exact Pru.pushFix_sound _ (by rw [correct_fixes]; exact h.2)

theorem fixElsewhere_spread {p : Pru} (h : Spread p.fixes) (q : FixRequest) (ref : Option (Int × Int)) (epoch : Word16)
    (interval : Nat) : Spread (p.fixElsewhere q ref epoch interval).1.fixes := by
  unfold Pru.fixElsewhere
  simp only
  split
  · exact h
  · split
    · exact h
    · split
      · exact h
      · split
        · exact h
        · exact Pru.pushFix_sound _ h.2

theorem applyFix_spread {s : State} (q : FixRequest) (h : Spread s.pru.fixes) : Spread (s.applyFix q).1.pru.fixes := by
  unfold State.applyFix
  simp only
  split
  · exact fixHere_spread h q _ _
  · exact fixElsewhere_spread h q _ _ _

theorem serve_spread {s : State} (v : Service) {handler : Port → Request → State → State × Reply} (hs : Spread s.pru.fixes)
    (hf : ∀ p rq, Spread (handler p rq s).1.pru.fixes) : Spread (s.serve v handler).pru.fixes := by
  rcases State.serve_eq s v handler with ⟨p, rq, -, -, heq⟩ | ⟨-, heq⟩ <;> rw [heq]
  · exact hf p rq
  · exact hs

theorem started_spread (p : Pru) (i : StartInfo) : Spread (p.started i).fixes := by
  unfold Pru.started
  simp only
  split <;> exact spread_nil

theorem writeItem_spread {s : State} (i : ItemId) (b : List Byte) (hs : Spread s.pru.fixes) :
    Spread (s.writeItem i b).pru.fixes := by
  cases i
  case fixPolicy => obtain ⟨_, _, _, heq⟩ := writeItem_fixPolicy s b; rw [heq]; exact hs
  all_goals exact hs

theorem exec_spread {c : Instr} {s t : State} (hs : Spread s.pru.fixes) (h : exec c s = .next t) : Spread t.pru.fixes := by
  by_cases hpru : (footprint c).pru = false
  · rw [(exec_keeps h).pru hpru]; exact hs
  cases c
  case powerOn cause => cases cause <;> cases h <;> exact spread_nil
  case pruSampleEvent =>
    simp only [exec, execPruSampleEvent] at h
    split at h <;> cases h
    · rw [takeEvent_fixes]; exact hs
    · exact hs
  case pruReversalNotice =>
    simp only [exec, execPruReversalNotice] at h
    split at h <;> cases h <;> exact hs
  case pruStartNotice =>
    simp only [exec, execPruStartNotice] at h
    split at h <;> cases h
    · exact started_spread _ _
    · exact hs
  case pruSuspendNotice =>
    simp only [exec, execPruSuspendNotice] at h
    split at h <;> cases h <;> exact hs
  case pruResumptionNotice =>
    simp only [exec, execPruResumptionNotice] at h
    split at h <;> cases h <;> exact hs
  case pruStopNotice =>
    simp only [exec, execPruStopNotice] at h
    split at h <;> cases h <;> exact hs
  case fixAt =>
    cases h
    refine serve_spread _ hs (fun p rq => ?_)
    unfold serveFixAt answered
    repeat' split
    all_goals first | exact hs | exact applyFix_spread _ hs
  case fixNow =>
    cases h
    refine serve_spread _ hs (fun p rq => ?_)
    unfold serveFixNow answered
    simp only
    repeat' split
    all_goals first | exact hs | exact applyFix_spread _ hs
  case jumpPlan =>
    cases h
    refine serve_spread _ hs (fun p rq => ?_)
    rcases serveJumpPlan_cases p rq s with heq | ⟨e, x, c, heq⟩ <;> rw [heq]
    all_goals exact hs
  case setItem =>
    exact setItem_keeps_of_writeItem (P := fun s => Spread s.pru.fixes) (fun _ _ _ => Iff.rfl) hs
      (fun _ i b _ => writeItem_spread i b hs) h
  all_goals exact absurd rfl hpru

/-! ### The marker list and the trigger lines -/

/-- A trigger line in IDLE is at its idle level (R168). -/
def LineIdle (x : TriggerState) : Prop := x.timer = none → x.level = x.polarity

/-- What `MtuSound` says, of the MTU alone. -/
def Sound (m : Mtu) : Prop := (∀ t, LineIdle (m.trigger t)) ∧ m.list.length ≤ 16

theorem sound_setTrigger {m : Mtu} (h : Sound m) (t : Trigger) {x : TriggerState} (hx : LineIdle x) : Sound (m.setTrigger t x) := by
  refine ⟨fun k => ?_, by rw [Mtu.setTrigger_list]; exact h.2⟩
  by_cases hk : k = t
  · subst hk; rw [Mtu.trigger_setTrigger]; exact hx
  · rw [Mtu.trigger_setTrigger_of_ne _ _ hk]; exact h.1 k

theorem sound_setMarker {m : Mtu} (h : Sound m) (l : MarkerLine) (x : MarkerState) : Sound (m.setMarker l x) :=
  ⟨fun t => by rw [Mtu.setMarker_trigger]; exact h.1 t, by rw [Mtu.setMarker_list]; exact h.2⟩

/-- The list is rewritten entry by entry. -/
theorem sound_map {m : Mtu} (h : Sound m) (f : MarkerEntry → MarkerEntry) : Sound { m with list := m.list.map f } :=
  ⟨fun t => by cases t; exacts [h.1 .t1, h.1 .t2, h.1 .t3, h.1 .t4], by simpa using h.2⟩

theorem lineIdle_evaluate {x : TriggerState} (h : LineIdle x) (k : Int) (now : Nat) : LineIdle (x.evaluate k now) := by
  unfold TriggerState.evaluate TriggerState.fire
  split
  · split
    · intro htimer; cases htimer
    · next htimer => intro hnone; rw [htimer] at hnone; cases hnone
  · exact h

theorem evaluate_sound {m : Mtu} (h : Sound m) (k : Int) (now : Nat) : Sound (m.evaluate k now) := by
  refine ⟨fun t => ?_, h.2⟩
  cases t
  exacts [lineIdle_evaluate (h.1 .t1) k now, lineIdle_evaluate (h.1 .t2) k now, lineIdle_evaluate (h.1 .t3) k now,
    lineIdle_evaluate (h.1 .t4) k now]

theorem started_sound {m : Mtu} (h : Sound m) : Sound m.started := by
  refine ⟨fun t => ?_, Nat.zero_le 16⟩
  cases t
  exacts [h.1 .t1, h.1 .t2, h.1 .t3, h.1 .t4]

theorem lineIdle_configured (x : TriggerState) (b : List Byte) : LineIdle (x.configured b) := fun htimer => by
  have hnone : x.timer.isNone = true := by rw [show x.timer = none from htimer]; rfl
  simp [TriggerState.configured, hnone]

theorem capture_sound {s : State} (m : MarkerLine) (j : Int) (h : Sound s.mtu) : Sound (s.capture m j).mtu := by
  have hset := sound_setMarker h m { s.mtu.marker m with captures := (s.mtu.marker m).captures + 1, previous := some j }
  refine ⟨fun t => ?_, List.length_take_le _ _⟩
  cases t
  exacts [hset.1 .t1, hset.1 .t2, hset.1 .t3, hset.1 .t4]

theorem running_sound {m : Mtu} (h : Sound m) (b : Bool) : Sound { m with running := b } :=
  ⟨fun t => by cases t; exacts [h.1 .t1, h.1 .t2, h.1 .t3, h.1 .t4], h.2⟩

theorem writeItem_sound {s : State} (i : ItemId) (b : List Byte) (hs : Sound s.mtu) : Sound (s.writeItem i b).mtu := by
  cases i
  case fixPolicy => obtain ⟨_, _, _, heq⟩ := writeItem_fixPolicy s b; rw [heq]; exact hs
  case marker m => exact sound_setMarker hs m _
  case trigger t => exact sound_setTrigger hs t (lineIdle_configured _ b)
  all_goals exact hs

theorem reset_sound : Sound Mtu.reset := ⟨fun t _ => by cases t <;> rfl, Nat.zero_le 16⟩

theorem exec_sound {c : Instr} {s t : State} (hs : Sound s.mtu) (h : exec c s = .next t) : Sound t.mtu := by
  by_cases hmtu : (footprint c).mtu = false
  · rw [(exec_keeps h).mtu hmtu]; exact hs
  cases c
  case powerOn cause => cases cause <;> cases h <;> exact reset_sound
  case markerEdge m edge =>
    simp only [exec, execMarkerEdge] at h
    split at h
    · split at h <;> cases h
      · exact sound_setMarker hs m _
      · exact capture_sound m _ hs
    · cases h; exact hs
  case chainageAnswer =>
    simp only [exec, execChainageAnswer] at h
    split at h <;> cases h
    · exact sound_map hs _
    · exact hs
  case placementAnswer =>
    simp only [exec, execPlacementAnswer] at h
    split at h <;> cases h
    · exact sound_map hs _
    · exact hs
  case markLossReport =>
    simp only [exec, execMarkLossReport] at h
    split at h <;> cases h
    · exact sound_map hs _
    · exact hs
  case mtuSampleEvent =>
    simp only [exec, execMtuSampleEvent] at h
    split at h <;> cases h
    · split
      · exact evaluate_sound hs _ _
      · exact hs
    · exact hs
  case pulseExpiry t =>
    simp only [exec, execPulseExpiry] at h
    split at h <;> cases h
    · exact sound_setTrigger hs t (fun _ => rfl)
    · exact hs
  case mtuStartNotice =>
    simp only [exec, execMtuStartNotice] at h
    split at h <;> cases h
    · exact started_sound hs
    · exact hs
  case mtuSuspendNotice =>
    simp only [exec, execMtuSuspendNotice] at h
    split at h <;> cases h
    · exact running_sound hs _
    · exact hs
  case mtuResumptionNotice =>
    simp only [exec, execMtuResumptionNotice] at h
    split at h <;> cases h
    · exact running_sound hs _
    · exact hs
  case mtuStopNotice =>
    simp only [exec, execMtuStopNotice] at h
    split at h <;> cases h
    · exact running_sound hs _
    · exact hs
  case setItem =>
    exact setItem_keeps_of_writeItem (P := fun s => Sound s.mtu) (fun _ _ _ => Iff.rfl) hs
      (fun _ i b _ => writeItem_sound i b hs) h
  all_goals exact absurd rfl hmtu

/-- Settles O53: by the commands that change the PRU and the MTU. -/
theorem listsAndLinesStayWithinTheirBounds : Obligations.ListsAndLinesStayWithinTheirBounds :=
  fun _ _ hfixes hmtu h =>
    ⟨step_keeps_of_exec (P := fun s => Spread s.pru.fixes) (fun _ _ _ => Iff.rfl) (fun _ _ _ => exec_spread) hfixes h,
     step_keeps_of_exec (P := fun s => Sound s.mtu) (fun _ _ _ => Iff.rfl) (fun _ _ _ => exec_sound) hmtu h⟩

/-- Settles O57: unit by unit, from the power-on values. -/
theorem resetMeetsTheInvariants : Obligations.ResetMeetsTheInvariants :=
  ⟨fun hview => absurd hview (by decide), (StoresSound.storesSound_iff State.reset).2 StoresSound.reset_sound, spread_nil, reset_sound,
   Runs.balanced_of_empty (x := Exu.reset) rfl rfl, (LinksSound.slcSound_iff State.reset).2 LinksSound.reset_sound,
   TablesSound.reset_sound⟩

end Sys2Proof.Proofs.BoundedLists
end

