-- ==== Sys2Proof/Proofs/RunStateAndConfiguration.lean ====
section
/-! PROOFS. Which commands change the run state and the stores (R171, R182), and that the configuration is constant through a run
(R177, R22). -/

namespace Sys2Proof.Proofs.RunStateAndConfiguration

open Sys2Proof.Machine Sys2Proof.Safety Sys2Proof.Proofs.Footprints

/-! ### The run state and the stores -/

/-- The run state has stayed, or the state-news marks are set on all ports. -/
def NewsOfRunState (s t : State) : Prop := t.rcu.runState = s.rcu.runState ∨ ∀ p, (t.cpc.port p).news = true

theorem news_news (c : Cpc) (p : Port) : (c.news.port p).news = true := by rw [Cpc.port_news]

/-- A reply leaves the state-news marks. -/
theorem answer_news (c : Cpc) (p q : Port) (rq : Request) (r : Reply) : ((c.answer p rq r).port q).news = (c.port q).news := by
  by_cases hq : q = p
  · subst hq; rw [Cpc.port_answer]
  · rw [Cpc.port_answer_of_ne _ _ _ hq]

theorem serve_newsOfRunState {s : State} (v : Service) {handler : Port → Request → State → State × Reply}
    (hf : ∀ p rq, NewsOfRunState s (handler p rq s).1) : NewsOfRunState s (s.serve v handler) := by
  rcases State.serve_eq s v handler with ⟨p, rq, -, -, heq⟩ | ⟨-, heq⟩ <;> rw [heq]
  · rcases hf p rq with hstate | hnews
    · exact .inl hstate
    · exact .inr fun q => (answer_news _ p q rq _).trans (hnews q)
  · exact .inl rfl

theorem mark_runState (r : Rcu) (i : ItemId) : (r.mark i).runState = r.runState := by unfold Rcu.mark; split <;> rfl

theorem setItem_runState {s t : State} (h : exec .setItem s = .next t) : t.rcu.runState = s.rcu.runState := by
  rcases execSetItem_cases s with ⟨hwait, -, -⟩ | hserve
  · rw [hwait] at h; cases h; rfl
  · rw [hserve] at h; cases h
    rcases State.serve_eq s .setItem serveSetItem with ⟨p, rq, -, -, heq⟩ | ⟨-, heq⟩ <;> rw [heq]
    rw [serveSetItem]
    split
    · rfl
    · next i b _ =>
      show ((s.writeItem i b).rcu.mark i).runState = s.rcu.runState
      rw [mark_runState, writeItem_rcu]

/-- The commands of which R171 says that they change the run state. -/
theorem runState_of_other {c : Instr} {s t : State} (h : exec c s = .next t) (hpower : ∀ cause, c ≠ .powerOn cause)
    (hc : c ∉ [Instr.start, .stop, .odometryLost, .odometryRestored]) : t.rcu.runState = s.rcu.runState := by
  by_cases hrcu : (footprint c).rcu = false
  · rw [(exec_keeps h).rcu hrcu]
  cases c
  case powerOn cause => exact absurd rfl (hpower cause)
  case setItem => exact setItem_runState h
  case rcuSampleEvent =>
    simp only [exec, execRcuSampleEvent] at h
    split at h <;> cases h
    · show (if _ then _ else _ : Rcu).runState = _
      split <;> rfl
    · rfl
  case start | stop | odometryLost | odometryRestored => simp at hc
  all_goals exact absurd rfl hrcu

theorem start_news {s t : State} (h : exec .start s = .next t) : NewsOfRunState s t := by
  cases h
  refine serve_newsOfRunState _ (fun p rq => ?_)
  have hstarted : ∀ i, NewsOfRunState s (s.started i) := fun _ => .inr (news_news s.cpc)
  unfold serveStart answered
  simp only
  repeat' split
  all_goals first | exact .inl rfl | exact hstarted _

theorem stop_news {s t : State} (h : exec .stop s = .next t) : NewsOfRunState s t := by
  cases h
  refine serve_newsOfRunState _ (fun p rq => ?_)
  unfold serveStop answered
  split
  · exact .inl rfl
  · exact .inr (news_news s.cpc)

theorem odometryLost_news {s t : State} (h : exec .odometryLost s = .next t) : NewsOfRunState s t := by
  simp only [exec, execOdometryLost] at h
  split at h <;> cases h
  · split
    · exact .inr (news_news s.cpc)
    · exact .inl rfl
  · exact .inl rfl

theorem odometryRestored_news {s t : State} (h : exec .odometryRestored s = .next t) : NewsOfRunState s t := by
  simp only [exec, execOdometryRestored] at h
  split at h <;> cases h
  · split
    · exact .inr (news_news s.cpc)
    · exact .inl rfl
  · exact .inl rfl

/-- Settles O58: by the commands of the run state, and by the footprint of every other command. -/
theorem runStateAndStoresChangeOnlyAtTheirCommands : Obligations.RunStateAndStoresChangeOnlyAtTheirCommands := by
  intro c s t h hpower
  refine ⟨fun hchanged => ?runState, fun hchanged => ?stores⟩
  case runState =>
    have hc : c ∈ [Instr.start, .stop, .odometryLost, .odometryRestored] := by
      by_contra hc; exact hchanged (runState_of_other h hpower hc)
    refine ⟨hc, Or.resolve_left (?_ : NewsOfRunState s t) hchanged⟩
    simp only [List.mem_cons, List.not_mem_nil, or_false] at hc
    rcases hc with rfl | rfl | rfl | rfl
    exacts [start_news h, stop_news h, odometryLost_news h, odometryRestored_news h]
  case stores =>
    have hrds : ¬(footprint c).rds = false := fun hrds => hchanged ((exec_keeps h).rds hrds)
    cases c
    case powerOn cause => exact absurd rfl (hpower cause)
    case geometryAppend => exact .inl rfl
    case exceptionAppend => exact .inr rfl
    all_goals exact absurd rfl hrds

/-! ### The configuration of the ODU -/

/-- What ODOMETRY writes of one encoder. -/
def encoderConfig (x : EncoderState) : Nat × Nat × Mounting × Nat := (x.circumference, x.countsPerRev, x.mounting, x.weight)

/-- What ODOMETRY writes in the ODU. -/
def oduConfig (o : Odu) :=
  (o.interval, o.primary, o.reversalDistance, o.slipTolerance, o.paceIntervalField, encoderConfig o.e1, encoderConfig o.e2)

theorem oduConfig_setEnc {o : Odu} {e : Encoder} {x : EncoderState} (hx : encoderConfig x = encoderConfig (o.enc e)) :
    oduConfig (o.setEnc e x) = oduConfig o := by
  cases e
  · show (_, _, _, _, _, encoderConfig x, encoderConfig o.e2) = _; rw [hx]; rfl
  · show (_, _, _, _, _, encoderConfig o.e1, encoderConfig x) = _; rw [hx]; rfl

theorem fireEvent_config (s : State) : oduConfig s.fireEvent.odu = oduConfig s.odu := rfl

theorem fireIfReached_config (s : State) : oduConfig s.fireIfReached.odu = oduConfig s.odu := by
  unfold State.fireIfReached; split <;> rfl

theorem declareReversal_config (s : State) : oduConfig s.declareReversal.odu = oduConfig s.odu :=
  fireIfReached_config _

theorem moved_config (o : Odu) (du : Int) : oduConfig (ActiveEncoder.moved o du) = oduConfig o := by
  unfold ActiveEncoder.moved Odu.followExtreme
  split <;> split <;> rfl

theorem moveBy_config (s : State) (du : Int) : oduConfig (s.moveBy du).odu = oduConfig s.odu := by
  rw [← moved_config s.odu du]
  rcases ActiveEncoder.moveBy_cases s du with ⟨-, heq⟩ | ⟨-, -, -, heq⟩ | ⟨-, -, heq⟩ <;> rw [heq]
  · exact declareReversal_config { s with odu := ActiveEncoder.moved s.odu du }
  · exact fireEvent_config { s with odu := ActiveEncoder.moved s.odu du }

theorem activeFailed_config (s : State) : oduConfig s.activeFailed.odu = oduConfig s.odu := by
  unfold State.activeFailed
  simp only
  split <;> rfl

theorem failEncoder_config (s : State) (e : Encoder) : oduConfig (s.failEncoder e).odu = oduConfig s.odu := by
  unfold State.failEncoder
  simp only
  split
  · exact (activeFailed_config _).trans (oduConfig_setEnc rfl)
  · exact oduConfig_setEnc rfl

theorem mismatch_config (s : State) (e : Encoder) : oduConfig (s.mismatch e).odu = oduConfig s.odu := by
  unfold State.mismatch
  simp only
  split
  · split
    · exact oduConfig_setEnc rfl
    · exact failEncoder_config s e
  · exact oduConfig_setEnc rfl

theorem recoverEncoder_config (s : State) (e : Encoder) : oduConfig (s.recoverEncoder e).odu = oduConfig s.odu := by
  unfold State.recoverEncoder
  simp only
  split
  · cases e <;> rfl
  · exact oduConfig_setEnc rfl

theorem goodCheck_config (s : State) (e : Encoder) : oduConfig (s.goodCheck e).odu = oduConfig s.odu := by
  unfold State.goodCheck
  simp only
  split
  · exact oduConfig_setEnc rfl
  · split
    · exact oduConfig_setEnc rfl
    · exact recoverEncoder_config s e

theorem countIndex_config (x : EncoderState) (v : Sense) : encoderConfig (x.countIndex v) = encoderConfig x := by
  unfold EncoderState.countIndex; split <;> rfl

theorem indexAtCount_config (s : State) (e : Encoder) (v : Sense) : oduConfig (s.indexAtCount e v).odu = oduConfig s.odu := by
  unfold State.indexAtCount
  simp only
  split
  · exact (mismatch_config _ e).trans (oduConfig_setEnc (countIndex_config _ v))
  · exact oduConfig_setEnc (countIndex_config _ v)

theorem silenceAtCount_config (s : State) (e : Encoder) (v : Sense) : oduConfig (s.silenceAtCount e v).odu = oduConfig s.odu := by
  have hown : oduConfig (s.odu.setEnc e { s.odu.enc e with silence := 0 }) = oduConfig s.odu := oduConfig_setEnc rfl
  unfold State.silenceAtCount
  simp only
  split
  · refine Eq.trans (oduConfig_setEnc ?_) hown; rfl
  · split
    · rw [failEncoder_config]; refine Eq.trans (oduConfig_setEnc ?_) hown; rfl
    · refine Eq.trans (oduConfig_setEnc ?_) hown; rfl

theorem takeCount_config (s : State) (e : Encoder) (v : Sense) : oduConfig (s.takeCount e v).odu = oduConfig s.odu := by
  have hdistance : oduConfig (s.odu.addDistance e v) = oduConfig s.odu := oduConfig_setEnc rfl
  unfold State.takeCount
  simp only
  rw [silenceAtCount_config, indexAtCount_config]
  split
  · exact (moveBy_config _ _).trans hdistance
  · exact hdistance

theorem resumeOdu_config (s : State) : oduConfig s.resumeOdu.odu = oduConfig s.odu := by
  unfold State.resumeOdu
  simp only
  split
  · rfl
  · exact activeFailed_config _

theorem decode_config (x : EncoderState) (ch : QuadChannel) : encoderConfig (x.decode ch).1 = encoderConfig x := by cases ch <;> rfl

theorem serve_odu {s : State} (v : Service) {handler : Port → Request → State → State × Reply}
    (hf : ∀ p rq, oduConfig (handler p rq s).1.odu = oduConfig s.odu) : oduConfig (s.serve v handler).odu = oduConfig s.odu := by
  rcases State.serve_eq s v handler with ⟨p, rq, -, -, heq⟩ | ⟨-, heq⟩ <;> rw [heq]
  exact hf p rq

theorem exec_oduConfig {c : Instr} {s t : State} (h : exec c s = .next t) (hpower : ∀ cause, c ≠ .powerOn cause)
    (hitem : c ≠ .setItem) (hcalibrate : c ≠ .calibrate) : oduConfig t.odu = oduConfig s.odu := by
  by_cases hodu : (footprint c).odu = false
  · rw [(exec_keeps h).odu hodu]
  cases c
  case powerOn cause => exact absurd rfl (hpower cause)
  case setItem => exact absurd rfl hitem
  case calibrate => exact absurd rfl hcalibrate
  case encoderCount e ch ticks =>
    cases h
    split
    · exact (takeCount_config _ e _).trans (oduConfig_setEnc (decode_config _ ch))
    · exact oduConfig_setEnc (decode_config _ ch)
  case illegalTransition e => cases h; exact oduConfig_setEnc rfl
  case zPulse e =>
    have haligned : oduConfig (s.odu.setEnc e { s.odu.enc e with indexCount := 0, aligned := true }) = oduConfig s.odu :=
      oduConfig_setEnc rfl
    simp only [exec, execZPulse] at h
    split at h
    · split at h <;> cases h
      · split
        · exact (goodCheck_config _ e).trans haligned
        · exact (mismatch_config _ e).trans haligned
      · exact haligned
    · cases h; rfl
  case paceCount =>
    simp only [exec, execPaceCount] at h
    split at h
    · split at h <;> cases h
      · exact moveBy_config _ _
      · rfl
    · cases h; rfl
  case standstillExpiry =>
    simp only [exec, execStandstillExpiry] at h
    split at h <;> cases h <;> rfl
  case oduStopNotice =>
    simp only [exec, execOduStopNotice] at h
    split at h <;> cases h <;> rfl
  case oduResumptionNotice =>
    simp only [exec, execOduResumptionNotice] at h
    split at h <;> cases h
    · exact resumeOdu_config _
    · rfl
  case start =>
    cases h
    refine serve_odu _ (fun p rq => ?_)
    unfold serveStart answered
    simp only
    repeat' split
    all_goals rfl
  case setPace =>
    cases h
    refine serve_odu _ (fun p rq => ?_)
    unfold serveSetPace answered
    simp only
    repeat' split
    all_goals rfl
  all_goals exact absurd rfl hodu

/-! ### The configuration of the other units -/

/-- What SENSORS writes in the SLC. -/
def slcConfig (c : Slc) := (c.kv, c.kp, c.vMin, c.hV, c.settleValue)

/-- What SENSORS writes in the ASU. -/
def asuConfig (a : Asu) := (a.pGauge, a.pVertical, a.pLateral)

/-- What ODOMETRY, SENSORS and COMPUTE write in the GCU. -/
def gcuConfig (c : Gcu) :=
  (c.g0, c.gNom, c.railDistance, c.armA, c.armB, c.twistBase, c.halfBase, c.reachUp, c.reachDown, c.interval)

/-- What FIXPOLICY, PLAN and SEGMENT write in the PRU. -/
def pruConfig (p : Pru) := (p.acceptWindow, p.stepThreshold, p.slewLimit, p.plan, p.segments)

/-- What MARKER writes of one line. -/
def markerConfig (x : MarkerState) := (x.edge, x.mount, x.spacing)

/-- What TRIGGER writes of one channel. -/
def triggerConfig (x : TriggerState) := (x.enable, x.pitch, x.phase, x.mount, x.width, x.polarity)

/-- What MARKER and TRIGGER write in the MTU. -/
def mtuConfig (m : Mtu) :=
  (markerConfig m.m1, markerConfig m.m2, triggerConfig m.t1, triggerConfig m.t2, triggerConfig m.t3, triggerConfig m.t4)

theorem integrate_config (c : Slc) (l : Link) : slcConfig (c.integrate l) = slcConfig c := by cases l <;> rfl

theorem seeLoss_config (c : Slc) (l : Link) : slcConfig (c.seeLoss l) = slcConfig c := by
  unfold Slc.seeLoss
  split
  · rfl
  all_goals split <;> rfl

theorem setLink_config (c : Slc) (l : Link) (x : LinkState) : slcConfig (c.setLink l x) = slcConfig c := by cases l <;> rfl

theorem exec_slcConfig {c : Instr} {s t : State} (h : exec c s = .next t) (hpower : ∀ cause, c ≠ .powerOn cause)
    (hitem : c ≠ .setItem) : slcConfig t.slc = slcConfig s.slc := by
  by_cases hslc : (footprint c).slc = false
  · rw [(exec_keeps h).slc hslc]
  cases c
  case powerOn cause => exact absurd rfl (hpower cause)
  case setItem => exact absurd rfl hitem
  case startUpHoldEnd =>
    simp only [exec, execStartUpHoldEnd] at h
    split at h <;> cases h <;> rfl
  case slotStart =>
    simp only [exec, execSlotStart] at h
    repeat' split at h
    all_goals cases h; rfl
  case slotEnd l opened bytes =>
    simp only [exec, execSlotEnd] at h
    split at h <;> cases h
    · show slcConfig (Slc.seeLoss _ l) = _
      rw [seeLoss_config, integrate_config, setLink_config]; rfl
    · rfl
  case slcSampleEvent =>
    simp only [exec, execSlcSampleEvent] at h
    repeat' split at h
    all_goals cases h; rfl
  case slcStartNotice =>
    simp only [exec, execSlcStartNotice] at h
    split at h <;> cases h <;> rfl
  case slcSuspendNotice =>
    simp only [exec, execSlcSuspendNotice] at h
    split at h <;> cases h <;> rfl
  case slcStopNotice =>
    simp only [exec, execSlcStopNotice] at h
    split at h <;> cases h <;> rfl
  all_goals exact absurd rfl hslc

theorem inSlot_config (a : Asu) (j : Int) (f : Slot → Slot) : asuConfig (a.inSlot j f) = asuConfig a := by
  unfold Asu.inSlot; split <;> rfl

theorem file_config (a : Asu) (d : Delivery) : asuConfig (a.file d) = asuConfig a := by
  simp only [Asu.file, inSlot_config]

theorem complete_config (a : Asu) (k : Int) (d : Direction) : asuConfig (a.complete k d).1 = asuConfig a := by
  unfold Asu.complete
  simp only
  split
  · rfl
  · split <;> rfl

theorem exec_asuConfig {c : Instr} {s t : State} (h : exec c s = .next t) (hpower : ∀ cause, c ≠ .powerOn cause)
    (hitem : c ≠ .setItem) : asuConfig t.asu = asuConfig s.asu := by
  by_cases hasu : (footprint c).asu = false
  · rw [(exec_keeps h).asu hasu]
  cases c
  case powerOn cause => exact absurd rfl (hpower cause)
  case setItem => exact absurd rfl hitem
  case delivery =>
    simp only [exec, execDelivery] at h
    split at h
    · next d rest _ =>
      have hfiled : asuConfig ((Asu.file { s.asu with latest := some d.k } d).complete d.k d.direction).1 = asuConfig s.asu := by
        rw [complete_config, file_config]; rfl
      split at h
      · split at h <;> cases h <;> exact hfiled
      · cases h; rfl
    · cases h; rfl
  case asuReversalNotice =>
    simp only [exec, execAsuReversalNotice] at h
    split at h <;> cases h <;> rfl
  case asuStartNotice =>
    simp only [exec, execAsuStartNotice] at h
    split at h <;> cases h <;> rfl
  case asuSuspendNotice =>
    simp only [exec, execAsuSuspendNotice] at h
    split at h <;> cases h <;> rfl
  case asuStopNotice =>
    simp only [exec, execAsuStopNotice] at h
    split at h <;> cases h <;> rfl
  case markRequest =>
    simp only [exec, execMarkRequest] at h
    split at h <;> cases h
    · show asuConfig (if _ then _ else _) = _
      split
      · exact inSlot_config _ _ _
      · rfl
    · rfl
  all_goals exact absurd rfl hasu

theorem formRecords_config (s : State) (es : List WindowEntry) : gcuConfig (s.formRecords es).gcu = gcuConfig s.gcu := by
  induction es generalizing s with
  | nil => rfl
  | cons e es ih => exact ih (s.formRecord e)

theorem endStream_config (s : State) (cause : Cause) : gcuConfig (s.endStream cause).gcu = gcuConfig s.gcu := by
  unfold State.endStream
  split
  · exact formRecords_config s _
  · rfl

theorem takeBase_config (s : State) (b : BaseRecord) : gcuConfig (s.takeBase b).gcu = gcuConfig s.gcu := by
  unfold State.takeBase
  split
  · exact formRecords_config _ _
  · rfl

theorem exec_gcuConfig {c : Instr} {s t : State} (h : exec c s = .next t) (hpower : ∀ cause, c ≠ .powerOn cause)
    (hitem : c ≠ .setItem) : gcuConfig t.gcu = gcuConfig s.gcu := by
  by_cases hgcu : (footprint c).gcu = false
  · rw [(exec_keeps h).gcu hgcu]
  cases c
  case powerOn cause => exact absurd rfl (hpower cause)
  case setItem => exact absurd rfl hitem
  case baseRecord =>
    simp only [exec, execBaseRecord] at h
    split at h <;> cases h
    · exact takeBase_config _ _
    · rfl
  case gcuReversalNotice =>
    simp only [exec, execGcuReversalNotice] at h
    split at h <;> cases h
    · split <;> exact endStream_config { s with bus := { s.bus with toGcu := _ } } .reversed
    · rfl
  case gcuSuspendNotice =>
    simp only [exec, execGcuSuspendNotice] at h
    split at h <;> cases h
    · exact endStream_config _ _
    · rfl
  case gcuStopNotice =>
    simp only [exec, execGcuStopNotice] at h
    split at h <;> cases h
    · exact endStream_config { s with bus := { s.bus with toGcu := _ } } .stopped
    · rfl
  case gcuStartNotice =>
    simp only [exec, execGcuStartNotice] at h
    split at h <;> cases h <;> rfl
  all_goals exact absurd rfl hgcu

theorem cursorLoop_config (fuel : Nat) (p : Pru) : pruConfig (p.cursorLoop fuel) = pruConfig p := by
  induction fuel generalizing p with
  | zero => rfl
  | succ fuel ih =>
    unfold Pru.cursorLoop
    simp only
    repeat' split
    all_goals first | rfl | exact ih _

theorem takeEvent_config (p : Pru) (e : SampleEvent) (interval : Nat) : pruConfig (p.takeEvent e interval) = pruConfig p := by
  show pruConfig (if _ then _ else _) = _
  split
  · exact cursorLoop_config _ _
  · rfl

theorem pruStarted_config (p : Pru) (i : StartInfo) : pruConfig (p.started i) = pruConfig p := by
  unfold Pru.started
  simp only
  split <;> rfl

theorem fixHere_config (p : Pru) (q : FixRequest) (ref : Option (Int × Int)) (epoch : Word16) :
    pruConfig (p.fixHere q ref epoch).1 = pruConfig p := by
  unfold Pru.fixHere Pru.resolve Pru.correct
  simp only
  repeat' split
  all_goals rfl

theorem fixElsewhere_config (p : Pru) (q : FixRequest) (ref : Option (Int × Int)) (epoch : Word16) (interval : Nat) :
    pruConfig (p.fixElsewhere q ref epoch interval).1 = pruConfig p := by
  unfold Pru.fixElsewhere
  simp only
  repeat' split
  all_goals rfl

theorem applyFix_config (s : State) (q : FixRequest) : pruConfig (s.applyFix q).1.pru = pruConfig s.pru := by
  unfold State.applyFix
  simp only
  split
  · exact fixHere_config _ _ _ _
  · exact fixElsewhere_config _ _ _ _ _

theorem serve_pru {s : State} (v : Service) {handler : Port → Request → State → State × Reply}
    (hf : ∀ p rq, pruConfig (handler p rq s).1.pru = pruConfig s.pru) : pruConfig (s.serve v handler).pru = pruConfig s.pru := by
  rcases State.serve_eq s v handler with ⟨p, rq, -, -, heq⟩ | ⟨-, heq⟩ <;> rw [heq]
  exact hf p rq

theorem exec_pruConfig {c : Instr} {s t : State} (h : exec c s = .next t) (hpower : ∀ cause, c ≠ .powerOn cause)
    (hitem : c ≠ .setItem) : pruConfig t.pru = pruConfig s.pru := by
  by_cases hpru : (footprint c).pru = false
  · rw [(exec_keeps h).pru hpru]
  cases c
  case powerOn cause => exact absurd rfl (hpower cause)
  case setItem => exact absurd rfl hitem
  case pruSampleEvent =>
    simp only [exec, execPruSampleEvent] at h
    split at h <;> cases h
    · exact takeEvent_config _ _ _
    · rfl
  case pruReversalNotice =>
    simp only [exec, execPruReversalNotice] at h
    split at h <;> cases h <;> rfl
  case pruStartNotice =>
    simp only [exec, execPruStartNotice] at h
    split at h <;> cases h
    · exact pruStarted_config _ _
    · rfl
  case pruSuspendNotice =>
    simp only [exec, execPruSuspendNotice] at h
    split at h <;> cases h <;> rfl
  case pruResumptionNotice =>
    simp only [exec, execPruResumptionNotice] at h
    split at h <;> cases h <;> rfl
  case pruStopNotice =>
    simp only [exec, execPruStopNotice] at h
    split at h <;> cases h <;> rfl
  case fixAt =>
    cases h
    refine serve_pru _ (fun p rq => ?_)
    unfold serveFixAt answered
    repeat' split
    all_goals first | rfl | exact applyFix_config _ _
  case fixNow =>
    cases h
    refine serve_pru _ (fun p rq => ?_)
    unfold serveFixNow answered
    simp only
    repeat' split
    all_goals first | rfl | exact applyFix_config _ _
  case jumpPlan =>
    cases h
    refine serve_pru _ (fun p rq => ?_)
    rcases serveJumpPlan_cases p rq s with heq | ⟨e, x, c, heq⟩ <;> rw [heq]
    all_goals rfl
  all_goals exact absurd rfl hpru

theorem evaluate_config (x : TriggerState) (k : Int) (now : Nat) : triggerConfig (x.evaluate k now) = triggerConfig x := by
  unfold TriggerState.evaluate TriggerState.fire
  split
  · split <;> rfl
  · rfl

theorem setMarker_config {m : Mtu} {l : MarkerLine} {x : MarkerState} (hx : markerConfig x = markerConfig (m.marker l)) :
    mtuConfig (m.setMarker l x) = mtuConfig m := by
  cases l
  · show (markerConfig x, _, _) = _; rw [hx]; rfl
  · show (_, markerConfig x, _) = _; rw [hx]; rfl

theorem exec_mtuConfig {c : Instr} {s t : State} (h : exec c s = .next t) (hpower : ∀ cause, c ≠ .powerOn cause)
    (hitem : c ≠ .setItem) : mtuConfig t.mtu = mtuConfig s.mtu := by
  by_cases hmtu : (footprint c).mtu = false
  · rw [(exec_keeps h).mtu hmtu]
  cases c
  case powerOn cause => exact absurd rfl (hpower cause)
  case setItem => exact absurd rfl hitem
  case markerEdge m edge =>
    simp only [exec, execMarkerEdge] at h
    split at h
    · split at h <;> cases h
      · exact setMarker_config rfl
      · exact setMarker_config (m := s.mtu) (l := m) rfl
    · cases h; rfl
  case chainageAnswer =>
    simp only [exec, execChainageAnswer] at h
    split at h <;> cases h <;> rfl
  case placementAnswer =>
    simp only [exec, execPlacementAnswer] at h
    split at h <;> cases h <;> rfl
  case markLossReport =>
    simp only [exec, execMarkLossReport] at h
    split at h <;> cases h <;> rfl
  case mtuSampleEvent =>
    simp only [exec, execMtuSampleEvent] at h
    split at h <;> cases h
    · show mtuConfig (if _ then _ else _) = _
      split
      · simp only [mtuConfig, Mtu.evaluate, evaluate_config]
      · rfl
    · rfl
  case pulseExpiry t =>
    simp only [exec, execPulseExpiry] at h
    split at h <;> cases h
    · cases t <;> rfl
    · rfl
  case mtuStartNotice =>
    simp only [exec, execMtuStartNotice] at h
    split at h <;> cases h <;> rfl
  case mtuSuspendNotice =>
    simp only [exec, execMtuSuspendNotice] at h
    split at h <;> cases h <;> rfl
  case mtuResumptionNotice =>
    simp only [exec, execMtuResumptionNotice] at h
    split at h <;> cases h <;> rfl
  case mtuStopNotice =>
    simp only [exec, execMtuStopNotice] at h
    split at h <;> cases h <;> rfl
  all_goals exact absurd rfl hmtu

/-- The Run Controller's part: the generation and the written marks. -/
theorem exec_rcuConfig {c : Instr} {s t : State} (h : exec c s = .next t) (hpower : ∀ cause, c ≠ .powerOn cause)
    (hitem : c ≠ .setItem) : t.rcu.generation = s.rcu.generation ∧ t.rcu.written = s.rcu.written := by
  by_cases hrcu : (footprint c).rcu = false
  · rw [(exec_keeps h).rcu hrcu]; exact ⟨rfl, rfl⟩
  cases c
  case powerOn cause => exact absurd rfl (hpower cause)
  case setItem => exact absurd rfl hitem
  case rcuSampleEvent =>
    simp only [exec, execRcuSampleEvent] at h
    split at h <;> cases h
    · simp only; split <;> exact ⟨rfl, rfl⟩
    · exact ⟨rfl, rfl⟩
  case odometryLost =>
    simp only [exec, execOdometryLost] at h
    split at h <;> cases h
    · split <;> exact ⟨rfl, rfl⟩
    · exact ⟨rfl, rfl⟩
  case odometryRestored =>
    simp only [exec, execOdometryRestored] at h
    split at h <;> cases h
    · split <;> exact ⟨rfl, rfl⟩
    · exact ⟨rfl, rfl⟩
  case start =>
    cases h
    rcases State.serve_eq s .start serveStart with ⟨p, rq, -, -, heq⟩ | ⟨-, heq⟩ <;> rw [heq]
    · unfold serveStart answered
      simp only
      repeat' split
      all_goals exact ⟨rfl, rfl⟩
    · exact ⟨rfl, rfl⟩
  case stop =>
    cases h
    rcases State.serve_eq s .stop serveStop with ⟨p, rq, -, -, heq⟩ | ⟨-, heq⟩ <;> rw [heq]
    · unfold serveStop answered
      split <;> exact ⟨rfl, rfl⟩
    · exact ⟨rfl, rfl⟩
  all_goals exact absurd rfl hrcu

/-! ### The configuration as a whole -/

/-- What ODOMETRY writes of one encoder, without the count weight. -/
def wheelConfig (x : EncoderState) : Nat × Nat × Mounting := (x.circumference, x.countsPerRev, x.mounting)

/-- What ODOMETRY writes in the ODU, without the count weights. -/
def oduFields (o : Odu) :=
  (o.interval, o.primary, o.reversalDistance, o.slipTolerance, o.paceIntervalField, wheelConfig o.e1, wheelConfig o.e2)

theorem oduFields_of_config {o q : Odu} (h : oduConfig q = oduConfig o) : oduFields q = oduFields o := by
  simp only [oduConfig, encoderConfig, Prod.mk.injEq] at h
  simp only [oduFields, wheelConfig, Prod.mk.injEq]
  tauto

theorem weight_of_config {o q : Odu} (h : oduConfig q = oduConfig o) (e : Encoder) : (q.enc e).weight = (o.enc e).weight := by
  simp only [oduConfig, encoderConfig, Prod.mk.injEq] at h
  obtain ⟨-, -, -, -, -, ⟨-, -, -, h1⟩, -, -, -, h2⟩ := h
  cases e
  exacts [h1, h2]

/-- The configuration has stayed when that of each block has. -/
theorem sameConfiguration_of_blocks {s t : State}
    (hrcu : t.rcu.generation = s.rcu.generation ∧ t.rcu.written = s.rcu.written) (hodu : oduFields t.odu = oduFields s.odu)
    (hslc : slcConfig t.slc = slcConfig s.slc) (hasu : asuConfig t.asu = asuConfig s.asu) (hgcu : gcuConfig t.gcu = gcuConfig s.gcu)
    (hpru : pruConfig t.pru = pruConfig s.pru) (hexu : t.exu.limitSets = s.exu.limitSets)
    (hmtu : mtuConfig t.mtu = mtuConfig s.mtu) : SameConfiguration s t := by
  have henc : ∀ e, wheelConfig (t.odu.enc e) = wheelConfig (s.odu.enc e) := by
    simp only [oduFields, Prod.mk.injEq] at hodu
    obtain ⟨-, -, -, -, -, h1, h2⟩ := hodu
    intro e; cases e; exacts [h1, h2]
  have hmarker : ∀ l, markerConfig (t.mtu.marker l) = markerConfig (s.mtu.marker l) := by
    simp only [mtuConfig, Prod.mk.injEq] at hmtu
    obtain ⟨h1, h2, -⟩ := hmtu
    intro l; cases l; exacts [h1, h2]
  have htrigger : ∀ c, triggerConfig (t.mtu.trigger c) = triggerConfig (s.mtu.trigger c) := by
    simp only [mtuConfig, Prod.mk.injEq] at hmtu
    obtain ⟨-, -, h1, h2, h3, h4⟩ := hmtu
    intro c; cases c; exacts [h1, h2, h3, h4]
  simp only [wheelConfig, Prod.mk.injEq] at henc
  simp only [markerConfig, Prod.mk.injEq] at hmarker
  simp only [triggerConfig, Prod.mk.injEq] at htrigger
  simp only [oduFields, Prod.mk.injEq] at hodu
  simp only [slcConfig, Prod.mk.injEq] at hslc
  simp only [asuConfig, Prod.mk.injEq] at hasu
  simp only [gcuConfig, Prod.mk.injEq] at hgcu
  simp only [pruConfig, Prod.mk.injEq] at hpru
  simp only [SameConfiguration, hodu, hslc, hasu, hgcu, hpru, hexu, hrcu, henc, hmarker, htrigger, and_self, implies_true]

theorem calibrate_oduFields {s t : State} (h : exec .calibrate s = .next t) : oduFields t.odu = oduFields s.odu := by
  cases h
  rcases State.serve_eq s .calibrate serveCalibrate with ⟨p, rq, -, -, heq⟩ | ⟨-, heq⟩ <;> rw [heq]
  have hcalibrated : ∀ w, oduFields (s.odu.calibrated w) = oduFields s.odu := fun w => by
    unfold Odu.calibrated Odu.setEnc Odu.enc
    simp only
    split
    · rfl
    · split <;> rfl
  unfold serveCalibrate answered
  simp only
  repeat' split
  all_goals first | rfl | exact hcalibrated _

theorem sameConfiguration_of_ne_setItem {c : Instr} {s t : State} (h : exec c s = .next t) (hpower : ∀ cause, c ≠ .powerOn cause)
    (hitem : c ≠ .setItem) : SameConfiguration s t := by
  refine sameConfiguration_of_blocks (exec_rcuConfig h hpower hitem) ?odu (exec_slcConfig h hpower hitem)
    (exec_asuConfig h hpower hitem) (exec_gcuConfig h hpower hitem) (exec_pruConfig h hpower hitem)
    (TablesSound.exec_limitSets h hitem hpower) (exec_mtuConfig h hpower hitem)
  by_cases hcalibrate : c = .calibrate
  · subst hcalibrate; exact calibrate_oduFields h
  · exact oduFields_of_config (exec_oduConfig h hpower hitem hcalibrate)

theorem sameConfiguration_of_cpc {s t : State} {c : Cpc} (h : t = { s with cpc := c }) : SameConfiguration s t := by
  subst h
  exact sameConfiguration_of_blocks ⟨rfl, rfl⟩ rfl rfl rfl rfl rfl rfl rfl

/-- An item is accepted in STANDBY only. -/
theorem judgeItem_accepted_standby {r : RunState} {payload b : List Byte} {i : ItemId} (h : judgeItem r payload = .accepted i b) :
    r = .standby := by
  by_contra hr
  simp only [judgeItem] at h
  repeat' split at h
  all_goals cases h

/-- A SET_ITEM that changes the configuration is accepted, and no unit is at work. -/
theorem setItem_sameConfiguration {s t : State} (h : exec .setItem s = .next t) (hs : s.rcu.runState ≠ .standby ∨ ¬Quiet s) :
    SameConfiguration s t := by
  have hrefl : SameConfiguration s s := sameConfiguration_of_cpc (c := s.cpc) rfl
  simp only [exec, execSetItem] at h
  split at h <;> cases h
  · exact hrefl
  · next hwaits =>
    rcases State.serve_eq s .setItem serveSetItem with ⟨p, rq, hservice, -, heq⟩ | ⟨-, heq⟩ <;> rw [heq]
    · rw [serveSetItem]
      split
      · exact sameConfiguration_of_cpc rfl
      · next i b haccepted =>
        rcases hs with hs | hs
        · exact absurd (judgeItem_accepted_standby haccepted) hs
        · rw [← State.isQuiet_iff] at hs
          exact absurd (by simp [State.itemWaits, hservice, haccepted, hs]) hwaits
    · exact sameConfiguration_of_cpc rfl

/-- Settles O59: by the configuration of each block at every command but SET_ITEM, and by the checks of SET_ITEM. -/
theorem theConfigurationIsConstantThroughARun : Obligations.TheConfigurationIsConstantThroughARun := by
  intro c s t h hpower
  refine ⟨fun hrun => ?_, fun hitem => sameConfiguration_of_ne_setItem h hpower hitem, fun hquiet => ?_,
    fun hitem hcalibrate => weight_of_config (exec_oduConfig h hpower hitem hcalibrate)⟩
  all_goals
    by_cases hitem : c = .setItem
    · subst hitem
      exact setItem_sameConfiguration h (by tauto)
    · exact sameConfiguration_of_ne_setItem h hpower hitem

end Sys2Proof.Proofs.RunStateAndConfiguration
end

