-- ==== Sys2Proof/Proofs/Movement.lean ====
section
/-! PROOFS. What a count does to the position (R3, R5 to R9): it reverses, fires the next event, or moves the accumulator alone; and the
pace counts (R11). -/

namespace Sys2Proof.Proofs.Movement

open Sys2Proof.Machine Sys2Proof.Safety
open Sys2Proof.Proofs.ActiveEncoder (moved moveBy_cases)

/-! ### The accumulator and X -/

/-- A count changes the position and X alone before a reversal or an event follows. -/
theorem moved_eq (o : Odu) (du : Int) :
    moved o du = { o with position := toPosition (o.position + du), extreme := (moved o du).extreme } := by
  unfold moved Odu.followExtreme
  split <;> split <;> rfl

theorem moved_position (o : Odu) (du : Int) : (moved o du).position = toPosition (o.position + du) := by rw [moved_eq]

theorem moved_direction (o : Odu) (du : Int) : (moved o du).direction = o.direction := by rw [moved_eq]

theorem moved_activeWeight (o : Odu) (du : Int) : (moved o du).activeWeight = o.activeWeight := by rw [moved_eq]; rfl

theorem moved_slips (o : Odu) (du : Int) : (moved o du).slips = o.slips := by rw [moved_eq]; rfl

/-- X after a count: the farther of X and the position, in the running direction (R7). -/
theorem moved_extreme (o : Odu) (du : Int) : o.direction.sign * (moved o du).extreme =
    max (o.direction.sign * o.extreme) (o.direction.sign * toPosition (o.position + du)) := by
  unfold moved Odu.followExtreme
  cases o.direction <;> simp only [Direction.sign] <;> split <;> simp only <;> omega

/-! ### The three tests -/

theorem reversed_iff (o : Odu) : o.reversed = true ↔
    o.direction.sign * o.position ≤ o.direction.sign * o.extreme - o.reversalDistance * o.activeWeight := by
  unfold Odu.reversed
  cases o.direction <;> simp only [Direction.sign, decide_eq_true_eq] <;> omega

/-- With X the farthest position, a reversal is seen as if X had not followed. -/
theorem moved_reversed_iff {o : Odu} {du : Int} (hback : 0 < (o.reversalDistance : Int) * o.activeWeight) :
    (moved o du).reversed = true ↔ o.direction.sign * toPosition (o.position + du) ≤
      o.direction.sign * o.extreme - o.reversalDistance * o.activeWeight := by
  rw [reversed_iff, moved_direction, moved_extreme, moved_position, moved_activeWeight,
    show (moved o du).reversalDistance = o.reversalDistance by rw [moved_eq]]
  omega

/-- The boundary of the next index is reached, and that index lies in range (R5). -/
def Reaches (o : Odu) (position : Int) : Prop :=
  o.direction.sign * (o.next * (o.interval * 65536)) ≤ o.direction.sign * position ∧ -2147483648 ≤ o.next ∧ o.next ≤ 2147483647

theorem reached_iff (o : Odu) : o.reached = true ↔ Reaches o o.position := by
  unfold Odu.reached Reaches Odu.boundary Odu.intervalDu
  rw [Bool.and_eq_true, inS32_iff, and_comm]
  cases o.direction <;> simp only [Direction.sign, decide_eq_true_eq] <;> refine and_congr ?_ Iff.rfl <;> omega

theorem moved_reached_iff (o : Odu) (du : Int) : (moved o du).reached = true ↔ Reaches o (toPosition (o.position + du)) := by
  rw [reached_iff, moved_position]
  unfold Reaches
  rw [moved_eq]

/-- A move of `u` weights goes in the running direction when `u` is its sign. -/
theorem advances_iff (o : Odu) {u : Int} {w : Nat} (hu : u = 1 ∨ u = -1) (hw : 0 < w) :
    o.advances (u * w) = true ↔ u = o.direction.sign := by
  unfold Odu.advances
  rw [decide_eq_true_iff]
  cases o.direction <;> rcases hu with rfl | rfl <;> simp [Direction.sign] <;> omega

theorem moved_advances (o : Odu) (du du' : Int) : (moved o du).advances du' = o.advances du' := by
  unfold Odu.advances; rw [moved_direction]

/-! ### The event -/

/-- The speed of an event Δt ticks after the one before it (R9). -/
theorem speedOf_eq {interval ticks : Nat} (h : 0 < min ticks 2097152) :
    speedOf interval ticks = (2 * (interval * 1048576) + min ticks 2097152) / (2 * min ticks 2097152) :=
  roundUp_toNat (interval * 1048576) _ (by simp only [standstillTicks]; omega)

theorem eventSpeed_eq_zero {o : Odu} (h : o.zeroSpeedNext = true) (now : Nat) : o.eventSpeed now = 0 := by
  rw [Odu.eventSpeed, if_pos h]

theorem fireEvent_distance (s : State) (e : Encoder) : (s.fireEvent.odu.enc e).eventDistance = 0 := by cases e <;> rfl

/-- Firing the event for n does what R5, R6, R9 and R10 say. -/
theorem fireEvent_fires (s : State) : FiresNext s s.fireEvent s.now (s.odu.slips = true) [] := by
  refine ⟨rfl, rfl, rfl, rfl, rfl, rfl, rfl, fun _ => rfl, fireEvent_distance s, s.odu.eventNow s.now, rfl, rfl, rfl, rfl, rfl, rfl,
    rfl, Iff.rfl, fun _ => rfl, fun hzero => eventSpeed_eq_zero hzero s.now, ?_⟩
  intro dt hdt hpos hzero
  show s.odu.eventSpeed s.now = _
  subst hdt
  rw [Odu.eventSpeed, if_neg (by simp [hzero]), speedOf_eq hpos]

theorem fireIfReached_cases (s : State) :
    (s.odu.reached = true ∧ s.fireIfReached = s.fireEvent) ∨ (s.odu.reached = false ∧ s.fireIfReached = s) := by
  unfold State.fireIfReached
  cases s.odu.reached
  · exact .inr ⟨rfl, rfl⟩
  · exact .inl ⟨rfl, rfl⟩

/-! ### The reversal -/

/-- The next index after a reversal, as R8 forms it. -/
def nextAfterTurn (o : Odu) : Int :=
  if o.eventDirection = o.direction then o.frontier else o.frontier + o.direction.flip.sign

/-- A declared reversal before an event can follow it. -/
def turnedBack (s : State) : State :=
  { s with
    odu := { s.odu with
      direction := s.odu.direction.flip, extreme := s.odu.position, next := nextAfterTurn s.odu, zeroSpeedNext := true },
    bus := s.bus.handReversal }

theorem declareReversal_eq (s : State) : s.declareReversal = (turnedBack s).fireIfReached := by
  have hnext : nextAfterTurn s.odu = if s.odu.eventDirection = s.odu.direction.flip
      then s.odu.frontier + s.odu.direction.flip.sign else s.odu.frontier := by
    unfold nextAfterTurn
    cases s.odu.eventDirection <;> cases s.odu.direction <;> rfl
  rw [turnedBack, hnext]
  rfl

/-- With nothing waiting at the SLC the reversal notice goes on to the ASU at once. -/
theorem turnedBack_empty {s : State} (h : s.bus.toSlc = []) :
    (turnedBack s).bus.toAsu = s.bus.toAsu ++ [.reversal] ∧ (turnedBack s).bus.toSlc = [] := by
  simp only [turnedBack, Bus.handReversal_toAsu, Bus.handReversal_toSlc, h]
  exact ⟨rfl, rfl⟩

/-- Behind what waits at the SLC it waits with it. -/
theorem turnedBack_waiting {s : State} (h : s.bus.toSlc ≠ []) (hhead : s.bus.toSlc.head? ≠ some .reversal) :
    (turnedBack s).bus.toAsu = s.bus.toAsu ∧ (turnedBack s).bus.toSlc = s.bus.toSlc ++ [.reversal] := by
  have hpass : passReversals (s.bus.toSlc ++ [.reversal]) = (0, s.bus.toSlc ++ [.reversal]) :=
    passReversals_of_head (by rwa [List.head?_append_of_ne_nil _ h])
  simp only [turnedBack, Bus.handReversal_toAsu, Bus.handReversal_toSlc, hpass, List.replicate_zero, List.append_nil, and_self]

/-- A declared reversal does what R8 says. -/
theorem declareReversal_reversedAt (s : State) : ReversedAt s s.declareReversal s.odu.position [] := by
  have hreached : (turnedBack s).odu.reached = true ↔ _ := reached_iff (turnedBack s).odu
  rw [declareReversal_eq]
  rcases fireIfReached_cases (turnedBack s) with ⟨hfires, heq⟩ | ⟨hstays, heq⟩ <;> rw [heq]
  · refine ⟨rfl, rfl, [.event ((turnedBack s).odu.eventNow s.now)], ?_, fun hslc => ⟨(turnedBack_empty hslc).1, ?_⟩,
      fun hslc hhead => ⟨(turnedBack_waiting hslc hhead).1, ?_⟩, rfl,
      fun _ => ⟨rfl, rfl, rfl, rfl, _, rfl, rfl, rfl, rfl, rfl⟩, fun hnot => absurd (hreached.1 hfires) hnot⟩
    · show (s.bus.toPru ++ [.reversal]) ++ [_] = _; rw [List.append_assoc]; rfl
    · show (turnedBack s).bus.toSlc ++ [_] = _; rw [(turnedBack_empty hslc).2]; rfl
    · show (turnedBack s).bus.toSlc ++ [_] = _; rw [(turnedBack_waiting hslc hhead).2, List.append_assoc]; rfl
  · rw [Bool.eq_false_iff] at hstays
    exact ⟨rfl, rfl, [], rfl, turnedBack_empty, turnedBack_waiting, (List.append_nil _).symm,
      fun hpassed => absurd (hreached.2 hpassed) hstays, fun _ => ⟨rfl, rfl, rfl, rfl, (List.append_nil _).symm⟩⟩

/-! ### States that agree on the run -/

/-- Two states agree on the run and on what waits, apart from position, X, the encoders and the pace timer. -/
structure SameRun (s u : State) : Prop where
  odu : u.odu = { s.odu with
    position := u.odu.position, extreme := u.odu.extreme, e1 := u.odu.e1, e2 := u.odu.e2, paceTimer := u.odu.paceTimer }
  bus : u.bus = s.bus

theorem sameRun_moved (s : State) (du : Int) : SameRun s { s with odu := moved s.odu du } := by
  refine ⟨?_, rfl⟩
  rw [moved_eq]

theorem SameRun.firesNext {s u t : State} {now : Nat} {slip : Prop} {reports : List RcuMessage} (h : SameRun s u)
    (hf : FiresNext u t now slip reports) : FiresNext s t now slip reports := by
  unfold FiresNext at hf
  rw [h.odu, h.bus] at hf
  exact hf

theorem SameRun.firesNothing {s u t : State} {reports : List RcuMessage} (h : SameRun s u)
    (hf : FiresNothing u t reports) : FiresNothing s t reports := by
  unfold FiresNothing at hf
  rw [h.odu, h.bus] at hf
  exact hf

theorem SameRun.reversedAt {s u t : State} {p : Int} {reports : List RcuMessage} (h : SameRun s u)
    (hf : ReversedAt u t p reports) : ReversedAt s t p reports := by
  unfold ReversedAt at hf
  rw [h.odu, h.bus] at hf
  exact hf

/-! ### A count moves the accumulator -/

/-- A position R_d × W or more back from X declares a reversal (R8). -/
theorem moveBy_reversedAt {s : State} {du : Int} (hback : 0 < (s.odu.reversalDistance : Int) * s.odu.activeWeight)
    (h : s.odu.direction.sign * toPosition (s.odu.position + du) ≤
      s.odu.direction.sign * s.odu.extreme - s.odu.reversalDistance * s.odu.activeWeight) :
    ReversedAt s (s.moveBy du) (toPosition (s.odu.position + du)) [] := by
  rcases moveBy_cases s du with ⟨-, heq⟩ | ⟨hnot, -, -, -⟩ | ⟨hnot, -, -⟩
  · rw [heq, ← moved_position]
    exact (sameRun_moved s du).reversedAt (declareReversal_reversedAt { s with odu := moved s.odu du })
  all_goals exact absurd ((moved_reversed_iff hback).2 h) (by simp [hnot])

/-- A position less far back turns nothing, and X follows it (R7). -/
theorem moveBy_forward {s : State} {du : Int} (hback : 0 < (s.odu.reversalDistance : Int) * s.odu.activeWeight)
    (h : s.odu.direction.sign * s.odu.extreme - s.odu.reversalDistance * s.odu.activeWeight <
      s.odu.direction.sign * toPosition (s.odu.position + du)) :
    (s.moveBy du).odu.direction = s.odu.direction ∧ s.odu.direction.sign * (s.moveBy du).odu.extreme =
      max (s.odu.direction.sign * s.odu.extreme) (s.odu.direction.sign * toPosition (s.odu.position + du)) := by
  rw [← moved_extreme]
  rcases moveBy_cases s du with ⟨hrev, -⟩ | ⟨-, -, -, heq⟩ | ⟨-, -, heq⟩
  · have := (moved_reversed_iff hback).1 hrev; omega
  all_goals rw [heq]; exact ⟨moved_direction s.odu du, rfl⟩

/-- Then the count fires the event for n where it advances to n's boundary (R5). -/
theorem moveBy_firesNext {s : State} {du : Int} (hback : 0 < (s.odu.reversalDistance : Int) * s.odu.activeWeight)
    (h : s.odu.direction.sign * s.odu.extreme - s.odu.reversalDistance * s.odu.activeWeight <
      s.odu.direction.sign * toPosition (s.odu.position + du))
    (hadvances : s.odu.advances du = true) (hreaches : Reaches s.odu (toPosition (s.odu.position + du))) :
    FiresNext s (s.moveBy du) s.now (s.odu.slips = true) [] := by
  rw [← moved_reached_iff] at hreaches
  rw [← moved_advances s.odu du] at hadvances
  rcases moveBy_cases s du with ⟨hrev, -⟩ | ⟨-, -, -, heq⟩ | ⟨-, hnot | hnot, -⟩
  · have := (moved_reversed_iff hback).1 hrev; omega
  · rw [heq, ← moved_slips s.odu du]
    exact (sameRun_moved s du).firesNext (fireEvent_fires { s with odu := moved s.odu du })
  · rw [hnot] at hadvances; cases hadvances
  · rw [hnot] at hreaches; cases hreaches

/-- Otherwise it moves the position and X alone. -/
theorem moveBy_alone {s : State} {du : Int} (hback : 0 < (s.odu.reversalDistance : Int) * s.odu.activeWeight)
    (h : s.odu.direction.sign * s.odu.extreme - s.odu.reversalDistance * s.odu.activeWeight <
      s.odu.direction.sign * toPosition (s.odu.position + du))
    (hnot : ¬(s.odu.advances du = true ∧ Reaches s.odu (toPosition (s.odu.position + du)))) :
    s.moveBy du = { s with odu := moved s.odu du } := by
  rcases moveBy_cases s du with ⟨hrev, -⟩ | ⟨-, hadvances, hreached, -⟩ | ⟨-, -, heq⟩
  · have := (moved_reversed_iff hback).1 hrev; omega
  · rw [moved_advances] at hadvances
    exact absurd ⟨hadvances, (moved_reached_iff _ _).1 hreached⟩ hnot
  · exact heq

theorem moved_firesNothing (s : State) (du : Int) : FiresNothing s { s with odu := moved s.odu du } [] := by
  rw [moved_eq]
  exact ⟨rfl, rfl, rfl, rfl, rfl, rfl, rfl, rfl, rfl, rfl, (List.append_nil _).symm⟩

/-- What a count that moves the accumulator can change of the ODU. -/
theorem moveBy_odu (s : State) (du : Int) : (s.moveBy du).odu = { s.odu with
    position := toPosition (s.odu.position + du), frontier := (s.moveBy du).odu.frontier, next := (s.moveBy du).odu.next,
    direction := (s.moveBy du).odu.direction, eventDirection := (s.moveBy du).odu.eventDirection,
    extreme := (s.moveBy du).odu.extreme, eventTick := (s.moveBy du).odu.eventTick, speed := (s.moveBy du).odu.speed,
    standstill := (s.moveBy du).odu.standstill, encSwitch := (s.moveBy du).odu.encSwitch,
    zeroSpeedNext := (s.moveBy du).odu.zeroSpeedNext,
    e1 := { s.odu.e1 with eventDistance := (s.moveBy du).odu.e1.eventDistance },
    e2 := { s.odu.e2 with eventDistance := (s.moveBy du).odu.e2.eventDistance } } := by
  rcases moveBy_cases s du with ⟨-, heq⟩ | ⟨-, -, -, heq⟩ | ⟨-, -, heq⟩ <;> rw [heq, moved_eq]
  · rw [declareReversal_eq]
    rcases fireIfReached_cases (turnedBack _) with ⟨-, heq⟩ | ⟨-, heq⟩ <;> rw [heq] <;> rfl
  · rfl

/-- What a count that moves the accumulator can hand over. -/
theorem moveBy_bus (s : State) (du : Int) : (s.moveBy du).bus = { s.bus with
    toPru := (s.moveBy du).bus.toPru, toSlc := (s.moveBy du).bus.toSlc, toMtu := (s.moveBy du).bus.toMtu,
    toRcu := (s.moveBy du).bus.toRcu, toAsu := (s.moveBy du).bus.toAsu } := by
  rcases moveBy_cases s du with ⟨-, heq⟩ | ⟨-, -, -, heq⟩ | ⟨-, -, heq⟩ <;> rw [heq]
  · rw [declareReversal_eq]
    rcases fireIfReached_cases (turnedBack _) with ⟨-, heq⟩ | ⟨-, heq⟩ <;> rw [heq] <;> rfl
  · rfl

end Sys2Proof.Proofs.Movement
end

