-- ==== Sys2Proof/Proofs/Supervision.lean ====
section
/-! PROOFS. The counts of the encoders and their supervision (R1, R3, R13 to R20), with the sample events and reversals they bring
(R5 to R9). -/

namespace Sys2Proof.Proofs.Supervision

open Sys2Proof.Machine Sys2Proof.Safety Sys2Proof.Proofs.Movement
open Sys2Proof.Proofs.ActiveEncoder (moved)

/-! ### The decoder -/

theorem value_cases (v : Sense) : v.value = 1 ∨ v.value = -1 := by cases v <;> decide

theorem value_inj {v q : Sense} : q.value = v.value ↔ q = v := by cases v <;> cases q <;> decide

theorem decode_levels (x : EncoderState) (ch : QuadChannel) : (x.decode ch).1 = turned x ch := by cases ch <;> rfl

/-- The decoder yields the value R1 gives the count. -/
theorem decode_value (x : EncoderState) (ch : QuadChannel) : (x.decode ch).2.value = countValue x ch := by
  unfold EncoderState.decode countValue countSense
  cases ch <;> cases x.mounting <;> cases x.levelA <;> cases x.levelB <;> rfl

theorem supervised_iff (o : Odu) : o.supervised = true ↔ o.source = .encoders ∧ o.view ≠ .standby := by
  simp [Odu.supervised]

theorem supervised_eq_false {o : Odu} (h : o.view = .standby ∨ o.source ≠ .encoders) : o.supervised = false := by
  rw [Bool.eq_false_iff, Ne, supervised_iff]; tauto

/-- Settles O3: by the decoder, and by the test for a supervised run. -/
theorem theDecoderFollowsTheLines : Obligations.TheDecoderFollowsTheLines := by
  refine ⟨fun s e ch ticks h => ?_, fun s e h => ?_, fun _ _ => rfl⟩
  · have hnot : (s.odu.setEnc e (turned (s.odu.enc e) ch)).supervised = false := supervised_eq_false (by simpa using h)
    simp only [exec, execEncoderCount, decode_levels, hnot, Bool.false_eq_true, if_false]
  · simp only [exec, execZPulse, supervised_eq_false h, Bool.false_eq_true, if_false]

/-! ### What supervision does to one encoder -/

/-- An encoder that has failed (R13). -/
def failed (x : EncoderState) : EncoderState := { x with health := .failed, strikes := 0, goodChecks := 0 }

/-- An encoder after a mismatch (R15). -/
def struck (x : EncoderState) : EncoderState :=
  match x.health with
  | .ok => if x.strikes + 1 < 3 then { x with strikes := x.strikes + 1 } else failed x
  | .failed => { x with goodChecks := 0 }

/-- An encoder whose index count has reached N + 3 at a count: a revolution without its index begins anew (R14). -/
def unindexed (x : EncoderState) (v : Sense) : EncoderState := { x.countIndex v with indexCount := 0, aligned := false }

/-- An encoder after the index check at a count (R14). -/
def indexed (x : EncoderState) (v : Sense) : EncoderState :=
  if (x.countIndex v).indexCount = (x.countIndex v).countsPerRev + 3 then struck (unindexed x v) else x.countIndex v

/-- An encoder after the silence count at a count of the other one (R16). -/
def silenced (y : EncoderState) (v : Sense) : EncoderState :=
  if (y.silence + v.value).natAbs < 512 then { y with silence := y.silence + v.value }
  else match y.health with
    | .ok => failed { y with silence := 0 }
    | .failed => { y with silence := 0, goodChecks := 0 }

/-- A mismatch that makes an encoder FAILED: the third strike of an OK one. -/
def ThirdStrike (x : EncoderState) : Prop := x.health = .ok ∧ 2 ≤ x.strikes

theorem struck_mismatched (x : EncoderState) : Mismatched x (struck x) := by
  refine ⟨fun hok hstrikes => ?_, fun hok hstrikes => ?_, fun hfailed => ?_⟩
  · simp only [struck, hok, if_pos (show x.strikes + 1 < 3 by omega), and_self]
  · simp only [struck, hok, if_neg (show ¬x.strikes + 1 < 3 by omega), failed, and_self]
  · simp only [struck, hfailed, and_self]

theorem mismatched_of_same {x y z w : EncoderState} (hy : y.health = x.health ∧ y.strikes = x.strikes ∧ y.goodChecks = x.goodChecks)
    (hw : w.health = z.health ∧ w.strikes = z.strikes ∧ w.goodChecks = z.goodChecks) (h : Mismatched y z) : Mismatched x w := by
  obtain ⟨hy1, hy2, hy3⟩ := hy
  obtain ⟨hw1, hw2, hw3⟩ := hw
  unfold Mismatched at *
  rwa [hw1, hw2, hw3, ← hy1, ← hy2, ← hy3]

theorem struck_thirdStrike {x : EncoderState} (h : ThirdStrike x) : struck x = failed x := by
  obtain ⟨hok, hstrikes⟩ := h
  simp only [struck, hok, if_neg (show ¬x.strikes + 1 < 3 by omega)]

/-- What no supervision touches. -/
structure SameWheel (x z : EncoderState) : Prop where
  levelA : z.levelA = x.levelA
  levelB : z.levelB = x.levelB
  weight : z.weight = x.weight
  countsPerRev : z.countsPerRev = x.countsPerRev
  circumference : z.circumference = x.circumference
  mounting : z.mounting = x.mounting
  distance : z.eventDistance = x.eventDistance

theorem SameWheel.trans {x y z : EncoderState} (h : SameWheel x y) (h' : SameWheel y z) : SameWheel x z :=
  ⟨h'.levelA.trans h.levelA, h'.levelB.trans h.levelB, h'.weight.trans h.weight, h'.countsPerRev.trans h.countsPerRev,
    h'.circumference.trans h.circumference, h'.mounting.trans h.mounting, h'.distance.trans h.distance⟩

theorem struck_wheel (x : EncoderState) : SameWheel x (struck x) := by
  unfold struck
  split
  · split <;> exact ⟨rfl, rfl, rfl, rfl, rfl, rfl, rfl⟩
  · exact ⟨rfl, rfl, rfl, rfl, rfl, rfl, rfl⟩

theorem struck_index (x : EncoderState) : (struck x).indexCount = x.indexCount ∧ (struck x).aligned = x.aligned ∧
    (struck x).prevSense = x.prevSense ∧ (struck x).silence = x.silence := by
  unfold struck
  split
  · split <;> exact ⟨rfl, rfl, rfl, rfl⟩
  · exact ⟨rfl, rfl, rfl, rfl⟩

theorem countIndex_wheel (x : EncoderState) (v : Sense) : SameWheel x (x.countIndex v) := by
  unfold EncoderState.countIndex
  split <;> exact ⟨rfl, rfl, rfl, rfl, rfl, rfl, rfl⟩

theorem countIndex_judged (x : EncoderState) (v : Sense) : (x.countIndex v).health = x.health ∧
    (x.countIndex v).strikes = x.strikes ∧ (x.countIndex v).goodChecks = x.goodChecks ∧
    (x.countIndex v).prevSense = some v := by
  unfold EncoderState.countIndex
  split
  · next h => exact ⟨rfl, rfl, rfl, h⟩
  · exact ⟨rfl, rfl, rfl, rfl⟩

theorem countIndex_same {x : EncoderState} {v : Sense} (h : x.prevSense = some v) :
    (x.countIndex v).indexCount = x.indexCount + 1 ∧ (x.countIndex v).aligned = x.aligned := by
  rw [EncoderState.countIndex, if_pos h]; exact ⟨rfl, rfl⟩

theorem countIndex_turned {x : EncoderState} {v : Sense} (h : x.prevSense ≠ some v) :
    (x.countIndex v).indexCount = 1 ∧ (x.countIndex v).aligned = false := by
  rw [EncoderState.countIndex, if_neg h]; exact ⟨rfl, rfl⟩

theorem indexed_wheel (x : EncoderState) (v : Sense) : SameWheel x (indexed x v) := by
  have hcounted : SameWheel x (unindexed x v) := by
    obtain ⟨h1, h2, h3, h4, h5, h6, h7⟩ := countIndex_wheel x v
    exact ⟨h1, h2, h3, h4, h5, h6, h7⟩
  unfold indexed
  split
  · exact hcounted.trans (struck_wheel _)
  · exact countIndex_wheel x v

/-- The supervision of the encoder that makes a count, after the silence count has begun again (R14, R15, R16). -/
theorem indexed_counted (x : EncoderState) (v : Sense) : Counted x { indexed x v with silence := 0 } v.value := by
  have hsame : (∃ q, x.prevSense = some q ∧ q.value = v.value) ↔ x.prevSense = some v :=
    ⟨fun ⟨q, hq, hval⟩ => by rw [hq, value_inj.1 hval], fun h => ⟨v, h, rfl⟩⟩
  obtain ⟨hhealth, hstrikes, hgood, hprev⟩ := countIndex_judged x v
  have hwheel := indexed_wheel x v
  have hsense : (indexed x v).prevSense = some v := by
    unfold indexed
    split
    · rw [(struck_index _).2.2.1]; exact hprev
    · exact hprev
  refine ⟨rfl, ⟨v, hsense, rfl⟩, hwheel.weight, hwheel.countsPerRev, hwheel.circumference, hwheel.mounting, fun n hn hn' => ?_⟩
  rw [hsame] at hn hn' ⊢
  have hcount : (x.countIndex v).indexCount = n := by
    by_cases h : x.prevSense = some v
    · rw [(countIndex_same h).1, hn h]
    · rw [(countIndex_turned h).1, hn' h]
  have haligned : (x.countIndex v).aligned = true ↔ x.prevSense = some v ∧ x.aligned = true := by
    by_cases h : x.prevSense = some v
    · rw [(countIndex_same h).2]; simp [h]
    · rw [(countIndex_turned h).2]; simp [h]
  have hper : (x.countIndex v).countsPerRev = x.countsPerRev := (countIndex_wheel x v).countsPerRev
  refine ⟨fun hne => ?_, fun heq => ?_⟩
  · rw [indexed, if_neg (by omega)]
    exact ⟨hcount, haligned, hhealth, hstrikes, hgood⟩
  · rw [indexed, if_pos (by omega)]
    obtain ⟨hindex, hal, -, -⟩ := struck_index (unindexed x v)
    exact ⟨hindex, hal, mismatched_of_same ⟨hhealth, hstrikes, hgood⟩ ⟨rfl, rfl, rfl⟩ (struck_mismatched (unindexed x v))⟩

/-- The silence count of the other encoder (R16). -/
theorem silenced_overheard (y : EncoderState) (v : Sense) : Overheard y (silenced y v) v.value := by
  refine ⟨fun h => ?_, fun h => ?_⟩
  · simp only [silenced, if_pos h]
  · simp only [silenced, if_neg (show ¬(y.silence + v.value).natAbs < 512 by omega), failed]
    cases hy : y.health <;> rfl

theorem silenced_distance (y : EncoderState) (v : Sense) : (silenced y v).eventDistance = y.eventDistance := by
  unfold silenced
  split
  · rfl
  · split <;> rfl

/-! ### What supervision does to the part -/

theorem activeFailed_enc (s : State) (e : Encoder) : s.activeFailed.odu.enc e = s.odu.enc e := by
  unfold State.activeFailed
  simp only
  split <;> cases e <;> rfl

theorem activeFailed_odu (s : State) : s.activeFailed.odu = { s.odu with
    active := s.activeFailed.odu.active, epoch := s.activeFailed.odu.epoch, encSwitch := s.activeFailed.odu.encSwitch,
    view := s.activeFailed.odu.view, speed := s.activeFailed.odu.speed } := by
  unfold State.activeFailed
  simp only
  split <;> rfl

/-- With the other encoder OK it becomes active (R18). -/
theorem activeFailed_ok {s : State} (h : (s.odu.enc (encoderOther s.odu.active)).health = .ok) : s.activeFailed =
    { s with odu := { s.odu with active := encoderOther s.odu.active, epoch := s.odu.epoch + 1, encSwitch := true } } := by
  simp only [State.activeFailed, h]; rfl

/-- With both FAILED odometry is lost (R18). -/
theorem activeFailed_failed {s : State} (h : (s.odu.enc (encoderOther s.odu.active)).health = .failed) : s.activeFailed =
    { s with odu := { s.odu with view := .suspended, speed := 0, encSwitch := false },
             bus := { s.bus with toRcu := s.bus.toRcu ++ [.lost] } } := by
  simp only [State.activeFailed, h]; rfl

theorem activeFailed_switchedOrLost (s : State) (hview : s.odu.view = .running) :
    SwitchedOrLost s.odu s.activeFailed.odu (s.odu.enc (encoderOther s.odu.active)).health := by
  refine ⟨fun h => ?_, fun h => ?_⟩
  · rw [activeFailed_ok h]; exact ⟨rfl, rfl, rfl, hview⟩
  · rw [activeFailed_failed h]; exact ⟨rfl, rfl, rfl, rfl, rfl⟩

theorem activeFailed_bus (s : State) : s.activeFailed.bus =
    { s.bus with toRcu := s.bus.toRcu ++ (match (s.odu.enc (encoderOther s.odu.active)).health with
      | .ok => []
      | .failed => [RcuMessage.lost]) } := by
  cases h : (s.odu.enc (encoderOther s.odu.active)).health
  · rw [activeFailed_ok h]; simp
  · rw [activeFailed_failed h]

/-- The encoder is the active one of a run in RUNNING. -/
abbrev Drives (o : Odu) (e : Encoder) : Prop := o.view = .running ∧ o.active = e

theorem failEncoder_eq (s : State) (e : Encoder) : s.failEncoder e =
    if Drives s.odu e then State.activeFailed { s with odu := s.odu.setEnc e (failed (s.odu.enc e)) }
    else { s with odu := s.odu.setEnc e (failed (s.odu.enc e)) } := by
  unfold State.failEncoder
  simp only [Odu.setEnc_view, Odu.setEnc_active]
  rfl

/-- The third strike of the active encoder in RUNNING is handled as R18 says. -/
theorem mismatch_of_drives {s : State} {e : Encoder} (hthird : ThirdStrike (s.odu.enc e)) (hdrives : Drives s.odu e) :
    s.mismatch e = State.activeFailed { s with odu := s.odu.setEnc e (struck (s.odu.enc e)) } := by
  have hstrikes := hthird.2
  simp only [State.mismatch, hthird.1]
  rw [if_neg (by omega), failEncoder_eq, if_pos hdrives, struck_thirdStrike hthird]

/-- Any other mismatch changes its encoder alone (R15). -/
theorem mismatch_of_not {s : State} {e : Encoder} (h : ¬(ThirdStrike (s.odu.enc e) ∧ Drives s.odu e)) :
    s.mismatch e = { s with odu := s.odu.setEnc e (struck (s.odu.enc e)) } := by
  unfold State.mismatch
  simp only
  split
  · next hok =>
    split
    · next hstrikes => simp only [struck, hok, if_pos hstrikes]
    · next hstrikes =>
      have hthird : ThirdStrike (s.odu.enc e) := ⟨hok, by omega⟩
      rw [failEncoder_eq, if_neg (fun hdrives => h ⟨hthird, hdrives⟩), struck_thirdStrike hthird]
  · next hfailed => simp only [struck, hfailed]

/-- The index check at a count makes its encoder FAILED (R14). -/
def FailsAtIndex (x : EncoderState) (v : Sense) : Prop :=
  (x.countIndex v).indexCount = x.countsPerRev + 3 ∧ ThirdStrike x

theorem failsAtIndex_failed {x : EncoderState} {v : Sense} (h : FailsAtIndex x v) : (indexed x v).health = .failed := by
  obtain ⟨hcount, hok, hstrikes⟩ := h
  have hper := (countIndex_wheel x v).countsPerRev
  obtain ⟨hhealth, hst, -⟩ := countIndex_judged x v
  have hthird : ThirdStrike (unindexed x v) := ⟨hhealth.trans hok, by show 2 ≤ (x.countIndex v).strikes; omega⟩
  rw [indexed, if_pos (by omega), struck_thirdStrike hthird]
  rfl

theorem indexAtCount_of_drives {s : State} {e : Encoder} {v : Sense} (hfails : FailsAtIndex (s.odu.enc e) v)
    (hdrives : Drives s.odu e) :
    s.indexAtCount e v = State.activeFailed { s with odu := s.odu.setEnc e (indexed (s.odu.enc e) v) } := by
  obtain ⟨hcount, hok, hstrikes⟩ := hfails
  have hper := (countIndex_wheel (s.odu.enc e) v).countsPerRev
  obtain ⟨hhealth, hst, -⟩ := countIndex_judged (s.odu.enc e) v
  simp only [State.indexAtCount, indexed]
  rw [if_pos (by omega), if_pos (by omega), mismatch_of_drives]
  · simp only [Odu.setEnc_setEnc, Odu.enc_setEnc, unindexed]
  · simp only [ThirdStrike, Odu.enc_setEnc]; exact ⟨hhealth.trans hok, by omega⟩
  · simpa [Drives] using hdrives

theorem indexAtCount_of_not {s : State} {e : Encoder} {v : Sense} (h : ¬(FailsAtIndex (s.odu.enc e) v ∧ Drives s.odu e)) :
    s.indexAtCount e v = { s with odu := s.odu.setEnc e (indexed (s.odu.enc e) v) } := by
  have hper := (countIndex_wheel (s.odu.enc e) v).countsPerRev
  obtain ⟨hhealth, hst, -⟩ := countIndex_judged (s.odu.enc e) v
  simp only [State.indexAtCount, indexed]
  split
  · next hcount =>
    rw [mismatch_of_not]
    · simp only [Odu.setEnc_setEnc, Odu.enc_setEnc, unindexed]
    · simp only [ThirdStrike, Drives, Odu.enc_setEnc, Odu.setEnc_view, Odu.setEnc_active]
      intro hboth
      exact h ⟨⟨by omega, hhealth ▸ hboth.1.1, hst ▸ hboth.1.2⟩, hboth.2⟩
  · rfl

/-- The silence count makes the other encoder FAILED (R16). -/
def FailsSilent (y : EncoderState) (v : Sense) : Prop := 512 ≤ (y.silence + v.value).natAbs ∧ y.health = .ok

/-- The ODU after the silence counts at a count of an encoder, before a switch-over or a loss (R16). -/
def silencedOdu (o : Odu) (e : Encoder) (v : Sense) : Odu :=
  (o.setEnc e { o.enc e with silence := 0 }).setEnc (encoderOther e) (silenced (o.enc (encoderOther e)) v)

theorem silencedOdu_own (o : Odu) (e : Encoder) (v : Sense) : (silencedOdu o e v).enc e = { o.enc e with silence := 0 } := by
  rw [silencedOdu, Odu.enc_setEnc_of_ne _ _ (encoderOther_ne e).symm, Odu.enc_setEnc]

theorem silencedOdu_other (o : Odu) (e : Encoder) (v : Sense) :
    (silencedOdu o e v).enc (encoderOther e) = silenced (o.enc (encoderOther e)) v := by
  rw [silencedOdu, Odu.enc_setEnc]

theorem silenceAtCount_of_drives {s : State} {e : Encoder} {v : Sense} (hfails : FailsSilent (s.odu.enc (encoderOther e)) v)
    (hdrives : Drives s.odu (encoderOther e)) :
    s.silenceAtCount e v = State.activeFailed { s with odu := silencedOdu s.odu e v } := by
  obtain ⟨hloud, hok⟩ := hfails
  simp only [State.silenceAtCount, Odu.enc_setEnc_of_ne _ _ (encoderOther_ne e)]
  rw [if_neg (by omega)]
  simp only [hok, failEncoder_eq]
  rw [if_pos (by simpa [Drives] using hdrives), silencedOdu, silenced, if_neg (by omega)]
  simp only [hok, Odu.enc_setEnc, Odu.setEnc_setEnc]

theorem silenceAtCount_of_not {s : State} {e : Encoder} {v : Sense}
    (h : ¬(FailsSilent (s.odu.enc (encoderOther e)) v ∧ Drives s.odu (encoderOther e))) :
    s.silenceAtCount e v = { s with odu := silencedOdu s.odu e v } := by
  simp only [State.silenceAtCount, Odu.enc_setEnc_of_ne _ _ (encoderOther_ne e), silencedOdu, silenced]
  by_cases hloud : ((s.odu.enc (encoderOther e)).silence + v.value).natAbs < 512
  · simp only [if_pos hloud]
  · simp only [if_neg hloud]
    cases hhealth : (s.odu.enc (encoderOther e)).health
    · simp only [failEncoder_eq]
      rw [if_neg]
      · simp only [Odu.enc_setEnc, Odu.setEnc_setEnc]
      · simp only [Drives, Odu.setEnc_view, Odu.setEnc_active]
        exact fun hdrives => h ⟨⟨by omega, hhealth⟩, hdrives⟩
    · rfl

/-! ### The supervision of a count as a whole -/

theorem indexAtCount_enc (s : State) (e : Encoder) (v : Sense) (i : Encoder) :
    (s.indexAtCount e v).odu.enc i = (s.odu.setEnc e (indexed (s.odu.enc e) v)).enc i := by
  by_cases h : FailsAtIndex (s.odu.enc e) v ∧ Drives s.odu e
  · rw [indexAtCount_of_drives h.1 h.2, activeFailed_enc]
  · rw [indexAtCount_of_not h]

theorem silenceAtCount_enc (s : State) (e : Encoder) (v : Sense) (i : Encoder) :
    (s.silenceAtCount e v).odu.enc i = (silencedOdu s.odu e v).enc i := by
  by_cases h : FailsSilent (s.odu.enc (encoderOther e)) v ∧ Drives s.odu (encoderOther e)
  · rw [silenceAtCount_of_drives h.1 h.2, activeFailed_enc]
  · rw [silenceAtCount_of_not h]

/-- Both supervisions of a count of encoder e (R14, R16). -/
def superviseCount (u : State) (e : Encoder) (v : Sense) : State := (u.indexAtCount e v).silenceAtCount e v

theorem superviseCount_own (u : State) (e : Encoder) (v : Sense) :
    (superviseCount u e v).odu.enc e = { indexed (u.odu.enc e) v with silence := 0 } := by
  rw [superviseCount, silenceAtCount_enc, silencedOdu_own, indexAtCount_enc, Odu.enc_setEnc]

theorem superviseCount_other (u : State) (e : Encoder) (v : Sense) :
    (superviseCount u e v).odu.enc (encoderOther e) = silenced (u.odu.enc (encoderOther e)) v := by
  rw [superviseCount, silenceAtCount_enc, silencedOdu_other, indexAtCount_enc, Odu.enc_setEnc_of_ne _ _ (encoderOther_ne e)]

theorem forall_encoder {e : Encoder} {P : Encoder → Prop} (hown : P e) (hother : P (encoderOther e)) (i : Encoder) : P i := by
  by_cases h : i = e
  · rwa [h]
  · have : i = encoderOther e := by cases i <;> cases e <;> first | rfl | exact absurd rfl h
    rwa [this]

theorem superviseCount_distance (u : State) (e : Encoder) (v : Sense) (i : Encoder) :
    ((superviseCount u e v).odu.enc i).eventDistance = (u.odu.enc i).eventDistance := by
  refine forall_encoder (e := e) (P := fun i => ((superviseCount u e v).odu.enc i).eventDistance = (u.odu.enc i).eventDistance)
    ?_ ?_ i
  · rw [superviseCount_own]; exact (indexed_wheel (u.odu.enc e) v).distance
  · rw [superviseCount_other]; exact silenced_distance _ v

/-- What supervision leaves of the ODU and of the hand-overs, and what it reports. -/
structure Supervised (u t : State) (reports : List RcuMessage) : Prop where
  odu : t.odu = { u.odu with e1 := t.odu.e1, e2 := t.odu.e2, active := t.odu.active, epoch := t.odu.epoch,
                             encSwitch := t.odu.encSwitch, view := t.odu.view, speed := t.odu.speed }
  bus : t.bus = { u.bus with toRcu := u.bus.toRcu ++ reports }
  distance : ∀ e, (t.odu.enc e).eventDistance = (u.odu.enc e).eventDistance
  known : reports = [] ∨ reports = [.lost]
  speed : reports = [] → t.odu.speed = u.odu.speed
  switch : t.odu.active = u.odu.active → u.odu.encSwitch = false → t.odu.encSwitch = false

theorem supervised_of_eq {u t w : State} {reports : List RcuMessage} (h : t = w) (hw : Supervised u w reports) :
    Supervised u t reports := h ▸ hw

/-- The index check has done nothing but to its encoder. -/
theorem supervised_of_index_kept {u : State} {e : Encoder} {v : Sense}
    (hindex : u.indexAtCount e v = { u with odu := u.odu.setEnc e (indexed (u.odu.enc e) v) }) :
    ∃ reports, Supervised u (superviseCount u e v) reports := by
  have hdistance := superviseCount_distance u e v
  by_cases hsilent : FailsSilent (u.odu.enc (encoderOther e)) v ∧ Drives u.odu (encoderOther e)
  · have heq : superviseCount u e v =
        State.activeFailed { u with odu := silencedOdu (u.odu.setEnc e (indexed (u.odu.enc e) v)) e v } := by
      rw [superviseCount, hindex]
      refine silenceAtCount_of_drives ?_ ?_
      · simpa [Odu.enc_setEnc_of_ne _ _ (encoderOther_ne e)] using hsilent.1
      · simpa [Drives] using hsilent.2
    rw [heq] at hdistance ⊢
    cases hhealth : ((silencedOdu (u.odu.setEnc e (indexed (u.odu.enc e) v)) e v).enc
      (encoderOther (silencedOdu (u.odu.setEnc e (indexed (u.odu.enc e) v)) e v).active)).health
    · rw [activeFailed_ok hhealth] at hdistance ⊢
      refine ⟨[], ⟨by cases e <;> rfl, by simp, hdistance, .inl rfl, fun _ => by cases e <;> rfl, fun h => ?_⟩⟩
      have hactive : (silencedOdu (u.odu.setEnc e (indexed (u.odu.enc e) v)) e v).active = u.odu.active := by cases e <;> rfl
      simp only [hactive] at h
      exact absurd h (encoderOther_ne _)
    · rw [activeFailed_failed hhealth] at hdistance ⊢
      exact ⟨[.lost], ⟨by cases e <;> rfl, rfl, hdistance, .inr rfl, fun h => (by cases h), fun _ _ => rfl⟩⟩
  · have heq : superviseCount u e v = { u with odu := silencedOdu (u.odu.setEnc e (indexed (u.odu.enc e) v)) e v } := by
      rw [superviseCount, hindex]
      refine silenceAtCount_of_not ?_
      simpa [Odu.enc_setEnc_of_ne _ _ (encoderOther_ne e), Drives] using hsilent
    rw [heq] at hdistance ⊢
    exact ⟨[], ⟨by cases e <;> rfl, by simp, hdistance, .inl rfl, fun _ => by cases e <;> rfl, fun _ h => by cases e <;> exact h⟩⟩

/-- The ODU when the index check at a count has made its active encoder e FAILED and the other one takes over (R18). -/
def switchedOver (o : Odu) (e : Encoder) (v : Sense) : Odu :=
  { o.setEnc e (indexed (o.enc e) v) with active := encoderOther e, epoch := o.epoch + 1, encSwitch := true }

/-- The ODU when the index check at a count has made its active encoder e FAILED and odometry is lost (R18). -/
def lostAtIndex (o : Odu) (e : Encoder) (v : Sense) : Odu :=
  { o.setEnc e (indexed (o.enc e) v) with view := .suspended, speed := 0, encSwitch := false }

theorem indexAtCount_switches {u : State} {e : Encoder} {v : Sense} (hfails : FailsAtIndex (u.odu.enc e) v)
    (hdrives : Drives u.odu e) (hother : (u.odu.enc (encoderOther e)).health = .ok) :
    u.indexAtCount e v = { u with odu := switchedOver u.odu e v } := by
  rw [indexAtCount_of_drives hfails hdrives, activeFailed_ok]
  · simp only [Odu.setEnc_active, Odu.setEnc_epoch, hdrives.2]; rfl
  · simpa [hdrives.2, Odu.enc_setEnc_of_ne _ _ (encoderOther_ne e)] using hother

theorem indexAtCount_loses {u : State} {e : Encoder} {v : Sense} (hfails : FailsAtIndex (u.odu.enc e) v)
    (hdrives : Drives u.odu e) (hother : (u.odu.enc (encoderOther e)).health = .failed) :
    u.indexAtCount e v = { u with
      odu := lostAtIndex u.odu e v, bus := { u.bus with toRcu := u.bus.toRcu ++ [.lost] } } := by
  rw [indexAtCount_of_drives hfails hdrives, activeFailed_failed]
  · rfl
  · simpa [hdrives.2, Odu.enc_setEnc_of_ne _ _ (encoderOther_ne e)] using hother

/-- The index check has made the active encoder FAILED in RUNNING: a silence of the other one then leaves none (R18). -/
theorem supervised_of_index_failed {u : State} {e : Encoder} {v : Sense} (hfails : FailsAtIndex (u.odu.enc e) v)
    (hdrives : Drives u.odu e) : ∃ reports, Supervised u (superviseCount u e v) reports := by
  have hdistance := superviseCount_distance u e v
  have hne := encoderOther_ne e
  cases hhealth : (u.odu.enc (encoderOther e)).health
  · have hindex := indexAtCount_switches hfails hdrives hhealth
    by_cases hsilent : FailsSilent (u.odu.enc (encoderOther e)) v
    · have hagain : FailsSilent ((switchedOver u.odu e v).enc (encoderOther e)) v := by
        have hsame := Odu.enc_setEnc_of_ne u.odu (indexed (u.odu.enc e) v) hne
        unfold switchedOver; rw [← hsame] at hsilent; exact hsilent
      have hlast : ((silencedOdu (switchedOver u.odu e v) e v).enc
          (encoderOther (silencedOdu (switchedOver u.odu e v) e v).active)).health = .failed := by
        have hown : (silencedOdu (switchedOver u.odu e v) e v).active = encoderOther e := by cases e <;> rfl
        rw [hown, encoderOther_other, silencedOdu_own]
        have hindexed : (switchedOver u.odu e v).enc e = indexed (u.odu.enc e) v := Odu.enc_setEnc u.odu e _
        rw [hindexed]
        exact failsAtIndex_failed hfails
      have heq : superviseCount u e v = { u with
          odu := { silencedOdu (switchedOver u.odu e v) e v with view := .suspended, speed := 0, encSwitch := false },
          bus := { u.bus with toRcu := u.bus.toRcu ++ [.lost] } } := by
        rw [superviseCount, hindex, silenceAtCount_of_drives hagain ⟨by cases e <;> exact hdrives.1, rfl⟩,
          activeFailed_failed hlast]
      rw [heq] at hdistance ⊢
      exact ⟨[.lost], ⟨by cases e <;> rfl, rfl, hdistance, .inr rfl, fun h => (by cases h), fun _ _ => rfl⟩⟩
    · have heq : superviseCount u e v = { u with odu := silencedOdu (switchedOver u.odu e v) e v } := by
        rw [superviseCount, hindex]
        refine silenceAtCount_of_not (fun h => hsilent ?_)
        have hsame := Odu.enc_setEnc_of_ne u.odu (indexed (u.odu.enc e) v) hne
        rw [← hsame]; exact h.1
      rw [heq] at hdistance ⊢
      refine ⟨[], ⟨by cases e <;> rfl, by simp, hdistance, .inl rfl, fun _ => by cases e <;> rfl, fun h => ?_⟩⟩
      have hactive : (silencedOdu (switchedOver u.odu e v) e v).active = encoderOther e := by cases e <;> rfl
      simp only [hactive, hdrives.2] at h
      exact absurd h hne
  · have heq : superviseCount u e v = { u with
        odu := silencedOdu (lostAtIndex u.odu e v) e v, bus := { u.bus with toRcu := u.bus.toRcu ++ [.lost] } } := by
      rw [superviseCount, indexAtCount_loses hfails hdrives hhealth]
      refine silenceAtCount_of_not (fun h => ?_)
      have hview := h.2.1
      cases hview
    rw [heq] at hdistance ⊢
    exact ⟨[.lost], ⟨by cases e <;> rfl, rfl, hdistance, .inr rfl, fun h => (by cases h), fun _ _ => by cases e <;> rfl⟩⟩

/-- The supervision of a count switches over or reports a loss, at most one of each (R13 to R18). -/
theorem superviseCount_supervised (u : State) (e : Encoder) (v : Sense) :
    ∃ reports, Supervised u (superviseCount u e v) reports := by
  by_cases hindex : FailsAtIndex (u.odu.enc e) v ∧ Drives u.odu e
  · exact supervised_of_index_failed hindex.1 hindex.2
  · exact supervised_of_index_kept (indexAtCount_of_not hindex)

end Sys2Proof.Proofs.Supervision
end

