-- ==== Sys2Proof/Proofs/Odometry.lean ====
section
/-! PROOFS. The counts, events, reversals, checks and notices of the ODU (R1 to R23), from the movement of the position and the
supervision. -/

namespace Sys2Proof.Proofs.Odometry

open Sys2Proof.Machine Sys2Proof.Safety Sys2Proof.Proofs.Movement Sys2Proof.Proofs.Supervision
open Sys2Proof.Proofs.ActiveEncoder (moved)

/-! ### What supervision leaves of an event, a reversal and a quiet count -/

theorem firesNext_supervised {s u t : State} {now : Nat} {slip : Prop} {reports : List RcuMessage} (h : Supervised u t reports)
    (hactive : u.odu.active = s.odu.active) (hu : FiresNext s u now slip []) : FiresNext s t now slip reports := by
  obtain ⟨hfrontier, hnext, hdir, hevdir, htick, hstand, hzero, hswitch, hdist, ev, hpru, hmtu, hslc, hrcu, hk, hd, hsw, hslip,
    hspeed, hspeed0, hspeedt⟩ := hu
  refine ⟨(congrArg Odu.frontier h.odu).trans hfrontier, (congrArg Odu.next h.odu).trans hnext,
    (congrArg Odu.direction h.odu).trans hdir, (congrArg Odu.eventDirection h.odu).trans hevdir,
    (congrArg Odu.eventTick h.odu).trans htick, (congrArg Odu.standstill h.odu).trans hstand,
    (congrArg Odu.zeroSpeedNext h.odu).trans hzero, fun ht => h.switch (ht.trans hactive.symm) (hswitch hactive),
    fun e => (h.distance e).trans (hdist e), ev, ?_, ?_, ?_, ?_, hk, hd, hsw, hslip,
    fun hr => (h.speed hr).trans (hspeed rfl), hspeed0, hspeedt⟩ <;> rw [h.bus]
  · exact hpru
  · exact hmtu
  · exact hslc
  · show u.bus.toRcu ++ reports = _; rw [hrcu, List.append_assoc]; rfl

theorem firesNothing_supervised {s u t : State} {reports : List RcuMessage} (h : Supervised u t reports)
    (hu : FiresNothing s u []) : FiresNothing s t reports := by
  obtain ⟨hfrontier, hnext, hdir, hevdir, htick, hstand, hzero, hpru, hmtu, hslc, hrcu⟩ := hu
  refine ⟨(congrArg Odu.frontier h.odu).trans hfrontier, (congrArg Odu.next h.odu).trans hnext,
    (congrArg Odu.direction h.odu).trans hdir, (congrArg Odu.eventDirection h.odu).trans hevdir,
    (congrArg Odu.eventTick h.odu).trans htick, (congrArg Odu.standstill h.odu).trans hstand,
    (congrArg Odu.zeroSpeedNext h.odu).trans hzero, ?_, ?_, ?_, ?_⟩ <;> rw [h.bus]
  · exact hpru
  · exact hmtu
  · exact hslc
  · show u.bus.toRcu ++ reports = _; rw [hrcu, List.append_nil]

theorem reversedAt_supervised {s u t : State} {p : Int} {reports : List RcuMessage} (h : Supervised u t reports)
    (hu : ReversedAt s u p []) : ReversedAt s t p reports := by
  obtain ⟨hdir, hextreme, evs, hpru, hempty, hwaiting, hmtu, hpassed, hnot⟩ := hu
  have hfrontier := congrArg Odu.frontier h.odu
  have hnext := congrArg Odu.next h.odu
  have hevdir := congrArg Odu.eventDirection h.odu
  have hzero := congrArg Odu.zeroSpeedNext h.odu
  have hrcu : t.bus.toRcu = u.bus.toRcu ++ reports := by rw [h.bus]
  refine ⟨(congrArg Odu.direction h.odu).trans hdir, (congrArg Odu.extreme h.odu).trans hextreme, evs, ?_, ?_, ?_, ?_, ?_, ?_⟩
  · rw [h.bus]; exact hpru
  · rw [h.bus]; exact hempty
  · rw [h.bus]; exact hwaiting
  · rw [h.bus]; exact hmtu
  · intro hp
    obtain ⟨h1, h2, h3, h4, ev, hev, hk, hd, hspeed, hto⟩ := hpassed hp
    exact ⟨hfrontier.trans h1, hnext.trans h2, hevdir.trans h3, hzero.trans h4, ev, hev, hk, hd, hspeed,
      by rw [hrcu, hto, List.append_assoc]; rfl⟩
  · intro hp
    obtain ⟨h1, h2, h3, h4, hto⟩ := hnot hp
    exact ⟨hfrontier.trans h1, hnext.trans h2, hzero.trans h3, h4, by rw [hrcu, hto, List.append_nil]⟩

/-! ### A count of a supervised run -/

/-- The encoder that makes a count, once decoder and event distance have taken it (R1, R17). -/
def countedEnc (x : EncoderState) (ch : QuadChannel) : EncoderState :=
  { turned x ch with eventDistance := x.eventDistance + countValue x ch }

/-- The part when a count has been decoded, before it moves the position. -/
def counted (s : State) (e : Encoder) (ch : QuadChannel) (ticks : Nat) : State :=
  { s with now := s.now + ticks, odu := s.odu.setEnc e (countedEnc (s.odu.enc e) ch) }

/-- The part when a count has moved the position, before it is supervised (R3). -/
def rolled (s : State) (e : Encoder) (ch : QuadChannel) (ticks : Nat) : State :=
  if Drives s.odu e then (counted s e ch ticks).moveBy (countValue (s.odu.enc e) ch * (s.odu.enc e).weight)
  else counted s e ch ticks

theorem turned_wheel (x : EncoderState) (ch : QuadChannel) : (turned x ch).weight = x.weight ∧
    (turned x ch).eventDistance = x.eventDistance ∧ (turned x ch).health = x.health := by
  cases ch <;> exact ⟨rfl, rfl, rfl⟩

/-- The sense the decoder gives a count. -/
def senseOf (x : EncoderState) (ch : QuadChannel) : Sense := (x.decode ch).2

theorem senseOf_value (x : EncoderState) (ch : QuadChannel) : (senseOf x ch).value = countValue x ch := decode_value x ch

theorem countValue_cases (x : EncoderState) (ch : QuadChannel) : countValue x ch = 1 ∨ countValue x ch = -1 := by
  rw [← senseOf_value]; exact value_cases _

theorem exec_encoderCount {s : State} (e : Encoder) (ch : QuadChannel) (ticks : Nat) (hsource : s.odu.source = .encoders)
    (hview : s.odu.view ≠ .standby) : exec (.encoderCount e ch ticks) s =
      .next (superviseCount (rolled s e ch ticks) e (senseOf (s.odu.enc e) ch)) := by
  obtain ⟨hweight, hdistance, -⟩ := turned_wheel (s.odu.enc e) ch
  have hsup : (s.odu.setEnc e (turned (s.odu.enc e) ch)).supervised = true :=
    (supervised_iff _).2 (by simpa using ⟨hsource, hview⟩)
  have hcounted : ({ s with
      now := s.now + ticks,
      odu := Odu.addDistance (s.odu.setEnc e (turned (s.odu.enc e) ch)) e (senseOf (s.odu.enc e) ch) } : State) =
      counted s e ch ticks := by
    simp only [counted, countedEnc, Odu.addDistance, Odu.setEnc_setEnc, Odu.enc_setEnc, hdistance, senseOf_value]
  have hw : ((Odu.addDistance (s.odu.setEnc e (turned (s.odu.enc e) ch)) e (senseOf (s.odu.enc e) ch)).enc e).weight =
      (s.odu.enc e).weight := by
    simp only [Odu.addDistance, Odu.enc_setEnc, hweight]
  simp only [exec, execEncoderCount, decode_levels, hsup, if_true, State.takeCount, Odu.setEnc_view, Odu.setEnc_active]
  rw [← senseOf, hcounted, hw, senseOf_value]
  rfl

theorem sameRun_counted (s : State) (e : Encoder) (ch : QuadChannel) (ticks : Nat) : SameRun s (counted s e ch ticks) :=
  ⟨by cases e <;> rfl, rfl⟩

theorem moveBy_enc (s : State) (du : Int) (i : Encoder) :
    (s.moveBy du).odu.enc i = { s.odu.enc i with eventDistance := ((s.moveBy du).odu.enc i).eventDistance } := by
  cases i
  · exact congrArg Odu.e1 (moveBy_odu s du)
  · exact congrArg Odu.e2 (moveBy_odu s du)

theorem rolled_enc (s : State) (e : Encoder) (ch : QuadChannel) (ticks : Nat) (i : Encoder) :
    (rolled s e ch ticks).odu.enc i =
      { (counted s e ch ticks).odu.enc i with eventDistance := ((rolled s e ch ticks).odu.enc i).eventDistance } := by
  unfold rolled
  split
  · exact moveBy_enc _ _ i
  · rfl

theorem rolled_own (s : State) (e : Encoder) (ch : QuadChannel) (ticks : Nat) : (rolled s e ch ticks).odu.enc e =
    { turned (s.odu.enc e) ch with eventDistance := ((rolled s e ch ticks).odu.enc e).eventDistance } := by
  rw [rolled_enc]; simp only [counted, Odu.enc_setEnc, countedEnc]

theorem rolled_other (s : State) (e : Encoder) (ch : QuadChannel) (ticks : Nat) :
    (rolled s e ch ticks).odu.enc (encoderOther e) = { s.odu.enc (encoderOther e) with
      eventDistance := ((rolled s e ch ticks).odu.enc (encoderOther e)).eventDistance } := by
  rw [rolled_enc]; rw [counted, Odu.enc_setEnc_of_ne _ _ (encoderOther_ne e)]

theorem rolled_frame (s : State) (e : Encoder) (ch : QuadChannel) (ticks : Nat) :
    OnlyOdu { s with now := s.now + ticks } (rolled s e ch ticks) := by
  unfold rolled
  split
  · exact OnlyOdu.over (State.moveBy_frame (counted s e ch ticks) _)
  · rfl

theorem superviseCount_frame (u : State) (e : Encoder) (v : Sense) : OnlyOdu u (superviseCount u e v) :=
  (State.indexAtCount_frame u e v).trans (State.silenceAtCount_frame _ e v)

/-- Two encoders that differ in what the decoder and the event distance hold. -/
theorem counted_of_turned {x z : EncoderState} {ch : QuadChannel} {d v : Int} (h : Counted { turned x ch with eventDistance := d } z v) :
    Counted x z v := by cases ch <;> exact h

theorem counted_rolled (s : State) (e : Encoder) (ch : QuadChannel) (ticks : Nat) : Counted (s.odu.enc e)
    ((superviseCount (rolled s e ch ticks) e (senseOf (s.odu.enc e) ch)).odu.enc e) (countValue (s.odu.enc e) ch) := by
  rw [superviseCount_own, rolled_own, ← senseOf_value]
  exact counted_of_turned (indexed_counted _ _)

theorem overheard_rolled (s : State) (e : Encoder) (ch : QuadChannel) (ticks : Nat) : Overheard (s.odu.enc (encoderOther e))
    ((superviseCount (rolled s e ch ticks) e (senseOf (s.odu.enc e) ch)).odu.enc (encoderOther e))
    (countValue (s.odu.enc e) ch) := by
  rw [superviseCount_other, rolled_other, ← senseOf_value]
  obtain ⟨hquiet, hloud⟩ := silenced_overheard { s.odu.enc (encoderOther e) with
    eventDistance := ((rolled s e ch ticks).odu.enc (encoderOther e)).eventDistance } (senseOf (s.odu.enc e) ch)
  exact ⟨fun h => hquiet h, fun h => hloud h⟩

theorem rolled_position {s : State} {e : Encoder} (ch : QuadChannel) (ticks : Nat) (hdrives : Drives s.odu e) :
    (rolled s e ch ticks).odu.position =
      toPosition (s.odu.position + countValue (s.odu.enc e) ch * (s.odu.enc e).weight) := by
  rw [rolled, if_pos hdrives, congrArg Odu.position (moveBy_odu _ _)]
  cases e <;> rfl

theorem rolled_bus (s : State) (e : Encoder) (ch : QuadChannel) (ticks : Nat) : (rolled s e ch ticks).bus = { s.bus with
    toPru := (rolled s e ch ticks).bus.toPru, toSlc := (rolled s e ch ticks).bus.toSlc,
    toMtu := (rolled s e ch ticks).bus.toMtu, toRcu := (rolled s e ch ticks).bus.toRcu,
    toAsu := (rolled s e ch ticks).bus.toAsu } := by
  unfold rolled
  split
  · exact moveBy_bus _ _
  · rfl

/-- Settles O4: by the movement of the position and the supervision of a count. -/
theorem countsMoveThePositionOnlyWhenActive : Obligations.CountsMoveThePositionOnlyWhenActive := by
  intro s e ch ticks hsource hview x y v p hlow hhigh
  obtain ⟨reports, hsup⟩ := superviseCount_supervised (rolled s e ch ticks) e (senseOf x ch)
  obtain ⟨hpower, hnow, hslc, hasu, hgcu, hpru, hexu, hmtu, hrcu, hrds, hcpc, hpending⟩ :=
    ((rolled_frame s e ch ticks).trans (superviseCount_frame _ e (senseOf x ch))).fields
  have hown := superviseCount_own (rolled s e ch ticks) e (senseOf x ch)
  have hwheel := indexed_wheel ((rolled s e ch ticks).odu.enc e) (senseOf x ch)
  refine ⟨_, exec_encoderCount e ch ticks hsource hview, hnow, ?_, ?_, counted_rolled s e ch ticks, overheard_rolled s e ch ticks,
    fun hdrives => ?_, fun hnot => ?_, ?_, hslc, hasu, hgcu, hpru, hexu, hmtu, hrcu, hrds, hcpc, hpower, hpending⟩
  · rw [hown]; exact hwheel.levelA.trans (by rw [rolled_own])
  · rw [hown]; exact hwheel.levelB.trans (by rw [rolled_own])
  · rw [congrArg Odu.position hsup.odu]
    exact (rolled_position ch ticks hdrives).trans (toPosition_of_range hlow hhigh)
  · have hrolled : rolled s e ch ticks = counted s e ch ticks := if_neg hnot
    have hsame := (sameRun_counted s e ch ticks).odu
    rw [hrolled] at hsup ⊢
    refine ⟨?_, ?_, ?_, ?_, ?_, by rw [hsup.bus]; rfl, ?_, ?_⟩
    · rw [congrArg Odu.position hsup.odu]; cases e <;> rfl
    · rw [congrArg Odu.frontier hsup.odu]; cases e <;> rfl
    · rw [congrArg Odu.next hsup.odu]; cases e <;> rfl
    · rw [congrArg Odu.direction hsup.odu]; cases e <;> rfl
    · rw [congrArg Odu.extreme hsup.odu]; cases e <;> rfl
    · rw [hsup.distance e]; simp only [counted, Odu.enc_setEnc, countedEnc]; rfl
    · rw [hsup.distance (encoderOther e)]; simp only [counted, Odu.enc_setEnc_of_ne _ _ (encoderOther_ne e)]; rfl
  · rw [hsup.bus, rolled_bus]

/-! ### A count of the active encoder in RUNNING -/

section
variable {s : State} {e : Encoder} (ch : QuadChannel) (ticks : Nat)

/-- The position of a count of encoder e. -/
def positionAfter (s : State) (e : Encoder) (ch : QuadChannel) : Int :=
  toPosition (s.odu.position + countValue (s.odu.enc e) ch * (s.odu.enc e).weight)

theorem counted_activeWeight (hsource : s.odu.source = .encoders) (hactive : s.odu.active = e) :
    (counted s e ch ticks).odu.activeWeight = (s.odu.enc e).weight := by
  have hw := (turned_wheel (s.odu.enc e) ch).1
  simp only [Odu.activeWeight, counted, Odu.setEnc_source, hsource, Odu.setEnc_active, hactive, Odu.enc_setEnc, countedEnc, hw]

/-- The distance of a count back from X, in the running direction. -/
def BackAt (s : State) (e : Encoder) (ch : QuadChannel) : Prop :=
  s.odu.direction.sign * positionAfter s e ch ≤
    s.odu.direction.sign * s.odu.extreme - s.odu.reversalDistance * (s.odu.enc e).weight

theorem rolled_reversedAt (hsource : s.odu.source = .encoders) (hdrives : Drives s.odu e)
    (hweight : 0 < (s.odu.reversalDistance : Int) * (s.odu.enc e).weight) (hback : BackAt s e ch) :
    ReversedAt s (rolled s e ch ticks) (positionAfter s e ch) [] := by
  rw [rolled, if_pos hdrives]
  have hw := counted_activeWeight ch ticks hsource hdrives.2
  have hrev := moveBy_reversedAt (s := counted s e ch ticks) (du := countValue (s.odu.enc e) ch * (s.odu.enc e).weight)
  rw [hw] at hrev
  simp only [counted, Odu.setEnc_direction, Odu.setEnc_position, Odu.setEnc_extreme, Odu.setEnc_reversalDistance] at hrev
  exact (sameRun_counted s e ch ticks).reversedAt (hrev hweight hback)

theorem rolled_forward (hsource : s.odu.source = .encoders) (hdrives : Drives s.odu e)
    (hweight : 0 < (s.odu.reversalDistance : Int) * (s.odu.enc e).weight) (hback : ¬BackAt s e ch) :
    (rolled s e ch ticks).odu.direction = s.odu.direction ∧ s.odu.direction.sign * (rolled s e ch ticks).odu.extreme =
      max (s.odu.direction.sign * s.odu.extreme) (s.odu.direction.sign * positionAfter s e ch) := by
  rw [rolled, if_pos hdrives]
  have hw := counted_activeWeight ch ticks hsource hdrives.2
  have hfwd := moveBy_forward (s := counted s e ch ticks) (du := countValue (s.odu.enc e) ch * (s.odu.enc e).weight)
  rw [hw] at hfwd
  simp only [counted, Odu.setEnc_direction, Odu.setEnc_position, Odu.setEnc_extreme, Odu.setEnc_reversalDistance] at hfwd
  exact hfwd hweight (not_le.1 hback)

theorem counted_advances (hweight : 0 < (s.odu.reversalDistance : Int) * (s.odu.enc e).weight) :
    (counted s e ch ticks).odu.advances (countValue (s.odu.enc e) ch * (s.odu.enc e).weight) = true ↔
      countValue (s.odu.enc e) ch = s.odu.direction.sign := by
  have hw : 0 < (s.odu.enc e).weight := Nat.pos_of_ne_zero (fun h => by simp [h] at hweight)
  have hadv := advances_iff (counted s e ch ticks).odu (countValue_cases (s.odu.enc e) ch) hw
  simpa only [counted, Odu.setEnc_direction] using hadv

theorem counted_reaches {p : Int} : Reaches (counted s e ch ticks).odu p ↔ Reaches s.odu p := by
  simp only [Reaches, counted, Odu.setEnc_direction, Odu.setEnc_next, Odu.setEnc_interval]

theorem rolled_firesNext (hsource : s.odu.source = .encoders) (hdrives : Drives s.odu e)
    (hweight : 0 < (s.odu.reversalDistance : Int) * (s.odu.enc e).weight) (hback : ¬BackAt s e ch)
    (hforward : countValue (s.odu.enc e) ch = s.odu.direction.sign) (hreaches : Reaches s.odu (positionAfter s e ch)) :
    FiresNext s (rolled s e ch ticks) (s.now + ticks) ((counted s e ch ticks).odu.slips = true) [] := by
  rw [rolled, if_pos hdrives]
  have hw := counted_activeWeight ch ticks hsource hdrives.2
  have hfires := moveBy_firesNext (s := counted s e ch ticks) (du := countValue (s.odu.enc e) ch * (s.odu.enc e).weight)
  rw [hw, counted_advances ch ticks hweight, counted_reaches] at hfires
  simp only [counted, Odu.setEnc_direction, Odu.setEnc_position, Odu.setEnc_extreme, Odu.setEnc_reversalDistance] at hfires
  exact (sameRun_counted s e ch ticks).firesNext (hfires hweight (not_le.1 hback) hforward hreaches)

theorem rolled_alone (hsource : s.odu.source = .encoders) (hdrives : Drives s.odu e)
    (hweight : 0 < (s.odu.reversalDistance : Int) * (s.odu.enc e).weight) (hback : ¬BackAt s e ch)
    (hnot : ¬(countValue (s.odu.enc e) ch = s.odu.direction.sign ∧ Reaches s.odu (positionAfter s e ch))) :
    rolled s e ch ticks = { counted s e ch ticks with
      odu := moved (counted s e ch ticks).odu (countValue (s.odu.enc e) ch * (s.odu.enc e).weight) } := by
  rw [rolled, if_pos hdrives]
  have hw := counted_activeWeight ch ticks hsource hdrives.2
  have halone := moveBy_alone (s := counted s e ch ticks) (du := countValue (s.odu.enc e) ch * (s.odu.enc e).weight)
  rw [hw, counted_advances ch ticks hweight, counted_reaches] at halone
  refine halone ?_ ?_ ?_
  · simpa only [counted, Odu.setEnc_reversalDistance] using hweight
  · simp only [counted, Odu.setEnc_direction, Odu.setEnc_position, Odu.setEnc_extreme, Odu.setEnc_reversalDistance]
    exact not_le.1 hback
  · simp only [counted, Odu.setEnc_position]
    exact hnot

/-- The SLIP flag of an event that a count fires (R17). -/
theorem counted_slips (hsource : s.odu.source = .encoders) (hdrives : Drives s.odu e) :
    (counted s e ch ticks).odu.slips = true ↔ (s.odu.enc e).health = .ok ∧ (s.odu.enc (encoderOther e)).health = .ok ∧
      (s.odu.slipTolerance : Int) * (((s.odu.enc e).eventDistance + countValue (s.odu.enc e) ch) * (s.odu.enc e).weight).natAbs <
        (((s.odu.enc e).eventDistance + countValue (s.odu.enc e) ch) * (s.odu.enc e).weight -
          (s.odu.enc (encoderOther e)).eventDistance * (s.odu.enc (encoderOther e)).weight).natAbs * 100 := by
  obtain ⟨hweight, -, hhealth⟩ := turned_wheel (s.odu.enc e) ch
  simp only [Odu.slips, counted, Odu.setEnc_view, Odu.setEnc_source, Odu.setEnc_active, Odu.setEnc_slipTolerance, hdrives.1, hdrives.2,
    hsource, Odu.enc_setEnc, Odu.enc_setEnc_of_ne _ _ (encoderOther_ne e), countedEnc, hweight, hhealth, beq_self_eq_true,
    Bool.true_and, Bool.and_eq_true, beq_iff_eq, decide_eq_true_eq, and_assoc]

theorem rolled_active : (rolled s e ch ticks).odu.active = s.odu.active := by
  unfold rolled
  split
  · rw [congrArg Odu.active (moveBy_odu _ _)]; exact (congrArg Odu.active (sameRun_counted s e ch ticks).odu :)
  · exact (congrArg Odu.active (sameRun_counted s e ch ticks).odu :)

end

theorem moved_enc (o : Odu) (du : Int) (e : Encoder) : (moved o du).enc e = o.enc e := by rw [moved_eq]; cases e <;> rfl

theorem counted_distance (s : State) (e : Encoder) (ch : QuadChannel) (ticks : Nat) :
    ((counted s e ch ticks).odu.enc e).eventDistance = (s.odu.enc e).eventDistance + countValue (s.odu.enc e) ch ∧
    ((counted s e ch ticks).odu.enc (encoderOther e)).eventDistance = (s.odu.enc (encoderOther e)).eventDistance := by
  rw [counted]
  exact ⟨by rw [Odu.enc_setEnc]; rfl, by rw [Odu.enc_setEnc_of_ne _ _ (encoderOther_ne e)]⟩

/-- Settles O5: by the movement of the position, and by what supervision leaves of it. -/
theorem aBoundaryFiresTheSampleEvent : Obligations.ABoundaryFiresTheSampleEvent := by
  intro s e ch ticks hsource hview hactive o x y v d p own oth reached hweight hfwd hlow hhigh
  have hdrives : Drives s.odu e := ⟨hview, hactive⟩
  have hp : positionAfter s e ch = p := toPosition_of_range hlow hhigh
  have hw : 0 < (s.odu.reversalDistance : Int) * (s.odu.enc e).weight := by exact_mod_cast hweight
  have hback : ¬BackAt s e ch := by rw [BackAt, hp, not_le]; exact sub_lt_iff_lt_add.2 hfwd
  obtain ⟨reports, hsup⟩ := superviseCount_supervised (rolled s e ch ticks) e (senseOf x ch)
  refine ⟨_, reports, exec_encoderCount e ch ticks hsource (by rw [hview]; decide), hsup.known, fun hreached => ?_, fun hnot => ?_⟩
  · have hfires := rolled_firesNext ch ticks hsource hdrives hw hback hreached.1 (by rw [hp]; exact hreached.2)
    rw [counted_slips ch ticks hsource hdrives] at hfires
    exact firesNext_supervised hsup (rolled_active ch ticks) hfires
  · have halone := rolled_alone ch ticks hsource hdrives hw hback (by rw [hp]; exact hnot)
    obtain ⟨hown, hother⟩ := counted_distance s e ch ticks
    rw [halone] at hsup ⊢
    refine ⟨firesNothing_supervised hsup ((sameRun_counted s e ch ticks).firesNothing (moved_firesNothing _ _)), ?_, ?_⟩
    · rw [hsup.distance, moved_enc, hown]
    · rw [hsup.distance, moved_enc, hother]

/-! ### A pace count -/

/-- The part when the count timer has expired, before the count moves the position (R11). -/
def paced (s : State) (tick : Nat) : State :=
  { s with now := max s.now tick, odu := { s.odu with paceTimer := some (max s.now tick + s.odu.paceInterval) } }

theorem exec_paceCount {s : State} {tick : Nat} (htimer : s.odu.paceTimer = some tick) (hview : s.odu.view = .running)
    (hsource : s.odu.source = .pace) (hrunning : s.odu.paceStopped = false) :
    exec .paceCount s = .next ((paced s tick).moveBy (s.odu.paceDirection.sign * s.odu.e1.weight)) := by
  simp only [exec, execPaceCount, htimer]
  rw [if_pos ⟨hview, hsource, hrunning⟩]
  rfl

theorem sameRun_paced (s : State) (tick : Nat) : SameRun s (paced s tick) := ⟨rfl, rfl⟩

/-- Settles O6: by the movement of the position, at a pace count and at a count of the active encoder. -/
theorem paceCountsMoveAndReverse : Obligations.PaceCountsMoveAndReverse := by
  refine ⟨?pace, ?count⟩
  case pace =>
    intro s tick htimer hview hsource hrunning o d back p reached hback hlow hhigh
    have hp : toPosition p = p := toPosition_of_range hlow hhigh
    have hw : (paced s tick).odu.activeWeight = s.odu.e1.weight := by
      show (match s.odu.source with | .pace => s.odu.e1.weight | _ => _) = _
      rw [hsource]
    have hweight : 0 < ((paced s tick).odu.reversalDistance : Int) * (paced s tick).odu.activeWeight := by rw [hw]; exact hback
    obtain ⟨hpower, hnow, hslc, hasu, hgcu, hpru, hexu, hmtu, hrcu, hrds, hcpc, hpending⟩ :=
      (State.moveBy_frame (paced s tick) (s.odu.paceDirection.sign * s.odu.e1.weight)).fields
    have hodu := moveBy_odu (paced s tick) (s.odu.paceDirection.sign * s.odu.e1.weight)
    have hsign : s.odu.paceDirection.sign = s.odu.direction.sign ↔ s.odu.paceDirection = s.odu.direction := by
      cases s.odu.paceDirection <;> cases s.odu.direction <;> decide
    have hadvances := advances_iff (paced s tick).odu (Direction.sign_eq s.odu.paceDirection)
      (Nat.pos_of_ne_zero (fun h => by simp [back, o, h] at hback) : 0 < s.odu.e1.weight)
    have hslips : ((paced s tick).odu.slips = true) = False := by simp [Odu.slips, paced, hsource]
    refine ⟨_, exec_paceCount htimer hview hsource hrunning, hnow, (congrArg Odu.position hodu).trans hp,
      (congrArg Odu.paceTimer hodu :), fun hturns => ?_, fun hforward => ?_, (congrArg (fun o : Odu => o.e1.weight) hodu :),
      (congrArg Odu.epoch hodu :), (congrArg Odu.active hodu :), moveBy_bus _ _, hslc, hasu, hgcu, hpru, hexu, hmtu, hrcu, hrds, hcpc,
      hpower, hpending⟩
    · have hrev := moveBy_reversedAt (du := s.odu.paceDirection.sign * s.odu.e1.weight) hweight
      rw [hw] at hrev
      rw [← hp] at hturns ⊢
      exact (sameRun_paced s tick).reversedAt (hrev hturns)
    · rw [← hp] at hforward
      have hfar : s.odu.direction.sign * s.odu.extreme - s.odu.reversalDistance * (paced s tick).odu.activeWeight <
          s.odu.direction.sign * toPosition p := by rw [hw]; exact hforward
      obtain ⟨hdir, hextreme⟩ := moveBy_forward (s := paced s tick) (du := s.odu.paceDirection.sign * s.odu.e1.weight) hweight hfar
      refine ⟨hdir, by rw [← hp]; exact hextreme, fun hreached => ?_, fun hnot => ?_⟩
      · have hfires := moveBy_firesNext (s := paced s tick) hweight hfar (hadvances.2 (hsign.2 hreached.1))
          (by show Reaches s.odu (toPosition p); rw [hp]; exact hreached.2)
        rw [hslips] at hfires
        exact (sameRun_paced s tick).firesNext hfires
      · have halone := moveBy_alone (s := paced s tick) hweight hfar (fun h => hnot
          ⟨hsign.1 (hadvances.1 h.1), by rw [← hp]; exact h.2⟩)
        rw [halone]
        refine ⟨(sameRun_paced s tick).firesNothing (moved_firesNothing (paced s tick) _), ?_, ?_⟩ <;> rw [moved_eq] <;> rfl
  case count =>
    intro s e ch ticks hsource hview hactive o x d back p hback hlow hhigh
    have hdrives : Drives s.odu e := ⟨hview, hactive⟩
    have hp : positionAfter s e ch = p := toPosition_of_range hlow hhigh
    obtain ⟨reports, hsup⟩ := superviseCount_supervised (rolled s e ch ticks) e (senseOf x ch)
    refine ⟨_, reports, exec_encoderCount e ch ticks hsource (by rw [hview]; decide), hsup.known, ?_, fun hturns => ?_,
      fun hforward => ?_⟩
    · exact (congrArg Odu.position hsup.odu).trans ((rolled_position ch ticks hdrives).trans hp)
    · rw [← hp] at hturns ⊢
      exact reversedAt_supervised hsup (rolled_reversedAt ch ticks hsource hdrives hback hturns)
    · rw [← hp] at hforward ⊢
      obtain ⟨hdir, hextreme⟩ := rolled_forward ch ticks hsource hdrives hback (not_le.2 hforward)
      exact ⟨(congrArg Odu.direction hsup.odu).trans hdir, by rw [congrArg Odu.extreme hsup.odu]; exact hextreme⟩

end Sys2Proof.Proofs.Odometry
end

