-- ==== Sys2Proof/Proofs/EncoderChecks.lean ====
section
/-! PROOFS. The checks of the encoders and what follows them: Z pulses, switch-over, loss and restoration, and the notices of the
ODU (R10, R13 to R20, R23). -/

namespace Sys2Proof.Proofs.EncoderChecks

open Sys2Proof.Machine Sys2Proof.Safety Sys2Proof.Proofs.Movement Sys2Proof.Proofs.Supervision Sys2Proof.Proofs.Odometry

/-! ### The Z pulse -/

/-- An encoder whose revolution a Z pulse begins anew (R14). -/
def zAligned (x : EncoderState) : EncoderState := { x with indexCount := 0, aligned := true }

/-- The index count at a Z pulse is off by more than 2 (R14). -/
abbrev Far (x : EncoderState) : Prop := 2 < ((x.indexCount : Int) - x.countsPerRev).natAbs

section
variable {s : State} {e : Encoder}

theorem zPulse_unaligned (h : s.odu.supervised = true) (hal : (s.odu.enc e).aligned = false) :
    exec (.zPulse e) s = .next { s with odu := s.odu.setEnc e (zAligned (s.odu.enc e)) } := by
  simp only [exec, execZPulse, h, hal, if_true, Bool.false_eq_true, if_false]; rfl

theorem zPulse_far (h : s.odu.supervised = true) (hal : (s.odu.enc e).aligned = true) (hfar : Far (s.odu.enc e)) :
    exec (.zPulse e) s = .next (State.mismatch { s with odu := s.odu.setEnc e (zAligned (s.odu.enc e)) } e) := by
  simp only [exec, execZPulse, h, hal, if_true, if_neg (not_le.2 hfar)]; rfl

theorem zPulse_near (h : s.odu.supervised = true) (hal : (s.odu.enc e).aligned = true) (hfar : ¬Far (s.odu.enc e)) :
    exec (.zPulse e) s = .next (State.goodCheck { s with odu := s.odu.setEnc e (zAligned (s.odu.enc e)) } e) := by
  simp only [exec, execZPulse, h, hal, if_true, if_pos (not_lt.1 hfar)]; rfl

/-- A far Z pulse that is not handled as a failure of the active encoder changes its encoder alone (R15). -/
theorem zPulse_struck (h : s.odu.supervised = true) (hal : (s.odu.enc e).aligned = true) (hfar : Far (s.odu.enc e))
    (hnot : ¬(ThirdStrike (s.odu.enc e) ∧ Drives s.odu e)) :
    exec (.zPulse e) s = .next { s with odu := s.odu.setEnc e (struck (zAligned (s.odu.enc e))) } := by
  rw [zPulse_far h hal hfar, mismatch_of_not]
  · simp only [Odu.setEnc_setEnc, Odu.enc_setEnc]
  · simp only [Drives, Odu.enc_setEnc, Odu.setEnc_view, Odu.setEnc_active]
    exact hnot

/-- The third strike of the active encoder in RUNNING by a Z pulse (R15, R18). -/
theorem zPulse_fails (h : s.odu.supervised = true) (hal : (s.odu.enc e).aligned = true) (hfar : Far (s.odu.enc e))
    (hthird : ThirdStrike (s.odu.enc e)) (hdrives : Drives s.odu e) : exec (.zPulse e) s =
      .next (State.activeFailed { s with odu := s.odu.setEnc e (failed (zAligned (s.odu.enc e))) }) := by
  rw [zPulse_far h hal hfar, mismatch_of_drives]
  · simp only [Odu.setEnc_setEnc, Odu.enc_setEnc]
    rw [struck_thirdStrike (show ThirdStrike (zAligned (s.odu.enc e)) from hthird)]
  · simp only [Odu.enc_setEnc]
    exact hthird
  · simpa only [Drives, Odu.setEnc_view, Odu.setEnc_active] using hdrives

/-- The eighth good check of a FAILED encoder (R15, R19, R20). -/
theorem zPulse_recovers (h : s.odu.supervised = true) (hal : (s.odu.enc e).aligned = true) (hfar : ¬Far (s.odu.enc e))
    (hhealth : (s.odu.enc e).health = .failed) (hchecks : (s.odu.enc e).goodChecks = 7) : exec (.zPulse e) s =
      .next (State.recoverEncoder { s with odu := s.odu.setEnc e (zAligned (s.odu.enc e)) } e) := by
  rw [zPulse_near h hal hfar]
  simp only [State.goodCheck, Odu.enc_setEnc, zAligned, hhealth, hchecks, Nat.reduceAdd, lt_irrefl, if_false]

end

/-- An encoder that has recovered (R15). -/
def recovered (x : EncoderState) : EncoderState := { x with health := .ok, strikes := 0, goodChecks := 0 }

theorem goodCheck_ok {s : State} {e : Encoder} (h : (s.odu.enc e).health = .ok) :
    s.goodCheck e = { s with odu := s.odu.setEnc e { s.odu.enc e with strikes := 0 } } := by
  simp only [State.goodCheck, h]

theorem goodCheck_failed {s : State} {e : Encoder} (h : (s.odu.enc e).health = .failed) (hchecks : (s.odu.enc e).goodChecks < 7) :
    s.goodCheck e = { s with odu := s.odu.setEnc e { s.odu.enc e with goodChecks := (s.odu.enc e).goodChecks + 1 } } := by
  simp only [State.goodCheck, h, if_pos (Nat.succ_lt_succ hchecks)]

theorem struck_ok {x : EncoderState} (h : x.health = .ok) (hstrikes : x.strikes < 2) :
    struck x = { x with strikes := x.strikes + 1 } := by
  simp only [struck, h, if_pos (Nat.succ_lt_succ hstrikes)]

theorem struck_failed {x : EncoderState} (h : x.health = .failed) : struck x = { x with goodChecks := 0 } := by
  simp only [struck, h]

/-- Settles O7: by the cases of a Z pulse. -/
theorem aZPulseChecksTheRevolution : Obligations.AZPulseChecksTheRevolution := by
  intro s e hsource hview x y far
  have hsup : s.odu.supervised = true := (supervised_iff _).2 ⟨hsource, hview⟩
  have hal : ({ s with odu := s.odu.setEnc e (zAligned x) } : State).odu.enc e = zAligned x := Odu.enc_setEnc _ _ _
  refine ⟨fun hal => zPulse_unaligned hsup hal, fun haligned hnear hok => ?_, fun haligned hfar hok hstrikes => ?_,
    fun haligned hnear hfailed hchecks => ?_, fun haligned hfar hfailed => ?_⟩
  · rw [zPulse_near hsup haligned hnear, goodCheck_ok (by rw [hal]; exact hok), hal, Odu.setEnc_setEnc]; rfl
  · rw [zPulse_struck hsup haligned hfar (fun h => absurd h.1.2 (not_le.2 hstrikes)), struck_ok (x := zAligned (s.odu.enc e)) hok hstrikes]; rfl
  · rw [zPulse_near hsup haligned hnear, goodCheck_failed (by rw [hal]; exact hfailed) (by rw [hal]; exact hchecks), hal,
      Odu.setEnc_setEnc]; rfl
  · rw [zPulse_struck hsup haligned hfar (fun h => absurd (hfailed.symm.trans h.1.1) (by decide)),
      struck_failed (x := zAligned (s.odu.enc e)) hfailed]; rfl

/-! ### Switch-over, loss and restoration -/

/-- What R18 says of the ODU depends on the active encoder and the epoch before, and on five fields after. -/
theorem switchedOrLost_of_same {o o' p p' : Odu} {h : Health} (ho : o'.active = o.active ∧ o'.epoch = o.epoch)
    (hp : p'.active = p.active ∧ p'.epoch = p.epoch ∧ p'.encSwitch = p.encSwitch ∧ p'.view = p.view ∧ p'.speed = p.speed)
    (hs : SwitchedOrLost o p h) : SwitchedOrLost o' p' h := by
  obtain ⟨hactive, hepoch⟩ := ho
  obtain ⟨h1, h2, h3, h4, h5⟩ := hp
  unfold SwitchedOrLost
  rw [h1, h2, h3, h4, h5, hactive, hepoch]
  exact hs

theorem silencedOdu_same (o : Odu) (e : Encoder) (v : Sense) : (silencedOdu o e v).active = o.active ∧
    (silencedOdu o e v).epoch = o.epoch ∧ (silencedOdu o e v).encSwitch = o.encSwitch ∧ (silencedOdu o e v).view = o.view ∧
    (silencedOdu o e v).speed = o.speed := by
  cases e <;> exact ⟨rfl, rfl, rfl, rfl, rfl⟩

theorem fireIfReached_toRcu (s : State) :
    ∃ evs : List SampleEvent, s.fireIfReached.bus.toRcu = s.bus.toRcu ++ evs.map RcuMessage.event := by
  rcases fireIfReached_cases s with ⟨-, heq⟩ | ⟨-, heq⟩ <;> rw [heq]
  · exact ⟨[s.odu.eventNow s.now], rfl⟩
  · exact ⟨[], (List.append_nil _).symm⟩

/-- A move hands sample events to the RCU, and nothing else. -/
theorem moveBy_toRcu (s : State) (du : Int) :
    ∃ evs : List SampleEvent, (s.moveBy du).bus.toRcu = s.bus.toRcu ++ evs.map RcuMessage.event := by
  rcases ActiveEncoder.moveBy_cases s du with ⟨-, heq⟩ | ⟨-, -, -, heq⟩ | ⟨-, -, heq⟩ <;> rw [heq]
  · rw [declareReversal_eq]; exact fireIfReached_toRcu (turnedBack { s with odu := ActiveEncoder.moved s.odu du })
  · exact ⟨[(ActiveEncoder.moved s.odu du).eventNow s.now], rfl⟩
  · exact ⟨[], (List.append_nil _).symm⟩

theorem rolled_toRcu (s : State) (e : Encoder) (ch : QuadChannel) (ticks : Nat) :
    ∃ evs : List SampleEvent, (rolled s e ch ticks).bus.toRcu = s.bus.toRcu ++ evs.map RcuMessage.event := by
  unfold rolled
  split
  · exact moveBy_toRcu (counted s e ch ticks) _
  · exact ⟨[], (List.append_nil _).symm⟩

theorem rolled_run (s : State) (e : Encoder) (ch : QuadChannel) (ticks : Nat) : (rolled s e ch ticks).odu.view = s.odu.view ∧
    (rolled s e ch ticks).odu.active = s.odu.active ∧ (rolled s e ch ticks).odu.epoch = s.odu.epoch := by
  have hcounted := (sameRun_counted s e ch ticks).odu
  unfold rolled
  split
  · have hodu := moveBy_odu (counted s e ch ticks) (countValue (s.odu.enc e) ch * (s.odu.enc e).weight)
    exact ⟨(congrArg Odu.view hodu).trans (congrArg Odu.view hcounted :),
      (congrArg Odu.active hodu).trans (congrArg Odu.active hcounted :),
      (congrArg Odu.epoch hodu).trans (congrArg Odu.epoch hcounted :)⟩
  · exact ⟨(congrArg Odu.view hcounted :), (congrArg Odu.active hcounted :), (congrArg Odu.epoch hcounted :)⟩

/-- The third strike of the active encoder by the index check at a count (R14, R18; log entry 5). -/
theorem superviseCount_index {u : State} {e : Encoder} {v : Sense} (hdrives : Drives u.odu e) (hfails : FailsAtIndex (u.odu.enc e) v)
    (hquiet : ¬FailsSilent (u.odu.enc (encoderOther e)) v) : ((superviseCount u e v).odu.enc e).health = .failed ∧
      SwitchedOrLost u.odu (superviseCount u e v).odu (u.odu.enc (encoderOther e)).health ∧
      (superviseCount u e v).bus = { u.bus with toRcu := u.bus.toRcu ++ (match (u.odu.enc (encoderOther e)).health with
        | .ok => []
        | .failed => [RcuMessage.lost]) } := by
  have hother := Odu.enc_setEnc_of_ne u.odu (indexed (u.odu.enc e) v) (encoderOther_ne e)
  have hstruck : (({ u with odu := u.odu.setEnc e (indexed (u.odu.enc e) v) } : State).odu.enc (encoderOther
      ({ u with odu := u.odu.setEnc e (indexed (u.odu.enc e) v) } : State).odu.active)).health =
      (u.odu.enc (encoderOther e)).health := by
    rw [show ({ u with odu := u.odu.setEnc e (indexed (u.odu.enc e) v) } : State).odu.active = e by simpa using hdrives.2]
    exact congrArg EncoderState.health hother
  have hswitch := activeFailed_switchedOrLost { u with odu := u.odu.setEnc e (indexed (u.odu.enc e) v) } (by simpa using hdrives.1)
  have hbus := activeFailed_bus { u with odu := u.odu.setEnc e (indexed (u.odu.enc e) v) }
  rw [hstruck] at hswitch hbus
  have hstill : ¬FailsSilent ((u.indexAtCount e v).odu.enc (encoderOther e)) v := by rwa [indexAtCount_enc, hother]
  have heq : superviseCount u e v = { u.indexAtCount e v with odu := silencedOdu (u.indexAtCount e v).odu e v } :=
    silenceAtCount_of_not (fun h => hstill h.1)
  have hown := superviseCount_own u e v
  rw [heq] at hown ⊢
  rw [hown, indexAtCount_of_drives hfails hdrives]
  exact ⟨failsAtIndex_failed hfails, switchedOrLost_of_same ⟨by simp, by simp⟩ (silencedOdu_same _ e v) hswitch, hbus⟩

/-- The part after the supervision of a count, before a switch-over or a loss by the silence of the other encoder. -/
def hushed (u : State) (e : Encoder) (v : Sense) : State :=
  { u with odu := silencedOdu (u.odu.setEnc e (indexed (u.odu.enc e) v)) e v }

theorem silenced_failed {y : EncoderState} {v : Sense} (h : FailsSilent y v) : (silenced y v).health = .failed := by
  rw [silenced, if_neg (not_lt.2 h.1)]
  simp only [h.2]
  rfl

/-- The silence of the active encoder at a count of the other one (R16, R18; log entry 5). -/
theorem superviseCount_silence {u : State} {e : Encoder} {v : Sense} (hdrives : Drives u.odu (encoderOther e))
    (hsilent : FailsSilent (u.odu.enc (encoderOther e)) v) : ((superviseCount u e v).odu.enc (encoderOther e)).health = .failed ∧
      SwitchedOrLost u.odu (superviseCount u e v).odu ((superviseCount u e v).odu.enc e).health ∧
      (superviseCount u e v).odu.position = u.odu.position ∧
      (superviseCount u e v).bus = { u.bus with toRcu := u.bus.toRcu ++ (match ((superviseCount u e v).odu.enc e).health with
        | .ok => []
        | .failed => [RcuMessage.lost]) } := by
  have hne := encoderOther_ne e
  have hindex : u.indexAtCount e v = { u with odu := u.odu.setEnc e (indexed (u.odu.enc e) v) } :=
    indexAtCount_of_not (fun h => hne (hdrives.2.symm.trans h.2.2))
  have hsame := silencedOdu_same (u.odu.setEnc e (indexed (u.odu.enc e) v)) e v
  simp only [Odu.setEnc_active, Odu.setEnc_epoch, Odu.setEnc_view] at hsame
  obtain ⟨hactive, hepoch, -, hview, -⟩ := hsame
  have hfailed := silenced_failed hsilent
  rw [← superviseCount_other u e v] at hfailed
  have heq : superviseCount u e v = (hushed u e v).activeFailed := by
    rw [superviseCount, hindex]
    refine silenceAtCount_of_drives ?_ ?_
    · rwa [Odu.enc_setEnc_of_ne _ _ hne]
    · simpa [Drives] using hdrives
  have hown : ((hushed u e v).odu.enc (encoderOther (hushed u e v).odu.active)).health =
      ((superviseCount u e v).odu.enc e).health := by
    rw [heq, activeFailed_enc, show (hushed u e v).odu.active = encoderOther e from hactive.trans hdrives.2, encoderOther_other]
  have hswitch := activeFailed_switchedOrLost (hushed u e v) (hview.trans hdrives.1)
  have hbus := activeFailed_bus (hushed u e v)
  rw [hown] at hswitch hbus
  refine ⟨hfailed, ?_, ?_, ?_⟩
  · exact switchedOrLost_of_same ⟨hactive.symm, hepoch.symm⟩ (by rw [heq]; exact ⟨rfl, rfl, rfl, rfl, rfl⟩) hswitch
  · rw [heq, congrArg Odu.position (activeFailed_odu _)]; cases e <;> rfl
  · exact (congrArg State.bus heq).trans hbus

/-- The ODU after the eighth good check of an encoder in SUSPENDED (R19). -/
def restoredOdu (o : Odu) (e : Encoder) : Odu :=
  { Odu.setEnc o e (recovered (o.enc e)) with
    active := e, epoch := o.epoch + 1, extreme := o.position, zeroSpeedNext := true, resuming := true,
    e1 := { (o.setEnc e (recovered (o.enc e))).e1 with eventDistance := 0 },
    e2 := { (o.setEnc e (recovered (o.enc e))).e2 with eventDistance := 0 } }

theorem recoverEncoder_suspended {s : State} {e : Encoder} (hview : s.odu.view = .suspended) (hresuming : s.odu.resuming = false) :
    s.recoverEncoder e =
      { s with odu := restoredOdu s.odu e, bus := { s.bus with toRcu := s.bus.toRcu ++ [.restored] } } := by
  simp only [State.recoverEncoder, Odu.setEnc_view, Odu.setEnc_resuming]
  rw [if_pos ⟨hview, hresuming⟩]
  cases e <;> rfl

theorem recoverEncoder_otherwise {s : State} {e : Encoder} (h : ¬(s.odu.view = .suspended ∧ s.odu.resuming = false)) :
    s.recoverEncoder e = { s with odu := s.odu.setEnc e (recovered (s.odu.enc e)) } := by
  simp only [State.recoverEncoder, Odu.setEnc_view, Odu.setEnc_resuming]
  rw [if_neg h]
  rfl

theorem restoredOdu_enc (o : Odu) (e : Encoder) :
    (restoredOdu o e).enc e = { recovered (o.enc e) with eventDistance := 0 } := by cases e <;> rfl

/-- Settles O8: by the third strike and the eighth good check of a Z pulse, and by the two checks of a count. -/
theorem supervisionSwitchesSuspendsAndRestores : Obligations.SupervisionSwitchesSuspendsAndRestores := by
  refine ⟨?pulse, ?count⟩
  case pulse =>
    intro s e hsource o x other far hal
    have hsup : o.view ≠ .standby → s.odu.supervised = true := fun hview => (supervised_iff _).2 ⟨hsource, hview⟩
    refine ⟨fun hfar hok hstrikes hview hactive => ?_, fun hfar hok hstrikes hview hnot => ?_,
      fun hnear hfailed hchecks hview hresuming => ?_, fun hnear hfailed hchecks hview => ?_⟩
    · have hother : ((s.odu.setEnc e (failed (zAligned x))).enc (encoderOther (s.odu.setEnc e (failed (zAligned x))).active)) =
          s.odu.enc other := by
        rw [Odu.setEnc_active, show s.odu.active = e from hactive, Odu.enc_setEnc_of_ne _ _ (encoderOther_ne e)]
      refine ⟨_, zPulse_fails (hsup (by rw [hview]; decide)) hal hfar ⟨hok, hstrikes.ge⟩ ⟨hview, hactive⟩, ?_, ?_, ?_, ?_, ?_, ?_, ?_,
        fun hgood => ?_, fun hbad => ?_⟩
      · rw [activeFailed_enc, Odu.enc_setEnc]; rfl
      · rw [activeFailed_enc, Odu.enc_setEnc]; rfl
      · rw [activeFailed_enc, Odu.enc_setEnc]; rfl
      · rw [congrArg Odu.position (activeFailed_odu _)]; exact Odu.setEnc_position _ _ _
      · rw [congrArg Odu.frontier (activeFailed_odu _)]; exact Odu.setEnc_frontier _ _ _
      · rw [congrArg Odu.direction (activeFailed_odu _)]; exact Odu.setEnc_direction _ _ _
      · rw [congrArg Odu.extreme (activeFailed_odu _)]; exact Odu.setEnc_extreme _ _ _
      · rw [activeFailed_ok ((congrArg EncoderState.health hother).trans hgood)]
        simp only [Odu.setEnc_active, Odu.setEnc_epoch, Odu.setEnc_view]
        exact ⟨congrArg encoderOther hactive, rfl, trivial, hview, trivial⟩
      · rw [activeFailed_failed ((congrArg EncoderState.health hother).trans hbad)]
        exact ⟨(Odu.setEnc_active _ _ _).trans hactive, rfl, rfl, rfl, rfl⟩
    · rw [zPulse_struck (hsup hview) hal hfar (fun h => hnot h.2),
        struck_thirdStrike (x := zAligned (s.odu.enc e)) ⟨hok, hstrikes.ge⟩]
      rfl
    · have hsame : ({ s with odu := s.odu.setEnc e (zAligned x) } : State).odu.view = .suspended ∧
          ({ s with odu := s.odu.setEnc e (zAligned x) } : State).odu.resuming = false := by simpa using ⟨hview, hresuming⟩
      refine ⟨_, zPulse_recovers (hsup (by rw [hview]; decide)) hal hnear hfailed hchecks, ?_⟩
      rw [recoverEncoder_suspended hsame.1 hsame.2]
      refine ⟨?_, ?_, ?_, rfl, ?_, ?_, ?_, ?_, ?_, ?_, ?_, rfl, rfl, rfl, rfl, rfl⟩
      · rw [restoredOdu_enc]; rfl
      · rw [restoredOdu_enc]; rfl
      · rw [restoredOdu_enc]; rfl
      all_goals cases e <;> first | rfl | exact hview
    · have hnot : ¬(({ s with odu := s.odu.setEnc e (zAligned x) } : State).odu.view = .suspended ∧
          ({ s with odu := s.odu.setEnc e (zAligned x) } : State).odu.resuming = false) := by
        simp only [Odu.setEnc_view, Odu.setEnc_resuming]
        rintro ⟨hs, hr⟩
        rcases hview with hv | ⟨-, hv⟩
        · exact absurd (hs.symm.trans hv) (by decide)
        · exact absurd (hr.symm.trans hv) (by decide)
      have hsup' := hsup (by rcases hview with hv | ⟨hv, -⟩ <;> rw [hv] <;> decide)
      rw [zPulse_recovers hsup' hal hnear hfailed hchecks, recoverEncoder_otherwise hnot]
      simp only [Odu.enc_setEnc, Odu.setEnc_setEnc]
      rfl
  case count =>
    intro s e ch ticks hsource hview o x other y v
    have hnotstandby : s.odu.view ≠ .standby := by rw [hview]; decide
    obtain ⟨hrview, hractive, hrepoch⟩ := rolled_run s e ch ticks
    have hsense : (senseOf x ch).value = v := senseOf_value x ch
    refine ⟨fun q hactive hok hstrikes hprev hq hindex hquiet => ?_, fun hactive hok hloud => ?_⟩
    · obtain ⟨evs, hevs⟩ := rolled_toRcu s e ch ticks
      have hqs : q = senseOf x ch := value_inj.1 (hq.trans hsense.symm)
      have hfails : FailsAtIndex ((rolled s e ch ticks).odu.enc e) (senseOf x ch) := by
        have hown := rolled_own s e ch ticks
        have hprev' : ((rolled s e ch ticks).odu.enc e).prevSense = some (senseOf x ch) := by
          rw [hown, ← hqs]; cases ch <;> exact hprev
        refine ⟨?_, ?_, ?_⟩
        · rw [(countIndex_same hprev').1, hown]; cases ch <;> exact hindex
        · rw [hown]; cases ch <;> exact hok
        · rw [hown]; cases ch <;> exact hstrikes.ge
      have hotherEnc : ((rolled s e ch ticks).odu.enc other).health = y.health := by rw [rolled_other]
      have hsilent : ¬FailsSilent ((rolled s e ch ticks).odu.enc (encoderOther e)) (senseOf x ch) := by
        rw [rolled_other]
        exact fun h => absurd h.1 (not_le.2 (by rw [hsense]; exact hquiet))
      obtain ⟨hfailed, hswitch, hbus⟩ := superviseCount_index ⟨hrview.trans hview, hractive.trans hactive⟩ hfails hsilent
      rw [hotherEnc] at hswitch hbus
      refine ⟨_, evs, exec_encoderCount e ch ticks hsource hnotstandby, hfailed, ?_, ?_⟩
      · exact switchedOrLost_of_same ⟨hractive.symm, hrepoch.symm⟩ ⟨rfl, rfl, rfl, rfl, rfl⟩ hswitch
      · rw [hbus, ← hevs] <;> rfl
    · have hkept : rolled s e ch ticks = counted s e ch ticks := if_neg (fun h => encoderOther_ne e (hactive.symm.trans h.2))
      have hsilent : FailsSilent ((rolled s e ch ticks).odu.enc (encoderOther e)) (senseOf x ch) := by
        rw [rolled_other]
        exact ⟨by rw [hsense]; exact hloud, hok⟩
      obtain ⟨hfailed, hswitch, hposition, hbus⟩ :=
        superviseCount_silence ⟨hrview.trans hview, hractive.trans hactive⟩ hsilent
      refine ⟨_, exec_encoderCount e ch ticks hsource hnotstandby, hfailed, ?_, ?_, ?_⟩
      · exact switchedOrLost_of_same ⟨hractive.symm, hrepoch.symm⟩ ⟨rfl, rfl, rfl, rfl, rfl⟩ hswitch
      · rw [hposition, hkept]; exact Odu.setEnc_position _ _ _
      · rw [hbus, hkept]; rfl

/-! ### Notices and the standstill timer -/

/-- The ODU when it takes up the measurement of travel again (R19). -/
def resumed (o : Odu) : Odu :=
  { o with view := .running, resuming := false, e1 := { o.e1 with eventDistance := 0 }, e2 := { o.e2 with eventDistance := 0 } }

theorem resumed_enc (o : Odu) (e : Encoder) : (resumed o).enc e = { o.enc e with eventDistance := 0 } := by cases e <;> rfl

theorem resumeOdu_ok {s : State} (h : (s.odu.enc s.odu.active).health = .ok) :
    s.resumeOdu = { s with odu := resumed s.odu } := by
  have hactive : ((resumed s.odu).enc s.odu.active).health = .ok := by rw [resumed_enc]; exact h
  have heq : s.resumeOdu = match ((resumed s.odu).enc s.odu.active).health with
    | .ok => { s with odu := resumed s.odu }
    | .failed => State.activeFailed { s with odu := resumed s.odu } := rfl
  rw [heq, hactive]

theorem resumeOdu_failed {s : State} (h : (s.odu.enc s.odu.active).health = .failed) :
    s.resumeOdu = State.activeFailed { s with odu := resumed s.odu } := by
  have hactive : ((resumed s.odu).enc s.odu.active).health = .failed := by rw [resumed_enc]; exact h
  have heq : s.resumeOdu = match ((resumed s.odu).enc s.odu.active).health with
    | .ok => { s with odu := resumed s.odu }
    | .failed => State.activeFailed { s with odu := resumed s.odu } := rfl
  rw [heq, hactive]

/-- The part that has taken a resumption notice, before it looks at the active encoder (R19). -/
def resumedState (s : State) (rest : List Message) : State :=
  { s with odu := resumed s.odu, bus := { s.bus with toOdu := rest } }

/-- Settles O9: by each notice, and with the switch-over or the loss of an active encoder that has failed meanwhile. -/
theorem theOduTakesItsNotices : Obligations.TheOduTakesItsNotices := by
  refine ⟨fun s rest h => ?_, fun s rest h hok => ?_, ?failed, fun s tick h => ?_⟩
  case failed =>
    intro s rest h hfailed other
    have hexec : exec .oduResumptionNotice s = .next (resumedState s rest).activeFailed := by
      simp only [exec, execOduResumptionNotice, h]
      rw [resumeOdu_failed (s := { s with bus := { s.bus with toOdu := rest } }) hfailed]
      rfl
    have hother : ((resumedState s rest).odu.enc (encoderOther (resumedState s rest).odu.active)).health = other :=
      (congrArg EncoderState.health (resumed_enc s.odu (encoderOther s.odu.active)) :)
    have hswitch := activeFailed_switchedOrLost (resumedState s rest) rfl
    have hbus := activeFailed_bus (resumedState s rest)
    have hodu := activeFailed_odu (resumedState s rest)
    rw [hother] at hswitch hbus
    exact ⟨_, hexec, hswitch, (congrArg Odu.resuming hodu :), (congrArg Odu.position hodu :),
      fun e => (activeFailed_enc _ e).trans (resumed_enc s.odu e), OnlyOdu.over (State.activeFailed_frame _), hbus⟩
  · simp only [exec, execOduStopNotice, h]; rfl
  · simp only [exec, execOduResumptionNotice, h]
    rw [resumeOdu_ok (s := { s with bus := { s.bus with toOdu := rest } }) hok]
    rfl
  · simp only [exec, execStandstillExpiry, h]; rfl

end Sys2Proof.Proofs.EncoderChecks
end

