-- ==== Sys2Proof/Proofs/Channels.lean ====
section
/-! PROOFS. Slots, frames and channels (R26 to R32), and the integrators that step behind them (R33 to R38). -/

namespace Sys2Proof.Proofs.Channels

open Sys2Proof.Machine Sys2Proof.Safety

/-! ### Runs of missing and of delivered values -/

theorem take_none_ok {c : Channel} (h : c.state = .ok) : c.take none = { c with state := .held, miss := 1 } := by
  simp only [Channel.take, h]

theorem take_none_held {c : Channel} (h : c.state = .held) (hmiss : c.miss < 4) : c.take none = { c with miss := c.miss + 1 } := by
  simp only [Channel.take, h, if_pos hmiss]

theorem take_none_last {c : Channel} (h : c.state = .held) (hmiss : ¬c.miss < 4) :
    c.take none = { state := .lost, held := none, miss := 0, recovery := 0 } := by
  simp only [Channel.take, h, if_neg hmiss]

theorem take_none_lost {c : Channel} (h : c.state = .lost) : c.take none = { c with recovery := 0 } := by
  simp only [Channel.take, h]

theorem take_some_lost {c : Channel} (h : c.state = .lost) (v : Int) : c.take (some v) =
    if c.recovery + 1 < 16 then { c with recovery := c.recovery + 1 }
    else { state := .ok, held := some v, miss := 0, recovery := 0 } := by
  simp only [Channel.take, h]

theorem take_some {c : Channel} (h : c.state ≠ .lost) (v : Int) :
    c.take (some v) = { c with state := .ok, held := some v, miss := 0 } := by
  cases hs : c.state
  case lost => exact absurd hs h
  all_goals simp only [Channel.take, hs]

theorem take_replicate_succ (c : Channel) (n : Nat) :
    (List.replicate (n + 1) (none : Option Int)).foldl Channel.take c = ((List.replicate n none).foldl Channel.take c).take none := by
  rw [List.replicate_succ', List.foldl_append]; rfl

/-- Up to four missing values leave a channel in HELD with its value (R30). -/
theorem take_missing_held {c : Channel} (h : c.state = .ok) {n : Nat} (hn : n + 1 ≤ 4) :
    (List.replicate (n + 1) (none : Option Int)).foldl Channel.take c = { c with state := .held, miss := n + 1 } := by
  induction n with
  | zero => exact take_none_ok h
  | succ n ih =>
    rw [take_replicate_succ, ih (by omega), take_none_held rfl (show n + 1 < 4 by omega)]

/-- At the fifth it is LOST, and further ones leave it so (R30). -/
theorem take_missing_lost {c : Channel} (h : c.state = .ok) (n : Nat) :
    ((List.replicate (n + 5) (none : Option Int)).foldl Channel.take c).state = .lost ∧
    ((List.replicate (n + 5) (none : Option Int)).foldl Channel.take c).held = none := by
  induction n with
  | zero =>
    rw [take_replicate_succ, take_missing_held h (n := 3) (by decide), take_none_last rfl (lt_irrefl 4)]
    exact ⟨rfl, rfl⟩
  | succ n ih =>
    rw [show n + 1 + 5 = (n + 5) + 1 by omega, take_replicate_succ, take_none_lost ih.1]
    exact ih

/-- A LOST channel counts delivered values, and is OK from the sixteenth on (R31). -/
theorem take_delivered {c : Channel} (h : c.state = .lost) (hrecovery : c.recovery = 0) (vs : List Int) :
    (vs.length ≤ 15 → (vs.map some).foldl Channel.take c = { c with recovery := vs.length }) ∧
    (16 ≤ vs.length → ((vs.map some).foldl Channel.take c).state = .ok ∧ ((vs.map some).foldl Channel.take c).held = vs.getLast?) := by
  induction vs using List.reverseRecOn with
  | nil => exact ⟨fun _ => by simp [← hrecovery], fun h => absurd h (by decide)⟩
  | append_singleton vs v ih =>
    simp only [List.map_append, List.foldl_append, List.map_cons, List.map_nil, List.foldl_cons, List.foldl_nil, List.length_append,
      List.length_singleton, List.getLast?_append, List.getLast?_singleton, Option.some_or]
    refine ⟨fun hlen => ?_, fun hlen => ?_⟩
    · rw [ih.1 (by omega), take_some_lost (by exact h), if_pos (show vs.length + 1 < 16 by omega)]
    · by_cases hbefore : vs.length ≤ 15
      · rw [ih.1 hbefore, take_some_lost (by exact h), if_neg (show ¬vs.length + 1 < 16 by omega)]
        exact ⟨rfl, rfl⟩
      · rw [take_some (by rw [(ih.2 (by omega)).1]; decide)]
        exact ⟨rfl, rfl⟩

/-- Settles O11: by induction over the run of missing values, and over the run of delivered ones. -/
theorem channelsFallAfterFiveAndRecoverAfterSixteen : Obligations.ChannelsFallAfterFiveAndRecoverAfterSixteen := by
  refine ⟨fun c n hok => ⟨fun hn => by subst hn; rfl, fun ⟨hpos, hle⟩ => ?_, fun hn => ?_⟩, fun c vs hlost hrecovery => ?_,
    fun c hlost => by rw [take_none_lost hlost]; exact ⟨hlost, rfl⟩, fun c v h => by rw [take_some h]; exact ⟨rfl, rfl, rfl⟩⟩
  · obtain ⟨m, rfl⟩ := Nat.exists_eq_add_of_le' hpos
    simp only [take_missing_held hok hle, and_self]
  · obtain ⟨m, rfl⟩ := Nat.exists_eq_add_of_le' hn
    exact take_missing_lost hok m
  · obtain ⟨hfew, hmany⟩ := take_delivered hlost hrecovery vs
    exact ⟨fun h => by simp only [hfew h, hlost, and_self], hmany⟩

/-! ### Frames -/

/-- A frame of the right length is clocked in as it stands (R26, R200). -/
theorem clockedFrame_eq {l : Link} {bytes : List Byte} (h : bytes.length = l.frameLength) : clockedFrame l bytes = bytes := by
  unfold clockedFrame
  refine List.ext_getElem (by simp [h]) (fun i hi hi' => ?_)
  simp [List.getElem?_eq_getElem hi']

/-- The two check bytes at the end of a frame. -/
theorem drop_check {l : Link} {bytes : List Byte} (h : bytes.length = l.frameLength) :
    bytes.drop (l.frameLength - 2) = [bytes.getD (l.frameLength - 2) 0, bytes.getD (l.frameLength - 1) 0] := by
  have hpos : 2 ≤ l.frameLength := by cases l <;> decide
  refine List.ext_getElem (by simp; omega) (fun i hi hi' => ?_)
  simp only [List.length_cons, List.length_nil] at hi'
  rw [List.getElem_drop]
  rcases (by omega : i = 0 ∨ i = 1) with rfl | rfl
  · simp [List.getElem?_eq_getElem (show l.frameLength - 2 < bytes.length by omega)]
  · simp [List.getElem?_eq_getElem (show l.frameLength - 1 < bytes.length by omega), show l.frameLength - 2 + 1 = l.frameLength - 1 by omega]

/-- A check value and its two bytes (R197). -/
theorem be16_eq_iff (x : Word16) (a b : Byte) : be16 x = [a, b] ↔ x.toNat = a.toNat * 256 + b.toNat := by
  have ha := a.isLt; have hb := b.isLt; have hx := x.isLt
  constructor
  · intro h
    simp only [be16, List.cons.injEq, and_true] at h
    obtain ⟨h1, h2⟩ := h
    subst h1 h2
    simp [Nat.shiftRight_eq_div_pow]; omega
  · intro h
    rw [← be16_bytes a b, ← h, BitVec.ofNat_toNat, BitVec.setWidth_eq]

theorem frameFault_eq {l : Link} {bytes : List Byte} (h : bytes.length = l.frameLength) (opened : Bool) :
    frameFault l opened bytes = causeOf l opened bytes := by
  have hcheck : be16 (frameCheck (bytes.take (l.frameLength - 2))) ≠ bytes.drop (l.frameLength - 2) ↔
      (frameCheck (bytes.take (l.frameLength - 2))).toNat ≠
        (bytes.getD (l.frameLength - 2) 0).toNat * 256 + (bytes.getD (l.frameLength - 1) 0).toNat := by
    rw [drop_check h, Ne, be16_eq_iff]
  simp only [frameFault, causeOf, coveredBytes, hcheck, Bool.not_eq_eq_eq_not, Bool.not_true]

/-- The 24-bit signed number of three bytes (R200). -/
theorem channelWord_eq (bytes : List Byte) (i : Nat) : channelWord bytes i =
    if (bytes.getD (3 + 3 * i) 0).toNat * 65536 + (bytes.getD (4 + 3 * i) 0).toNat * 256 + (bytes.getD (5 + 3 * i) 0).toNat < 8388608
    then (((bytes.getD (3 + 3 * i) 0).toNat * 65536 + (bytes.getD (4 + 3 * i) 0).toNat * 256 + (bytes.getD (5 + 3 * i) 0).toNat : Nat) : Int)
    else (((bytes.getD (3 + 3 * i) 0).toNat * 65536 + (bytes.getD (4 + 3 * i) 0).toNat * 256 +
      (bytes.getD (5 + 3 * i) 0).toNat : Nat) : Int) - 16777216 := by
  have h1 := (bytes.getD (3 + 3 * i) 0).isLt
  have h2 := (bytes.getD (4 + 3 * i) 0).isLt
  have h3 := (bytes.getD (5 + 3 * i) 0).isLt
  have hsum : getU8 bytes (3 + 3 * i) * 65536 + getU16 bytes (4 + 3 * i) = (bytes.getD (3 + 3 * i) 0).toNat * 65536 +
      (bytes.getD (4 + 3 * i) 0).toNat * 256 + (bytes.getD (5 + 3 * i) 0).toNat := by
    unfold getU16 getU8
    rw [show 4 + 3 * i + 1 = 5 + 3 * i by omega, Nat.add_assoc]
  rw [channelWord, hsum]
  generalize hn : (bytes.getD (3 + 3 * i) 0).toNat * 65536 + (bytes.getD (4 + 3 * i) 0).toNat * 256 +
    (bytes.getD (5 + 3 * i) 0).toNat = n
  have hlt : n < 16777216 := by omega
  rw [BitVec.toInt_eq_toNat_cond, BitVec.toNat_ofNat, Nat.mod_eq_of_lt (by simpa using hlt)]
  norm_num
  split <;> split <;> omega

/-- Each channel of a link takes its word, or a missing value (R29). -/
theorem takeFrame_link {l : Link} {i : Nat} {ch : ChannelId} (h : (linkChannels l)[i]? = some ch) (good : Bool) (frame : List Byte)
    (c : Channels) : (takeFrame l good frame c).get ch = (c.get ch).take (deliveredValue good frame i) := by
  obtain ⟨hi, rfl⟩ := List.getElem?_eq_some_iff.1 h
  cases l <;> simp only [linkChannels, List.length_cons, List.length_nil] at hi
  · rcases (by omega : i = 0 ∨ i = 1) with rfl | rfl <;> rfl
  · rcases (by omega : i = 0 ∨ i = 1 ∨ i = 2 ∨ i = 3) with rfl | rfl | rfl | rfl <;> rfl
  · rcases (by omega : i = 0 ∨ i = 1 ∨ i = 2) with rfl | rfl | rfl <;> rfl

theorem takeFrame_other {l : Link} {ch : ChannelId} (h : ch ∉ linkChannels l) (good : Bool) (frame : List Byte) (c : Channels) :
    (takeFrame l good frame c).get ch = c.get ch := by
  cases l <;> cases ch <;> first | rfl | exact absurd (by decide) h

theorem isLost_iff (c : Channel) : c.isLost = true ↔ c.state = .lost := by simp [Channel.isLost]

theorem linkCondition_up (l : Link) (c : Channels) : linkCondition l c = .up ↔ ∀ ch ∈ linkChannels l, (c.get ch).state ≠ .lost := by
  unfold linkCondition
  split
  · next h => simpa [isLost_iff, ← Bool.not_eq_true] using h
  · next h =>
    refine ⟨fun hx => ?_, fun hx => absurd ?_ h⟩
    · split at hx <;> cases hx
    · simpa [isLost_iff, ← Bool.not_eq_true] using hx

theorem linkCondition_down (l : Link) (c : Channels) : linkCondition l c = .down ↔ ∀ ch ∈ linkChannels l, (c.get ch).state = .lost := by
  unfold linkCondition
  split
  · next h =>
    refine ⟨fun hx => (by cases hx), fun hx => ?_⟩
    simp only [List.all_eq_true, isLost_iff, Bool.not_eq_true', ← Bool.not_eq_true] at h
    cases l
    · exact absurd (hx .gl (by decide)) (h .gl (by decide))
    · exact absurd (hx .zl (by decide)) (h .zl (by decide))
    · exact absurd (hx .ay (by decide)) (h .ay (by decide))
  · split
    · next h => simpa [isLost_iff] using h
    · next h => exact ⟨fun hx => (by cases hx), fun hx => absurd (by simpa [isLost_iff] using hx) h⟩

/-! ### The slot end -/

/-- A slot end changes no more than the loss-seen marks of the groups (R40). -/
theorem seeLoss_eq (c : Slc) (l : Link) : c.seeLoss l = { c with
    vertGroup := { c.vertGroup with lossSeen := (c.seeLoss l).vertGroup.lossSeen },
    latGroup := { c.latGroup with lossSeen := (c.seeLoss l).latGroup.lossSeen } } := by
  unfold Slc.seeLoss
  split
  · rfl
  all_goals split <;> rfl

theorem seeLoss_vertical (c : Slc) (l : Link) : (c.seeLoss l).vertGroup.lossSeen = true ↔ c.vertGroup.lossSeen = true ∨
    (l = .s2 ∧ (c.channels.azl.state = .lost ∨ c.channels.azr.state = .lost)) := by
  cases l
  · simp [Slc.seeLoss]
  · by_cases h : c.verticalLost = true <;> simp only [Slc.seeLoss, h] <;>
      simp only [Slc.verticalLost, Bool.or_eq_true, isLost_iff] at h <;> simp [h]
  · by_cases h : c.lateralLost = true <;> simp [Slc.seeLoss, h]

theorem seeLoss_lateral (c : Slc) (l : Link) : (c.seeLoss l).latGroup.lossSeen = true ↔ c.latGroup.lossSeen = true ∨
    (l = .s3 ∧ (c.channels.ay.state = .lost ∨ c.channels.roll.state = .lost ∨ c.channels.yaw.state = .lost)) := by
  cases l
  · simp [Slc.seeLoss]
  · by_cases h : c.verticalLost = true <;> simp [Slc.seeLoss, h]
  · by_cases h : c.lateralLost = true <;> simp only [Slc.seeLoss, h] <;>
      simp only [Slc.lateralLost, Bool.or_eq_true, isLost_iff, or_assoc] at h <;> simp [h]

/-- The integrators of a link step, and nothing else of the SLC changes. -/
theorem integrate_eq (c : Slc) (l : Link) : c.integrate l = { c with
    vertLeft := (c.integrate l).vertLeft, vertRight := (c.integrate l).vertRight, lateral := (c.integrate l).lateral,
    yaw := (c.integrate l).yaw, yawSaturated := (c.integrate l).yawSaturated } := by
  cases l <;> rfl

/-- The SLC when a slot end has judged the frame and fed the channels, before the integrators step. -/
def judged (c : Slc) (l : Link) (opened : Bool) (bytes : List Byte) : Slc :=
  let channels := takeFrame l (causeOf l opened bytes == .none) bytes c.channels
  { c with channels := channels }.setLink l
    { (c.link l).judge (causeOf l opened bytes) (bytes.getD 1 0) with state := linkCondition l channels, slotOpen := false }

theorem judge_good (x : LinkState) (seq : Byte) : x.judge .none seq = { x with
    lastGood := seq, expected := some (seq + 1),
    seqErrors := if x.expected ≠ none ∧ x.expected ≠ some seq then min 65535 (x.seqErrors + 1) else x.seqErrors } := by
  unfold LinkState.judge
  simp only [satSucc_eq]
  cases h : x.expected with
  | none => simp
  | some e => by_cases he : e = seq <;> simp [he]

theorem judge_missing (x : LinkState) {cause : FaultCause} (h : cause ≠ .none) (seq : Byte) : x.judge cause seq = { x with
    missing := min 65535 (x.missing + 1), fault := cause, expected := x.expected.map (· + 1) } := by
  cases cause
  case none => exact absurd rfl h
  all_goals simp only [LinkState.judge, satSucc_eq]

/-- The SLC after a slot end. -/
def slotEnded (c : Slc) (l : Link) (opened : Bool) (bytes : List Byte) : Slc :=
  ((judged c l opened bytes).integrate l).seeLoss l

/-- The part after a slot end. -/
def slotEndedState (s : State) (l : Link) (opened : Bool) (bytes : List Byte) : State :=
  { s with now := max s.now (s.slc.slotStart + 512), slc := slotEnded s.slc l opened bytes }

theorem exec_slotEnd {s : State} {l : Link} {opened : Bool} {bytes : List Byte} (hopen : (s.slc.link l).slotOpen = true)
    (hwell : (Instr.slotEnd l opened bytes).wellFormed = true) :
    exec (.slotEnd l opened bytes) s = .next (slotEndedState s l opened bytes) := by
  have hlen : bytes.length = l.frameLength := by simpa [Instr.wellFormed] using hwell
  simp only [exec, execSlotEnd, if_pos hopen, Slc.endSlot, clockedFrame_eq hlen, frameFault_eq hlen]
  rfl

theorem slotEndedState_slc (s : State) (l : Link) (opened : Bool) (bytes : List Byte) :
    (slotEndedState s l opened bytes).slc = slotEnded s.slc l opened bytes := rfl

theorem slotEnded_eq (c : Slc) (l : Link) (opened : Bool) (bytes : List Byte) : slotEnded c l opened bytes = { c with
    s1 := (slotEnded c l opened bytes).s1, s2 := (slotEnded c l opened bytes).s2, s3 := (slotEnded c l opened bytes).s3,
    channels := (slotEnded c l opened bytes).channels, vertLeft := (slotEnded c l opened bytes).vertLeft,
    vertRight := (slotEnded c l opened bytes).vertRight, lateral := (slotEnded c l opened bytes).lateral,
    yaw := (slotEnded c l opened bytes).yaw, yawSaturated := (slotEnded c l opened bytes).yawSaturated,
    vertGroup := { c.vertGroup with lossSeen := (slotEnded c l opened bytes).vertGroup.lossSeen },
    latGroup := { c.latGroup with lossSeen := (slotEnded c l opened bytes).latGroup.lossSeen } } := by
  rw [slotEnded, seeLoss_eq, integrate_eq, judged]
  cases l <;> rfl

theorem slotEnded_link (c : Slc) (l k : Link) (opened : Bool) (bytes : List Byte) :
    (slotEnded c l opened bytes).link k = (judged c l opened bytes).link k := by
  rw [slotEnded, seeLoss_eq, integrate_eq]
  cases k <;> rfl

theorem slotEnded_own (c : Slc) (l : Link) (opened : Bool) (bytes : List Byte) : (slotEnded c l opened bytes).link l =
    { (c.link l).judge (causeOf l opened bytes) (bytes.getD 1 0) with
      state := linkCondition l (slotEnded c l opened bytes).channels, slotOpen := false } := by
  have hchannels : (slotEnded c l opened bytes).channels = (judged c l opened bytes).channels := by
    rw [slotEnded, seeLoss_eq, integrate_eq]
  rw [slotEnded_link, hchannels, judged, Slc.link_setLink, Slc.setLink_channels]

theorem slotEnded_channels (c : Slc) (l : Link) (opened : Bool) (bytes : List Byte) :
    (slotEnded c l opened bytes).channels = takeFrame l (causeOf l opened bytes == .none) bytes c.channels := by
  rw [slotEnded, seeLoss_eq, integrate_eq]
  exact Slc.setLink_channels _ _ _

theorem judged_eq (c : Slc) (l : Link) (opened : Bool) (bytes : List Byte) : judged c l opened bytes = { c with
    s1 := (judged c l opened bytes).s1, s2 := (judged c l opened bytes).s2, s3 := (judged c l opened bytes).s3,
    channels := (judged c l opened bytes).channels } := by
  cases l <;> rfl

theorem deliveredValue_eq (cause : FaultCause) (bytes : List Byte) (i : Nat) : deliveredValue (cause == .none) bytes i =
    if cause = .none ∧ (bytes.getD 2 0).getLsbD (7 - i) = true then some (channelWord bytes i) else none := by
  simp only [deliveredValue, channelFlag, Bool.and_eq_true, beq_iff_eq]

/-! ### Frame sync -/

theorem frameSync_iff (s : State) : s.frameSync = true ↔
    s.slc.slotTimer = some (s.slc.slotStart + 512) ∧ s.now < s.slc.slotStart + 16 := by
  rw [State.frameSync, Bool.and_eq_true, beq_iff_eq, decide_eq_true_iff]
  rfl

theorem exec_slotStart {s : State} {tick : Nat} (htimer : s.slc.slotTimer = some tick) (h : ∀ l, (s.slc.link l).slotOpen = false) :
    exec .slotStart s = .next { s with
      now := max s.now tick,
      slc := { s.slc with s1 := { s.slc.s1 with slotOpen := true }, s2 := { s.slc.s2 with slotOpen := true },
                          s3 := { s.slc.s3 with slotOpen := true }, slotStart := max s.now tick,
                          slotTimer := some (max s.now tick + 512) } } := by
  have hended : s.slc.allSlotsEnded = true := by
    have h1 : s.slc.s1.slotOpen = false := h .s1
    have h2 : s.slc.s2.slotOpen = false := h .s2
    have h3 : s.slc.s3.slotOpen = false := h .s3
    simp [Slc.allSlotsEnded, h1, h2, h3]
  simp only [exec, execSlotStart, htimer, if_pos hended]
  rfl

theorem slotEnded_vertical (c : Slc) (l : Link) (opened : Bool) (bytes : List Byte) :
    (slotEnded c l opened bytes).vertGroup.lossSeen = true ↔ c.vertGroup.lossSeen = true ∨ (l = .s2 ∧
      ((slotEnded c l opened bytes).channels.azl.state = .lost ∨ (slotEnded c l opened bytes).channels.azr.state = .lost)) := by
  refine (seeLoss_vertical ((judged c l opened bytes).integrate l) l).trans ?_
  rw [slotEnded_channels]
  cases l <;> rfl

theorem slotEnded_lateral (c : Slc) (l : Link) (opened : Bool) (bytes : List Byte) :
    (slotEnded c l opened bytes).latGroup.lossSeen = true ↔ c.latGroup.lossSeen = true ∨ (l = .s3 ∧
      ((slotEnded c l opened bytes).channels.ay.state = .lost ∨ (slotEnded c l opened bytes).channels.roll.state = .lost ∨
        (slotEnded c l opened bytes).channels.yaw.state = .lost)) := by
  refine (seeLoss_lateral ((judged c l opened bytes).integrate l) l).trans ?_
  rw [slotEnded_channels]
  cases l <;> rfl

/-- Settles O10: by the frame, the channels and the marks of a slot end. -/
theorem slotsBeginTogetherAndEndByLink : Obligations.SlotsBeginTogetherAndEndByLink := by
  refine ⟨fun s tick htimer hclosed => ⟨exec_slotStart htimer hclosed, fun t ht n => ?_⟩, fun s h => ?_, ?ends⟩
  · rw [exec_slotStart htimer hclosed] at ht
    cases ht
    rw [frameSync_iff]
    simp
  · rw [Bool.eq_false_iff, Ne, frameSync_iff]; exact fun hsync => h hsync.1
  case ends =>
    intro s l opened bytes hopen hwell cause x seq
    have hown := slotEnded_own s.slc l opened bytes
    have hchannels := slotEnded_channels s.slc l opened bytes
    have heq := slotEnded_eq s.slc l opened bytes
    have hvertical := slotEnded_vertical s.slc l opened bytes
    have hlateral := slotEnded_lateral s.slc l opened bytes
    refine ⟨_, exec_slotEnd hopen hwell, rfl, rfl, ?_⟩
    rw [slotEndedState_slc]
    refine ⟨?_, by rw [hown], fun k hk => ?_, fun hgood => ?_, fun hmissing => ?_, fun i ch hch => ?_, fun ch hch => ?_, ?_, ?_,
      (congrArg Slc.vertGroup heq :), (congrArg Slc.latGroup heq :), hvertical, hlateral⟩
    · rw [heq]
    · rw [slotEnded_link, judged, Slc.link_setLink_of_ne _ _ hk]; cases k <;> rfl
    · rw [hown, show causeOf l opened bytes = .none from hgood, judge_good]
      exact ⟨rfl, rfl, rfl, rfl, rfl⟩
    · rw [hown, judge_missing _ hmissing]
      exact ⟨rfl, rfl, rfl, rfl, rfl⟩
    · rw [hchannels, takeFrame_link hch, deliveredValue_eq, channelWord_eq]
    · rw [hchannels, takeFrame_other hch]
    · rw [hown]; exact linkCondition_up l _
    · rw [hown]; exact linkCondition_down l _

/-! ### The integrators -/

theorem value_eq_held (c : Channel) : c.value = held c := by
  unfold Channel.value held
  cases c.state <;> rfl

/-- A leaky integrator steps as R34 says. -/
theorem step_leaks (i : Integrator) (a : Int) (kv kp : Nat) : Leaks i (i.step a kv kp) a kv kp := by
  have hv := leakStage_eq i.v a kv
  have hp := leakStage_eq i.p (leakStage i.v a kv).1 kp
  refine ⟨hv, hp, ?_⟩
  simp only [Integrator.step, Bool.or_eq_true, leakStage_saturates]
  tauto

theorem verticalStep_none (i : Integrator) (kv kp : Nat) : verticalStep i none kv kp = Integrator.zeroed := rfl

theorem verticalStep_some (i : Integrator) (a : Int) (kv kp : Nat) : Leaks i (verticalStep i (some a) kv kp) a kv kp :=
  step_leaks i a kv kp

theorem lateralStep_none {ay roll : Option Int} (h : ay = none ∨ roll = none) (i : Integrator) (kv kp : Nat) :
    lateralStep i ay roll kv kp = Integrator.zeroed := by
  rcases h with rfl | rfl
  · rfl
  · cases ay <;> rfl

/-- The lateral integrator, with an acceleration within 24 bits or clamped to them (R36). -/
theorem lateralStep_some (i : Integrator) (y r : Int) (kv kp : Nat) :
    (-8388608 ≤ compensated y r ∧ compensated y r ≤ 8388607 →
      Leaks i (lateralStep i (some y) (some r) kv kp) (compensated y r) kv kp) ∧
    (¬(-8388608 ≤ compensated y r ∧ compensated y r ≤ 8388607) →
      (lateralStep i (some y) (some r) kv kp).saturated = true ∧
      Leaks { i with saturated := true } (lateralStep i (some y) (some r) kv kp) (max (-8388608) (min 8388607 (compensated y r))) kv kp) := by
  have hsat : satS24 (compensated y r) = max (-8388608) (min 8388607 (compensated y r)) :=
    clamp_eq (-8388608) 8388607 _ (by decide)
  refine ⟨fun h => ?_, fun h => ?_⟩
  · have hsame : satS24 (compensated y r) = compensated y r := by rw [hsat]; omega
    simp only [lateralStep, if_pos hsame]
    rw [hsame]
    exact step_leaks i _ kv kp
  · have hclamped : satS24 (compensated y r) ≠ compensated y r := by rw [hsat]; omega
    simp only [lateralStep, if_neg hclamped]
    rw [← hsat]
    exact ⟨by simp [Integrator.step], step_leaks _ _ kv kp⟩

theorem yawStep_some (psi : Word48) (r : Int) : (yawStep psi (some r)).toInt = (psi.toInt + r).bmod (2 ^ 48) := by
  show (psi + BitVec.ofInt 48 r).toInt = _
  rw [BitVec.toInt_add, BitVec.toInt_ofInt, Int.add_bmod_bmod]

section
variable (c : Slc) (opened : Bool) (bytes : List Byte)

theorem slotEnded_s1 : (slotEnded c .s1 opened bytes).vertLeft = c.vertLeft ∧ (slotEnded c .s1 opened bytes).vertRight = c.vertRight ∧
    (slotEnded c .s1 opened bytes).lateral = c.lateral ∧ (slotEnded c .s1 opened bytes).yaw = c.yaw ∧
    (slotEnded c .s1 opened bytes).yawSaturated = c.yawSaturated := by
  rw [slotEnded, seeLoss_eq]
  exact ⟨rfl, rfl, rfl, rfl, rfl⟩

theorem slotEnded_s2 :
    (slotEnded c .s2 opened bytes).vertLeft = verticalStep c.vertLeft (held (slotEnded c .s2 opened bytes).channels.azl) c.kv c.kp ∧
    (slotEnded c .s2 opened bytes).vertRight = verticalStep c.vertRight (held (slotEnded c .s2 opened bytes).channels.azr) c.kv c.kp ∧
    (slotEnded c .s2 opened bytes).lateral = c.lateral ∧ (slotEnded c .s2 opened bytes).yaw = c.yaw ∧
    (slotEnded c .s2 opened bytes).yawSaturated = c.yawSaturated := by
  simp only [← value_eq_held, slotEnded_channels]
  rw [slotEnded, seeLoss_eq]
  exact ⟨rfl, rfl, rfl, rfl, rfl⟩

theorem slotEnded_s3 :
    (slotEnded c .s3 opened bytes).vertLeft = c.vertLeft ∧ (slotEnded c .s3 opened bytes).vertRight = c.vertRight ∧
    (slotEnded c .s3 opened bytes).lateral = lateralStep c.lateral (held (slotEnded c .s3 opened bytes).channels.ay)
      (held (slotEnded c .s3 opened bytes).channels.roll) c.kv c.kp ∧
    (slotEnded c .s3 opened bytes).yaw = yawStep c.yaw (held (slotEnded c .s3 opened bytes).channels.yaw) ∧
    (slotEnded c .s3 opened bytes).yawSaturated =
      if (slotEnded c .s3 opened bytes).channels.yaw.isLost then false else c.yawSaturated := by
  simp only [← value_eq_held, slotEnded_channels]
  rw [slotEnded, seeLoss_eq]
  exact ⟨rfl, rfl, rfl, rfl, rfl⟩

end

/-- Settles O12: by the step of each integrator, and by the channels a slot end leaves. -/
theorem integratorsStepWithTheirLink : Obligations.IntegratorsStepWithTheirLink := by
  intro s l opened bytes hopen hwell
  refine ⟨_, exec_slotEnd hopen hwell, ?_⟩
  rw [slotEndedState_slc]
  cases l
  case s1 =>
    obtain ⟨hleft, hright, hlateral, hyaw, hsat⟩ := slotEnded_s1 s.slc opened bytes
    exact ⟨fun _ => ⟨hleft, hright, hlateral, hyaw⟩, fun _ => hsat, nofun, nofun⟩
  case s2 =>
    obtain ⟨hleft, hright, hlateral, hyaw, hsat⟩ := slotEnded_s2 s.slc opened bytes
    refine ⟨nofun, fun _ => hsat, fun _ => ⟨hlateral, hyaw, fun h => ?_, fun h => ?_, fun a h => ?_, fun a h => ?_⟩, nofun⟩
    · rw [hleft, h]; rfl
    · rw [hright, h]; rfl
    · rw [hleft, h]; exact verticalStep_some _ a _ _
    · rw [hright, h]; exact verticalStep_some _ a _ _
  case s3 =>
    obtain ⟨hleft, hright, hlateral, hyaw, hsat⟩ := slotEnded_s3 s.slc opened bytes
    refine ⟨nofun, fun h => absurd rfl h, nofun, fun _ => ⟨hleft, hright, fun h => ?_, fun y r hy hr => ?_, fun h => ?_, fun h => ?_,
      fun h => ?_, fun r h => ?_⟩⟩
    · rw [hlateral, lateralStep_none h]; rfl
    · rw [hlateral, hy, hr]; exact lateralStep_some s.slc.lateral y r s.slc.kv s.slc.kp
    · rw [hyaw, h]; rfl
    · rw [hsat, if_pos ((isLost_iff _).2 h)]
    · rw [hsat, if_neg (fun hx => h ((isLost_iff _).1 hx))]
    · rw [hyaw, h]; exact yawStep_some _ r

end Sys2Proof.Proofs.Channels
end

