-- ==== Sys2Proof/Proofs/Snapshots.lean ====
section
/-! PROOFS. The inertial groups and the snapshots of a sample event (R35, R41 to R44), and the notices of the SLC (R42, R47). -/

namespace Sys2Proof.Proofs.Snapshots

open Sys2Proof.Machine Sys2Proof.Safety Sys2Proof.Proofs.Channels

/-- A group is evaluated as R41 says. -/
theorem evaluate_evaluated (c : Slc) (g : Group) {lost : Bool} {p : Prop} (hlost : lost = true ↔ p) (v : Nat) :
    Evaluated c g (g.evaluate lost v c.vMin c.hV c.settleValue) p v := by
  by_cases hout : g.lossSeen = true ∨ p ∨ (v : Int) < (c.vMin : Int) - c.hV
  · have htest : (g.lossSeen || lost || decide ((v : Int) < (c.vMin : Int) - c.hV)) = true := by
      rw [← hlost] at hout; simpa [or_assoc] using hout
    rw [Group.evaluate, if_pos htest]
    exact ⟨rfl, fun _ => ⟨rfl, rfl⟩, fun h => absurd hout h⟩
  · have htest : ¬(g.lossSeen || lost || decide ((v : Int) < (c.vMin : Int) - c.hV)) = true := by
      rw [← hlost] at hout; simpa [or_assoc] using hout
    rw [Group.evaluate, if_neg htest]
    refine ⟨?_, fun h => absurd h hout, fun _ => ⟨fun hs => ?_, fun hs => ?_, fun hs => ?_⟩⟩
    · split
      · split <;> rfl
      · rfl
      · rfl
    · simp only [hs]
      split
      · next h => simp
      · next h => simp
    · simp only [hs, and_self]
    · simp only [hs, and_self]

theorem verticalLost_iff (c : Slc) : c.verticalLost = true ↔ c.channels.azl.state = .lost ∨ c.channels.azr.state = .lost := by
  simp only [Slc.verticalLost, Bool.or_eq_true, isLost_iff]

theorem lateralLost_iff (c : Slc) : c.lateralLost = true ↔
    c.channels.ay.state = .lost ∨ c.channels.roll.state = .lost ∨ c.channels.yaw.state = .lost := by
  simp only [Slc.lateralLost, Bool.or_eq_true, isLost_iff, or_assoc]

theorem railHeight_valid {g : Group} (h : g.state = .valid) (i : Integrator) (z : Option Int) :
    railHeight g i z = z.map (fun x => (i.p + 1048576) / 2097152 - x) := by
  simp only [railHeight, h]; rfl

theorem railHeight_not_valid {g : Group} (h : g.state ≠ .valid) (i : Integrator) (z : Option Int) : railHeight g i z = none := by
  unfold railHeight
  split
  · next hv => exact absurd hv h
  · rfl

theorem eventCountOf_eq (q : List Message) : eventCountOf q = (q.filter Message.isEvent).length := by
  unfold eventCountOf; rfl

/-- Settles O13: by the evaluation of the groups, and by the fields of a snapshot. -/
theorem aSampleEventIsDelivered : Obligations.ASampleEventIsDelivered := by
  intro s e rest hfront hcount
  have hexec : exec .slcSampleEvent s = .next { s with
      slc := s.slc.evaluateGroups e.speed,
      bus := (s.bus.handAsu (.delivery ((s.slc.evaluateGroups e.speed).snapshots e))).setToSlc rest } := by
    have hless : eventCountOf s.bus.toPru < eventCountOf s.bus.toSlc := by rwa [eventCountOf_eq, eventCountOf_eq]
    simp only [exec, execSlcSampleEvent]
    rw [hfront] at hless ⊢
    simp only [if_pos hless]
  obtain ⟨hpassed, hhead⟩ := passReversals_spec rest
  refine ⟨_, (s.slc.evaluateGroups e.speed).snapshots e, (passReversals rest).1, hexec,
    evaluate_evaluated s.slc _ (verticalLost_iff s.slc) e.speed, evaluate_evaluated s.slc _ (lateralLost_iff s.slc) e.speed,
    rfl, rfl, ?_, hpassed, hhead, rfl, rfl, rfl, rfl, value_eq_held _, value_eq_held _, value_eq_held _, value_eq_held _,
    value_eq_held _, fun hv => ?_, fun hv => ?_, fun hv => ?_, fun hv => ?_⟩
  · simp only [Bus.setToSlc, Bus.handAsu, List.append_assoc, List.singleton_append]
  · simp only [← value_eq_held]
    exact ⟨railHeight_valid hv _ _, railHeight_valid hv _ _⟩
  · exact ⟨railHeight_not_valid hv _ _, railHeight_not_valid hv _ _⟩
  · exact ⟨if_pos hv, if_pos hv⟩
  · exact ⟨if_neg hv, if_neg hv⟩

/-- A hand-over to the ASU with no reversal notice right behind the one taken from the SLC's list. -/
theorem setToSlc_of_head {b : Bus} {q : List Message} (h : NoReversalFirst q) : b.setToSlc q = { b with toSlc := q } := by
  simp only [Bus.setToSlc, passReversals_of_head h, List.replicate_zero, List.append_nil]

/-- Settles O14: by each notice. -/
theorem theSlcTakesItsNotices : Obligations.TheSlcTakesItsNotices := by
  refine ⟨fun s i rest h hhead => ?_, fun s rest h hhead => ?_, fun s es rest h hhead => ?_⟩
  · simp only [exec, execSlcStartNotice, h, setToSlc_of_head hhead]
    rfl
  · simp only [exec, execSlcSuspendNotice, h, setToSlc_of_head hhead]
    rfl
  · simp only [exec, execSlcStopNotice, h, takeStop_events, setToSlc_of_head hhead]
    rfl

end Sys2Proof.Proofs.Snapshots
end

