-- ==== Sys2Proof/Proofs/Assembly.lean ====
section
/-! PROOFS. The assembly table: filing, completion, restarts and marker marks (R49 to R59). -/

namespace Sys2Proof.Proofs.Assembly

open Sys2Proof.Machine Sys2Proof.Safety

/-! ### Writing one slot -/

theorem inSlot_eq (a : Asu) (j : Int) (f : Slot → Slot) : a.inSlot j f = { a with table := (a.inSlot j f).table } := by
  unfold Asu.inSlot; split <;> rfl

/-- A write changes the slot of its index alone, and that one only for an index in range (R51, R59). -/
theorem get?_inSlot (a : Asu) (j : Int) (f : Slot → Slot) (i : Nat) : (a.inSlot j f).table.get? i =
    if inS32 j = true ∧ i = placeOf j slotCount then some (f ((a.table.get? i).getD (Slot.fresh j))) else a.table.get? i := by
  by_cases hj : inS32 j = true
  · rw [Asu.inSlot, if_pos hj, Table.get?_put]
    by_cases hi : i = placeOf j slotCount
    · rw [if_pos hi, if_pos ⟨hj, hi⟩, hi]
    · rw [if_neg hi, if_neg (fun h => hi h.2)]
  · rw [Asu.inSlot, if_neg hj, if_neg (fun h => hj h.1)]

theorem wf_inSlot {a : Asu} (h : a.table.wf = true) (j : Int) (f : Slot → Slot) : (a.inSlot j f).table.wf = true := by
  unfold Asu.inSlot
  split
  · exact Table.wf_put h _ _
  · exact h

/-! ### Filing -/

/-- The slot y takes the gauge snapshot of a delivery (R51). -/
def fillGauge (d : Delivery) (y : Slot) : Slot := { y.flagged d with gauge := some d.gauge }

/-- The slot y takes the vertical snapshot of a delivery (R51). -/
def fillVertical (d : Delivery) (y : Slot) : Slot := { y.flagged d with vertical := some d.vertical }

/-- The slot y takes the lateral snapshot of a delivery (R51). -/
def fillLateral (d : Delivery) (y : Slot) : Slot := { y.flagged d with lateral := some d.lateral }

/-- Filing writes three slots, by the mounts as they stood. -/
theorem file_eq (a : Asu) (d : Delivery) : a.file d =
    ((a.inSlot (d.k + a.pGauge) (fillGauge d)).inSlot (d.k + a.pVertical) (fillVertical d)).inSlot (d.k + a.pLateral)
      (fillLateral d) := by
  have hvertical : ∀ (b : Asu) j f, (b.inSlot j f).pVertical = b.pVertical := fun b j f => by rw [inSlot_eq]
  have hlateral : ∀ (b : Asu) j f, (b.inSlot j f).pLateral = b.pLateral := fun b j f => by rw [inSlot_eq]
  simp only [Asu.file, hvertical, hlateral]
  rfl

theorem file_table_only (a : Asu) (d : Delivery) : a.file d = { a with table := (a.file d).table } := by
  rw [file_eq, inSlot_eq _ (d.k + a.pLateral), inSlot_eq _ (d.k + a.pVertical), inSlot_eq a]

theorem wf_file {a : Asu} (h : a.table.wf = true) (d : Delivery) : (a.file d).table.wf = true := by
  rw [file_eq]; exact wf_inSlot (wf_inSlot (wf_inSlot h _ _) _ _) _ _

/-- What the slot y of index j holds once a delivery is filed (R51). -/
def filedSlot (a : Asu) (d : Delivery) (j : Int) (y : Slot) : Slot :=
  { y with
    gauge := if j = d.k + a.pGauge then some d.gauge else y.gauge
    vertical := if j = d.k + a.pVertical then some d.vertical else y.vertical
    lateral := if j = d.k + a.pLateral then some d.lateral else y.lateral
    slip := y.slip || d.slip
    encSwitch := y.encSwitch || d.encSwitch }

/-- A write at an index less than 256 away reaches the slot of j exactly when it is at j. -/
theorem get?_inSlot_near (a : Asu) {i j : Int} (f : Slot → Slot) (hj : inS32 j = true) (hnear : -200 ≤ j - i ∧ j - i ≤ 200) :
    (a.inSlot i f).table.get? (placeOf j slotCount) =
      if j = i then some (f ((a.table.get? (placeOf j slotCount)).getD (Slot.fresh j)))
      else a.table.get? (placeOf j slotCount) := by
  rw [get?_inSlot]
  by_cases hij : j = i
  · rw [if_pos hij, if_pos ⟨hij ▸ hj, by rw [hij]⟩, hij]
  · rw [if_neg hij, if_neg]
    intro h
    have h256 : (j - i) % 256 = 0 := (placeOf_eq_iff j i (by decide)).1 h.2
    omega

/-- No slot of another place changes (R51). -/
theorem get?_file_other (a : Asu) (d : Delivery) {i : Nat}
    (h : ∀ j ∈ [d.k + a.pGauge, d.k + a.pVertical, d.k + a.pLateral], inS32 j = true → i ≠ placeOf j slotCount) :
    (a.file d).table.get? i = a.table.get? i := by
  simp only [List.forall_mem_cons] at h
  obtain ⟨hg, hv, hl, _⟩ := h
  rw [file_eq, get?_inSlot, if_neg (fun e => hl e.1 e.2), get?_inSlot, if_neg (fun e => hv e.1 e.2), get?_inSlot,
    if_neg (fun e => hg e.1 e.2)]

/-- Filing writes the slot of each group's index, whichever of the three groups share it. -/
theorem get?_file (a : Asu) (d : Delivery) (hmounts : ∀ p ∈ [a.pGauge, a.pVertical, a.pLateral], -100 ≤ p ∧ p ≤ 100) {j : Int}
    (hj : j ∈ [d.k + a.pGauge, d.k + a.pVertical, d.k + a.pLateral]) (hfits : inS32 j = true) :
    (a.file d).table.get? (placeOf j slotCount) =
      some (filedSlot a d j ((a.table.get? (placeOf j slotCount)).getD (Slot.fresh j))) := by
  simp only [List.forall_mem_cons] at hmounts
  obtain ⟨hg, hv, hl, _⟩ := hmounts
  simp only [List.mem_cons, List.not_mem_nil, or_false] at hj
  rw [file_eq, get?_inSlot_near _ _ hfits (by omega), get?_inSlot_near _ _ hfits (by omega),
    get?_inSlot_near _ _ hfits (by omega)]
  generalize a.table.get? (placeOf j slotCount) = held
  simp only [filedSlot, fillGauge, fillVertical, fillLateral, Slot.flagged]
  split_ifs with hjl hjv hjg
  any_goals simp only [Option.getD_some, Bool.or_assoc, Bool.or_self]
  exact absurd hj (by omega)

/-- Settles O15, with the slot after the filing written out over the slot before it. -/
theorem aDeliveryIsFiledByTrackIndex : Obligations.ADeliveryIsFiledByTrackIndex := by
  unfold Obligations.ADeliveryIsFiledByTrackIndex
  intro a d hmounts
  refine ⟨fun j hj hfits => ⟨_, get?_file a d hmounts hj ((inS32_iff j).2 hfits), ?_, ?_, ?_, ?_, ?_⟩,
    fun i hi => get?_file_other a d (fun j hj hin => hi j hj ((inS32_iff j).1 hin)), file_table_only a d⟩
  · exact fun h => if_pos h
  · exact fun h => if_pos h
  · exact fun h => if_pos h
  · intro hnone
    rw [show a.table.get? (placeOf j slotCount) = none from hnone]
    exact ⟨rfl, rfl, rfl, Bool.false_or _, Bool.false_or _, fun h => if_neg h, fun h => if_neg h, fun h => if_neg h⟩
  · intro y hy
    rw [show a.table.get? (placeOf j slotCount) = some y from hy]
    exact ⟨rfl, rfl, rfl, rfl, rfl, fun h => if_neg h, fun h => if_neg h, fun h => if_neg h⟩

/-! ### The slot that the rearmost group leaves -/

theorem complete_empty (a : Asu) (k : Int) (d : Direction)
    (h : inS32 (a.rearIndex k d) = true → a.table.get? (placeOf (a.rearIndex k d) slotCount) = none) :
    a.complete k d = (a, .discarded []) := by
  have hnone : (if inS32 (a.rearIndex k d) then a.table.get? (placeOf (a.rearIndex k d) slotCount) else none) = none := by
    by_cases hj : inS32 (a.rearIndex k d) = true
    · rw [if_pos hj, h hj]
    · rw [if_neg hj]
  simp only [Asu.complete, hnone]

theorem complete_base {a : Asu} {k : Int} {d : Direction} {x : Slot} {b : BaseRecord} (hj : inS32 (a.rearIndex k d) = true)
    (hx : a.table.get? (placeOf (a.rearIndex k d) slotCount) = some x) (hb : x.completion d = .base b) : a.complete k d =
      ({ a with table := a.table.drop (placeOf (a.rearIndex k d) slotCount), completed := a.completed + 1 }, .base b) := by
  simp only [Asu.complete, if_pos hj, hx, hb]

theorem complete_discarded {a : Asu} {k : Int} {d : Direction} {x : Slot} {reports : List AsuAnswer}
    (hj : inS32 (a.rearIndex k d) = true) (hx : a.table.get? (placeOf (a.rearIndex k d) slotCount) = some x)
    (hb : x.completion d = .discarded reports) : a.complete k d =
      ({ a with table := a.table.drop (placeOf (a.rearIndex k d) slotCount), incomplete := satSucc a.incomplete },
        .discarded reports) := by
  simp only [Asu.complete, if_pos hj, hx, hb]

/-- The base record of a slot whose parts are all present (R53). -/
def baseOf (x : Slot) (d : Direction) (g : GaugeSnapshot) (v : VerticalSnapshot) (l : LateralSnapshot) : BaseRecord :=
  { j := x.j, direction := d, gauge := g, vertical := v, lateral := l, mark1 := x.mark1, mark2 := x.mark2, slip := x.slip,
    encSwitch := x.encSwitch }

theorem completion_full {x : Slot} {g : GaugeSnapshot} {v : VerticalSnapshot} {l : LateralSnapshot} (hg : x.gauge = some g)
    (hv : x.vertical = some v) (hl : x.lateral = some l) (d : Direction) : x.completion d = .base (baseOf x d g v l) := by
  simp only [Slot.completion, hg, hv, hl, baseOf]

theorem completion_lacking {x : Slot} (h : x.gauge = none ∨ x.vertical = none ∨ x.lateral = none) (d : Direction) :
    x.completion d = .discarded x.lossReport := by
  unfold Slot.completion
  split
  next hg hv hl => simp only [hg, hv, hl, reduceCtorEq, or_self] at h
  next => rfl

theorem exec_delivery_idle {s : State} {d : Delivery} {rest : List AsuMessage} (h : s.bus.toAsu = .delivery d :: rest)
    (hidle : s.asu.assembling = false) : exec .delivery s = .next { s with bus := { s.bus with toAsu := rest } } := by
  simp only [exec, execDelivery, h, hidle, if_false, Bool.false_eq_true]

theorem exec_delivery_base {s : State} {d : Delivery} {rest : List AsuMessage} (h : s.bus.toAsu = .delivery d :: rest)
    (hactive : s.asu.assembling = true) {a : Asu} {b : BaseRecord}
    (hc : (Asu.file { s.asu with latest := some d.k } d).complete d.k d.direction = (a, .base b)) :
    exec .delivery s = .next { s with asu := a, bus := { s.bus with toAsu := rest, toGcu := s.bus.toGcu ++ [.base b] } } := by
  simp only [exec, execDelivery, h, if_pos hactive, hc]
  rfl

theorem exec_delivery_discarded {s : State} {d : Delivery} {rest : List AsuMessage} (h : s.bus.toAsu = .delivery d :: rest)
    (hactive : s.asu.assembling = true) {a : Asu} {reports : List AsuAnswer}
    (hc : (Asu.file { s.asu with latest := some d.k } d).complete d.k d.direction = (a, .discarded reports)) :
    exec .delivery s =
      .next { s with asu := a, bus := { s.bus with toAsu := rest, asuAnswers := s.bus.asuAnswers ++ reports } } := by
  simp only [exec, execDelivery, h, if_pos hactive, hc]
  rfl

theorem lossReport_eq (x : Slot) (i : Nat) : x.lossReport = lossReports [(i, x)] := by
  simp only [Slot.lossReport, lossReports, List.flatMap_cons, List.flatMap_nil, List.append_nil, Bool.or_eq_true]

theorem rearIndex_file (a : Asu) (d : Delivery) : (a.file d).rearIndex d.k d.direction = a.rearIndex d.k d.direction := by
  rw [file_table_only]; rfl

theorem rearIndex_eq (a : Asu) (k : Int) (d : Direction) : a.rearIndex k d = match d with
    | .fwd => k + min a.pGauge (min a.pVertical a.pLateral)
    | .rev => k + max a.pGauge (max a.pVertical a.pLateral) := by
  cases d <;> rfl

/-- Settles O16. -/
theorem aDeliveryCompletesTheRearSlot : Obligations.ADeliveryCompletesTheRearSlot := by
  unfold Obligations.ADeliveryCompletesTheRearSlot
  intro s d rest hfront
  refine ⟨exec_delivery_idle hfront, fun hactive => ?active⟩
  intro a j place
  have hj : a.rearIndex d.k d.direction = j := (rearIndex_file { s.asu with latest := some d.k } d).trans (rearIndex_eq s.asu d.k d.direction)
  have hcounts : a.completed = s.asu.completed ∧ a.incomplete = s.asu.incomplete := by
    rw [show a = _ from file_table_only { s.asu with latest := some d.k } d]
    exact ⟨rfl, rfl⟩
  refine ⟨fun hempty => ?empty, fun hwf => ?dropped, fun x hfits hx => ⟨fun g v l hg hv hl => ?full, fun hlack => ?lacking⟩⟩
  case empty =>
    have hc : a.complete d.k d.direction = (a, .discarded []) := complete_empty a d.k d.direction fun hin => by
      rw [hj] at hin ⊢
      exact hempty.resolve_left (fun hnot => hnot ((inS32_iff j).1 hin))
    rw [exec_delivery_discarded hfront hactive hc, List.append_nil]
  case dropped =>
    have hget := Table.get?_drop (wf_file (a := { s.asu with latest := some d.k }) hwf d) place
    exact ⟨(hget place).trans (if_pos rfl), fun i hi => (hget i).trans (if_neg hi)⟩
  case full =>
    have hc := complete_base (a := a) (hj ▸ (inS32_iff j).2 hfits) (hj ▸ hx) (completion_full hg hv hl d.direction)
    rw [exec_delivery_base hfront hactive hc, hj, hcounts.1]
    rfl
  case lacking =>
    have hc := complete_discarded (a := a) (hj ▸ (inS32_iff j).2 hfits) (hj ▸ hx) (completion_lacking hlack d.direction)
    rw [exec_delivery_discarded hfront hactive hc, hj, hcounts.2, satSucc_eq, lossReport_eq x place]
    rfl

/-! ### Restarts -/

theorem lossReports_eq (slots : List (Nat × Slot)) : slots.flatMap (fun e => e.2.lossReport) = lossReports slots := by
  simp only [lossReports, Slot.lossReport, Bool.or_eq_true]

/-- What every restart does before its notice sets the state (R54). -/
theorem restartAsu_eq (s : State) (rest : List AsuMessage) (after : Asu → Asu) (notice : GcuMessage) :
    s.restartAsu rest after notice = { s with
      asu := after { s.asu with table := [], restarts := min 65535 (s.asu.restarts + s.asu.table.length) }
      bus := { s.bus with
        toAsu := rest, asuAnswers := s.bus.asuAnswers ++ lossReports s.asu.table, toGcu := s.bus.toGcu ++ [notice] } } := by
  rw [← lossReports_eq]; rfl

/-- Settles O17: each of the four notices is a restart with its own last step. -/
theorem aRestartEmptiesTheAssemblyTable : Obligations.ARestartEmptiesTheAssemblyTable := by
  unfold Obligations.ARestartEmptiesTheAssemblyTable
  refine ⟨fun s rest hfront => ?_, fun s i rest hfront => ?_, fun s rest hfront => ?_, fun s ds rest hfront => ?_⟩
  · simp only [exec, execAsuReversalNotice, hfront, restartAsu_eq]
    cases s.asu.direction <;> rfl
  · simp only [exec, execAsuStartNotice, hfront, restartAsu_eq]
    rfl
  · simp only [exec, execAsuSuspendNotice, hfront, restartAsu_eq]
  · simp only [exec, execAsuStopNotice, hfront, takeAsuStop_deliveries, restartAsu_eq]

/-! ### Marker marks -/

/-- The mark of a line set in a slot (R56). -/
def marked (line : MarkerLine) (y : Slot) : Slot :=
  match line with
  | .m1 => { y with mark1 := true }
  | .m2 => { y with mark2 := true }

theorem canPlace_iff (a : Asu) (j : Int) : a.canPlace j = true ↔ a.assembling = true ∧ Fits32 j ∧ InWindow a j := by
  unfold Asu.canPlace InWindow
  rw [Bool.and_eq_true, Bool.and_eq_true, inS32_iff, and_assoc]
  refine and_congr_right fun _ => and_congr_right fun _ => ?_
  cases a.latest with
  | none => simp only [Bool.false_eq_true, reduceCtorEq, false_and, exists_false]
  | some k =>
    simp only [Option.some.injEq, exists_eq_left', Asu.windowHas, Asu.pMin, Asu.pMax]
    cases a.direction <;> rw [Bool.and_eq_true] <;> exact and_congr decide_eq_true_iff decide_eq_true_iff

theorem place_eq (a : Asu) (line : MarkerLine) (j : Int) : a.place line j = a.inSlot j (marked line) := by cases line <;> rfl

theorem get?_place {a : Asu} {j : Int} (hj : Fits32 j) (line : MarkerLine) (i : Nat) : (a.place line j).table.get? i =
    if i = placeOf j slotCount then some (marked line ((a.table.get? i).getD (Slot.fresh j))) else a.table.get? i := by
  rw [place_eq, get?_inSlot]
  simp only [(inS32_iff j).2 hj, true_and]

/-- Settles O18. -/
theorem aMarkRequestIsTestedAgainstTheWindow : Obligations.AMarkRequestIsTestedAgainstTheWindow := by
  unfold Obligations.AMarkRequestIsTestedAgainstTheWindow
  intro s q rest hfront
  refine ⟨fun hnot => ?missed, fun hactive hfits hwindow => ?placed⟩
  case missed =>
    have hcan : s.asu.canPlace q.j = false := Bool.eq_false_iff.2 (fun h => hnot ((canPlace_iff _ _).1 h))
    simp only [exec, execMarkRequest, hfront, hcan, Bool.false_eq_true, if_false]
    rfl
  case placed =>
    have hcan : s.asu.canPlace q.j = true := (canPlace_iff _ _).2 ⟨hactive, hfits, hwindow⟩
    have hget := get?_place (a := s.asu) hfits q.line
    have hexec : exec .markRequest s = .next { s with
        asu := s.asu.place q.line q.j
        bus := { s.bus with markRequests := rest, asuAnswers := s.bus.asuAnswers ++ [.placement q.line q.number true] } } := by
      simp only [exec, execMarkRequest, hfront, hcan, if_true]
      rfl
    have htable : s.asu.place q.line q.j = { s.asu with table := (s.asu.place q.line q.j).table } := by
      rw [place_eq]; exact inSlot_eq _ _ _
    refine ⟨_, marked q.line ((s.asu.table.get? (placeOf q.j slotCount)).getD (Slot.fresh q.j)), hexec, rfl, htable,
      (hget _).trans (if_pos rfl), fun i hi => (hget i).trans (if_neg hi), ?_⟩
    cases q.line with
    | m1 =>
      refine ⟨fun _ => rfl, nofun, fun hnone => ?_, fun y hy => ?_⟩
      · rw [show s.asu.table.get? (placeOf q.j slotCount) = none from hnone]
        exact ⟨rfl, rfl, rfl, rfl, rfl, rfl, fun _ => rfl, nofun⟩
      · rw [show s.asu.table.get? (placeOf q.j slotCount) = some y from hy]
        exact ⟨rfl, rfl, rfl, rfl, rfl, rfl, fun _ => rfl, nofun⟩
    | m2 =>
      refine ⟨nofun, fun _ => rfl, fun hnone => ?_, fun y hy => ?_⟩
      · rw [show s.asu.table.get? (placeOf q.j slotCount) = none from hnone]
        exact ⟨rfl, rfl, rfl, rfl, rfl, rfl, nofun, fun _ => rfl⟩
      · rw [show s.asu.table.get? (placeOf q.j slotCount) = some y from hy]
        exact ⟨rfl, rfl, rfl, rfl, rfl, rfl, nofun, fun _ => rfl⟩

end Sys2Proof.Proofs.Assembly
end

