-- ==== Sys2Proof/Proofs/OutputRecords.lean ====
section
/-! PROOFS. Output records: which entries are formed, in what order, and what the window keeps (R70 to R73, R81 to R86). -/

namespace Sys2Proof.Proofs.OutputRecords

open Sys2Proof.Machine Sys2Proof.Safety Sys2Proof.Proofs.TablesSound

/-! ### What the parameters are formed from -/

/-- The base quantities that the window holds for index j (R73). -/
def quantitiesAt (w : Table WindowEntry) (j : Int) : Option BaseQuantities :=
  (w.get? (placeOf j windowSize)).bind (fun e => if e.j = j then some e.quantities else none)

theorem available_eq {α : Type} (c : Gcu) (q : BaseQuantities → Option α) (j : Int) :
    c.available q j = (quantitiesAt c.window j).bind q := by
  unfold Gcu.available Gcu.entryAt quantitiesAt
  cases c.window.get? (placeOf j windowSize) with
  | none => rfl
  | some e => by_cases h : e.j = j <;> simp only [h, if_true, if_false, Option.bind_some, Option.bind_none]

/-- A window entry whose record has been formed (R72). -/
def settle (e : WindowEntry) : WindowEntry := { e with pending := false }

/-- Two windows that differ in pending marks alone hold the same base quantities. -/
theorem quantitiesAt_congr {w w' : Table WindowEntry} (h : ∀ i, (w'.get? i).map settle = (w.get? i).map settle) :
    quantitiesAt w' = quantitiesAt w := by
  have hsettle : ∀ (v : Table WindowEntry) (j : Int), quantitiesAt v j =
      ((v.get? (placeOf j windowSize)).map settle).bind (fun e => if e.j = j then some e.quantities else none) := by
    intro v j
    unfold quantitiesAt
    cases v.get? (placeOf j windowSize) <;> rfl
  funext j
  rw [hsettle, hsettle, h]

/-- Pending marks and counts have no part in a record. -/
theorem outputOf_congr {c : Gcu} {w : Table WindowEntry} (h : quantitiesAt w = quantitiesAt c.window) (n : Nat) (o : Word32)
    (run : Word32) (e : WindowEntry) :
    Gcu.outputOf { c with window := w, pendingCount := n, output := o } run e = c.outputOf run e := by
  simp only [Gcu.outputOf, Gcu.parameters, Gcu.twist, Gcu.chordOffset, Gcu.curvature, available_eq, h]

theorem outputOf_recordOf (c : Gcu) (run : Word32) (e : WindowEntry) : RecordOf c run e (c.outputOf run e) :=
  ⟨rfl, rfl, rfl, rfl, rfl, rfl, rfl, rfl, rfl, rfl, rfl, rfl, rfl, rfl, Bool.or_eq_true_iff, Bool.or_eq_true_iff,
    Option.isNone_iff_eq_none⟩

/-! ### Forming the records of a list of entries -/

/-- The window once the records of the entries es are formed (R72). -/
def formedWindow (w : Table WindowEntry) (es : List WindowEntry) : Table WindowEntry :=
  es.foldl (fun w e => w.put (placeOf e.j windowSize) (settle e)) w

/-- A place of no formed entry keeps what it held, any other holds the last one formed there. -/
theorem get?_formedWindow (w : Table WindowEntry) (es : List WindowEntry) (i : Nat) :
    ((∀ e ∈ es, placeOf e.j windowSize ≠ i) ∧ (formedWindow w es).get? i = w.get? i) ∨
    ∃ e ∈ es, placeOf e.j windowSize = i ∧ (formedWindow w es).get? i = some (settle e) := by
  induction es generalizing w with
  | nil => exact .inl ⟨by simp only [List.not_mem_nil, false_implies, implies_true], rfl⟩
  | cons e es ih =>
    rcases ih (w.put (placeOf e.j windowSize) (settle e)) with ⟨hnone, hget⟩ | ⟨f, hf, hplace, hget⟩
    · rw [Table.get?_put] at hget
      by_cases hi : i = placeOf e.j windowSize
      · rw [if_pos hi] at hget
        exact .inr ⟨e, List.mem_cons_self, hi.symm, hget⟩
      · rw [if_neg hi] at hget
        exact .inl ⟨List.forall_mem_cons.2 ⟨fun h => hi h.symm, hnone⟩, hget⟩
    · exact .inr ⟨f, List.mem_cons_of_mem _ hf, hplace, hget⟩

theorem wf_formedWindow {w : Table WindowEntry} (h : w.wf = true) (es : List WindowEntry) : (formedWindow w es).wf = true := by
  induction es generalizing w with
  | nil => exact h
  | cons e es ih => exact ih (Table.wf_put h _ _)

/-- Forming the records of entries that stand in the window changes pending marks alone. -/
theorem formedWindow_settled {w : Table WindowEntry} {es : List WindowEntry}
    (hes : ∀ e ∈ es, (w.get? (placeOf e.j windowSize)).map settle = some (settle e)) (i : Nat) :
    ((formedWindow w es).get? i).map settle = (w.get? i).map settle := by
  rcases get?_formedWindow w es i with ⟨_, hget⟩ | ⟨e, he, rfl, hget⟩
  · rw [hget]
  · rw [hget, hes e he]; rfl

/-- Records of entries that stand in the window: each is formed as if none had been formed before it. -/
theorem formRecords_eq {s : State} {es : List WindowEntry}
    (hes : ∀ e ∈ es, (s.gcu.window.get? (placeOf e.j windowSize)).map settle = some (settle e)) : s.formRecords es = { s with
      gcu := { s.gcu with
        window := formedWindow s.gcu.window es, pendingCount := s.gcu.pendingCount - es.length
        output := s.gcu.output + BitVec.ofNat 32 es.length }
      bus := s.bus.handExu (es.map (fun e => .record (s.gcu.outputOf s.rcu.runNumber e))) } := by
  induction es generalizing s with
  | nil => simp [State.formRecords, formedWindow, Bus.handExu]
  | cons e es ih =>
    have hkept := formedWindow_settled (es := [e]) (fun f hf => hes f (List.mem_cons.2 (.inl (List.mem_singleton.1 hf))))
    rw [State.formRecords_cons, ih (s := s.formRecord e) (fun f hf => (hkept _).trans (hes f (List.mem_cons_of_mem _ hf)))]
    have hsame : ∀ f, (s.formRecord e).gcu.outputOf s.rcu.runNumber f = s.gcu.outputOf s.rcu.runNumber f :=
      outputOf_congr (quantitiesAt_congr hkept) _ _ _
    have hbus : (s.formRecord e).bus.handExu (es.map (fun f => .record ((s.formRecord e).gcu.outputOf s.rcu.runNumber f))) =
        s.bus.handExu ((e :: es).map (fun f => .record (s.gcu.outputOf s.rcu.runNumber f))) := by
      rw [List.map_congr_left (fun f _ => congrArg ExuMessage.record (hsame f))]
      simp only [State.formRecord, Bus.handExu, List.map_cons, List.append_assoc, List.singleton_append]
    have hcount : s.gcu.pendingCount - 1 - es.length = s.gcu.pendingCount - (e :: es).length := by
      rw [List.length_cons]; omega
    have houtput : s.gcu.output + 1 + BitVec.ofNat 32 es.length = s.gcu.output + BitVec.ofNat 32 (e :: es).length := by
      rw [List.length_cons, BitVec.ofNat_add, BitVec.add_assoc, BitVec.add_comm 1]
      rfl
    rw [← hbus, ← hcount, ← houtput]
    rfl

/-! ### The entries whose records are due -/

theorem isAhead_trans {d : Direction} {i j k : Int} (h : isAhead d i j = true) (h' : isAhead d j k = true) :
    isAhead d i k = true := by
  cases d <;> simp only [isAhead, decide_eq_true_eq] at h h' ⊢ <;> omega

theorem isAhead_of_not {d : Direction} {i j : Int} (h : isAhead d i j ≠ true) (hne : j ≠ i) : isAhead d j i = true := by
  cases d <;> simp only [isAhead, ne_eq, decide_eq_true_eq] at h ⊢ <;> omega

/-- Insertion by index keeps a strict order. -/
theorem pairwise_insertByIndex {d : Direction} {e : WindowEntry} {l : List WindowEntry}
    (hl : l.Pairwise (fun f g => isAhead d f.j g.j = true)) (he : ∀ f ∈ l, f.j ≠ e.j) :
    (insertByIndex d e l).Pairwise (fun f g => isAhead d f.j g.j = true) := by
  induction l with
  | nil => exact List.pairwise_singleton _ _
  | cons f l ih =>
    obtain ⟨hf, hl⟩ := List.pairwise_cons.1 hl
    obtain ⟨hfe, he⟩ := List.forall_mem_cons.1 he
    unfold insertByIndex
    split
    next hahead =>
      exact List.pairwise_cons.2 ⟨List.forall_mem_cons.2 ⟨hahead, fun g hg => isAhead_trans hahead (hf g hg)⟩,
        List.pairwise_cons.2 ⟨hf, hl⟩⟩
    next hnot =>
      refine List.pairwise_cons.2 ⟨fun g hg => ?_, ih hl he⟩
      rcases mem_insertByIndex.1 hg with rfl | hg
      · exact isAhead_of_not hnot hfe
      · exact hf g hg

theorem pairwise_foldr_insertByIndex {d : Direction} {l : List WindowEntry} (hl : l.Pairwise (fun f g => f.j ≠ g.j)) :
    (l.foldr (insertByIndex d) []).Pairwise (fun f g => isAhead d f.j g.j = true) := by
  have hmem : ∀ (l : List WindowEntry) f, f ∈ l.foldr (insertByIndex d) [] → f ∈ l := by
    intro l f
    induction l with
    | nil => exact id
    | cons e l ih => exact fun h => (mem_insertByIndex.1 h).elim (fun h => h ▸ List.mem_cons_self) (fun h => List.mem_cons_of_mem _ (ih h))
  induction l with
  | nil => exact List.Pairwise.nil
  | cons e l ih =>
    obtain ⟨he, hl⟩ := List.pairwise_cons.1 hl
    exact pairwise_insertByIndex (ih hl) (fun f hf => (he f (hmem l f hf)).symm)

theorem wf_pairwise {α : Type} {t : Table α} (h : t.wf = true) : t.Pairwise (fun e f => e.1 < f.1) := by
  induction t with
  | nil => exact List.Pairwise.nil
  | cons e t ih => exact List.pairwise_cons.2 ⟨(Table.wf_cons.1 h).1, ih (Table.wf_cons.1 h).2⟩

/-- An entry of a sound window stands at its place. -/
theorem place_of_mem {c : Gcu} (hc : WindowSound c) {i : Nat} {e : WindowEntry} (h : c.window.get? i = some e) :
    placeOf e.j windowSize = i :=
  Int.natCast_inj.1 ((placeOf_window e.j).trans (hc.2 i e h).symm)

/-- The entries taken are those that stand in the window, are pending and pass the test. -/
theorem mem_pendingEntries_iff {c : Gcu} (hc : WindowSound c) (due : Int → Bool) (e : WindowEntry) : e ∈ c.pendingEntries due ↔
    c.window.get? (placeOf e.j windowSize) = some e ∧ e.pending = true ∧ due e.j = true := by
  rw [Gcu.mem_pendingEntries]
  refine and_congr_left fun _ => ⟨fun ⟨i, hi⟩ => ?_, fun h => ⟨_, Table.mem_of_get? h⟩⟩
  have hget := Table.get?_of_mem hc.1 hi
  rw [place_of_mem hc hget, hget]

/-- They are taken in strict order of their indices. -/
theorem pendingEntries_pairwise {c : Gcu} (hc : WindowSound c) (due : Int → Bool) :
    (c.pendingEntries due).Pairwise (fun f g => isAhead c.direction f.j g.j = true) := by
  refine pairwise_foldr_insertByIndex (List.Pairwise.filter _ (List.pairwise_map.2 ?_))
  refine List.Pairwise.imp_of_mem (fun {e f} he hf hlt hj => ?_) (wf_pairwise hc.1)
  have hplace := place_of_mem hc (Table.get?_of_mem hc.1 he)
  rw [hj, place_of_mem hc (Table.get?_of_mem hc.1 hf)] at hplace
  omega

/-- Every entry taken stands in the window, so its record is formed as `formRecords_eq` says. -/
theorem settled_of_pending {c : Gcu} (hc : WindowSound c) (due : Int → Bool) :
    ∀ e ∈ c.pendingEntries due, (c.window.get? (placeOf e.j windowSize)).map settle = some (settle e) := fun e he => by
  rw [((mem_pendingEntries_iff hc due e).1 he).1]; rfl

/-- What the forming leaves at a place: the entry as it was, no longer pending where it was due. -/
theorem get?_formed_of_some {c : Gcu} (hc : WindowSound c) (due : Int → Bool) {i : Nat} {f : WindowEntry}
    (hf : c.window.get? i = some f) : ∃ g, (formedWindow c.window (c.pendingEntries due)).get? i = some g ∧
      g = { f with pending := g.pending } ∧ (g.pending = true ↔ f.pending = true ∧ due f.j ≠ true) := by
  have hplace := place_of_mem hc hf
  rcases get?_formedWindow c.window (c.pendingEntries due) i with ⟨hnone, hget⟩ | ⟨e, he, hi, hget⟩
  · refine ⟨f, hget.trans hf, rfl, fun hp => ⟨hp, fun hdue => hnone f ?_ hplace⟩, And.left⟩
    exact (mem_pendingEntries_iff hc due f).2 ⟨by rw [hplace, hf], hp, hdue⟩
  · obtain ⟨hstands, hp, hdue⟩ := (mem_pendingEntries_iff hc due e).1 he
    obtain rfl : e = f := Option.some.inj ((hi ▸ hstands).symm.trans hf)
    exact ⟨settle e, hget, rfl, fun h => absurd h Bool.false_ne_true, fun h => absurd hdue h.2⟩

theorem get?_formed_of_none {c : Gcu} (hc : WindowSound c) (due : Int → Bool) {i : Nat} (hi : c.window.get? i = none) :
    (formedWindow c.window (c.pendingEntries due)).get? i = none := by
  rw [← Option.map_eq_none_iff (f := settle), formedWindow_settled (settled_of_pending hc due), hi]; rfl

/-! ### Base records -/

theorem isDue_iff (c : Gcu) (m j : Int) : c.isDue m j = true ↔ Due c m j := by
  unfold Gcu.isDue Due
  cases c.direction <;> exact decide_eq_true_iff

/-- The records formed from the entries taken, under the parameters of the window they stand in. -/
def recordsOf (c : Gcu) (run : Word32) (due : Int → Bool) : List OutputRecord :=
  (c.pendingEntries due).map (c.outputOf run)

theorem recordsOf_pairwise {c : Gcu} (hc : WindowSound c) (run : Word32) (due : Int → Bool) :
    (recordsOf c run due).Pairwise (fun q r => match c.direction with
      | .fwd => q.j < r.j
      | .rev => r.j < q.j) := by
  refine List.pairwise_map.2 (List.Pairwise.imp (fun {e f} h => ?_) (pendingEntries_pairwise hc due))
  unfold isAhead at h
  cases hd : c.direction <;> rw [hd] at h <;> exact of_decide_eq_true h

/-- The state once a base record is filed and what is due is formed (R71, R72). -/
def filedState (s : State) (b : BaseRecord) (rest : List GcuMessage) : State :=
  let c := s.gcu.file b (s.pru.historyAt b.j)
  let es := c.pendingEntries (c.isDue b.j)
  { s with
    gcu := { c with
      window := formedWindow c.window es, pendingCount := c.pendingCount - es.length
      output := c.output + BitVec.ofNat 32 es.length }
    bus := Bus.handExu { s.bus with toGcu := rest } (es.map (fun e => .record (c.outputOf s.rcu.runNumber e))) }

theorem windowSound_file {c : Gcu} (hc : WindowSound c) (b : BaseRecord) (h : Option HistoryEntry) : WindowSound (c.file b h) :=
  Placed.put hc (placeOf_window b.j)

theorem exec_baseRecord {s : State} {b : BaseRecord} {rest : List GcuMessage} (hfront : s.bus.toGcu = .base b :: rest)
    (hactive : s.gcu.active = true) (hc : WindowSound s.gcu) : exec .baseRecord s = .next (filedState s b rest) := by
  have hsound := windowSound_file hc b (s.pru.historyAt b.j)
  have hformed := formRecords_eq
    (s := { s with gcu := s.gcu.file b (s.pru.historyAt b.j), bus := { s.bus with toGcu := rest } })
    (settled_of_pending hsound ((s.gcu.file b (s.pru.historyAt b.j)).isDue b.j))
  simp only [exec, execBaseRecord, hfront, State.takeBase, if_pos hactive, hformed]
  rfl

/-- Settles O19. -/
theorem aBaseRecordFormsWhatIsDue : Obligations.ABaseRecordFormsWhatIsDue := by
  unfold Obligations.ABaseRecordFormsWhatIsDue
  intro s b rest hfront
  refine ⟨fun hidle => ?idle, fun hactive hc => ?active⟩
  case idle =>
    simp only [exec, execBaseRecord, hfront, State.takeBase, hidle, Bool.false_eq_true, if_false, satSucc_eq]
  case active =>
    have hsound := windowSound_file hc b (s.pru.historyAt b.j)
    have hdue : ∀ j, (s.gcu.file b (s.pru.historyAt b.j)).isDue b.j j = true ↔ Due s.gcu b.j j := fun j => isDue_iff _ b.j j
    have hget : ∀ i, (s.gcu.file b (s.pru.historyAt b.j)).window.get? i =
        if i = (b.j % 128).toNat then some (s.gcu.entryOf b (s.pru.historyAt b.j)) else s.gcu.window.get? i :=
      fun i => Table.get?_put _ _ _ _
    have hrecord : ∀ f, RecordOf (filedState s b rest).gcu s.rcu.runNumber f
        ((s.gcu.file b (s.pru.historyAt b.j)).outputOf s.rcu.runNumber f) := by
      intro f
      rw [← outputOf_congr (c := s.gcu.file b (s.pru.historyAt b.j))
        (quantitiesAt_congr (formedWindow_settled (settled_of_pending hsound _)))]
      exact outputOf_recordOf _ _ _
    refine ⟨filedState s b rest, recordsOf (s.gcu.file b (s.pru.historyAt b.j)) s.rcu.runNumber
      ((s.gcu.file b (s.pru.historyAt b.j)).isDue b.j), s.gcu.entryOf b (s.pru.historyAt b.j), exec_baseRecord hfront hactive hc,
      rfl, rfl, rfl, rfl, rfl, rfl, rfl, rfl, fun h => congrArg positionFields h, fun x h => congrArg positionFields h, rfl,
      ?bus, ?gcu, wf_formedWindow hsound.1 _, ?_⟩
    case bus => rw [recordsOf, List.map_map]; rfl
    case gcu => rw [recordsOf, List.length_map]; rfl
    intro filed
    refine ⟨fun i hi => get?_formed_of_none hsound _ ((hget i).trans hi), fun i f hf => ?kept,
      recordsOf_pairwise hsound s.rcu.runNumber _, fun i f hf hp hd => ?formed, fun r hr => ?only⟩
    case kept =>
      obtain ⟨g, hg, heq, hpending⟩ := get?_formed_of_some hsound _ ((hget i).trans hf)
      exact ⟨g, hg, heq, hpending.trans (and_congr_right fun _ => not_congr (hdue f.j))⟩
    case formed =>
      have hplace := place_of_mem hsound ((hget i).trans hf)
      refine ⟨_, List.mem_map_of_mem ((mem_pendingEntries_iff hsound _ f).2 ⟨?_, hp, (hdue f.j).2 hd⟩), hrecord f⟩
      rw [hplace]; exact (hget i).trans hf
    case only =>
      obtain ⟨f, hf, rfl⟩ := List.mem_map.1 hr
      obtain ⟨hstands, hp, hd⟩ := (mem_pendingEntries_iff hsound _ f).1 hf
      exact ⟨_, f, (hget _).symm.trans hstands, hp, (hdue f.j).1 hd, hrecord f⟩

/-! ### Stream ends -/

/-- The state once a stream has ended (R84). -/
def flushedState (s : State) (cause : Cause) (rs : List OutputRecord) : State :=
  { s with
    gcu := { s.gcu with
      window := [], pendingCount := 0, latest := none, output := s.gcu.output + BitVec.ofNat 32 rs.length
      flushed := s.gcu.flushed + BitVec.ofNat 32 rs.length }
    bus := { s.bus with toExu := s.bus.toExu ++ rs.map ExuMessage.record ++ [.streamEnd cause s.rcu.runNumber] } }

theorem flush_eq {s : State} (hc : WindowSound s.gcu) (cause : Cause) :
    s.flush cause = flushedState s cause (recordsOf s.gcu s.rcu.runNumber (fun _ => true)) := by
  simp only [State.flush, formRecords_eq (settled_of_pending hc _), flushedState, recordsOf, List.map_map, List.length_map]
  rfl

theorem endStream_idle {s : State} (h : s.gcu.active = false) (cause : Cause) : s.endStream cause = s := by
  simp only [State.endStream, h, Bool.false_eq_true, if_false]

theorem endStream_active {s : State} (h : s.gcu.active = true) (hc : WindowSound s.gcu) (cause : Cause) :
    s.endStream cause = flushedState s cause (recordsOf s.gcu s.rcu.runNumber (fun _ => true)) := by
  rw [State.endStream, if_pos h, flush_eq hc]

/-- The notices that end a stream, with what each hands over and the cause it names (R85). -/
def streamEnds : List (Instr × GcuMessage × Cause) :=
  [(.gcuReversalNotice, .reversal, .reversed), (.gcuSuspendNotice, .suspend, .suspended), (.gcuStopNotice, .stop, .stopped)]

theorem exec_streamEnd_idle {s : State} {rest : List GcuMessage} {n : Instr × GcuMessage × Cause} (hn : n ∈ streamEnds)
    (hfront : s.bus.toGcu = n.2.1 :: rest) (hidle : s.gcu.active = false) :
    exec n.1 s = .next { s with bus := { s.bus with toGcu := rest } } := by
  have hend := fun cause => endStream_idle (s := { s with bus := { s.bus with toGcu := rest } }) hidle cause
  simp only [streamEnds, List.mem_cons, List.not_mem_nil, or_false] at hn
  rcases hn with rfl | rfl | rfl
  · simp only [exec, execGcuReversalNotice, hfront, hend, hidle, Bool.false_eq_true, if_false]
  · simp only [exec, execGcuSuspendNotice, hfront, hend]
  · simp only [exec, execGcuStopNotice, hfront, hend, ← hidle]

theorem exec_streamEnd_active {s : State} {rest : List GcuMessage} {n : Instr × GcuMessage × Cause} (hn : n ∈ streamEnds)
    (hfront : s.bus.toGcu = n.2.1 :: rest) (hactive : s.gcu.active = true) (hc : WindowSound s.gcu) :
    exec n.1 s =
      let t := flushedState { s with bus := { s.bus with toGcu := rest } } n.2.2 (recordsOf s.gcu s.rcu.runNumber (fun _ => true))
      .next { t with gcu := { t.gcu with
        active := decide (n.2.2 ≠ .stopped)
        direction := if n.2.2 = .reversed then s.gcu.direction.flip else s.gcu.direction } } := by
  have hend := fun cause => endStream_active (s := { s with bus := { s.bus with toGcu := rest } }) hactive hc cause
  simp only [streamEnds, List.mem_cons, List.not_mem_nil, or_false] at hn
  rcases hn with rfl | rfl | rfl
  · simp only [exec, execGcuReversalNotice, hfront, hend, if_pos hactive]
    simp only [flushedState, hactive]
    rfl
  · simp only [exec, execGcuSuspendNotice, hfront, hend]
    simp only [flushedState, hactive]
    rfl
  · simp only [exec, execGcuStopNotice, hfront, hend]
    rfl

/-- Settles O20. -/
theorem aStreamEndFlushesTheWindow : Obligations.AStreamEndFlushesTheWindow := by
  unfold Obligations.AStreamEndFlushesTheWindow
  refine ⟨fun s rest n hn hfront => ⟨exec_streamEnd_idle hn hfront, fun hactive hc => ?active⟩, fun s i rest hfront => ?start⟩
  case start =>
    simp only [exec, execGcuStartNotice, hfront]
    rfl
  case active =>
    have hmem := mem_pendingEntries_iff hc (fun _ => true)
    refine ⟨_, recordsOf s.gcu s.rcu.runNumber (fun _ => true), exec_streamEnd_active hn hfront hactive hc, ?count,
      fun i e he hp => ⟨_, List.mem_map_of_mem ((hmem e).2 ⟨?_, hp, rfl⟩), outputOf_recordOf _ _ _⟩, fun r hr => ?only,
      recordsOf_pairwise hc _ _, ?next⟩
    case count =>
      rw [recordsOf, List.length_map, Gcu.pendingEntries_length]
      simp only [Bool.and_true]
    case only =>
      obtain ⟨e, he, rfl⟩ := List.mem_map.1 hr
      obtain ⟨hstands, hp, _⟩ := (hmem e).1 he
      exact ⟨_, e, hstands, hp, outputOf_recordOf _ _ _⟩
    case next =>
      cases hd : s.gcu.direction <;> simp only [flushedState, hd] <;> rfl
    · rw [place_of_mem hc he, he]

end Sys2Proof.Proofs.OutputRecords
end

