-- ==== Sys2Proof/Proofs/DerivedParameters.lean ====
section
/-! PROOFS. Base quantities and derived parameters (R66 to R69, R75 to R79). -/

namespace Sys2Proof.Proofs.DerivedParameters

open Sys2Proof.Machine Sys2Proof.Safety Sys2Proof.Proofs.OutputRecords

theorem both_eq (f : Int → Int → Int) (x y : Option Int) : both f x y = x.bind (fun a => y.map (f a)) := by
  cases x <;> cases y <;> rfl

theorem satS32_eq_bounds : satS32 = fun x => max (-2147483648) (min 2147483647 x) := funext satS32_eq

/-! ### Base quantities -/

theorem crossLevelOf_isSome (c : Gcu) (b : BaseRecord) :
    (c.crossLevelOf b).isSome ↔ b.lateral.roll.isSome ∧ b.vertical.zl.isSome ∧ b.vertical.zr.isSome := by
  unfold Gcu.crossLevelOf
  split
  next hroll hzl hzr => simp only [hroll, hzl, hzr, Option.isSome_some, and_self]
  next hnot =>
    refine ⟨nofun, fun ⟨hroll, hzl, hzr⟩ => ?_⟩
    obtain ⟨⟨_, hroll⟩, ⟨_, hzl⟩, _, hzr⟩ :=
      And.intro (Option.isSome_iff_exists.1 hroll) (And.intro (Option.isSome_iff_exists.1 hzl) (Option.isSome_iff_exists.1 hzr))
    exact (hnot _ _ _ hroll hzl hzr).elim

theorem crossLevelOf_some {c : Gcu} {b : BaseRecord} {roll zl zr : Int} (hroll : b.lateral.roll = some roll)
    (hzl : b.vertical.zl = some zl) (hzr : b.vertical.zr = some zr) :
    c.crossLevelOf b = some (satS32 (roundAway (c.railDistance * roll) 1000 + zr - zl)) := by
  simp only [Gcu.crossLevelOf, hroll, hzl, hzr]

/-! ### Chords and curvature -/

theorem chordOffset_some {c : Gcu} {y : BaseQuantities → Option Int} {j y0 ya yb : Int} (h0 : c.available y j = some y0)
    (ha : c.available y (j + c.armA) = some ya) (hb : c.available y (j - c.armB) = some yb) : c.chordOffset y j =
      some (satS32 (y0 - roundAway ((c.armB : Int) * ya + (c.armA : Int) * yb) (c.armA + c.armB))) := by
  simp only [Gcu.chordOffset, h0, ha, hb]

theorem chordOffset_none {c : Gcu} {y : BaseQuantities → Option Int} {j : Int}
    (h : c.available y j = none ∨ c.available y (j + c.armA) = none ∨ c.available y (j - c.armB) = none) :
    c.chordOffset y j = none := by
  unfold Gcu.chordOffset
  split
  next h0 ha hb => simp only [h0, ha, hb, reduceCtorEq, or_self] at h
  next => rfl

theorem curvature_some {c : Gcu} {j : Int} {hi lo : BitVec 48} (hhi : c.available (·.psi) (j + c.halfBase) = some hi)
    (hlo : c.available (·.psi) (j - c.halfBase) = some lo) : c.curvature j =
      some (satS32 (roundAway ((hi - lo).toInt * 1000) (2048 * (2 * c.halfBase * c.interval)))) := by
  simp only [Gcu.curvature, hhi, hlo]

theorem curvature_none {c : Gcu} {j : Int}
    (h : c.available (·.psi) (j + c.halfBase) = none ∨ c.available (·.psi) (j - c.halfBase) = none) : c.curvature j = none := by
  unfold Gcu.curvature
  split
  next hhi hlo => simp only [hhi, hlo, reduceCtorEq, or_self] at h
  next => rfl

theorem twist_eq (c : Gcu) (j : Int) : c.twist j = (quantitiesAt c.window j).bind (fun q => q.cl.bind (fun x =>
    (quantitiesAt c.window (j - c.twistBase)).bind (fun r => r.cl.map (fun y => satS32 (x - y))))) := by
  simp only [Gcu.twist, both_eq, available_eq, Option.bind_assoc, Option.map_bind, Function.comp_def]

/-- Settles O21. -/
theorem parametersFollowTheirFormulas : Obligations.ParametersFollowTheirFormulas := by
  unfold Obligations.ParametersFollowTheirFormulas
  intro sat
  have hsat : satS32 = sat := satS32_eq_bounds
  refine ⟨fun c b => ⟨crossLevelOf_isSome c b, fun roll zl zr hroll hzl hzr => ?_, ?_, ?_, ?_, ?_, ?_, rfl⟩,
    fun c e harms hhalf hinterval => ?_⟩
  · exact ⟨_, roundAway_spec _ (by decide), hsat ▸ crossLevelOf_some hroll hzl hzr⟩
  · rw [← hsat]; exact both_eq _ _ _
  · rw [← hsat]; rfl
  · rw [← hsat]; rfl
  · rw [← hsat]; exact both_eq _ _ _
  · rw [← hsat]; exact both_eq _ _ _
  · intro at_ out
    have hat : ∀ {α : Type} (q : BaseQuantities → Option α) (j : Int), c.available q j = (at_ j).bind q := available_eq c
    refine ⟨rfl, rfl, hsat ▸ twist_eq c e.j, fun pick value hpick => ?chord, fun hi lo hhi hlo => ?curve, fun h => ?straight⟩
    case chord =>
      have hvalue : value = c.chordOffset pick e.j := by
        simp only [List.mem_cons, Prod.mk.injEq, List.not_mem_nil, or_false] at hpick
        rcases hpick with ⟨rfl, rfl⟩ | ⟨rfl, rfl⟩ | ⟨rfl, rfl⟩ | ⟨rfl, rfl⟩ <;> rfl
      simp only [← hat]
      exact ⟨fun y0 ya yb h0 ha hb => ⟨_, roundAway_spec _ harms, hvalue.trans (hsat ▸ chordOffset_some h0 ha hb)⟩,
        fun h => hvalue.trans (chordOffset_none h)⟩
    case curve =>
      rw [← hat] at hhi hlo
      exact ⟨_, roundAway_spec _ (by positivity), hsat ▸ curvature_some hhi hlo⟩
    case straight =>
      rw [← hat, ← hat] at h
      exact curvature_none h

end Sys2Proof.Proofs.DerivedParameters
end

