-- ==== Sys2Proof/Proofs/Chainage.lean ====
section
/-! PROOFS. Chainage assignment, the plan cursor and the position history (R94 to R97, R120 to R123, R125). -/

namespace Sys2Proof.Proofs.Chainage

open Sys2Proof.Machine Sys2Proof.Safety

/-! ### The history -/

theorem historyAt_eq (p : Pru) (j : Int) :
    p.historyAt j = (p.history.get? (placeOf j historySize)).bind (fun h => if h.index = j then some h else none) := by
  unfold Pru.historyAt
  cases p.history.get? (placeOf j historySize) <;> rfl

theorem get?_writeHistory (p : Pru) (e : SampleEvent) (i : Nat) : (p.writeHistory e).history.get? i =
    if i = placeOf e.k historySize then some (p.entryFor e) else p.history.get? i := Table.get?_put _ _ _ _

/-- A write replaces what stood at its place, and leaves every other index as it was (R96, R97). -/
theorem historyAt_writeHistory (p : Pru) (e : SampleEvent) (j : Int) : (p.writeHistory e).historyAt j =
    if j = e.k then some (p.entryFor e) else if (j - e.k) % 4096 = 0 then none else p.historyAt j := by
  have hplace : placeOf j historySize = placeOf e.k historySize ↔ (j - e.k) % 4096 = 0 := placeOf_eq_iff j e.k (by decide)
  rw [historyAt_eq, get?_writeHistory]
  by_cases hmod : (j - e.k) % 4096 = 0
  · rw [if_pos (hplace.2 hmod), if_pos hmod, Option.bind_some]
    by_cases hj : j = e.k
    · rw [if_pos hj, if_pos (show (p.entryFor e).index = j from hj.symm)]
    · rw [if_neg hj, if_neg (show (p.entryFor e).index ≠ j from fun h => hj h.symm)]
  · rw [if_neg (fun h => hmod (hplace.1 h)), if_neg hmod, if_neg (fun h => hmod (by rw [h, Int.sub_self]; rfl)), historyAt_eq]

/-- After n consecutive upward indices the latest 4096 of them are in history, and no other index. -/
theorem isSome_historyAt_run (p : Pru) (e : SampleEvent) (n : Nat) (j : Int) (hempty : p.history = []) :
    (((List.range n).foldl (fun q i => q.writeHistory { e with k := e.k + i }) p).historyAt j).isSome ↔
      e.k ≤ j ∧ j < e.k + n ∧ e.k + n - 4096 ≤ j := by
  induction n with
  | zero =>
    rw [List.range_zero, List.foldl_nil, historyAt_eq, hempty]
    refine ⟨nofun, fun ⟨_, _, _⟩ => ?_⟩
    omega
  | succ n ih =>
    rw [List.range_succ, List.foldl_append, List.foldl_cons, List.foldl_nil, historyAt_writeHistory]
    dsimp only
    split_ifs with hj hmod
    · simp only [Option.isSome_some, true_iff]; omega
    · simp only [Option.isSome_none, Bool.false_eq_true, false_iff]; omega
    · rw [ih]; omega

/-- Settles O24. -/
theorem theHistoryHoldsTheLatest4096 : Obligations.TheHistoryHoldsTheLatest4096 :=
  ⟨historyAt_writeHistory, isSome_historyAt_run⟩

/-! ### The assignment -/

theorem slewStep_eq {p : Pru} (h : 0 ≤ p.slewLimit) : p.slewStep = max (-p.slewLimit) (min p.slewLimit p.residual) := by
  unfold Pru.slewStep signOf
  split_ifs <;> omega

/-- The PRU once the chainage of event e is assigned, with the slew step taken (R94, R95). -/
def assignedPru (p : Pru) (e : SampleEvent) (interval : Nat) : Pru :=
  { p with
    ccur := assigned p e interval, residual := p.residual - max (-p.slewLimit) (min p.slewLimit p.residual)
    correction := max (-2147483648) (min 2147483647 (p.correction + max (-p.slewLimit) (min p.slewLimit p.residual)))
    latest := some e.k, direction := e.direction }

theorem assign_eq {p : Pru} {e : SampleEvent} {interval : Nat} (h : 0 ≤ p.slewLimit) (hfits : Fits32 (assigned p e interval)) :
    p.assign e interval = assignedPru p e interval := by
  have hccur : satS32 (p.ccur + p.advance e.k interval + p.slewStep) = assigned p e interval := by
    rw [slewStep_eq h]; exact satS32_of_inS32 ((inS32_iff _).2 hfits)
  simp only [Pru.assign, hccur]
  simp only [slewStep_eq h, satS32_eq, assignedPru]

theorem exec_pruSampleEvent {s : State} {e : SampleEvent} {rest : List Message} (hfront : s.bus.toPru = .event e :: rest) :
    exec .pruSampleEvent s =
      .next { s with pru := s.pru.takeEvent e s.odu.interval, bus := { s.bus with toPru := rest } } := by
  simp only [exec, execPruSampleEvent, hfront]

/-! ### The cursor -/

theorem sense_pos_iff (o : Orientation) (d : Direction) : 0 < sense o d ↔ o.sign * d.sign = 1 := by
  cases o <;> cases d <;> decide

theorem isBeyond_iff (p : Pru) (x : PlanEntry) (d : Direction) (c : Int) :
    (p.segmentOf x).isBeyond (sense x.orientation d) c = true ↔ Beyond p x d c := by
  simp only [Segment.isBeyond, Beyond, sense_pos_iff, Pru.segmentOf]
  split <;> exact decide_eq_true_iff

theorem isBefore_iff (p : Pru) (x : PlanEntry) (d : Direction) (c : Int) :
    (p.segmentOf x).isBefore (sense x.orientation d) c = true ↔ Before p x d c := by
  simp only [Segment.isBefore, Before, sense_pos_iff, Pru.segmentOf]
  split <;> exact decide_eq_true_iff

/-- No step where the cursor is on no entry, or the exit of its entry is not passed (R121). -/
theorem cursorLoop_stays {p : Pru} (h : ∀ e x, p.cursor = some e → p.plan[e]? = some x → ¬Beyond p x p.direction p.ccur)
    (fuel : Nat) : p.cursorLoop fuel = p := by
  cases fuel with
  | zero => rfl
  | succ fuel =>
    unfold Pru.cursorLoop
    split
    next => rfl
    next e he =>
      split
      next => rfl
      next x hx => exact if_neg (fun hb => h e x he hx ((isBeyond_iff p x _ _).1 hb))

/-- What an event writes into the history, once the cursor has made its step. -/
theorem takeEvent_eq (p : Pru) (e : SampleEvent) (interval : Nat) : p.takeEvent e interval =
    (if p.running then (p.assign e interval).cursorStep else p.assign e interval).writeHistory e := rfl

theorem currentEntry_eq (p : Pru) : p.currentEntry = p.cursor.bind (fun e => p.plan[e]?) := by
  unfold Pru.currentEntry
  cases p.cursor <;> rfl

theorem historyAt_taken (p : Pru) (e : SampleEvent) : (p.writeHistory e).historyAt e.k = some (p.entryFor e) := by
  rw [historyAt_writeHistory, if_pos rfl]

/-- Settles O22. -/
theorem anAssignmentAdvancesAndSlews : Obligations.AnAssignmentAdvancesAndSlews := by
  unfold Obligations.AnAssignmentAdvancesAndSlews
  intro s e rest hfront p c delta hlimit hc hq hstays
  have hq' : max (-2147483648) (min 2147483647 (p.correction + delta)) = p.correction + delta := by
    unfold Fits32 at hq; omega
  have hassign : p.assign e s.odu.interval = { p with
      ccur := c, residual := p.residual - delta, correction := p.correction + delta, latest := some e.k
      direction := e.direction } := by
    rw [← hq']; exact assign_eq hlimit hc
  have htaken : p.takeEvent e s.odu.interval = (p.assign e s.odu.interval).writeHistory e := by
    rw [takeEvent_eq]
    split
    next hrun =>
      rw [Pru.cursorStep, cursorLoop_stays]
      rw [hassign]
      exact fun e0 x => hstays e0 x hrun
    next => rfl
  refine ⟨_, exec_pruSampleEvent hfront, ?_, fun i hi => ?_, ?_⟩
  · rw [htaken, hassign]; rfl
  · rw [htaken, get?_writeHistory, if_neg (show i ≠ placeOf e.k historySize from hi), hassign]
  · rw [htaken, historyAt_taken, hassign]
    simp only [Pru.entryFor, currentEntry_eq, Option.map_bind]
    rfl

/-! ### The walk of the cursor -/

/-- One look at the neighbour: the cursor leaves the plan (R123). -/
theorem cursorLoop_leaves {p : Pru} {e : Nat} {x : PlanEntry} (he : p.cursor = some e) (hx : p.plan[e]? = some x)
    (hb : Beyond p x p.direction p.ccur) (hnone : p.neighbour e = none) (fuel : Nat) :
    p.cursorLoop (fuel + 1) = { p with cursor := none } := by
  simp only [Pru.cursorLoop, he, hx, if_pos ((isBeyond_iff p x _ _).2 hb), hnone]

section
variable {p : Pru} {e e' : Nat} {x x' : PlanEntry} (he : p.cursor = some e) (hx : p.plan[e]? = some x)
  (hb : Beyond p x p.direction p.ccur) (hnext : p.neighbour e = some (e', x'))
include he hx hb hnext

/-- It re-bases on another line, or before its entry boundary (R122). -/
theorem cursorLoop_rebases (h : (p.segment x'.segment).lineCode ≠ p.lineCode ∨ Before p x' p.direction p.ccur) (fuel : Nat) :
    p.cursorLoop (fuel + 1) = (p.setCursor e' x').rebase x' := by
  simp only [Pru.cursorLoop, he, hx, if_pos ((isBeyond_iff p x _ _).2 hb), hnext]
  by_cases hline : (p.segmentOf x').lineCode ≠ p.lineCode
  · exact if_pos hline
  · rw [if_neg hline, if_pos ((isBefore_iff p x' _ _).2 (h.resolve_left hline))]

/-- It stays within an entry of the same line (R121). -/
theorem cursorLoop_enters (hline : (p.segment x'.segment).lineCode = p.lineCode) (hbefore : ¬Before p x' p.direction p.ccur)
    (hbeyond : ¬Beyond p x' p.direction p.ccur) (fuel : Nat) : p.cursorLoop (fuel + 1) = p.setCursor e' x' := by
  simp only [Pru.cursorLoop, he, hx, if_pos ((isBeyond_iff p x _ _).2 hb), hnext]
  rw [if_neg (show ¬(p.segmentOf x').lineCode ≠ p.lineCode from not_not_intro hline),
    if_neg (fun h => hbefore ((isBefore_iff p x' _ _).1 h)),
    if_neg (fun h => hbeyond ((isBeyond_iff p x' _ _).1 h))]

/-- It goes on past an entry of the same line whose exit is passed too (R121). -/
theorem cursorLoop_passes (hline : (p.segment x'.segment).lineCode = p.lineCode) (hbefore : ¬Before p x' p.direction p.ccur)
    (hbeyond : Beyond p x' p.direction p.ccur) (fuel : Nat) : p.cursorLoop (fuel + 1) = (p.setCursor e' x').cursorLoop fuel := by
  conv_lhs => unfold Pru.cursorLoop
  simp only [he, hx, if_pos ((isBeyond_iff p x _ _).2 hb), hnext]
  rw [if_neg (show ¬(p.segmentOf x').lineCode ≠ p.lineCode from not_not_intro hline),
    if_neg (fun h => hbefore ((isBefore_iff p x' _ _).1 h)),
    if_pos ((isBeyond_iff p x' _ _).2 hbeyond)]

end

/-- What the cursor step may change. -/
theorem cursorLoop_frame (fuel : Nat) (p : Pru) : p.cursorLoop fuel = { p with
    ccur := (p.cursorLoop fuel).ccur, residual := (p.cursorLoop fuel).residual, lineMark := (p.cursorLoop fuel).lineMark
    cursor := (p.cursorLoop fuel).cursor, orientation := (p.cursorLoop fuel).orientation
    lineCode := (p.cursorLoop fuel).lineCode } := by
  induction fuel generalizing p with
  | zero => rfl
  | succ fuel ih =>
    unfold Pru.cursorLoop
    split
    next => rfl
    next e he =>
      split
      next => rfl
      next x hx =>
        split
        · split
          next => rfl
          next e' x' hnext =>
            dsimp only
            split
            · rfl
            · split
              · rfl
              · split
                · exact ih (p.setCursor e' x')
                · rfl
        · rfl

/-- The entries that the cursor goes past: of the same line, with their exit passed too (R121). -/
def Passed (p : Pru) (e n : Nat) : Prop :=
  ∀ m, 1 ≤ m → m ≤ n → ∃ y, entryFrom p p.direction e m = some y ∧ (p.segment y.segment).lineCode = p.lineCode ∧
    ¬Before p y p.direction p.ccur ∧ Beyond p y p.direction p.ccur

/-- The cursor stands n entries on from e, with nothing else changed but the orientation. -/
structure Walked (p : Pru) (e n : Nat) (q : Pru) : Prop where
  frame : q = { p with cursor := some (entryIndex p.direction e n), orientation := q.orientation }
  stands : ∃ x, entryFrom p p.direction e n = some x ∧ Beyond p x p.direction p.ccur
  start : n = 0 → q.orientation = p.orientation
  oriented : ∀ z, 1 ≤ n → entryFrom p p.direction e n = some z → q.orientation = z.orientation

theorem entryFrom_rev (p : Pru) (e n : Nat) : entryFrom p .rev e n = if n ≤ e then p.plan[e - n]? else none := rfl

theorem entryFrom_zero (p : Pru) (d : Direction) (e : Nat) : entryFrom p d e 0 = p.plan[e]? := by
  cases d
  · rfl
  · rw [entryFrom_rev, if_pos (Nat.zero_le e), Nat.sub_zero]

theorem plan_of_entryFrom {p : Pru} {d : Direction} {e n : Nat} {y : PlanEntry} (h : entryFrom p d e n = some y) :
    p.plan[entryIndex d e n]? = some y ∧ (d = .rev → n ≤ e) := by
  cases d with
  | fwd => exact ⟨h, nofun⟩
  | rev =>
    rw [entryFrom_rev] at h
    split at h
    next hn => exact ⟨h, fun _ => hn⟩
    next => cases h

/-- The neighbour of the entry n places on is the entry n + 1 places on. -/
theorem neighbour_entryIndex {p : Pru} {e n : Nat} (h : p.direction = .rev → n ≤ e) :
    p.neighbour (entryIndex p.direction e n) =
      (entryFrom p p.direction e (n + 1)).map (fun y => (entryIndex p.direction e (n + 1), y)) := by
  unfold Pru.neighbour entryIndex entryFrom
  cases hd : p.direction with
  | fwd => rfl
  | rev =>
    have hn := h hd
    by_cases hz : e - n = 0
    · simp only [hz, if_true, if_neg (show ¬n + 1 ≤ e by omega), Option.map_none]
    · simp only [hz, if_false, if_pos (show n + 1 ≤ e by omega), Nat.sub_sub]

theorem cursorLoop_walk {p : Pru} {e : Nat} {x : PlanEntry} (he : p.cursor = some e) (hx : p.plan[e]? = some x)
    (hb : Beyond p x p.direction p.ccur) {n : Nat} (hpassed : Passed p e n) (fuel : Nat) :
    ∃ q, Walked p e n q ∧ p.cursorLoop (n + fuel) = q.cursorLoop fuel := by
  induction n generalizing fuel with
  | zero =>
    refine ⟨p, ⟨?_, ⟨x, (entryFrom_zero p _ e).trans hx, hb⟩, fun _ => rfl, fun z hz => absurd hz (by decide)⟩, by rw [Nat.zero_add]⟩
    have hindex : entryIndex p.direction e 0 = e := by cases p.direction <;> rfl
    rw [hindex, ← he]
  | succ n ih =>
    obtain ⟨q, hq, hloop⟩ := ih (fun m h1 h2 => hpassed m h1 (by omega)) (fuel + 1)
    obtain ⟨z, hz, hzb⟩ := hq.stands
    obtain ⟨y, hy, hline, hbefore, hbeyond⟩ := hpassed (n + 1) (by omega) le_rfl
    obtain ⟨hplan, hrev⟩ := plan_of_entryFrom hz
    have hnext := (neighbour_entryIndex hrev).trans (congrArg _ hy)
    have hframe := hq.frame
    generalize q.orientation = o at hframe
    subst hframe
    refine ⟨p.setCursor (entryIndex p.direction e (n + 1)) y, ⟨?_, ⟨y, hy, hbeyond⟩, nofun, fun w _ hw => ?_⟩, ?_⟩
    · rw [Pru.setCursor, Pru.segmentOf, hline]
    · rw [← Option.some.inj (hy.symm.trans hw)]; rfl
    · rw [show n + 1 + fuel = n + (fuel + 1) by omega, hloop]
      exact cursorLoop_passes (p := { p with cursor := some (entryIndex p.direction e n), orientation := o })
        rfl hplan hzb hnext hline hbefore hbeyond fuel

theorem le_length_of_entryFrom {p : Pru} {d : Direction} {e n : Nat} {x y : PlanEntry} (hx : p.plan[e]? = some x)
    (hy : entryFrom p d e n = some y) : n ≤ p.plan.length := by
  obtain ⟨hplan, hrev⟩ := plan_of_entryFrom hy
  obtain ⟨hlt, _⟩ := List.getElem?_eq_some_iff.1 hx
  obtain ⟨hlt', _⟩ := List.getElem?_eq_some_iff.1 hplan
  cases d with
  | fwd =>
    have hlt' : e + n < p.plan.length := hlt'
    omega
  | rev => have := hrev rfl; omega

section
variable {p : Pru} {e n : Nat} {x : PlanEntry} (he : p.cursor = some e) (hx : p.plan[e]? = some x)
  (hb : Beyond p x p.direction p.ccur) (hpassed : Passed p e n)
include he hx hb hpassed

/-- The fuel of the step reaches past the n entries, with one look more to spare. -/
theorem cursorStep_walk : ∃ (q : Pru) (fuel : Nat), Walked p e n q ∧ p.cursorStep = q.cursorLoop (fuel + 1) := by
  obtain ⟨q, hq, hloop⟩ := cursorLoop_walk he hx hb hpassed (p.plan.length - n + 1)
  obtain ⟨z, hz, _⟩ := hq.stands
  have hn := le_length_of_entryFrom hx hz
  refine ⟨q, p.plan.length - n, hq, ?_⟩
  rw [Pru.cursorStep, ← hloop, show n + (p.plan.length - n + 1) = p.plan.length + 1 by omega]

/-- With no entry left the cursor leaves the plan, with the orientation of the entry it stood on (R123). -/
theorem cursorStep_leaves (hnone : entryFrom p p.direction e (n + 1) = none) :
    ∃ q, Walked p e n q ∧ p.cursorStep = { q with cursor := none } := by
  obtain ⟨q, fuel, hq, hstep⟩ := cursorStep_walk he hx hb hpassed
  obtain ⟨z, hz, hzb⟩ := hq.stands
  obtain ⟨hplan, hrev⟩ := plan_of_entryFrom hz
  have hnext := (neighbour_entryIndex hrev).trans (congrArg _ hnone)
  refine ⟨q, hq, hstep.trans ?_⟩
  rw [hq.frame]
  exact cursorLoop_leaves (p := { p with cursor := some (entryIndex p.direction e n), orientation := q.orientation })
    rfl hplan hzb hnext fuel

variable {y : PlanEntry} (hy : entryFrom p p.direction e (n + 1) = some y)
include hy

theorem cursorStep_rebases (h : (p.segment y.segment).lineCode ≠ p.lineCode ∨ Before p y p.direction p.ccur) :
    p.cursorStep = (p.setCursor (entryIndex p.direction e (n + 1)) y).rebase y := by
  obtain ⟨q, fuel, hq, hstep⟩ := cursorStep_walk he hx hb hpassed
  obtain ⟨z, hz, hzb⟩ := hq.stands
  obtain ⟨hplan, hrev⟩ := plan_of_entryFrom hz
  have hnext := (neighbour_entryIndex hrev).trans (congrArg _ hy)
  rw [hstep, hq.frame]
  exact cursorLoop_rebases (p := { p with cursor := some (entryIndex p.direction e n), orientation := q.orientation })
    rfl hplan hzb hnext h fuel

theorem cursorStep_enters (hline : (p.segment y.segment).lineCode = p.lineCode) (hbefore : ¬Before p y p.direction p.ccur)
    (hbeyond : ¬Beyond p y p.direction p.ccur) : p.cursorStep = p.setCursor (entryIndex p.direction e (n + 1)) y := by
  obtain ⟨q, fuel, hq, hstep⟩ := cursorStep_walk he hx hb hpassed
  obtain ⟨z, hz, hzb⟩ := hq.stands
  obtain ⟨hplan, hrev⟩ := plan_of_entryFrom hz
  have hnext := (neighbour_entryIndex hrev).trans (congrArg _ hy)
  rw [hstep, hq.frame]
  exact cursorLoop_enters (p := { p with cursor := some (entryIndex p.direction e n), orientation := q.orientation })
    rfl hplan hzb hnext hline hbefore hbeyond fuel

end

theorem entryBoundary_eq (p : Pru) (y : PlanEntry) (d : Direction) : (p.segmentOf y).entryBoundary (sense y.orientation d) =
    if y.orientation.sign * d.sign = 1 then (p.segment y.segment).lo else (p.segment y.segment).hi := by
  simp only [Segment.entryBoundary, sense_pos_iff, Pru.segmentOf]

theorem entryFor_segment {p : Pru} {e : Nat} {y : PlanEntry} (he : p.cursor = some e) (hy : p.plan[e]? = some y) (v : SampleEvent) :
    (p.entryFor v).segment = some y.segment := by
  simp only [Pru.entryFor, currentEntry_eq, he, Option.bind_some, hy, Option.map_some]

/-- Settles O23, from the step that the cursor makes once the chainage is assigned. -/
theorem theCursorMovesWithTheChainage : Obligations.TheCursorMovesWithTheChainage := by
  unfold Obligations.TheCursorMovesWithTheChainage
  intro s e rest e0 x hfront p d c delta hrun he hx hlimit hc hb
  have htaken : p.takeEvent e s.odu.interval = (assignedPru p e s.odu.interval).cursorStep.writeHistory e := by
    rw [takeEvent_eq, if_pos hrun, assign_eq hlimit hc]
  have hframe := cursorLoop_frame (p.plan.length + 1) (assignedPru p e s.odu.interval)
  change (assignedPru p e s.odu.interval).cursorStep = _ at hframe
  refine ⟨_, (assignedPru p e s.odu.interval).cursorStep.entryFor e, exec_pruSampleEvent hfront, ?_, ?_, ?_, fun i hi => ?_, ?_⟩
  · rw [htaken]; exact historyAt_taken _ _
  · rw [htaken, congrArg (fun q => Pru.writeHistory q e) hframe]; rfl
  · rw [htaken, congrArg (fun q => Pru.entryFor q e) hframe, congrArg (fun q => Pru.writeHistory q e) hframe]; rfl
  · rw [htaken, get?_writeHistory, if_neg (show i ≠ placeOf e.k historySize from hi), congrArg Pru.history hframe]; rfl
  · intro sameLine passed n hpassed
    refine ⟨fun hnone => ?off, fun y hy => ⟨fun h => ?rebased, fun hline hbefore hbeyond => ?within⟩⟩
    case off =>
      obtain ⟨q, hq, hstep⟩ := cursorStep_leaves (p := assignedPru p e s.odu.interval) he hx hb hpassed hnone
      obtain ⟨hq, _, hstart, horiented⟩ := hq
      rw [htaken, hstep]
      generalize q.orientation = o at hq hstart horiented
      subst hq
      exact ⟨rfl, rfl, rfl, rfl, rfl, rfl, hstart, horiented⟩
    case rebased =>
      have hstep := cursorStep_rebases (p := assignedPru p e s.odu.interval) he hx hb hpassed hy h
      rw [htaken, hstep]
      exact ⟨rfl, entryBoundary_eq _ y d, rfl, rfl, rfl, rfl,
        entryFor_segment (p := ((assignedPru p e s.odu.interval).setCursor (entryIndex d e0 (n + 1)) y).rebase y) rfl
          (plan_of_entryFrom hy).1 e⟩
    case within =>
      have hstep := cursorStep_enters (p := assignedPru p e s.odu.interval) he hx hb hpassed hy hline hbefore hbeyond
      rw [htaken, hstep]
      exact ⟨rfl, rfl, rfl, rfl, hline, rfl,
        entryFor_segment (p := (assignedPru p e s.odu.interval).setCursor (entryIndex d e0 (n + 1)) y) rfl
          (plan_of_entryFrom hy).1 e⟩

end Sys2Proof.Proofs.Chainage
end

