-- ==== Sys2Proof/Proofs/LocationFixes.lean ====
section
/-! PROOFS. FIX_AT and FIX_NOW: the checks in their order, the fix applied, the placement on the plan (R100 to R107, R126 to R129). -/

namespace Sys2Proof.Proofs.LocationFixes

open Sys2Proof.Machine Sys2Proof.Safety Sys2Proof.Proofs.RecordStore

/-! ### The two requests -/

/-- The fix that a request asks for at index j (R100). -/
def fixOf (rq : Request) (off : Nat) (j : Int) (port : Port) : FixRequest :=
  { j := j, chainage := getS32 rq.payload off, lineCode := getU16 rq.payload (off + 4), grade := getU8 rq.payload (off + 6)
    force := decide (getU8 rq.payload (off + 7) = 1), port := port }

theorem markOf_of_le {n : Nat} (h : n ≤ 1) : markOf n = some (decide (n = 1)) := by
  obtain rfl | rfl : n = 0 ∨ n = 1 := by omega
  · rfl
  · rfl

theorem markOf_of_lt {n : Nat} (h : 1 < n) : markOf n = none := by
  unfold markOf
  split
  · omega
  · omega
  · rfl

theorem fixFields_some {rq : Request} {off : Nat} (j : Int) (port : Port) (hline : getU16 rq.payload (off + 4) ≠ 0)
    (hlow : 1 ≤ getU8 rq.payload (off + 6)) (hhigh : getU8 rq.payload (off + 6) ≤ 3) (hforce : getU8 rq.payload (off + 7) ≤ 1) :
    fixFields rq off j port = some (fixOf rq off j port) := by
  simp only [fixFields, markOf_of_le hforce]
  exact if_pos ⟨hline, hlow, hhigh⟩

theorem fixFields_none {rq : Request} {off : Nat} (j : Int) (port : Port)
    (h : getU16 rq.payload (off + 4) = 0 ∨ getU8 rq.payload (off + 6) = 0 ∨ 3 < getU8 rq.payload (off + 6) ∨
      1 < getU8 rq.payload (off + 7)) : fixFields rq off j port = none := by
  by_cases hforce : getU8 rq.payload (off + 7) ≤ 1
  · simp only [fixFields, markOf_of_le hforce]
    exact if_neg (fun ⟨hline, hlow, hhigh⟩ => by omega)
  · simp only [fixFields, markOf_of_lt (not_le.1 hforce)]

/-- The service of FIX_NOW, or that of FIX_AT. -/
def serveFix (now : Bool) : Port → Request → State → State × Reply := if now then serveFixNow else serveFixAt

/-- The index a fix names (R100, R107). -/
def fixIndex (now : Bool) (s : State) (rq : Request) : Int :=
  if now then s.odu.positionIndex + getS16 rq.payload 0 else getS32 rq.payload 0

/-- Where the fields that the two requests share begin. -/
def fixOffset (now : Bool) : Nat := if now then 2 else 4

section
variable {now : Bool} {port : Port} {rq : Request} {s : State}

theorem exec_fix {t : State} {r : Reply} (h : Serves s port rq (if now then .fixNow else .fixAt))
    (hf : serveFix now port rq s = (t, r)) :
    exec (if now then .fixNow else .fixAt) s = .next { t with cpc := t.cpc.answer port rq r } := by
  cases now
  · exact congrArg Host.Outcome.next (serve_of_serves h hf)
  · exact congrArg Host.Outcome.next (serve_of_serves h hf)

theorem takesFixes_iff : s.takesFixes = true ↔ s.rcu.runState = .running ∧ s.resumeWaits = false := by
  simp only [State.takesFixes, Bool.and_eq_true, beq_iff_eq, Bool.not_eq_true']

theorem serveFix_state (h : s.takesFixes ≠ true) : serveFix now port rq s = (s, .of .state []) := by
  cases now
  · exact if_neg h
  · exact if_neg h

theorem serveFix_fields (h : s.takesFixes = true) (hnone : fixFields rq (fixOffset now) (fixIndex now s rq) port = none) :
    serveFix now port rq s = (s, .of .range []) := by
  cases now
  · simp only [fixOffset, fixIndex, Bool.false_eq_true, if_false] at hnone
    simp only [serveFix, Bool.false_eq_true, if_false, serveFixAt, if_pos h, hnone, answered]
  · simp only [fixOffset, fixIndex, if_true] at hnone
    simp only [serveFix, if_true, serveFixNow, if_pos h, hnone, answered]

theorem serveFix_index {q : FixRequest} (h : s.takesFixes = true)
    (hsome : fixFields rq (fixOffset now) (fixIndex now s rq) port = some q) :
    serveFix now port rq s = if inS32 (fixIndex now s rq) then s.applyFix q else (s, .of .range []) := by
  cases now
  · simp only [fixOffset, fixIndex, Bool.false_eq_true, if_false] at hsome ⊢
    simp only [serveFix, Bool.false_eq_true, if_false, serveFixAt, if_pos h, hsome, inS32_getS32, if_true]
  · simp only [fixOffset, fixIndex, if_true] at hsome ⊢
    simp only [serveFix, if_true, serveFixNow, if_pos h, hsome, answered]

end

/-! ### The checks -/

theorem duplicateOf_some {p : Pru} {q : FixRequest} {f : Fix} (hhead : (p.fixes.filter (fun f => f.conflicts q.j)).head? = some f)
    (h : ∃ g ∈ p.fixes.filter (fun f => f.conflicts q.j), q.grade ≤ g.grade) : p.duplicateOf q = some f := by
  unfold Pru.duplicateOf
  rw [if_neg]
  · exact hhead
  · obtain ⟨g, hg, hgrade⟩ := h
    exact fun hall => absurd (of_decide_eq_true (List.all_eq_true.1 hall g hg)) (by omega)

theorem duplicateOf_none {p : Pru} {q : FixRequest} (h : ∀ g ∈ p.fixes.filter (fun f => f.conflicts q.j), g.grade < q.grade) :
    p.duplicateOf q = none :=
  if_pos (List.all_eq_true.2 (fun g hg => decide_eq_true (h g hg)))

/-- The plan entry's segment has the line code and holds the chainage (R127). -/
def HoldsChainage (p : Pru) (line : Nat) (c : Int) (x : PlanEntry) : Prop :=
  (p.segment x.segment).lineCode = line ∧ (p.segment x.segment).lo ≤ c ∧ c ≤ (p.segment x.segment).hi

section
variable {p : Pru} {line : Nat} {c : Int}

theorem searched_iff (x : PlanEntry) : (decide ((p.segmentOf x).lineCode = line) && (p.segmentOf x).contains c) = true ↔
    HoldsChainage p line c x := by
  rw [Segment.contains, Bool.and_eq_true, Bool.and_eq_true, decide_eq_true_iff, decide_eq_true_iff, decide_eq_true_iff]
  rfl

theorem planSearch_none_iff : p.planSearch line c = none ↔ ∀ x ∈ p.plan, ¬HoldsChainage p line c x := by
  simp only [Pru.planSearch, List.find?_eq_none, searched_iff, List.mem_mapIdx]
  constructor
  · intro h x hx
    obtain ⟨i, hi, rfl⟩ := List.mem_iff_getElem.1 hx
    exact h (i, p.plan[i]) ⟨i, hi, rfl⟩
  · rintro h _ ⟨i, hi, rfl⟩
    exact h _ (List.getElem_mem hi)

theorem planSearch_some_iff {i : Nat} {x : PlanEntry} : p.planSearch line c = some (i, x) ↔
    p.plan[i]? = some x ∧ HoldsChainage p line c x ∧ ∀ n y, n < i → p.plan[n]? = some y → ¬HoldsChainage p line c y := by
  have hnot : ∀ y, (decide ((p.segmentOf y).lineCode = line) && (p.segmentOf y).contains c) = false ↔ ¬HoldsChainage p line c y :=
    fun y => Bool.eq_false_iff.trans (not_congr (searched_iff y))
  simp only [Pru.planSearch, List.find?_eq_some_iff_getElem, searched_iff, List.getElem_mapIdx, List.length_mapIdx,
    Bool.not_eq_true', Prod.mk.injEq, hnot]
  constructor
  · rintro ⟨hx, i, hi, ⟨rfl, rfl⟩, hfirst⟩
    refine ⟨List.getElem?_eq_getElem hi, hx, fun n y hn hy => ?_⟩
    obtain ⟨_, rfl⟩ := List.getElem?_eq_some_iff.1 hy
    exact hfirst n hn
  · rintro ⟨hx, hh, hfirst⟩
    obtain ⟨hi, rfl⟩ := List.getElem?_eq_some_iff.1 hx
    exact ⟨hh, i, hi, ⟨rfl, rfl⟩, fun n hn => hfirst n _ hn (List.getElem?_eq_getElem _)⟩

end

/-! ### A fix of the current line -/

section
variable {p : Pru} {q : FixRequest} {cref since : Int} {epoch : Word16}

theorem recorded_iff (o : Option HistoryEntry) (other : HistoryEntry → Prop) [DecidablePred other] :
    o.any (fun h => decide (other h)) = true ↔ ∃ h, o = some h ∧ other h := by
  cases o with
  | none => exact ⟨nofun, fun ⟨_, h, _⟩ => nomatch h⟩
  | some h => exact decide_eq_true_iff.trans ⟨fun ho => ⟨h, rfl, ho⟩, fun ⟨_, hh, ho⟩ => Option.some.inj hh ▸ ho⟩

theorem fixHere_offRoute {h : HistoryEntry} (hat : p.historyAt q.j = some h) (hline : h.lineCode ≠ q.lineCode) :
    p.fixHere q (some (cref, since)) epoch = (p, .of .offRoute []) :=
  if_pos ((recorded_iff _ _).2 ⟨h, hat, hline⟩)

/-- The list entry of a fix of the current line (R106). -/
def hereEntry (p : Pru) (q : FixRequest) (cref since : Int) (epoch : Word16) : Fix :=
  { j := q.j, chainage := q.chainage, error := q.chainage - cref, errorNow := q.chainage - cref - since, grade := q.grade
    port := q.port, lineCode := q.lineCode, epoch := epoch
    kind := if q.force then .forced
      else if q.force || decide (p.stepThreshold < ((q.chainage - cref - since).natAbs : Int)) then .step else .slew }

/-- The PRU with the error now applied and the entry pushed, before the plan search of R129. -/
def hereApplied (p : Pru) (q : FixRequest) (cref since : Int) (epoch : Word16) : Pru :=
  (p.correct (q.chainage - cref - since)
    (q.force || decide (p.stepThreshold < ((q.chainage - cref - since).natAbs : Int)))).pushFix (hereEntry p q cref since epoch)

variable (hline : ∀ h, p.historyAt q.j = some h → h.lineCode = q.lineCode)
include hline

theorem not_recorded_elsewhere : ¬(p.historyAt q.j).any (fun h => decide (h.lineCode ≠ q.lineCode)) = true :=
  fun hany => by
    obtain ⟨h, hat, hne⟩ := (recorded_iff _ _).1 hany
    exact hne (hline h hat)

theorem fixHere_far (hfar : p.acceptWindow < ((q.chainage - cref).natAbs : Int)) (hforce : q.force = false) :
    p.fixHere q (some (cref, since)) epoch = (p, .of .far (putS32 (satS32 (q.chainage - cref)))) := by
  simp only [Pru.fixHere, if_neg (not_recorded_elsewhere hline), if_pos (And.intro hfar hforce)]

variable (hnear : ¬(p.acceptWindow < ((q.chainage - cref).natAbs : Int) ∧ q.force = false))
include hnear

theorem fixHere_duplicate {f : Fix} (hdup : p.duplicateOf q = some f) :
    p.fixHere q (some (cref, since)) epoch = (p, duplicateReply f) := by
  simp only [Pru.fixHere, if_neg (not_recorded_elsewhere hline), if_neg hnear, hdup]

theorem fixHere_applied (hdup : p.duplicateOf q = none) : p.fixHere q (some (cref, since)) epoch =
    (((hereApplied p q cref since epoch).resolve q.chainage).1,
      appliedReply (hereEntry p q cref since epoch) p ((hereApplied p q cref since epoch).resolve q.chainage).1
        ((hereApplied p q cref since epoch).resolve q.chainage).2) := by
  simp only [Pru.fixHere, if_neg (not_recorded_elsewhere hline), if_neg hnear, hdup]
  rfl

end

theorem correct_eq (p : Pru) (e : Int) (step : Bool) : p.correct e step = { p with
    ccur := if step then satS32 (p.ccur + e) else p.ccur
    correction := if step then satS32 (p.correction + e) else p.correction
    residual := if step then 0 else e
    stepMark := if step then true else p.stepMark } := by
  cases step <;> rfl

/-- The plan search of an applied fix acts in OFF_PLAN alone (R129). -/
theorem resolve_eq (p : Pru) (c : Int) : ∃ cursor orientation lineMark found,
    p.resolve c = ({ p with cursor := cursor, orientation := orientation, lineMark := lineMark }, found) ∧
    (p.cursor ≠ none ∨ p.planSearch p.lineCode c = none →
      cursor = p.cursor ∧ orientation = p.orientation ∧ lineMark = p.lineMark ∧ found = none) ∧
    ∀ i x, p.cursor = none → p.planSearch p.lineCode c = some (i, x) →
      cursor = some i ∧ orientation = x.orientation ∧ lineMark = true ∧ found = some i := by
  unfold Pru.resolve
  split
  next e x hcursor hsearch =>
    refine ⟨_, _, _, _, rfl, fun h => ?_, fun i y _ hy => ?_⟩
    · simp only [hcursor, hsearch, ne_eq, not_true_eq_false, reduceCtorEq, or_self] at h
    · obtain ⟨rfl, rfl⟩ := Prod.mk.inj (Option.some.inj (hsearch.symm.trans hy))
      exact ⟨rfl, rfl, rfl, rfl⟩
  next hnot =>
    exact ⟨p.cursor, p.orientation, p.lineMark, none, rfl, fun _ => ⟨rfl, rfl, rfl, rfl⟩, fun i x hcursor hsearch =>
      (hnot i x hcursor hsearch).elim⟩

/-- The byte of the entry that a plan search found, if it found one. -/
def entryByte : Option Nat → List Byte
  | some e => putU8 e
  | none => []

theorem appliedReply_eq (f : Fix) (p q : Pru) (entry : Option Nat) : appliedReply f p q entry =
    .of .ok (putS32 f.j ++ putS32 (satS32 f.error) ++ putS32 (satS32 f.errorNow) ++ putS32 q.residual ++ putU8 f.kind.code ++
      putU8 (p.fixes.filter (fun g => decide ((f.j - g.j).natAbs ≤ 8))).length ++ putU8 q.fixes.length ++ entryByte entry) := by
  cases entry <;> rfl

/-- What a fix of the current line leaves where it is applied (R104 to R106, R129). -/
structure AppliedHere (p : Pru) (q : FixRequest) (errorNow : Int) (f : Fix) (p' : Pru) (found : List Byte) : Prop where
  forced : q.force = true → f.kind = .forced
  stepped : q.force = false → p.stepThreshold < (errorNow.natAbs : Int) → f.kind = .step
  slewed : ¬(q.force = true ∨ p.stepThreshold < (errorNow.natAbs : Int)) → f.kind = .slew
  fixes : p'.fixes = (f :: p.fixes.filter (fun g => !decide ((q.j - g.j).natAbs ≤ 8))).take 8
  now : q.force = true ∨ p.stepThreshold < (errorNow.natAbs : Int) → p'.ccur = satS32 (p.ccur + errorNow) ∧
    p'.correction = satS32 (p.correction + errorNow) ∧ p'.residual = 0 ∧ p'.stepMark = true
  slowly : ¬(q.force = true ∨ p.stepThreshold < (errorNow.natAbs : Int)) → p'.ccur = p.ccur ∧ p'.correction = p.correction ∧
    p'.residual = errorNow ∧ p'.stepMark = p.stepMark
  stays : (p.cursor ≠ none ∨ ∀ x ∈ p.plan, ¬HoldsChainage p p.lineCode q.chainage x) →
    p'.cursor = p.cursor ∧ p'.orientation = p.orientation ∧ p'.lineMark = p.lineMark ∧ found = []
  found : ∀ (i : Nat) (x : PlanEntry), p.cursor = none → p.plan[i]? = some x → HoldsChainage p p.lineCode q.chainage x →
    (∀ n y, n < i → p.plan[n]? = some y → ¬HoldsChainage p p.lineCode q.chainage y) →
    p'.cursor = some i ∧ p'.orientation = x.orientation ∧ p'.lineMark = true ∧ found = putU8 i
  frame : p' = { p with
    fixes := p'.fixes, uncertain := false, ccur := p'.ccur, correction := p'.correction, residual := p'.residual
    stepMark := p'.stepMark, cursor := p'.cursor, orientation := p'.orientation, lineMark := p'.lineMark }

/-- The entry and the correction of an applied fix, and the plan search behind them. -/
theorem fixHere_appliedHere {p : Pru} {q : FixRequest} {cref since : Int} {epoch : Word16}
    (hline : ∀ h, p.historyAt q.j = some h → h.lineCode = q.lineCode)
    (hnear : ¬(p.acceptWindow < ((q.chainage - cref).natAbs : Int) ∧ q.force = false)) (hdup : p.duplicateOf q = none) :
    ∃ (p' : Pru) (found : List Byte),
      AppliedHere p q (q.chainage - cref - since) (hereEntry p q cref since epoch) p' found ∧
      p.fixHere q (some (cref, since)) epoch = (p', .of .ok (putS32 q.j ++ putS32 (satS32 (q.chainage - cref)) ++
        putS32 (satS32 (q.chainage - cref - since)) ++ putS32 p'.residual ++ putU8 (hereEntry p q cref since epoch).kind.code ++
        putU8 (p.fixes.filter (fun g => decide ((q.j - g.j).natAbs ≤ 8))).length ++ putU8 p'.fixes.length ++ found)) := by
  have hstep : (q.force || decide (p.stepThreshold < ((q.chainage - cref - since).natAbs : Int))) = true ↔
      q.force = true ∨ p.stepThreshold < ((q.chainage - cref - since).natAbs : Int) := by
    rw [Bool.or_eq_true, decide_eq_true_iff]
  obtain ⟨cursor, orientation, lineMark, found, hres, hstay, hfound⟩ :=
    resolve_eq (hereApplied p q cref since epoch) q.chainage
  have hsearch : (hereApplied p q cref since epoch).planSearch (hereApplied p q cref since epoch).lineCode q.chainage =
      p.planSearch p.lineCode q.chainage := by
    rw [hereApplied, correct_eq]; rfl
  have hkept : (hereApplied p q cref since epoch).cursor = p.cursor ∧
      (hereApplied p q cref since epoch).orientation = p.orientation ∧
      (hereApplied p q cref since epoch).lineMark = p.lineMark := by
    rw [hereApplied, correct_eq]; exact ⟨rfl, rfl, rfl⟩
  rw [hsearch, hkept.1, planSearch_none_iff] at hstay
  rw [hsearch, hkept.1] at hfound
  rw [hkept.2.1, hkept.2.2] at hstay
  refine ⟨{ hereApplied p q cref since epoch with cursor := cursor, orientation := orientation, lineMark := lineMark },
    entryByte found, ?applied, ?reply⟩
  case reply => rw [fixHere_applied hline hnear hdup, hres, appliedReply_eq]; rfl
  case applied =>
    exact {
      forced := fun h => if_pos h
      stepped := fun h h' => (if_neg (Bool.eq_false_iff.1 h)).trans (if_pos (hstep.2 (.inr h')))
      slewed := fun h => (if_neg (fun h' => h (.inl h'))).trans (if_neg (fun h' => h (hstep.1 h')))
      fixes := by rw [hereApplied, correct_eq]; rfl
      now := fun h => by rw [hereApplied, correct_eq, hstep.2 h]; exact ⟨rfl, rfl, rfl, rfl⟩
      slowly := fun h => by
        rw [hereApplied, correct_eq, Bool.eq_false_iff.2 (fun h' => h (hstep.1 h'))]; exact ⟨rfl, rfl, rfl, rfl⟩
      stays := fun h => by
        obtain ⟨hc, ho, hm, hf⟩ := hstay h
        exact ⟨hc, ho, hm, congrArg entryByte hf⟩
      found := fun i x hcursor hx hholds hfirst => by
        obtain ⟨hc, ho, hm, hf⟩ := hfound i x hcursor (planSearch_some_iff.2 ⟨hx, hholds, hfirst⟩)
        exact ⟨hc, ho, hm, congrArg entryByte hf⟩
      frame := by rw [hereApplied, correct_eq]; rfl }

/-! ### A fix of another line -/

section
variable {p : Pru} {q : FixRequest} {ref : Int × Int} {epoch : Word16} {interval : Nat}

theorem fixElsewhere_recorded {h : HistoryEntry} (hat : p.historyAt q.j = some h) (hline : h.lineCode = q.lineCode) :
    p.fixElsewhere q (some ref) epoch interval = (p, .of .offRoute []) :=
  if_pos ((recorded_iff _ _).2 ⟨h, hat, hline⟩)

/-- The chainage at the latest index, counted from the fix point along the entry found (R128). -/
def movedChainage (q : FixRequest) (k : Int) (x : PlanEntry) (interval : Nat) : Int :=
  satS32 (q.chainage + x.orientation.sign * (k - q.j) * interval)

/-- The list entry of a fix of another line (R128). -/
def elsewhereEntry (p : Pru) (q : FixRequest) (k : Int) (x : PlanEntry) (epoch : Word16) (interval : Nat) : Fix :=
  { j := q.j, chainage := q.chainage, error := satS32 (movedChainage q k x interval - p.ccur)
    errorNow := satS32 (movedChainage q k x interval - p.ccur), grade := q.grade, port := q.port, lineCode := q.lineCode
    epoch := epoch, kind := if q.force then .forced else .step }

variable (hroute : ∀ h, p.historyAt q.j = some h → h.lineCode ≠ q.lineCode)
include hroute

theorem not_recorded_here : ¬(p.historyAt q.j).any (fun h => decide (h.lineCode = q.lineCode)) = true :=
  fun hany => by
    obtain ⟨h, hat, heq⟩ := (recorded_iff _ _).1 hany
    exact hroute h hat heq

theorem fixElsewhere_unplanned (hsearch : p.planSearch q.lineCode q.chainage = none) :
    p.fixElsewhere q (some ref) epoch interval = (p, .of .offRoute []) := by
  simp only [Pru.fixElsewhere, if_neg (not_recorded_here hroute), hsearch]

variable {e : Nat} {x : PlanEntry} (hsearch : p.planSearch q.lineCode q.chainage = some (e, x))
include hsearch

theorem fixElsewhere_duplicate {f : Fix} (hdup : p.duplicateOf q = some f) :
    p.fixElsewhere q (some ref) epoch interval = (p, duplicateReply f) := by
  simp only [Pru.fixElsewhere, if_neg (not_recorded_here hroute), hsearch, hdup]

theorem fixElsewhere_placed (hdup : p.duplicateOf q = none) {k : Int} (hlatest : p.latest = some k) :
    p.fixElsewhere q (some ref) epoch interval = ({ p with
        ccur := movedChainage q k x interval, cursor := some e, orientation := x.orientation, lineCode := q.lineCode
        residual := 0, lineMark := true, uncertain := false
        fixes := (elsewhereEntry p q k x epoch interval ::
          p.fixes.filter (fun g => !decide ((q.j - g.j).natAbs ≤ 8))).take 8 },
      .of .ok (putS32 q.j ++ putS32 (elsewhereEntry p q k x epoch interval).error ++
        putS32 (elsewhereEntry p q k x epoch interval).errorNow ++ putS32 0 ++
        putU8 (elsewhereEntry p q k x epoch interval).kind.code ++
        putU8 (p.fixes.filter (fun g => decide ((q.j - g.j).natAbs ≤ 8))).length ++
        putU8 (min 8 ((p.fixes.filter (fun g => !decide ((q.j - g.j).natAbs ≤ 8))).length + 1)) ++ putU8 e)) := by
  have hline : (p.segmentOf x).lineCode = q.lineCode := (planSearch_some_iff.1 hsearch).2.1.1
  have hsat : satS32 (elsewhereEntry p q k x epoch interval).error = (elsewhereEntry p q k x epoch interval).error :=
    satS32_of_inS32 (inS32_satS32 _)
  have hsatNow : satS32 (elsewhereEntry p q k x epoch interval).errorNow = (elsewhereEntry p q k x epoch interval).errorNow :=
    satS32_of_inS32 (inS32_satS32 _)
  have happlied : p.fixElsewhere q (some ref) epoch interval =
      ((p.placeOn e x (movedChainage q k x interval)).pushFix (elsewhereEntry p q k x epoch interval),
        appliedReply (elsewhereEntry p q k x epoch interval) p
          ((p.placeOn e x (movedChainage q k x interval)).pushFix (elsewhereEntry p q k x epoch interval)) (some e)) := by
    simp only [Pru.fixElsewhere, if_neg (not_recorded_here hroute), hsearch, hdup, hlatest, Option.getD_some]
    rfl
  rw [happlied, appliedReply_eq, hsat, hsatNow]
  simp only [Pru.placeOn, Pru.setCursor, hline, Pru.pushFix, List.length_take, List.length_cons]
  rfl

end

theorem reference_recorded {p : Pru} {j : Int} {h : HistoryEntry} (hat : p.historyAt j = some h) (interval : Nat) :
    p.reference j interval = some (h.chainage, p.correction - h.correction) := by
  simp only [Pru.reference, hat]

/-! ### Both fixes -/

section
variable {now : Bool} {port : Port} {rq : Request} {s : State}

theorem applyFix_here {q : FixRequest} (hwaits : s.startWaits = false) (hline : q.lineCode = s.pru.lineCode) {p : Pru} {r : Reply}
    (h : s.pru.fixHere q (s.pru.reference q.j s.odu.interval) s.odu.epoch = (p, r)) : s.applyFix q = ({ s with pru := p }, r) := by
  simp only [State.applyFix, State.reference, hwaits, Bool.false_eq_true, if_false, if_pos hline, h]

theorem applyFix_elsewhere {q : FixRequest} (hwaits : s.startWaits = false) (hline : q.lineCode ≠ s.pru.lineCode) {p : Pru}
    {r : Reply} (h : s.pru.fixElsewhere q (s.pru.reference q.j s.odu.interval) s.odu.epoch s.odu.interval = (p, r)) :
    s.applyFix q = ({ s with pru := p }, r) := by
  simp only [State.applyFix, State.reference, hwaits, Bool.false_eq_true, if_false, if_neg hline, h]

variable (hserves : Serves s port rq (if now then .fixNow else .fixAt)) (htakes : s.takesFixes = true)
  (hnz : getU16 rq.payload (fixOffset now + 4) ≠ 0) (hlow : 1 ≤ getU8 rq.payload (fixOffset now + 6))
  (hhigh : getU8 rq.payload (fixOffset now + 6) ≤ 3) (hforce : getU8 rq.payload (fixOffset now + 7) ≤ 1)
  (hfits : Fits32 (fixIndex now s rq))
include hserves htakes hnz hlow hhigh hforce hfits

/-- A fix whose fields are in range acts as the PRU's check of it says. -/
theorem exec_fix_checked {p : Pru} {r : Reply}
    (h : s.applyFix (fixOf rq (fixOffset now) (fixIndex now s rq) port) = ({ s with pru := p }, r)) :
    exec (if now then .fixNow else .fixAt) s = .next { s with pru := p, cpc := s.cpc.answer port rq r } := by
  refine exec_fix (t := { s with pru := p }) (r := r) hserves ?_
  rw [serveFix_index htakes (fixFields_some _ _ hnz hlow hhigh hforce), if_pos ((inS32_iff _).2 hfits), h]

end

theorem with_pru_eq (s : State) (c : Cpc) {p p' : Pru} (h : p = p') :
    ({ s with pru := p, cpc := c } : State) = { s with pru := p', cpc := c } := by rw [h]

/-- Settles O26. -/
theorem aFixOfTheCurrentLineIsCheckedAndApplied : Obligations.AFixOfTheCurrentLineIsCheckedAndApplied := by
  unfold Obligations.AFixOfTheCurrentLineIsCheckedAndApplied
  intro s now port rq hserves b off j c grade force cmd p conflicts
  have htakes : s.rcu.runState = .running → s.resumeWaits = false → s.takesFixes = true := fun h h' => takesFixes_iff.2 ⟨h, h'⟩
  refine ⟨fun h => ?state, fun hrun hres hbad => ?range,
    fun hrun hres hwaits hline hnz hlow hhigh hf hfits => ⟨fun href => ?stale, fun h hat hother => ?offRoute, ?checked⟩⟩
  case state =>
    refine exec_fix hserves (serveFix_state (fun h' => ?_))
    obtain ⟨hrun, hres⟩ := takesFixes_iff.1 h'
    exact h.elim (fun h => h hrun) (fun h => Bool.false_ne_true (hres.symm.trans h))
  case range =>
    have hfree := htakes hrun hres
    refine exec_fix hserves (t := s) ?_
    by_cases hfits : Fits32 j
    · refine serveFix_fields hfree (fixFields_none _ _ ?_)
      rcases hbad with h | h | h | h | h
      exacts [.inl h, .inr (.inl h), .inr (.inr (.inl h)), .inr (.inr (.inr h)), absurd hfits h]
    · cases hq : fixFields rq off j port with
      | none => exact serveFix_fields hfree hq
      | some q =>
        rw [serveFix_index hfree hq]
        exact if_neg (fun h => hfits ((inS32_iff _).1 h))
  all_goals
    have hchecked : ∀ {p' : Pru} {r : Reply},
        p.fixHere (fixOf rq off j port) (p.reference j s.odu.interval) s.odu.epoch = (p', r) →
        exec cmd s = .next { s with pru := p', cpc := s.cpc.answer port rq r } := fun h =>
      exec_fix_checked hserves (htakes hrun hres) (hline ▸ hnz) hlow hhigh hf hfits (applyFix_here hwaits hline h)
  case stale => exact hchecked (by rw [href]; rfl)
  case offRoute =>
    refine hchecked ?_
    rw [reference_recorded hat]
    exact fixHere_offRoute hat (fun h => hother (h.trans hline))
  case checked =>
    intro cref since href hroute e eNow
    have honroute : ∀ h, p.historyAt (fixOf rq off j port).j = some h → h.lineCode = (fixOf rq off j port).lineCode :=
      fun h hat => (hroute h hat).trans hline.symm
    have hforce : (fixOf rq off j port).force = true ↔ force := decide_eq_true_iff
    rw [href] at hchecked
    refine ⟨fun hfar hnot => hchecked (fixHere_far honroute hfar (Bool.eq_false_iff.2 (fun h => hnot (hforce.1 h)))),
      fun hnear => ?_⟩
    have hnear' : ¬(p.acceptWindow < (((fixOf rq off j port).chainage - cref).natAbs : Int) ∧ (fixOf rq off j port).force = false) :=
      fun ⟨hfar, hnot⟩ => hnear.elim (fun h => absurd hfar (not_lt.2 h)) (fun h => Bool.false_ne_true (hnot.symm.trans (hforce.2 h)))
    refine ⟨fun f hhead hgrade => hchecked (fixHere_duplicate honroute hnear' (duplicateOf_some hhead hgrade)),
      fun hlower => ?_⟩
    intro step holds
    obtain ⟨p', found, happlied, hfix⟩ :=
      fixHere_appliedHere (cref := cref) (since := since) (epoch := s.odu.epoch) honroute hnear' (duplicateOf_none hlower)
    have hstep : (fixOf rq off j port).force = true ∨ p.stepThreshold < (eNow.natAbs : Int) ↔ step := or_congr_left hforce
    refine ⟨_, hereEntry p (fixOf rq off j port) cref since s.odu.epoch, found, hchecked hfix, rfl, rfl, rfl, rfl, rfl, rfl,
      hline, rfl, fun h => happlied.forced (hforce.2 h),
      fun h h' => happlied.stepped (Bool.eq_false_iff.2 (fun hq => h (hforce.1 hq))) (h'.resolve_left h),
      fun h => happlied.slewed (fun h' => h (hstep.1 h')), happlied.fixes, (congrArg Pru.uncertain happlied.frame :),
      fun h => happlied.now (hstep.2 h), fun h => happlied.slowly (fun h' => h (hstep.1 h')), happlied.stays, happlied.found,
      rfl, ?_⟩
    exact with_pru_eq s _ happlied.frame

/-- Settles O27. -/
theorem aFixOfAnotherLineIsPlacedOnThePlan : Obligations.AFixOfAnotherLineIsPlacedOnThePlan := by
  unfold Obligations.AFixOfAnotherLineIsPlacedOnThePlan
  intro s now port rq hserves b off j c line grade cmd p conflicts hrun hres hwaits hline hnz hlow hhigh hf hfits
  have hchecked : ∀ {p' : Pru} {r : Reply},
      p.fixElsewhere (fixOf rq off j port) (p.reference j s.odu.interval) s.odu.epoch s.odu.interval = (p', r) →
      exec cmd s = .next { s with pru := p', cpc := s.cpc.answer port rq r } := fun h =>
    exec_fix_checked hserves (takesFixes_iff.2 ⟨hrun, hres⟩) hnz hlow hhigh hf hfits (applyFix_elsewhere hwaits hline h)
  refine ⟨fun href => hchecked (by rw [href]; rfl), fun h hat hsame => ?recorded, fun href hroute => ?checked⟩
  case recorded =>
    refine hchecked ?_
    rw [reference_recorded hat]
    exact fixElsewhere_recorded hat hsame
  case checked =>
    obtain ⟨ref, href⟩ := Option.ne_none_iff_exists'.1 href
    rw [href] at hchecked
    intro holds
    refine ⟨fun hnone => hchecked (fixElsewhere_unplanned hroute (planSearch_none_iff.2 hnone)),
      fun hsome f hhead hgrade => ?duplicate, fun e x k hx hholds hfirst hlatest hlower => ?placed⟩
    case duplicate =>
      have hsearch : ∃ y, p.planSearch line c = some y := by
        refine Option.ne_none_iff_exists'.1 (fun hnone => ?_)
        obtain ⟨x, hx, hh⟩ := hsome
        exact planSearch_none_iff.1 hnone x hx hh
      obtain ⟨⟨e, x⟩, hsearch⟩ := hsearch
      exact hchecked (fixElsewhere_duplicate hroute hsearch (duplicateOf_some hhead hgrade))
    case placed =>
      intro moved f kept
      have hplaced := hchecked (fixElsewhere_placed (q := fixOf rq off j port) hroute
        (planSearch_some_iff.2 ⟨hx, hholds, hfirst⟩) (duplicateOf_none hlower) hlatest)
      have hentry : elsewhereEntry p (fixOf rq off j port) k x s.odu.epoch s.odu.interval = f := by
        simp only [elsewhereEntry, fixOf, decide_eq_true_eq]
        rfl
      rw [hentry] at hplaced
      exact hplaced

end Sys2Proof.Proofs.LocationFixes
end

