-- ==== Sys2Proof/Proofs/Calibration.lean ====
section
/-! PROOFS. CALIBRATE: the choice of the pair and the correction of the weight (R110, R111, R22); JUMP_PLAN and SET_PACE (R130, R12). -/

namespace Sys2Proof.Proofs.Calibration

open Sys2Proof.Machine Sys2Proof.Safety Sys2Proof.Proofs.RecordStore Sys2Proof.Proofs.LocationFixes

/-! ### The pair -/

/-- Two fixes that form a pair of the epoch (R110). -/
def Partners (epoch : Word16) (x y : Fix) : Prop := x.epoch = epoch ∧ y.epoch = epoch ∧ x.lineCode = y.lineCode

/-- The newest partner of f among the older fixes (R110). -/
def partnerOf (epoch : Word16) (f : Fix) (older : List Fix) : Option Fix :=
  if f.epoch = epoch then older.find? (fun g => decide (g.epoch = epoch) && decide (g.lineCode = f.lineCode)) else none

section
variable {epoch : Word16}

theorem pairOf_cons_some {f g : Fix} {rest : List Fix} (h : partnerOf epoch f rest = some g) :
    pairOf epoch (f :: rest) = some (f, g) := by
  unfold partnerOf at h
  simp only [pairOf, h]

theorem pairOf_cons_none {f : Fix} {rest : List Fix} (h : partnerOf epoch f rest = none) :
    pairOf epoch (f :: rest) = pairOf epoch rest := by
  unfold partnerOf at h
  simp only [pairOf, h]

theorem partnerOf_some_iff {f g : Fix} {rest : List Fix} : partnerOf epoch f rest = some g ↔
    ∃ between older, rest = between ++ g :: older ∧ f.epoch = epoch ∧ g.epoch = epoch ∧ g.lineCode = f.lineCode ∧
      ∀ x ∈ between, ¬(x.epoch = epoch ∧ x.lineCode = f.lineCode) := by
  unfold partnerOf
  by_cases hf : f.epoch = epoch
  · simp only [if_pos hf, List.find?_eq_some_iff_append, Bool.and_eq_true, decide_eq_true_eq, Bool.not_eq_true']
    constructor
    · rintro ⟨⟨hg, hline⟩, between, older, hrest, hbetween⟩
      refine ⟨between, older, hrest, hf, hg, hline, fun x hx hboth => ?_⟩
      simpa [hboth] using hbetween x hx
    · rintro ⟨between, older, hrest, _, hg, hline, hbetween⟩
      refine ⟨⟨hg, hline⟩, between, older, hrest, fun x hx => ?_⟩
      simpa [Bool.eq_false_iff] using hbetween x hx
  · simp only [if_neg hf, reduceCtorEq, false_iff]
    exact fun ⟨_, _, _, h, _⟩ => hf h

theorem partnerOf_none_iff {f : Fix} {rest : List Fix} : partnerOf epoch f rest = none ↔ ∀ y ∈ rest, ¬Partners epoch f y := by
  unfold partnerOf Partners
  by_cases hf : f.epoch = epoch
  · rw [if_pos hf]
    simp only [List.find?_eq_none, Bool.and_eq_true, decide_eq_true_eq, hf, true_and, eq_comm (a := f.lineCode)]
  · rw [if_neg hf]
    simp only [hf, false_and, not_false_eq_true, implies_true]

/-- The newest fix that has a partner, with the newest partner older than itself (R110). -/
theorem pairOf_iff (fixes : List Fix) (f g : Fix) : pairOf epoch fixes = some (f, g) ↔
    ∃ newer between older, fixes = newer ++ f :: (between ++ g :: older) ∧ f.epoch = epoch ∧ g.epoch = epoch ∧
      g.lineCode = f.lineCode ∧ (∀ x ∈ between, ¬(x.epoch = epoch ∧ x.lineCode = f.lineCode)) ∧
      newer.Pairwise (fun x y => ¬Partners epoch x y) ∧
      ∀ x ∈ newer, ∀ y ∈ f :: (between ++ g :: older), ¬Partners epoch x y := by
  induction fixes with
  | nil =>
    refine ⟨nofun, ?_⟩
    rintro ⟨newer, between, older, h, _⟩
    exact absurd h.symm (by simp)
  | cons h rest ih =>
    cases hp : partnerOf epoch h rest with
    | some g' =>
      rw [pairOf_cons_some hp]
      constructor
      · intro heq
        obtain ⟨rfl, rfl⟩ := Prod.mk.inj (Option.some.inj heq)
        obtain ⟨between, older, hrest, hf, hg, hline, hbetween⟩ := partnerOf_some_iff.1 hp
        exact ⟨[], between, older, by rw [hrest]; rfl, hf, hg, hline, hbetween, List.Pairwise.nil, nofun⟩
      · rintro ⟨newer, between, older, hfixes, hf, hg, hline, hbetween, hnewer, hold⟩
        cases newer with
        | nil =>
          obtain ⟨rfl, hrest⟩ := List.cons.inj hfixes
          have hp' := partnerOf_some_iff.2 ⟨between, older, hrest, hf, hg, hline, hbetween⟩
          rw [hp] at hp'
          rw [Option.some.inj hp']
        | cons n newer =>
          obtain ⟨rfl, hrest⟩ := List.cons.inj hfixes
          refine absurd hp ?_
          rw [partnerOf_none_iff.2]
          · exact nofun
          · intro y hy
            rw [show rest = newer ++ f :: (between ++ g :: older) from hrest] at hy
            exact (List.mem_append.1 hy).elim ((List.pairwise_cons.1 hnewer).1 y) (hold h List.mem_cons_self y)
    | none =>
      have hnone := partnerOf_none_iff.1 hp
      rw [pairOf_cons_none hp, ih]
      constructor
      · rintro ⟨newer, between, older, rfl, hf, hg, hline, hbetween, hnewer, hold⟩
        refine ⟨h :: newer, between, older, rfl, hf, hg, hline, hbetween,
          List.pairwise_cons.2 ⟨fun y hy => hnone y (List.mem_append_left _ hy), hnewer⟩, fun x hx y hy => ?_⟩
        rcases List.mem_cons.1 hx with rfl | hx
        · exact hnone y (List.mem_append_right _ hy)
        · exact hold x hx y hy
      · rintro ⟨newer, between, older, hfixes, hf, hg, hline, hbetween, hnewer, hold⟩
        cases newer with
        | nil =>
          obtain ⟨rfl, hrest⟩ := List.cons.inj hfixes
          have hp' := partnerOf_some_iff.2 ⟨between, older, hrest, hf, hg, hline, hbetween⟩
          exact absurd (hp.symm.trans hp') nofun
        | cons n newer =>
          obtain ⟨rfl, hrest⟩ := List.cons.inj hfixes
          exact ⟨newer, between, older, hrest, hf, hg, hline, hbetween, (List.pairwise_cons.1 hnewer).2,
            fun x hx => hold x (List.mem_cons_of_mem _ hx)⟩

end

/-! ### The correction -/

theorem exec_calibrate {s t : State} {port : Port} {rq : Request} {r : Reply} (h : Serves s port rq .calibrate)
    (hr : serveCalibrate port rq s = (t, r)) : exec .calibrate s = .next { t with cpc := t.cpc.answer port rq r } :=
  congrArg Host.Outcome.next (serve_of_serves h hr)

section
variable {s : State} (port : Port) (rq : Request)

theorem serveCalibrate_suspended (h : s.rcu.runState = .suspended) : serveCalibrate port rq s = (s, .of .state []) := by
  simp only [serveCalibrate, h, answered]

theorem serveCalibrate_noPair (h : s.rcu.runState ≠ .suspended) (hpair : pairOf s.odu.epoch s.pru.fixes = none) :
    serveCalibrate port rq s = (s, .of .noPair []) := by
  unfold serveCalibrate
  split
  next hs => exact absurd hs h
  next => rw [hpair]; rfl

theorem calibrated_epoch (o : Odu) (w : Nat) : (o.calibrated w).epoch = o.epoch + 1 := by
  unfold Odu.calibrated
  dsimp only
  split
  · rfl
  · exact Odu.setEnc_epoch _ _ _

/-- The pair's two distances, as the part forms them (R110, R111). -/
theorem serveCalibrate_pair (h : s.rcu.runState ≠ .suspended) {f g : Fix} (hpair : pairOf s.odu.epoch s.pru.fixes = some (f, g))
    {measured run : Nat} (hm : (g.j - f.j).natAbs * s.odu.interval = measured) (hr : (g.chainage - f.chainage).natAbs = run) :
    serveCalibrate port rq s =
      if measured < 1000000 then (s, .of .shortBase (putU32 measured ++ putU32 run))
      else if measured < ((run : Int) - measured).natAbs * 50 then (s, .of .tolerance (putU32 measured ++ putU32 run))
      else ({ s with odu := s.odu.calibrated ((2 * (s.odu.activeWeight * run) + measured) / (2 * measured)) },
        .of .ok (putS32 f.j ++ putS32 g.j ++ (putU32 measured ++ putU32 run) ++ putU32 s.odu.activeWeight ++
          putU32 ((2 * (s.odu.activeWeight * run) + measured) / (2 * measured)) ++ be16 (s.odu.epoch + 1))) := by
  unfold serveCalibrate
  split
  next hs => exact absurd hs h
  next =>
    simp only [hpair, hm, hr, answered]
    by_cases hbase : measured < 1000000
    · rw [if_pos hbase, if_pos hbase]
    · have hw : (roundUp ((s.odu.activeWeight : Int) * run) measured).toNat =
          (2 * (s.odu.activeWeight * run) + measured) / (2 * measured) := by
        rw [← Nat.cast_mul]; exact roundUp_toNat _ _ (by omega)
      rw [if_neg hbase, if_neg hbase, hw, calibrated_epoch]

end

theorem setEnc_bumpEpoch (o : Odu) (i : Encoder) (x : EncoderState) :
    { o.bumpEpoch.setEnc i x with e1 := o.e1, e2 := o.e2, epoch := o.epoch } = o := by
  cases i <;> rfl

/-- Only the weight in use and the epoch change (R22). -/
theorem calibrated_spec (o : Odu) (w : Nat) :
    (∀ e, (o.calibrated w).enc e = { o.enc e with weight :=
      if (o.source = .pace ∧ e = .e1) ∨ (o.source ≠ .pace ∧ e = o.active) then w else (o.enc e).weight }) ∧
    { o.calibrated w with e1 := o.e1, e2 := o.e2, epoch := o.epoch } = o := by
  unfold Odu.calibrated
  dsimp only
  split
  next hsource =>
    have hsource : o.source = .pace := hsource
    refine ⟨fun e => ?_, rfl⟩
    cases e <;> simp only [hsource, Odu.enc, ne_eq, not_true_eq_false, false_and, or_false, true_and, reduceCtorEq, if_true,
      if_false] <;> rfl
  next hsource =>
    have hsource : o.source ≠ .pace := hsource
    constructor
    · intro e
      by_cases he : e = o.active
      · rw [if_pos (Or.inr ⟨hsource, he⟩), he]
        exact Odu.enc_setEnc o.bumpEpoch o.active _
      · rw [if_neg (fun h => h.elim (fun h => hsource h.1) (fun h => he h.2))]
        exact Odu.enc_setEnc_of_ne o.bumpEpoch _ he
    · exact setEnc_bumpEpoch _ _ _

/-- Settles O28. -/
theorem calibrateCorrectsTheWeightInUse : Obligations.CalibrateCorrectsTheWeightInUse := by
  unfold Obligations.CalibrateCorrectsTheWeightInUse
  refine ⟨fun _ => pairOf_iff, fun s port rq hserves => ⟨fun h => ?_, fun h hnone => ?_, fun f g h hpair => ?_⟩⟩
  · exact exec_calibrate hserves (serveCalibrate_suspended port rq h)
  · exact exec_calibrate hserves (serveCalibrate_noPair port rq h hnone)
  · intro measured run off w n
    have hserve := serveCalibrate_pair port rq h hpair (measured := measured) (run := run) rfl rfl
    refine ⟨fun hbase => exec_calibrate hserves (hserve.trans (if_pos hbase)), fun hbase hoff => ?_, fun hbase hoff => ?_⟩
    · exact exec_calibrate hserves (hserve.trans ((if_neg (not_lt.2 hbase)).trans (if_pos hoff)))
    · have hexec := exec_calibrate hserves (hserve.trans ((if_neg (not_lt.2 hbase)).trans (if_neg (not_lt.2 hoff))))
      obtain ⟨henc, hframe⟩ := calibrated_spec s.odu n
      refine ⟨_, hexec, rfl, calibrated_epoch _ _, henc, hframe, ?_⟩
      rw [← List.append_assoc]
      rfl

/-! ### JUMP_PLAN and SET_PACE -/

theorem exec_jumpPlan {s t : State} {port : Port} {rq : Request} {r : Reply} (h : Serves s port rq .jumpPlan)
    (hr : serveJumpPlan port rq s = (t, r)) : exec .jumpPlan s = .next { t with cpc := t.cpc.answer port rq r } :=
  congrArg Host.Outcome.next (serve_of_serves h hr)

theorem exec_setPace {s t : State} {port : Port} {rq : Request} {r : Reply} (h : Serves s port rq .setPace)
    (hr : serveSetPace port rq s = (t, r)) : exec .setPace s = .next { t with cpc := t.cpc.answer port rq r } :=
  congrArg Host.Outcome.next (serve_of_serves h hr)

theorem refusesJump_of {s : State} (h : s.rcu.runState = .standby ∨ (s.rcu.runState = .running ∧ s.pru.latest = none)) :
    s.refusesJump = true := by
  unfold State.refusesJump
  rcases h with h | ⟨h, hlatest⟩
  · rw [h]
  · rw [h, hlatest]; exact Bool.or_true _

theorem not_refusesJump_of {s : State}
    (h : s.rcu.runState = .suspended ∨ (s.rcu.runState = .running ∧ s.pru.latest ≠ none ∧ s.startWaits = false)) :
    s.refusesJump = false := by
  unfold State.refusesJump
  rcases h with h | ⟨h, hlatest, hwaits⟩
  · rw [h]
  · obtain ⟨k, hk⟩ := Option.ne_none_iff_exists'.1 hlatest
    rw [h, hwaits, hk]; rfl

theorem placeOn_uncertain (p : Pru) (e : Nat) (x : PlanEntry) (c : Int) : (p.placeOn e x c).uncertain = p.uncertain := rfl

section
variable {s : State} (port : Port) (rq : Request) (hserved : s.refusesJump = false)
include hserved

theorem serveJumpPlan_noEntry (hnone : s.pru.plan[getU8 rq.payload 0]? = none) :
    serveJumpPlan port rq s = (s, .of .range []) := by
  simp only [serveJumpPlan, hserved, Bool.false_eq_true, if_false, hnone, answered]

theorem serveJumpPlan_entry {x : PlanEntry} (hx : s.pru.plan[getU8 rq.payload 0]? = some x) {c : Int}
    (hc : getS32 rq.payload 1 = c) :
    serveJumpPlan port rq s = if (s.pru.segmentOf x).contains c then
      ({ s with pru := s.pru.placeOn (getU8 rq.payload 0) x c },
        .of .ok (putOrFF s.pru.cursor ++ putU8 (getU8 rq.payload 0) ++ putS32 s.pru.ccur ++ putS32 c ++ putMark s.pru.uncertain))
      else (s, .of .range []) := by
  simp only [serveJumpPlan, hserved, Bool.false_eq_true, if_false, hx, hc, answered, placeOn_uncertain]

end

theorem directionOf_of_le {n : Nat} (h : n ≤ 1) : directionOf n = some (if n = 0 then .fwd else .rev) := by
  obtain rfl | rfl : n = 0 ∨ n = 1 := by omega
  · rfl
  · rfl

theorem directionOf_of_lt {n : Nat} (h : 1 < n) : directionOf n = none := by
  unfold directionOf
  split
  · omega
  · omega
  · rfl

theorem code_of_le {n : Nat} (h : n ≤ 1) : (if n = 0 then Direction.fwd else Direction.rev).code = n := by
  obtain rfl | rfl : n = 0 ∨ n = 1 := by omega
  · rfl
  · rfl

theorem putMark_of_le {n : Nat} (h : n ≤ 1) : putMark (decide (n = 1)) = putU8 n := by
  obtain rfl | rfl : n = 0 ∨ n = 1 := by omega
  · rfl
  · rfl

section
variable {s : State} (port : Port) (rq : Request) (hserved : s.rcu.runState = .running ∧ s.rcu.source = .pace)
include hserved

theorem serveSetPace_range (h : getU16 rq.payload 0 = 0 ∨ 1 < getU8 rq.payload 2 ∨ 1 < getU8 rq.payload 3) :
    serveSetPace port rq s = (s, .of .range []) := by
  rw [serveSetPace, if_pos hserved]
  by_cases hdir : getU8 rq.payload 2 ≤ 1
  · by_cases hstop : getU8 rq.payload 3 ≤ 1
    · simp only [directionOf_of_le hdir, markOf_of_le hstop]
      exact if_pos (h.resolve_right (fun h => h.elim (not_lt.2 hdir) (not_lt.2 hstop)))
    · simp only [directionOf_of_le hdir, markOf_of_lt (not_le.1 hstop), answered]
  · simp only [directionOf_of_lt (not_le.1 hdir), answered]

theorem serveSetPace_accepted (hd : getU16 rq.payload 0 ≠ 0) (hdir : getU8 rq.payload 2 ≤ 1) (hstop : getU8 rq.payload 3 ≤ 1) :
    serveSetPace port rq s =
      ({ s with odu := s.odu.setPace (getU16 rq.payload 0) (if getU8 rq.payload 2 = 0 then .fwd else .rev)
                  (decide (getU8 rq.payload 3 = 1)) s.now },
        .of .ok (putU16 (getU16 rq.payload 0) ++ putU8 (getU8 rq.payload 2) ++ putU8 (getU8 rq.payload 3) ++
          putS32 s.odu.frontier ++ putU8 s.odu.direction.code)) := by
  rw [serveSetPace, if_pos hserved]
  simp only [directionOf_of_le hdir, markOf_of_le hstop, if_neg hd, Odu.setPace, code_of_le hdir, putMark_of_le hstop]

end

/-- Settles O29. -/
theorem jumpPlanAndSetPaceActInTheirStates : Obligations.JumpPlanAndSetPaceActInTheirStates := by
  unfold Obligations.JumpPlanAndSetPaceActInTheirStates
  refine ⟨fun s port rq hserves => ?jump, fun s port rq hserves => ?pace⟩
  case jump =>
    intro e c
    have hc : getS32 rq.payload 1 = c := rfl
    clear_value c
    refine ⟨fun h => exec_jumpPlan hserves (if_pos (refusesJump_of h)), fun h => ?_⟩
    have hserved := not_refusesJump_of h
    refine ⟨fun hnone => exec_jumpPlan hserves (serveJumpPlan_noEntry port rq hserved hnone), fun x hx => ?_⟩
    intro g
    have hserve := serveJumpPlan_entry port rq hserved hx hc
    have hcontains : (s.pru.segmentOf x).contains c = true ↔ g.lo ≤ c ∧ c ≤ g.hi := by
      rw [Segment.contains, Bool.and_eq_true, decide_eq_true_iff, decide_eq_true_iff]; rfl
    refine ⟨fun hout => exec_jumpPlan hserves (hserve.trans (if_neg (fun h => hout (hcontains.1 h)))), fun hlo hhi => ?_⟩
    have hexec := exec_jumpPlan hserves (hserve.trans (if_pos (hcontains.2 ⟨hlo, hhi⟩)))
    exact hexec
  case pace =>
    intro b d
    refine ⟨fun h => exec_setPace hserves (if_neg h), fun hrun hpace => ⟨fun hbad => ?_, fun hd hdir hstop => ?_⟩⟩
    · exact exec_setPace hserves (serveSetPace_range port rq ⟨hrun, hpace⟩ hbad)
    · have hexec := exec_setPace hserves (serveSetPace_accepted port rq ⟨hrun, hpace⟩ hd hdir hstop)
      rw [hexec]
      simp only [Odu.setPace, decide_eq_true_eq]
      rfl

end Sys2Proof.Proofs.Calibration
end

