-- ==== Sys2Proof/Proofs/MarkersAndTriggers.lean ====
section
/-! PROOFS. Captures and their answers, trigger channels (R158 to R168), and the notices of the PRU and the MTU (R112, R163, R169). -/

namespace Sys2Proof.Proofs.MarkersAndTriggers

open Sys2Proof.Machine Sys2Proof.Safety

/-! ### Captures -/

theorem tooClose_iff (x : MarkerState) (j : Int) :
    x.tooClose j = true ↔ ∃ p, x.previous = some p ∧ (j - p).natAbs < x.spacing := by
  unfold MarkerState.tooClose
  cases x.previous with
  | none => exact ⟨nofun, fun ⟨_, h, _⟩ => nomatch h⟩
  | some p => exact decide_eq_true_iff.trans ⟨fun h => ⟨p, rfl, h⟩, fun ⟨_, h, hlt⟩ => Option.some.inj h ▸ hlt⟩

section
variable {s : State} {m : MarkerLine} {edge : Edge}
  (hactive : edge = (s.mtu.marker m).edge ∧ s.mtu.running = true ∧ s.odu.view ≠ .suspended ∧ s.rcu.isWritten (.marker m) = true)
include hactive

theorem exec_markerEdge_ignored (h : (s.mtu.marker m).tooClose (s.candidate m) = true) : exec (.markerEdge m edge) s =
    .next { s with mtu := s.mtu.setMarker m { s.mtu.marker m with ignored := satSucc (s.mtu.marker m).ignored } } := by
  simp only [exec, execMarkerEdge, if_pos hactive, if_pos h]

theorem exec_markerEdge_captured (h : ¬(s.mtu.marker m).tooClose (s.candidate m) = true) :
    exec (.markerEdge m edge) s = .next (s.capture m (s.candidate m)) := by
  simp only [exec, execMarkerEdge, if_pos hactive, if_neg h]

end

/-- Settles O34. -/
theorem anEdgeIsCapturedOrIgnored : Obligations.AnEdgeIsCapturedOrIgnored := by
  unfold Obligations.AnEdgeIsCapturedOrIgnored
  intro s m edge x j active near q captured
  have hnear : x.tooClose j = true ↔ near := tooClose_iff x j
  refine ⟨fun h => if_neg h, fun h hn => ?_, fun h hn hfits => ?_, fun h hn hfits => ?_⟩
  · rw [exec_markerEdge_ignored h (hnear.2 hn), satSucc_eq]
  · rw [exec_markerEdge_captured h (fun h' => hn (hnear.1 h'))]
    simp only [State.capture, captureEntry, Mtu.setMarker_list, if_pos ((inS32_iff (s.candidate m)).2 hfits)]
    rfl
  · rw [exec_markerEdge_captured h (fun h' => hn (hnear.1 h'))]
    simp only [State.capture, captureEntry, Mtu.setMarker_list, if_neg (fun h' => hfits ((inS32_iff (s.candidate m)).1 h'))]
    rfl

/-! ### Answers -/

theorem isAhead_iff (d : Direction) (k j : Int) : isAhead d k j = true ↔ 0 < d.sign * (j - k) := by
  cases d <;> simp only [isAhead, decide_eq_true_eq, Direction.sign] <;> omega

theorem reference_unrecorded {p : Pru} {j : Int} (h : p.historyAt j = none) (interval : Nat) : p.reference j interval =
    p.latest.bind (fun k => if isAhead p.direction k j then some (p.ccur + p.orientation.sign * (j - k) * interval, 0) else none) := by
  simp only [Pru.reference, h]
  cases p.latest <;> rfl

/-- A list in which each entry is changed by itself. -/
theorem getElem?_map_eq {α : Type} {l : List α} {g : α → α} {i : Nat} {e f : α} (he : l[i]? = some e)
    (hf : (l.map g)[i]? = some f) : f = g e := by
  rw [List.getElem?_map, he] at hf
  exact (Option.some.inj hf).symm

theorem isOf_iff (e : MarkerEntry) (line : MarkerLine) (number : Word16) :
    e.isOf line number = true ↔ e.line = line ∧ e.number = number := by
  rw [MarkerEntry.isOf, Bool.and_eq_true, beq_iff_eq, beq_iff_eq]

theorem lost_iff (e : MarkerEntry) (j : Int) (lost1 lost2 : Bool) : (lostOn lost1 lost2 e.line && e.j == j) = true ↔
    e.j = j ∧ ((e.line = .m1 ∧ lost1 = true) ∨ (e.line = .m2 ∧ lost2 = true)) := by
  rw [Bool.and_eq_true, beq_iff_eq, and_comm]
  refine and_congr_right fun _ => ?_
  cases e.line <;> simp [lostOn]

/-- Settles O35. -/
theorem answersReachTheEntriesThatAsked : Obligations.AnswersReachTheEntriesThatAsked := by
  unfold Obligations.AnswersReachTheEntriesThatAsked
  refine ⟨fun s q rest hfront hwaits => ?chainage, fun s a rest hfront => ?answer, fun s line number placed rest hfront => ?placement,
    fun s j lost1 lost2 rest hfront => ?loss⟩
  case chainage =>
    intro p
    refine ⟨(p.reference q.j s.odu.interval).map (fun r => r.1 + r.2), ?_, fun h hat => ?_, fun hat hlatest => ?_,
      fun k hat hlatest => ?_⟩
    · simp only [exec, execChainageRequest, hfront, State.reference, hwaits, Bool.false_eq_true, if_false]
      rfl
    · rw [LocationFixes.reference_recorded hat]; rfl
    · rw [reference_unrecorded hat, hlatest]; rfl
    · rw [reference_unrecorded hat, hlatest, Option.bind_some]
      refine ⟨fun h => ?_, fun h => ?_⟩
      · rw [if_neg (fun h' => absurd ((isAhead_iff _ _ _).1 h') (not_lt.2 h))]; rfl
      · rw [if_pos ((isAhead_iff _ _ _).2 h), Option.map_some, Int.add_zero]
  case answer =>
    refine ⟨{ s with mtu := s.mtu.project a, bus := { s.bus with chainageAnswers := rest } }, ?_, rfl, rfl, List.length_map _,
      fun i e f he hf => (getElem?_map_eq he hf).trans ?_⟩
    · simp only [exec, execChainageAnswer, hfront]
    · simp only [isOf_iff] <;> rfl
  case placement =>
    refine ⟨{ s with mtu := s.mtu.answerPlacement line number placed, bus := { s.bus with asuAnswers := rest } }, ?_, rfl, rfl,
      List.length_map _, fun i e f he hf => (getElem?_map_eq he hf).trans ?_⟩
    · simp only [exec, execPlacementAnswer, hfront]
    · simp only [isOf_iff]
  case loss =>
    refine ⟨{ s with mtu := s.mtu.lose j lost1 lost2, bus := { s.bus with asuAnswers := rest } }, ?_, rfl, rfl,
      List.length_map _, fun i e f he hf => (getElem?_map_eq he hf).trans ?_⟩
    · simp only [exec, execMarkLossReport, hfront]
    · simp only [lost_iff]

/-! ### Trigger channels -/

theorem isDue_iff (x : TriggerState) (k : Int) : x.isDue k = true ↔ x.enable = true ∧ (x.pitch : Int) ∣ k + x.mount - x.phase := by
  rw [TriggerState.isDue, Bool.and_eq_true, decide_eq_true_iff, Int.dvd_iff_emod_eq_zero]

theorem fire_idle {x : TriggerState} (h : x.timer = none) (k : Int) (now : Nat) : x.fire k now =
    { x with level := x.polarity.opposite, timer := some (now + x.width), pulses := x.pulses + 1,
             lastStarted := some (k + x.mount) } := by
  simp only [TriggerState.fire, h]

theorem fire_busy {x : TriggerState} (h : x.timer ≠ none) (k : Int) (now : Nat) : x.fire k now =
    { x with dropped := satSucc x.dropped, lastDropped := some (k + x.mount) } := by
  obtain ⟨tick, ht⟩ := Option.ne_none_iff_exists'.1 h
  simp only [TriggerState.fire, ht]

theorem trigger_evaluate (m : Mtu) (k : Int) (now : Nat) (c : Trigger) :
    (m.evaluate k now).trigger c = (m.trigger c).evaluate k now := by cases c <;> rfl

/-- The MTU once a sample event is taken (R165). -/
def eventTaken (s : State) (e : SampleEvent) : Mtu := if s.mtu.running then s.mtu.evaluate e.k s.now else s.mtu

theorem eventTaken_keeps (s : State) (e : SampleEvent) : (eventTaken s e).m1 = s.mtu.m1 ∧ (eventTaken s e).m2 = s.mtu.m2 ∧
    (eventTaken s e).list = s.mtu.list ∧ (eventTaken s e).running = s.mtu.running := by
  unfold eventTaken
  split <;> exact ⟨rfl, rfl, rfl, rfl⟩

theorem trigger_eventTaken (s : State) (e : SampleEvent) (c : Trigger) : (eventTaken s e).trigger c =
    if s.mtu.running = true ∧ (s.mtu.trigger c).isDue e.k = true then (s.mtu.trigger c).fire e.k s.now else s.mtu.trigger c := by
  unfold eventTaken
  by_cases hrun : s.mtu.running = true
  · simp only [hrun, if_true, true_and, trigger_evaluate]; rfl
  · rw [if_neg hrun, if_neg (fun h => hrun h.1)]

/-- Settles O36. -/
theorem triggersFireOnTheLattice : Obligations.TriggersFireOnTheLattice := by
  unfold Obligations.TriggersFireOnTheLattice
  refine ⟨fun s e rest hfront => ?event, fun s c tick htimer => ?expiry⟩
  case event =>
    obtain ⟨h1, h2, hlist, hrun⟩ := eventTaken_keeps s e
    refine ⟨{ s with mtu := eventTaken s e, bus := { s.bus with toMtu := rest } }, ?_, rfl, h1, h2, hlist, hrun, fun c => ?_⟩
    · simp only [exec, execMtuSampleEvent, hfront]
      rfl
    · intro x target due
      have hdue : (s.mtu.running = true ∧ x.isDue e.k = true) ↔ due := and_congr_right fun _ => isDue_iff x e.k
      have htrigger := trigger_eventTaken s e c
      refine ⟨fun h => htrigger.trans (if_neg (fun h' => h (hdue.1 h'))), fun h hidle => ?_, fun h hbusy => ?_⟩
      · rw [htrigger, if_pos (hdue.2 h), fire_idle hidle]
        cases (s.mtu.trigger c).polarity <;> rfl
      · rw [htrigger, if_pos (hdue.2 h), fire_busy hbusy, satSucc_eq]
  case expiry =>
    simp only [exec, execPulseExpiry, htimer]
    rfl

/-! ### Notices -/

/-- Settles O25. -/
theorem thePruAndTheMtuTakeTheirNotices : Obligations.ThePruAndTheMtuTakeTheirNotices := by
  unfold Obligations.ThePruAndTheMtuTakeTheirNotices
  refine ⟨fun s rest h => ?_, fun s i rest x h hx => ?_, fun s rest h => ?_, fun s rest h => ?_, fun s es rest h => ?_,
    fun s i rest h => ?_, fun s rest h => ?_, fun s rest h => ?_, fun s es rest h => ?_⟩
  · simp only [exec, execPruReversalNotice, h]
    cases s.pru.direction <;> rfl
  · simp only [exec, execPruStartNotice, h, Pru.started, hx]
    rfl
  · simp only [exec, execPruSuspendNotice, h]
  · simp only [exec, execPruResumptionNotice, h]
  · simp only [exec, execPruStopNotice, h, takeStop_events]
  · simp only [exec, execMtuStartNotice, h]
    rfl
  · simp only [exec, execMtuSuspendNotice, h]
  · simp only [exec, execMtuResumptionNotice, h]
  · simp only [exec, execMtuStopNotice, h, takeStop_events]

end Sys2Proof.Proofs.MarkersAndTriggers
end

