-- ==== Sys2Proof/Proofs/RunStates.lean ====
section
/-! PROOFS. Power-on, START, STOP and the changes of run state (R171 to R176, R180, R181). -/

namespace Sys2Proof.Proofs.RunStates

open Sys2Proof.Machine Sys2Proof.Safety Sys2Proof.Proofs.RecordStore Sys2Proof.Proofs.Calibration
  Sys2Proof.Proofs.Movement

/-- Settles O1. -/
theorem stepRunsTheFrontCommand : Obligations.StepRunsTheFrontCommand := by
  unfold Obligations.StepRunsTheFrontCommand
  intro c rest s h
  simp only [step, h]

/-! ### Power-on -/

theorem reset_atPowerOn : AtPowerOn State.reset where
  odu := ⟨rfl, rfl, rfl, rfl, rfl, rfl, rfl, rfl, rfl, rfl, rfl, rfl, rfl, rfl, rfl, rfl, rfl, rfl, rfl, rfl, rfl, fun e => by
    cases e <;> exact ⟨rfl, rfl, rfl, rfl, rfl, rfl, rfl, rfl, rfl, rfl, rfl, rfl⟩⟩
  slc := ⟨fun i => by cases i <;> rfl, fun l => by cases l <;> exact ⟨rfl, rfl, rfl, rfl, rfl, rfl⟩, rfl, rfl, rfl, rfl, rfl, rfl,
    rfl, rfl, rfl, rfl, rfl, rfl, rfl⟩
  asu := ⟨rfl, rfl, rfl, rfl, rfl, rfl, rfl, rfl, rfl, rfl⟩
  gcu := ⟨rfl, rfl, rfl, rfl, rfl, rfl, rfl, rfl, rfl, rfl, rfl, rfl, rfl, rfl, rfl, rfl, rfl, rfl⟩
  pru := ⟨rfl, rfl, rfl, rfl, rfl, rfl, rfl, rfl, rfl, rfl, rfl, rfl, fun _ => rfl, rfl, rfl, rfl, rfl, rfl⟩
  exu := ⟨fun p => by cases p <;> rfl, rfl, rfl, rfl, rfl, fun k p => by cases p <;> rfl⟩
  mtu := ⟨rfl, rfl, fun l => by cases l <;> rfl, fun t => by cases t <;> rfl⟩
  rcu := ⟨rfl, rfl, rfl, rfl, rfl, fun _ => rfl⟩
  stores := ⟨rfl, rfl, rfl, rfl, rfl, rfl, rfl, rfl, fun p => by cases p <;> exact ⟨rfl, rfl, rfl, rfl, rfl, rfl, rfl, rfl⟩⟩

/-- A power-on leaves the values of reset, but for the levels of the decoders (R24). -/
theorem poweredOn_atPowerOn (s : State) (phase : Power) : AtPowerOn (s.poweredOn phase) :=
  { reset_atPowerOn with
    odu := ⟨rfl, rfl, rfl, rfl, rfl, rfl, rfl, rfl, rfl, rfl, rfl, rfl, rfl, rfl, rfl, rfl, rfl, rfl, rfl, rfl, rfl, fun e => by
      cases e <;> exact ⟨rfl, rfl, rfl, rfl, rfl, rfl, rfl, rfl, rfl, rfl, rfl, rfl⟩⟩ }

theorem poweredOn_now (s : State) (phase : Power) : (s.poweredOn phase).now = 0 := rfl

/-- Settles O2. -/
theorem powerOnLeavesThePowerOnValues : Obligations.PowerOnLeavesThePowerOnValues := by
  unfold Obligations.PowerOnLeavesThePowerOnValues
  refine ⟨reset_atPowerOn, rfl, fun cause s => ?_, fun s h => ?_, fun s tick h => ?_⟩
  · have hlevels : ∀ phase e, ((s.poweredOn phase).odu.enc e).levelA = (s.odu.enc e).levelA ∧
        ((s.poweredOn phase).odu.enc e).levelB = (s.odu.enc e).levelB := fun phase e => by cases e <;> exact ⟨rfl, rfl⟩
    cases cause with
    | powerUp =>
      refine ⟨_, rfl, poweredOn_atPowerOn s _, ?_, rfl, rfl, hlevels _⟩
      rw [poweredOn_now, Nat.zero_add]; rfl
    | resetPin => exact ⟨_, rfl, poweredOn_atPowerOn s _, rfl, rfl, rfl, hlevels _⟩
  · simp only [exec, execResetPinRelease, h]
    rfl
  · simp only [exec, execStartUpHoldEnd, h]
    rfl

/-! ### START accepted -/

theorem exec_start {s t : State} {port : Port} {rq : Request} {r : Reply} (h : Serves s port rq .start)
    (hr : serveStart port rq s = (t, r)) : exec .start s = .next { t with cpc := t.cpc.answer port rq r } :=
  congrArg Host.Outcome.next (serve_of_serves h hr)

theorem directionOf_code (d : Direction) : directionOf d.code = some d := by cases d <;> rfl

theorem startSourceOf_code {source : CountSource} (h : source ≠ .none) : startSourceOf source.code = some source := by
  cases source
  · exact absurd rfl h
  · rfl
  · rfl

/-- The sample event 0 that an accepted START fires (R4). -/
def eventZero (s : State) (i : StartInfo) : SampleEvent := (s.odu.started i).eventNow s.now

/-- The ODU behind sample event 0 (R4, R10). -/
theorem started_odu (s : State) (i : StartInfo) : (s.started i).odu = { s.odu.started i with
    next := i.direction.sign, eventTick := s.now, standstill := some (s.now + 2097152), zeroSpeedNext := false } := by
  rw [← Int.zero_add i.direction.sign]
  rfl

theorem started_enc (o : Odu) (i : StartInfo) (e : Encoder) : (o.started i).enc e = (o.enc e).started := by cases e <;> rfl

theorem started_bus (s : State) (i : StartInfo) : (s.started i).bus = { s.bus with
    toOdu := [], toRcu := [.event (eventZero s i)], toPru := s.bus.toPru ++ [.start i, .event (eventZero s i)]
    toSlc := s.bus.toSlc ++ [.start i, .event (eventZero s i)], toMtu := s.bus.toMtu ++ [.start i, .event (eventZero s i)] } := by
  have happend : ∀ l : List Message, l ++ [.start i, .event (eventZero s i)] = (l ++ [.start i]) ++ [.event (eventZero s i)] :=
    fun l => by rw [List.append_assoc]; rfl
  rw [happend, happend, happend]
  rfl

theorem mountsPass_iff (a : Asu) : a.mountsPass = true ↔ min a.pGauge (min a.pVertical a.pLateral) ≤ 0 ∧
    0 ≤ max a.pGauge (max a.pVertical a.pLateral) ∧
    max a.pGauge (max a.pVertical a.pLateral) - min a.pGauge (min a.pVertical a.pLateral) ≤ 200 := by
  rw [Asu.mountsPass, Bool.and_eq_true, Bool.and_eq_true, decide_eq_true_iff, decide_eq_true_iff, decide_eq_true_iff, and_assoc]
  rfl

/-- The needed items in the order of steps 2 to 4 (R172). -/
theorem neededItems_eq (s : State) : s.neededItems = [.odometry, .sensors, .compute, .fixPolicy, .plan] ++
    s.pru.plan.map (fun y => .segment y.segment) ++ s.pru.plan.map (fun y => .limitSet (s.pru.segment y.segment).limitSet) ++
    [.limitSet 0] := by
  simp only [State.neededItems, requiredItems, Pru.planSegments, List.map_map, List.append_assoc]
  rfl

theorem find?_unwritten_none {s : State} (h : ∀ i ∈ s.neededItems, s.rcu.isWritten i = true) :
    s.neededItems.find? (fun i => !s.rcu.isWritten i) = none :=
  List.find?_eq_none.2 (fun i hi => by rw [h i hi]; exact Bool.false_ne_true)

section
variable {s : State} {entry : Nat} {c : Int} (hwritten : ∀ i ∈ s.neededItems, s.rcu.isWritten i = true)
include hwritten

theorem startRefusal_mounts (h : s.asu.mountsPass = false) :
    s.startRefusal entry c = some (refuseItem .config .sensors s.rcu.generation) := by
  simp only [State.startRefusal, find?_unwritten_none hwritten, h, Bool.not_false, if_true]

variable (hmounts : s.asu.mountsPass = true)
include hmounts

theorem startRefusal_entry (h : s.pru.plan[entry]? = none) : s.startRefusal entry c = some (refuseStep 6 s.rcu.generation) := by
  simp only [State.startRefusal, find?_unwritten_none hwritten, hmounts, Bool.not_true, Bool.false_eq_true, if_false, h]

theorem startRefusal_chainage {x : PlanEntry} (h : s.pru.plan[entry]? = some x) : s.startRefusal entry c =
    if (s.pru.segmentOf x).contains c then none else some (refuseStep 7 s.rcu.generation) := by
  simp only [State.startRefusal, find?_unwritten_none hwritten, hmounts, Bool.not_true, Bool.false_eq_true, if_false, h]

end

theorem startRefusal_unwritten {s : State} {entry : Nat} {c : Int} {before after : List ItemId} {i : ItemId}
    (hneeded : s.neededItems = before ++ i :: after) (hbefore : ∀ k ∈ before, s.rcu.isWritten k = true)
    (hi : s.rcu.isWritten i = false) : s.startRefusal entry c = some (refuseItem .notConfigured i s.rcu.generation) := by
  have hfind : s.neededItems.find? (fun i => !s.rcu.isWritten i) = some i := by
    refine List.find?_eq_some_iff_append.2 ⟨by rw [hi]; rfl, before, after, hneeded, fun k hk => ?_⟩
    rw [hbefore k hk]; rfl
  simp only [State.startRefusal, hfind]

theorem le_of_directionOf {n : Nat} {d : Direction} (h : directionOf n = some d) : n ≤ 1 :=
  not_lt.1 (fun hlt => by rw [directionOf_of_lt hlt] at h; cases h)

theorem bounds_of_startSourceOf {n : Nat} {source : CountSource} (h : startSourceOf n = some source) : 1 ≤ n ∧ n ≤ 2 := by
  unfold startSourceOf at h
  split at h
  · exact ⟨le_rfl, by decide⟩
  · exact ⟨by decide, le_rfl⟩
  · cases h

theorem startSourceOf_of_bounds {n : Nat} (hlow : 1 ≤ n) (hhigh : n ≤ 2) : ∃ source, startSourceOf n = some source := by
  obtain rfl | rfl : n = 1 ∨ n = 2 := by omega
  · exact ⟨_, rfl⟩
  · exact ⟨_, rfl⟩

section
variable {s : State} (port : Port) (rq : Request) {entry : Nat} {c : Int}

theorem serveStart_state (h : s.rcu.runState ≠ .standby) :
    serveStart port rq s = (s, .of .state (refusalPayload 0 0 0 0 s.rcu.generation)) := by
  unfold serveStart
  split
  next hs => exact absurd hs h
  next => rfl

variable (hstandby : s.rcu.runState = .standby) (hentry : getU8 rq.payload 0 = entry) (hc : getS32 rq.payload 1 = c)
include hstandby hentry hc

theorem serveStart_fields (h : 31 < entry ∨ 1 < getU8 rq.payload 5 ∨ getU8 rq.payload 6 = 0 ∨ 2 < getU8 rq.payload 6) :
    serveStart port rq s = (s, refuseStep 1 s.rcu.generation) := by
  simp only [serveStart, hstandby, hentry, hc]
  split
  next d source hd hsource =>
    have hdir := le_of_directionOf hd
    have hbounds := bounds_of_startSourceOf hsource
    exact if_pos (h.resolve_right (by omega))
  next => rfl

variable {d : Direction} {source : CountSource} (hd : directionOf (getU8 rq.payload 5) = some d)
  (hsource : startSourceOf (getU8 rq.payload 6) = some source) (hlow : entry ≤ 31)
include hd hsource hlow

theorem serveStart_refused {r : Reply} (h : s.startRefusal entry c = some r) : serveStart port rq s = (s, r) := by
  simp only [serveStart, hstandby, hentry, hc, hd, hsource, if_neg (not_lt.2 hlow), h, answered]

theorem serveStart_accepted (h : s.startRefusal entry c = none) : serveStart port rq s =
    let t := s.started { run := s.rcu.runNumber + 1, entry := entry, chainage := c, direction := d, source := source }
    (t, .of .ok (be32 t.rcu.runNumber ++ be32 t.rcu.generation ++ be16 t.odu.epoch)) := by
  simp only [serveStart, hstandby, hentry, hc, hd, hsource, if_neg (not_lt.2 hlow), h]

end

/-- The written marks that START checks, from those of the plan's entries. -/
theorem written_of_plan {s : State}
    (hitems : ∀ i ∈ [ItemId.odometry, .sensors, .compute, .fixPolicy, .plan, .limitSet 0], s.rcu.isWritten i = true)
    (hplan : ∀ y ∈ s.pru.plan, s.rcu.isWritten (.segment y.segment) = true ∧
      s.rcu.isWritten (.limitSet (s.pru.segment y.segment).limitSet) = true) :
    ∀ i ∈ s.neededItems, s.rcu.isWritten i = true := by
  have hitems : ∀ i ∈ [ItemId.odometry, .sensors, .compute, .fixPolicy, .plan] ++ [.limitSet 0], s.rcu.isWritten i = true := hitems
  intro i hi
  rw [neededItems_eq] at hi
  rcases List.mem_append.1 hi with hi | hi
  · rcases List.mem_append.1 hi with hi | hi
    · rcases List.mem_append.1 hi with hi | hi
      · exact hitems i (List.mem_append_left _ hi)
      · obtain ⟨y, hy, rfl⟩ := List.mem_map.1 hi
        exact (hplan y hy).1
    · obtain ⟨y, hy, rfl⟩ := List.mem_map.1 hi
      exact (hplan y hy).2
  · exact hitems i (List.mem_append_right _ hi)

/-- Every port has state-news, the one answered too (R171). -/
theorem news_answer_news (c : Cpc) (p q : Port) (rq : Request) (r : Reply) : ((c.news.answer p rq r).port q).news = true := by
  by_cases h : q = p
  · rw [h, Cpc.port_answer, Cpc.port_news]
  · rw [Cpc.port_answer_of_ne _ _ _ h, Cpc.port_news]

/-- Settles O37. -/
theorem anAcceptedStartBeginsTheRun : Obligations.AnAcceptedStartBeginsTheRun := by
  unfold Obligations.AnAcceptedStartBeginsTheRun
  intro s port rq x d source hserves hstandby entry c hlow hd hsource hnone hitems hplan hmin hmax hspan hx hlo hhi i
  have hc : getS32 rq.payload 1 = c := rfl
  clear_value c
  have hneeded := written_of_plan hitems hplan
  have haccepted : s.startRefusal entry c = none := by
    rw [startRefusal_chainage hneeded ((mountsPass_iff s.asu).2 ⟨hmin, hmax, hspan⟩) hx, if_pos]
    rw [Segment.contains, Bool.and_eq_true, decide_eq_true_iff, decide_eq_true_iff]
    exact ⟨hlo, hhi⟩
  have hserve := serveStart_accepted port rq hstandby rfl hc (hd ▸ directionOf_code d) (hsource ▸ startSourceOf_code hnone) hlow
    haccepted
  have hspeed : (eventZero s i).speed = 0 := eventSpeed_eq_zero (o := s.odu.started i) rfl s.now
  refine ⟨_, eventZero s i, exec_start hserves hserve, rfl, rfl, rfl, hspeed, rfl, started_bus s i, rfl, rfl, Int.zero_add _, rfl,
    rfl, rfl, rfl, rfl, rfl, hspeed, rfl, rfl, fun h => ⟨if_pos h, if_pos h⟩, fun h => ⟨if_neg h, if_neg h⟩, rfl, rfl, rfl,
    fun n => ?enc, fun q => ?news, ?reply, rfl, rfl, rfl, rfl, rfl, rfl, rfl, rfl, rfl, rfl, rfl⟩
  case enc => cases n <;> exact ⟨rfl, rfl, rfl, rfl, rfl, rfl, rfl, rfl, rfl⟩
  case news => exact news_answer_news s.cpc port q rq _
  case reply =>
    rw [Cpc.port_answer]
    rfl

/-! ### START refused -/

theorem refusalPayload_eq (kind index step offset : Nat) (generation : Word32) :
    refusalPayload kind index step offset generation = refusalFields kind index step offset generation := by
  have hoffset : putU16 offset = [BitVec.ofNat 8 (offset / 256), BitVec.ofNat 8 offset] := by
    simp only [putU16, be16, List.cons.injEq, and_true]
    constructor
    · apply BitVec.eq_of_toNat_eq
      simp [Nat.shiftRight_eq_div_pow]
      omega
    · apply BitVec.eq_of_toNat_eq
      simp
  simp only [refusalPayload, refusalFields, hoffset, putU8, be32]
  rfl

/-- Settles O38. -/
theorem aRefusedStartNamesItsCheck : Obligations.ARefusedStartNamesItsCheck := by
  unfold Obligations.ARefusedStartNamesItsCheck
  intro s port rq hserves entry c g needed lowest highest refused
  have hc : getS32 rq.payload 1 = c := rfl
  clear_value c
  have hneeded : s.neededItems = needed := neededItems_eq s
  refine ⟨fun h => ?state, fun hstandby => ⟨fun h => ?fields, fun hlow hdir hslow hshigh => ?_⟩⟩
  case state => exact exec_start hserves ((serveStart_state port rq h).trans (by rw [refusalPayload_eq]))
  case fields =>
    exact exec_start hserves ((serveStart_fields port rq hstandby rfl hc h).trans (by rw [refuseStep, refusalPayload_eq]))
  have hd := directionOf_of_le hdir
  obtain ⟨source, hsource⟩ := startSourceOf_of_bounds hslow hshigh
  have hrefused : ∀ {r : Reply}, s.startRefusal entry c = some r → refused r := fun h =>
    exec_start hserves (serveStart_refused port rq hstandby rfl hc hd hsource hlow h)
  refine ⟨fun before i after hitems hbefore hi => ?unwritten, fun hwritten => ?_⟩
  case unwritten =>
    have h := hrefused (startRefusal_unwritten (hneeded.trans hitems) hbefore hi)
    rw [refuseItem, refusalPayload_eq] at h
    exact h
  have hwritten' : ∀ i ∈ s.neededItems, s.rcu.isWritten i = true := fun i hi => hwritten i (hneeded ▸ hi)
  refine ⟨fun h => ?mounts, fun hmin hmax hspan => ?_⟩
  case mounts =>
    have hpass : s.asu.mountsPass = false := Bool.eq_false_iff.2 (fun hp => by
      obtain ⟨hmin, hmax, hspan⟩ := (mountsPass_iff s.asu).1 hp
      omega)
    have h := hrefused (startRefusal_mounts hwritten' hpass)
    rw [refuseItem, refusalPayload_eq] at h
    exact h
  have hpass := (mountsPass_iff s.asu).2 ⟨hmin, hmax, hspan⟩
  refine ⟨fun h => ?entry, fun x hx hout => ?chainage⟩
  case entry =>
    have h := hrefused (startRefusal_entry hwritten' hpass (List.getElem?_eq_none h))
    rw [refuseStep, refusalPayload_eq] at h
    exact h
  case chainage =>
    have hcontains : ¬(s.pru.segmentOf x).contains c = true := fun h => by
      rw [Segment.contains, Bool.and_eq_true, decide_eq_true_iff, decide_eq_true_iff] at h
      exact hout h
    have h := hrefused ((startRefusal_chainage hwritten' hpass hx).trans (if_neg hcontains))
    rw [refuseStep, refusalPayload_eq] at h
    exact h

/-! ### STOP, loss, restoration, counting -/

theorem news_eq (c : Cpc) : c.news = { c with
    cp0 := { c.cp0 with news := true }, cp1 := { c.cp1 with news := true }, cp2 := { c.cp2 with news := true } } := rfl

/-- Settles O39. -/
theorem theRunStateFollowsItsEvents : Obligations.TheRunStateFollowsItsEvents := by
  unfold Obligations.TheRunStateFollowsItsEvents
  intro news
  refine ⟨fun s port rq hserves => ⟨fun h => ?_, fun h => ?_⟩, fun s rest hfront => ⟨fun h => ?_, fun h => ?_⟩,
    fun s rest hfront => ⟨fun h => ?_, fun h => ?_⟩, fun s e rest hfront => ?_⟩
  · exact congrArg Host.Outcome.next (serve_of_serves hserves (f := serveStop) (by simp only [serveStop, h, answered]))
  · have hserve : serveStop port rq s = (s.stopped, .of .ok (be32 s.rcu.runNumber ++ be32 s.rcu.eventCount ++
        putU8 (if s.rcu.runState = .running then 1 else 2))) := by
      unfold serveStop
      cases hs : s.rcu.runState
      · exact absurd hs h
      · rfl
      · rfl
    exact congrArg Host.Outcome.next (serve_of_serves hserves hserve)
  · simp only [exec, execOdometryLost, hfront, if_neg h]
  · simp only [exec, execOdometryLost, hfront, if_pos h]
    rfl
  · simp only [exec, execOdometryRestored, hfront, if_neg h]
  · simp only [exec, execOdometryRestored, hfront, if_pos h]
    rfl
  · simp only [exec, execRcuSampleEvent, hfront]
    by_cases h : s.rcu.runState = .running
    · simp only [if_pos h]
    · simp only [if_neg h]

end Sys2Proof.Proofs.RunStates
end

