-- ==== Sys2Proof/Proofs/ItemRequests.lean ====
section
/-! PROOFS. SET_ITEM and READ_ITEM: the judgement, the acceptance, the answer (R177 to R179). -/

namespace Sys2Proof.Proofs.ItemRequests

open Sys2Proof.Machine Sys2Proof.Safety Sys2Proof.Proofs.RecordStore Sys2Proof.Proofs.Footprints Sys2Proof.Proofs.RunStates

/-! ### The judgement -/

theorem itemOf_codes {kind index : Nat} {i : ItemId} (h : itemOf kind index = some i) : kindCode i = kind ∧ indexCode i = index := by
  unfold itemOf at h
  repeat' split at h
  all_goals cases h
  all_goals subst_vars
  all_goals exact ⟨rfl, rfl⟩

theorem itemLength_of_itemOf {kind index : Nat} {i : ItemId} (h : itemOf kind index = some i) : itemLength kind ≠ none := by
  obtain ⟨rfl, _⟩ := itemOf_codes h
  cases i <;> exact nofun

section
variable {payload : List Byte} {r : RunState}

theorem judgeItem_badRequest (h : itemLength (getU8 payload 0) ≠ some (payload.length - 2) ∨ payload.length < 2) :
    judgeItem r payload = .refused .badRequest 0 := by
  unfold judgeItem
  split
  next => rfl
  next n hn =>
    refine if_pos (fun hlen => ?_)
    rcases h with h | h
    · exact h (hn.trans (congrArg some (by omega)))
    · omega

theorem length_of_fits (htwo : 2 ≤ payload.length) : payload.length = 2 + (payload.drop 2).length := by
  rw [List.length_drop]; omega

variable (hlen : itemLength (getU8 payload 0) = some (payload.drop 2).length) (htwo : 2 ≤ payload.length)
include hlen htwo

theorem judgeItem_state (h : r ≠ .standby) : judgeItem r payload = .refused .state 0 := by
  simp only [judgeItem, hlen, if_neg (not_not_intro (length_of_fits htwo)), if_pos h]

variable (hr : r = .standby)
include hr

theorem judgeItem_index (h : itemOf (getU8 payload 0) (getU8 payload 1) = none) : judgeItem r payload = .refused .range 0 := by
  simp only [judgeItem, hlen, if_neg (not_not_intro (length_of_fits htwo)), if_neg (not_not_intro hr), h]

variable {i : ItemId} (hi : itemOf (getU8 payload 0) (getU8 payload 1) = some i)
include hi

theorem judgeItem_field {off : Nat} (h : firstFailing (itemChecks i (payload.drop 2)) = some off) :
    judgeItem r payload = .refused .range off := by
  simp only [judgeItem, hlen, if_neg (not_not_intro (length_of_fits htwo)), if_neg (not_not_intro hr), hi, h]

theorem judgeItem_accepted (h : ∀ f ∈ itemChecks i (payload.drop 2), f.2 = true) :
    judgeItem r payload = .accepted i (payload.drop 2) := by
  simp only [judgeItem, hlen, if_neg (not_not_intro (length_of_fits htwo)), if_neg (not_not_intro hr), hi,
    firstFailing_none.2 h]

end

/-! ### SET_ITEM -/

section
variable {s : State} {port : Port} {rq : Request} (hserves : Serves s port rq .setItem)
include hserves

theorem exec_setItem_refused {status : Status} {off : Nat} (h : judgeItem s.rcu.runState rq.payload = .refused status off) :
    exec .setItem s = .next (onlyReplies s port rq
      (.of status (refusalFields (getU8 rq.payload 0) (getU8 rq.payload 1) 0 off s.rcu.generation))) := by
  have hserve : serveSetItem port rq s =
      (s, .of status (refusalFields (getU8 rq.payload 0) (getU8 rq.payload 1) 0 off s.rcu.generation)) := by
    simp only [serveSetItem, h, answered, refusalPayload_eq]
  have hwaits : s.itemWaits = false := by simp only [State.itemWaits, hserves.1, h]
  show Host.Outcome.next (if s.itemWaits then s else s.serve .setItem serveSetItem) = _
  rw [hwaits, if_neg Bool.false_ne_true, serve_of_serves hserves hserve]
  rfl

variable {i : ItemId} {b : List Byte} (h : judgeItem s.rcu.runState rq.payload = .accepted i b)
include h

theorem exec_setItem_waits (hquiet : ¬Quiet s) : exec .setItem s = .next s := by
  have hwaits : s.itemWaits = true := by
    simp only [State.itemWaits, hserves.1, h, Bool.eq_false_iff.2 (fun hq => hquiet ((State.isQuiet_iff s).1 hq)), Bool.not_false]
  show Host.Outcome.next (if s.itemWaits then s else s.serve .setItem serveSetItem) = _
  rw [hwaits, if_pos rfl]

theorem exec_setItem_accepted (hquiet : Quiet s) : exec .setItem s = .next { s.acceptItem i b with
    cpc := s.cpc.answer port rq (.of .ok (putU8 (kindCode i) ++ putU8 (indexCode i) ++ be32 (s.rcu.generation + 1))) } := by
  have hserve : serveSetItem port rq s = (s.acceptItem i b,
      .of .ok (putU8 (kindCode i) ++ putU8 (indexCode i) ++ be32 (s.rcu.generation + 1))) := by
    simp only [serveSetItem, h, State.acceptItem, writeItem_rcu]
  have hwaits : s.itemWaits = false := by
    simp only [State.itemWaits, hserves.1, h, (State.isQuiet_iff s).2 hquiet, Bool.not_true]
  have hcpc : (s.acceptItem i b).cpc = s.cpc := writeItem_cpc s i b
  show Host.Outcome.next (if s.itemWaits then s else s.serve .setItem serveSetItem) = _
  rw [hwaits, if_neg Bool.false_ne_true, serve_of_serves hserves hserve, hcpc]

end

theorem isWritten_mark (r : Rcu) (i k : ItemId) : (r.mark i).isWritten k = true ↔ k = i ∨ r.isWritten k = true := by
  unfold Rcu.mark
  split
  next h => exact ⟨.inr, fun hk => hk.elim (fun hk => hk ▸ h) id⟩
  next => simp only [Rcu.isWritten, List.contains_append, Bool.or_eq_true, List.contains_iff_mem, List.mem_singleton, or_comm]

theorem isWritten_mark_of_ne (r : Rcu) {i k : ItemId} (h : k ≠ i) : (r.mark i).isWritten k = r.isWritten k :=
  Bool.eq_iff_iff.2 ((isWritten_mark r i k).trans (or_iff_right h))

theorem mark_frame (r : Rcu) (i : ItemId) (n : Word32) :
    { r.mark i with generation := r.generation, written := r.written } = r ∧
    ({ r.mark i with generation := n } : Rcu).isWritten = (r.mark i).isWritten := by
  unfold Rcu.mark
  split <;> exact ⟨rfl, rfl⟩

theorem acceptItem_eq (s : State) (i : ItemId) (b : List Byte) : s.acceptItem i b =
    { s.writeItem i b with rcu := { s.rcu.mark i with generation := s.rcu.generation + 1 } } := by
  simp only [State.acceptItem, writeItem_rcu]

theorem restore_eq {s u : State} (hrcu : u.rcu = s.rcu) (hcpc : u.cpc = s.cpc) : { u with rcu := s.rcu, cpc := s.cpc } = u := by
  rw [← hrcu, ← hcpc]

/-! ### READ_ITEM -/

theorem exec_readItem {s : State} {port : Port} {rq : Request} {r : Reply} (h : Serves s port rq .readItem)
    (hr : serveReadItem port rq s = (s, r)) : exec .readItem s = .next (onlyReplies s port rq r) :=
  congrArg Host.Outcome.next (serve_of_serves h hr)

theorem serveReadItem_item {s : State} (port : Port) (rq : Request) {i : ItemId}
    (hi : itemOf (getU8 rq.payload 0) (getU8 rq.payload 1) = some i) : serveReadItem port rq s =
      if s.rcu.isWritten i then (s, .of .ok ([BitVec.ofNat 8 (getU8 rq.payload 0), BitVec.ofNat 8 (getU8 rq.payload 1)] ++
        be32 s.rcu.generation ++ s.itemBytes i))
      else (s, .of .notConfigured (be32 s.rcu.generation)) := by
  obtain ⟨n, hn⟩ := Option.ne_none_iff_exists'.1 (itemLength_of_itemOf hi)
  obtain ⟨hkind, hindex⟩ := itemOf_codes hi
  simp only [serveReadItem, hn, hi, answered, putU8, hkind, hindex]
  rfl

/-- Settles O40. -/
theorem itemsAreJudgedWrittenAndReturned : Obligations.ItemsAreJudgedWrittenAndReturned := by
  unfold Obligations.ItemsAreJudgedWrittenAndReturned
  refine ⟨fun s port rq hserves => ?set, fun s port rq hserves => ?read⟩
  case set =>
    intro kind index b refused
    refine ⟨fun h => exec_setItem_refused hserves (judgeItem_badRequest h), fun hlen htwo =>
      ⟨fun h => exec_setItem_refused hserves (judgeItem_state hlen htwo h), fun hr =>
        ⟨fun h => exec_setItem_refused hserves (judgeItem_index hlen htwo hr h), fun i hi =>
          ⟨fun before off after hchecks hbefore => ?field, fun hchecks hquiet => ?waits, fun hchecks hquiet => ?accepted⟩⟩⟩⟩
    case field =>
      have hfirst := firstFailing_first hbefore off after
      rw [← hchecks] at hfirst
      exact exec_setItem_refused hserves (judgeItem_field hlen htwo hr hi hfirst)
    case waits => exact exec_setItem_waits hserves (judgeItem_accepted hlen htwo hr hi hchecks) hquiet
    case accepted =>
      have hexec := exec_setItem_accepted hserves (judgeItem_accepted hlen htwo hr hi hchecks) hquiet
      obtain ⟨hkind, hindex⟩ := itemOf_codes hi
      rw [hkind, hindex, acceptItem_eq] at hexec
      obtain ⟨hframe, hmarks⟩ := mark_frame s.rcu i (s.rcu.generation + 1)
      refine ⟨_, hexec, ?_, fun k hk => ?_, rfl, restore_eq (writeItem_rcu s i b) (writeItem_cpc s i b), hframe, rfl⟩
      · exact (congrFun hmarks i).trans ((isWritten_mark s.rcu i i).2 (.inl rfl))
      · exact (congrFun hmarks k).trans (isWritten_mark_of_ne s.rcu hk)
  case read =>
    intro kind index g
    refine ⟨fun h => ?_, fun h hnone => ?_, fun i hi => ?_⟩
    · exact exec_readItem hserves (by simp only [serveReadItem, show itemLength (getU8 rq.payload 0) = none from h, answered]; rfl)
    · obtain ⟨n, hn⟩ := Option.ne_none_iff_exists'.1 h
      exact exec_readItem hserves (by
        simp only [serveReadItem, show itemLength (getU8 rq.payload 0) = some n from hn,
          show itemOf (getU8 rq.payload 0) (getU8 rq.payload 1) = none from hnone, answered]
        rfl)
    · have hserve := serveReadItem_item (s := s) port rq hi
      refine ⟨fun hw => exec_readItem hserves (hserve.trans (if_neg (Bool.eq_false_iff.1 hw))), fun hw => ?_⟩
      exact exec_readItem hserves (hserve.trans (if_pos hw))

end Sys2Proof.Proofs.ItemRequests
end

