-- ==== Sys2Proof/Proofs/ItemFields.lean ====
section
/-! PROOFS. The fields of the configuration items: how they are read, and the ranges they are held to (R203). -/

namespace Sys2Proof.Proofs.ItemFields

open Sys2Proof.Machine Sys2Proof.Safety

/-! ### Reading fields -/

theorem field_succ {b : List Byte} {o n : Nat} (h : o + n < b.length) :
    field b o (n + 1) = field b o n * 256 + getU8 b (o + n) := by
  have hget : (b.drop o)[n]? = some (b.getD (o + n) 0) := by
    rw [List.getElem?_drop, List.getD_eq_getElem?_getD, List.getElem?_eq_getElem h, Option.getD_some]
  rw [field, List.take_add_one, hget, List.foldl_append]
  rfl

theorem getS32_eq (b : List Byte) (o : Nat) :
    getS32 b o = if getU32 b o < 2147483648 then (getU32 b o : Int) else getU32 b o - 4294967296 := by
  have hlt := getU32_lt b o
  rw [getS32, BitVec.toInt_eq_toNat_cond, BitVec.toNat_ofNat, Nat.mod_eq_of_lt (by simpa using hlt)]
  generalize getU32 b o = x
  split_ifs <;> omega

theorem getS8_eq (b : List Byte) (o : Nat) : getS8 b o = if getU8 b o < 128 then (getU8 b o : Int) else getU8 b o - 256 := by
  rw [getS8, getU8, BitVec.toInt_eq_toNat_cond]
  generalize (b.getD o 0).toNat = x
  split_ifs <;> omega

/-- A field is read most significant byte first. -/
theorem reads_eq_field {b : List Byte} {o : Nat} (h : o + 4 ≤ b.length) :
    getU8 b o = field b o 1 ∧ getU16 b o = field b o 2 ∧ getU32 b o = field b o 4 := by
  have h1 : field b o 1 = getU8 b o := by
    have hzero : field b o 0 = 0 := rfl
    rw [field_succ (by omega), hzero, Nat.zero_mul, Nat.zero_add, Nat.add_zero]
  have h2 : field b o 2 = getU16 b o := by rw [field_succ (by omega), h1, getU16]
  have h3 : field b o 3 = getU16 b o * 256 + getU8 b (o + 2) := by rw [field_succ (by omega), h2]
  refine ⟨h1.symm, h2.symm, ?_⟩
  rw [field_succ (by omega), h3, getU32, getU16, getU16]
  ring

/-- The two's complement of a signed reading gives back the unsigned one. -/
theorem toNat_emod_of_signed {n k : Nat} (h : n < 2 * k) :
    ((if n < k then (n : Int) else n - (2 * k : Nat)) % (2 * k : Nat)).toNat = n := by
  split_ifs
  · rw [Int.emod_eq_of_lt (by omega) (by omega), Int.toNat_natCast]
  · rw [Int.sub_emod_right, Int.emod_eq_of_lt (by omega) (by omega), Int.toNat_natCast]

theorem signed_bounds {n k : Nat} (h : n < 2 * k) :
    -(k : Int) ≤ (if n < k then (n : Int) else n - (2 * k : Nat)) ∧
      (if n < k then (n : Int) else n - (2 * k : Nat)) ≤ (k : Int) - 1 := by
  split_ifs <;> omega

theorem fields_read {b : List Byte} {o : Nat} (h : o + 4 ≤ b.length) :
    getU8 b o = field b o 1 ∧ getU16 b o = field b o 2 ∧ getU32 b o = field b o 4 ∧
    twos 8 (getS8 b o) = field b o 1 ∧ -128 ≤ getS8 b o ∧ getS8 b o ≤ 127 ∧ twos 32 (getS32 b o) = field b o 4 ∧
    Fits32 (getS32 b o) := by
  obtain ⟨h1, h2, h4⟩ := reads_eq_field h
  have h8 : 2 ^ 8 = 2 * 128 := rfl
  have h32 : 2 ^ 32 = 2 * 2147483648 := rfl
  obtain ⟨hlo, hhi⟩ := signed_bounds (k := 128) (getU8_lt b o)
  refine ⟨h1, h2, h4, ?_, (getS8_eq b o).symm ▸ hlo, (getS8_eq b o).symm ▸ hhi, ?_, getS32_range b o⟩
  · rw [← h1, twos, getS8_eq, h8]
    exact toNat_emod_of_signed (getU8_lt b o)
  · rw [← h4, twos, getS32_eq, h32]
    exact toNat_emod_of_signed (getU32_lt b o)

/-! ### Ranges -/

theorem within_iff (lo x hi : Int) : within lo x hi = true ↔ lo ≤ x ∧ x ≤ hi := by
  rw [within, Bool.and_eq_true, decide_eq_true_iff, decide_eq_true_iff]

theorem within_natCast (lo n hi : Nat) : within (no_index (OfNat.ofNat lo)) n (no_index (OfNat.ofNat hi)) = true ↔
    (OfNat.ofNat lo : Nat) ≤ n ∧ n ≤ (OfNat.ofNat hi : Nat) :=
  (within_iff _ _ _).trans (and_congr Int.ofNat_le Int.ofNat_le)

/-- A signed field held to a range above 0 is the unsigned one held to it. -/
theorem within_getS32 {b : List Byte} {o lo hi : Nat} (hlo : 0 < lo) (hhi : hi < 2147483648) :
    within lo (getS32 b o) hi = true ↔ lo ≤ getU32 b o ∧ getU32 b o ≤ hi := by
  rw [within_iff, getS32_eq]
  have hlt := getU32_lt b o
  generalize getU32 b o = x at hlt ⊢
  split_ifs <;> omega

theorem circumference_within (b : List Byte) (o : Nat) :
    within 1500000 (getS32 b o) 4000000 = true ↔ 1500000 ≤ getU32 b o ∧ getU32 b o ≤ 4000000 :=
  within_getS32 (lo := 1500000) (hi := 4000000) (by decide) (by decide)

theorem getU8_le (b : List Byte) (o : Nat) : getU8 b o ≤ 255 := Nat.le_of_lt_succ (getU8_lt b o)

theorem getU16_le (b : List Byte) (o : Nat) : getU16 b o ≤ 65535 := Nat.le_of_lt_succ (getU16_lt b o)

section
variable (b : List Byte)

theorem odometryChecks_iff : (∀ f ∈ odometryChecks b, f.2 = true) ↔
    getU16 b 0 ∈ [125, 250, 500] ∧ getU8 b 2 ≤ 1 ∧ 8 ≤ getU8 b 3 ∧ 1 ≤ getU8 b 4 ∧ getU8 b 4 ≤ 10 ∧
      1 ≤ getU16 b 5 ∧ ∀ o ∈ [7, 14], 1500000 ≤ getU32 b o ∧ getU32 b o ≤ 4000000 ∧ 400 ≤ getU16 b (o + 4) ∧
        getU16 b (o + 4) ≤ 16384 ∧ getU8 b (o + 6) ≤ 1 := by
  have hinterval : (getU16 b 0 == 125 || getU16 b 0 == 250 || getU16 b 0 == 500) = true ↔ getU16 b 0 ∈ [125, 250, 500] := by
    simp only [Bool.or_eq_true, beq_iff_eq, List.mem_cons, List.not_mem_nil, or_false, or_assoc]
  simp only [odometryChecks, List.forall_mem_cons, List.not_mem_nil, false_implies, implies_true, and_true, hinterval,
    within_natCast, circumference_within, getU8_le, getU16_le, Nat.zero_le, true_and, and_assoc, Nat.reduceAdd]

theorem sensorsChecks_iff : (∀ f ∈ sensorsChecks b, f.2 = true) ↔
    6 ≤ getU8 b 0 ∧ getU8 b 0 ≤ 20 ∧ 6 ≤ getU8 b 1 ∧ getU8 b 1 ≤ 20 ∧ 1000 ≤ getU16 b 2 ∧ getU16 b 2 ≤ 20000 ∧
      getU16 b 4 ≤ 2000 ∧ getU16 b 4 < getU16 b 2 ∧ 8 ≤ getU16 b 6 ∧ getU16 b 6 ≤ 400 ∧
      (∀ o ∈ [8, 9, 10], -100 ≤ getS8 b o ∧ getS8 b o ≤ 100) ∧ 0 ≤ getS32 b 11 ∧ getS32 b 11 ≤ 2000000 ∧
      1000000 ≤ getS32 b 15 ∧ getS32 b 15 ≤ 2000000 ∧ 1400 ≤ getU16 b 19 ∧ getU16 b 19 ≤ 1700 := by
  simp only [sensorsChecks, List.forall_mem_cons, List.not_mem_nil, false_implies, implies_true, and_true, within_natCast,
    Nat.zero_le, true_and, Bool.and_eq_true, decide_eq_true_iff]
  simp only [within_iff, and_assoc]

theorem computeChecks_iff : (∀ f ∈ computeChecks b, f.2 = true) ↔ ∀ o ∈ [0, 1, 2, 3], 1 ≤ getU8 b o ∧ getU8 b o ≤ 48 := by
  simp only [computeChecks, List.forall_mem_cons, List.not_mem_nil, false_implies, implies_true, and_true, within_natCast]

theorem fixPolicyChecks_iff : (∀ f ∈ fixPolicyChecks b, f.2 = true) ↔
    100 ≤ getS32 b 0 ∧ getS32 b 0 ≤ 500000 ∧ 100 ≤ getS32 b 4 ∧ getS32 b 4 ≤ 100000 ∧ getU8 b 8 ≤ 25 := by
  simp only [fixPolicyChecks, List.forall_mem_cons, List.not_mem_nil, false_implies, implies_true, and_true, within_natCast,
    Nat.zero_le, true_and]
  simp only [within_iff, and_assoc]

theorem markerChecks_iff : (∀ f ∈ markerChecks b, f.2 = true) ↔
    getU8 b 0 ≤ 1 ∧ -100 ≤ getS8 b 1 ∧ getS8 b 1 ≤ 100 ∧ getU16 b 2 ≤ 4096 := by
  simp only [markerChecks, List.forall_mem_cons, List.not_mem_nil, false_implies, implies_true, and_true, within_natCast,
    Nat.zero_le, true_and]
  simp only [within_iff, and_assoc]

theorem triggerChecks_iff : (∀ f ∈ triggerChecks b, f.2 = true) ↔
    getU8 b 0 ≤ 1 ∧ 1 ≤ getU16 b 1 ∧ getU16 b 1 ≤ 4096 ∧ getU16 b 3 < getU16 b 1 ∧ -100 ≤ getS8 b 5 ∧
      getS8 b 5 ≤ 100 ∧ 1 ≤ getU16 b 6 ∧ getU8 b 8 ≤ 1 := by
  simp only [triggerChecks, List.forall_mem_cons, List.not_mem_nil, false_implies, implies_true, and_true, within_natCast,
    getU16_le, Nat.zero_le, true_and, decide_eq_true_iff]
  simp only [within_iff, and_assoc]

theorem forall_mem_flatMap_range {α : Type} {n : Nat} {f : Nat → List α} {P : α → Prop} :
    (∀ x ∈ (List.range n).flatMap f, P x) ↔ ∀ e < n, ∀ x ∈ f e, P x :=
  List.forall_mem_flatMap.trans (forall_congr' fun _ => imp_congr_left List.mem_range)

theorem isSome_orientationOf (x : Int) : (orientationOf x).isSome = true ↔ x = 1 ∨ x = -1 := by
  unfold orientationOf
  split_ifs with h1 h2
  · exact iff_of_true rfl (.inl h1)
  · exact iff_of_true rfl (.inr h2)
  · exact iff_of_false nofun (not_or_intro h1 h2)

theorem planChecks_iff : (∀ f ∈ planChecks b, f.2 = true) ↔
    1 ≤ getU8 b 0 ∧ getU8 b 0 ≤ 32 ∧ ∀ e < getU8 b 0,
      getU8 b (1 + 2 * e) ≤ 63 ∧ (getS8 b (2 + 2 * e) = 1 ∨ getS8 b (2 + 2 * e) = -1) := by
  rw [planChecks, List.forall_mem_cons, forall_mem_flatMap_range, within_natCast, and_assoc]
  refine and_congr_right fun _ => and_congr_right fun hhi => ?_
  simp only [Nat.min_eq_left hhi, List.forall_mem_cons, List.not_mem_nil, false_implies, implies_true, and_true, within_natCast,
    isSome_orientationOf, Nat.zero_le, true_and]

theorem segmentChecks_iff : (∀ f ∈ segmentChecks b, f.2 = true) ↔
    1 ≤ getU16 b 0 ∧ getS32 b 2 < getS32 b 6 ∧ getU8 b 10 ≤ 15 ∧ getU8 b 11 ≤ 4 ∧ ∀ m < getU8 b 11,
      getS32 b 2 ≤ getS32 b (12 + 9 * m) ∧ getS32 b (12 + 9 * m) ≤ getS32 b (16 + 9 * m) ∧
      getS32 b (16 + 9 * m) ≤ getS32 b 6 ∧ 1 ≤ getU8 b (20 + 9 * m) ∧ getU8 b (20 + 9 * m) ≤ 127 := by
  rw [segmentChecks, List.forall_mem_append, forall_mem_flatMap_range]
  simp only [List.forall_mem_cons, List.not_mem_nil, false_implies, implies_true, and_true, within_natCast, getU16_le, Nat.zero_le,
    true_and, decide_eq_true_iff]
  simp only [within_iff, and_assoc]
  refine and_congr_right fun _ => and_congr_right fun _ => and_congr_right fun _ => and_congr_right fun hhi => ?_
  rw [Nat.min_eq_left hhi]

/-! ### Limit sets -/

theorem forall_lt_three {P : Nat → Prop} : (∀ n < 3, P n) ↔ P 0 ∧ P 1 ∧ P 2 := by
  refine ⟨fun h => ⟨h 0 (by decide), h 1 (by decide), h 2 (by decide)⟩, fun ⟨h0, h1, h2⟩ n hn => ?_⟩
  interval_cases n
  · exact h0
  · exact h1
  · exact h2

theorem forall_lt_lt_three {P : Nat → Nat → Prop} : (∀ l m, l < m → m < 3 → P l m) ↔ P 0 1 ∧ P 0 2 ∧ P 1 2 := by
  refine ⟨fun h => ⟨h 0 1 (by decide) (by decide), h 0 2 (by decide) (by decide), h 1 2 (by decide) (by decide)⟩,
    fun ⟨h01, h02, h12⟩ l m hl hm => ?_⟩
  obtain ⟨rfl, rfl⟩ | ⟨rfl, rfl⟩ | ⟨rfl, rfl⟩ : l = 0 ∧ m = 1 ∨ l = 0 ∧ m = 2 ∨ l = 1 ∧ m = 2 := by omega
  · exact h01
  · exact h02
  · exact h12

/-- A condition asked for only where both thresholds are enabled. -/
theorem asked_iff {p q : Bool} {P : Prop} [Decidable P] :
    (if (p && q) = true then decide P else true) = true ↔ (p = true → q = true → P) := by
  cases p
  · exact iff_of_true rfl nofun
  cases q
  · exact iff_of_true rfl (fun _ => nofun)
  · exact decide_eq_true_iff.trans ⟨fun h _ _ => h, fun h => h rfl rfl⟩

theorem graded_upper (o inner outer i j : Nat) : graded b o inner outer true i j = true ↔
    ((b.getD (o + 24) 0).getLsbD i = true → (b.getD (o + 24) 0).getLsbD j = true →
      getS32 b (o + inner) ≤ getS32 b (o + outer)) := by
  simp only [graded, ↓reduceIte, asked_iff]

theorem graded_lower (o inner outer i j : Nat) : graded b o inner outer false i j = true ↔
    ((b.getD (o + 24) 0).getLsbD i = true → (b.getD (o + 24) 0).getLsbD j = true →
      getS32 b (o + outer) ≤ getS32 b (o + inner)) := by
  simp only [graded, Bool.false_eq_true, ↓reduceIte, asked_iff]

theorem limitGroupChecks_iff (o : Nat) : (∀ f ∈ limitGroupChecks b o, f.2 = true) ↔
    (∀ n < 3, 0 ≤ getS32 b (o + 4 * n) ∧ getS32 b (o + 4 * n) ≤ 2000000 ∧ -2000000 ≤ getS32 b (o + 12 + 4 * n) ∧
      getS32 b (o + 12 + 4 * n) ≤ 0) ∧
    getU8 b (o + 24) ≤ 63 ∧ 0 ≤ getS32 b (o + 25) ∧ getS32 b (o + 25) ≤ 2000000 ∧ getU8 b (o + 29) ≤ 40 ∧
    ∀ l m, l < m → m < 3 →
      ((b.getD (o + 24) 0).getLsbD l = true → (b.getD (o + 24) 0).getLsbD m = true →
        getS32 b (o + 4 * l) ≤ getS32 b (o + 4 * m)) ∧
      ((b.getD (o + 24) 0).getLsbD (3 + l) = true → (b.getD (o + 24) 0).getLsbD (3 + m) = true →
        getS32 b (o + 12 + 4 * m) ≤ getS32 b (o + 12 + 4 * l)) := by
  rw [forall_lt_three, forall_lt_lt_three]
  simp only [limitGroupChecks, List.forall_mem_cons, List.not_mem_nil, false_implies, implies_true, and_true, within_natCast,
    graded_upper, graded_lower, Bool.and_eq_true, Nat.zero_le, true_and, Nat.mul_zero, Nat.reduceMul, Nat.reduceAdd,
    Nat.add_zero, Nat.add_assoc]
  simp only [within_iff]
  constructor
  · rintro ⟨u1, ⟨u2, u12⟩, ⟨⟨u3, u13⟩, u23⟩, l1, ⟨l2, l12⟩, ⟨⟨l3, l13⟩, l23⟩, en, ⟨hlo, hhi⟩, gap⟩
    exact ⟨⟨⟨u1.1, u1.2, l1⟩, ⟨u2.1, u2.2, l2⟩, u3.1, u3.2, l3⟩, en, hlo, hhi, gap, ⟨u12, l12⟩, ⟨u13, l13⟩, u23, l23⟩
  · rintro ⟨⟨⟨u1, v1, l1⟩, ⟨u2, v2, l2⟩, u3, v3, l3⟩, en, hlo, hhi, gap, ⟨u12, l12⟩, ⟨u13, l13⟩, u23, l23⟩
    exact ⟨⟨u1, v1⟩, ⟨⟨u2, v2⟩, u12⟩, ⟨⟨⟨u3, v3⟩, u13⟩, u23⟩, l1, ⟨l2, l12⟩, ⟨⟨l3, l13⟩, l23⟩, en, ⟨hlo, hhi⟩, gap⟩

theorem forall_mem_allParams {P : Param → Prop} : (∀ p ∈ allParams, P p) ↔ ∀ p, P p :=
  ⟨fun h p => h p (by cases p <;> decide), fun h p _ => h p⟩

theorem limitSetChecks_iff : (∀ f ∈ limitSetChecks b, f.2 = true) ↔
    ∀ p : Param, ∀ f ∈ limitGroupChecks b (30 * p.number), f.2 = true :=
  List.forall_mem_flatMap.trans forall_mem_allParams

end

/-! ### The order of the fields -/

/-- Lists laid out one behind the other in stretches of one width are in order when each is. -/
theorem pairwise_lt_flatMap {α : Type} {l : List α} {f : α → List FieldCheck} (start : α → Nat) {width : Nat}
    (hstart : l.Pairwise fun x y => start x + width ≤ start y)
    (hmem : ∀ x ∈ l, ((f x).map (·.1)).Pairwise (· < ·) ∧ ∀ c ∈ f x, start x ≤ c.1 ∧ c.1 < start x + width) :
    ((l.flatMap f).map (·.1)).Pairwise (· < ·) := by
  rw [List.pairwise_map, List.pairwise_flatMap]
  refine ⟨fun x hx => List.pairwise_map.1 (hmem x hx).1, hstart.imp_of_mem fun {x y} hx hy h c hc d hd => ?_⟩
  have hlt := ((hmem x hx).2 c hc).2
  have hle := ((hmem y hy).2 d hd).1
  omega

theorem pairwise_range_layout (n base width : Nat) :
    (List.range n).Pairwise fun x y => (base + width * x) + width ≤ base + width * y := by
  refine List.pairwise_lt_range.imp fun {x y} h => ?_
  have := Nat.mul_le_mul_left width (Nat.succ_le_of_lt h)
  rw [Nat.mul_succ] at this
  omega

theorem planChecks_sorted (b : List Byte) : ((planChecks b).map (·.1)).Pairwise (· < ·) := by
  refine List.pairwise_cons.2 ⟨?_, pairwise_lt_flatMap (fun e => 1 + 2 * e) (pairwise_range_layout _ 1 2) fun e _ => ?_⟩
  · simp only [List.forall_mem_map]
    rw [forall_mem_flatMap_range]
    intro e _
    simp only [List.forall_mem_cons, List.not_mem_nil, false_implies, implies_true, and_true]
    omega
  · simp only [List.map_cons, List.map_nil, List.pairwise_cons, List.forall_mem_cons, List.not_mem_nil, false_implies,
      implies_true, and_true, List.Pairwise.nil]
    omega

theorem segmentChecks_sorted (b : List Byte) : ((segmentChecks b).map (·.1)).Pairwise (· < ·) := by
  rw [segmentChecks, List.map_append, List.pairwise_append]
  refine ⟨by simp, pairwise_lt_flatMap (fun i => 12 + 9 * i) (pairwise_range_layout _ 12 9) fun i _ => ?_, ?_⟩
  · simp only [List.map_cons, List.map_nil, List.pairwise_cons, List.forall_mem_cons, List.not_mem_nil, false_implies,
      implies_true, and_true, List.Pairwise.nil]
    omega
  · simp only [List.map_cons, List.map_nil, List.forall_mem_map]
    intro n hn
    rw [forall_mem_flatMap_range]
    intro i _
    simp only [List.mem_cons, List.not_mem_nil, or_false] at hn
    simp only [List.forall_mem_cons, List.not_mem_nil, false_implies, implies_true, and_true]
    omega

theorem limitSetChecks_sorted (b : List Byte) : ((limitSetChecks b).map (·.1)).Pairwise (· < ·) := by
  refine pairwise_lt_flatMap (fun p => 30 * p.number) (width := 30) (by decide) fun p _ => ?_
  generalize 30 * p.number = o
  simp only [limitGroupChecks, List.map_cons, List.map_nil, List.pairwise_cons, List.forall_mem_cons, List.not_mem_nil,
    false_implies, implies_true, and_true, List.Pairwise.nil]
  omega

theorem itemChecks_sorted (i : ItemId) (b : List Byte) : ((itemChecks i b).map (·.1)).Pairwise (· < ·) := by
  cases i with
  | odometry => exact (by decide : [0, 2, 3, 4, 5, 7, 11, 13, 14, 18, 20].Pairwise (· < ·))
  | sensors => exact (by decide : [0, 1, 2, 4, 6, 8, 9, 10, 11, 15, 19].Pairwise (· < ·))
  | compute => exact (by decide : [0, 1, 2, 3].Pairwise (· < ·))
  | fixPolicy => exact (by decide : [0, 4, 8].Pairwise (· < ·))
  | plan => exact planChecks_sorted b
  | segment => exact segmentChecks_sorted b
  | limitSet => exact limitSetChecks_sorted b
  | marker => exact (by decide : [0, 1, 2].Pairwise (· < ·))
  | trigger => exact (by decide : [0, 1, 3, 5, 6, 8].Pairwise (· < ·))

end Sys2Proof.Proofs.ItemFields
end

