-- ==== Sys2Proof/Proofs/ItemWrites.lean ====
section
/-! PROOFS. What an accepted item writes in the blocks that own it (R177, R203). -/

namespace Sys2Proof.Proofs.ItemWrites

open Sys2Proof.Machine Sys2Proof.Safety Sys2Proof.Proofs.ItemFields Sys2Proof.Proofs.ItemRequests
  Sys2Proof.Proofs.TablesSound

/-! ### Kinds and indices -/

theorem itemLength_eq (kind : Nat) : itemLength kind =
    [none, some 21, some 21, some 4, some 9, some 65, some 48, some 210, some 4, some 9].getD kind none := by
  unfold itemLength
  split
  case h_10 h1 h2 h3 h4 h5 h6 h7 h8 h9 =>
    obtain rfl | hge : kind = 0 ∨ 10 ≤ kind := by
      simp only [imp_false] at h1 h2 h3 h4 h5 h6 h7 h8 h9
      omega
    · rfl
    · exact (List.getD_eq_default _ _ hge).symm
  all_goals rfl

theorem itemOf_iff {kind index : Nat} {i : ItemId} : itemOf kind index = some i ↔
    kind = kindCode i ∧ index = indexCode i ∧ (∀ k, i = .segment k → k < 64) ∧ ∀ k, i = .limitSet k → k < 16 := by
  constructor
  · intro h
    obtain ⟨rfl, rfl⟩ := itemOf_codes h
    exact ⟨rfl, rfl, itemOf_bounds h⟩
  · rintro ⟨rfl, rfl, hsegment, hlimits⟩
    cases i with
    | odometry | sensors | compute | fixPolicy | plan => rfl
    | segment k => exact if_pos (hsegment k rfl)
    | limitSet k => exact if_pos (hlimits k rfl)
    | marker m => cases m <;> rfl
    | trigger t => cases t <;> rfl

/-- An item of a kind whose index is not bounded by a table. -/
theorem itemOf_iff_codes {kind index : Nat} {i : ItemId} (hsegment : ∀ k, i ≠ .segment k) (hlimits : ∀ k, i ≠ .limitSet k) :
    itemOf kind index = some i ↔ kind = kindCode i ∧ index = indexCode i :=
  itemOf_iff.trans (and_congr_right fun _ => and_iff_left
    ⟨fun k h => absurd h (hsegment k), fun k h => absurd h (hlimits k)⟩)

/-! ### ODOMETRY -/

/-- The count weight of R2, from the fields of one encoder. -/
def weightAt (b : List Byte) (off : Nat) : Nat :=
  (2 * (getU32 b off * 65536) + 1000 * getU16 b (off + 4)) / (2 * (1000 * getU16 b (off + 4)))

theorem weightOf_eq {b : List Byte} {off : Nat} (h : 400 ≤ getU16 b (off + 4)) :
    weightOf (getU32 b off) (getU16 b (off + 4)) = weightAt b off := by
  have hcast : (getU32 b off : Int) * 65536 = (getU32 b off * 65536 : Nat) := by push_cast; rfl
  rw [weightOf, hcast]
  exact roundUp_toNat _ _ (by omega)

theorem configured_eq {x : EncoderState} {b : List Byte} {off : Nat} (h : 400 ≤ getU16 b (off + 4)) :
    x.configured b off = { x with circumference := getU32 b off, countsPerRev := getU16 b (off + 4),
                                  mounting := if getU8 b (off + 6) = 0 then .normal else .inverted, weight := weightAt b off } := by
  rw [EncoderState.configured, weightOf_eq h]
  rfl

theorem setOdometry_eq (o : Odu) (b : List Byte) : o.setOdometry b = { o.configured b with epoch := (o.setOdometry b).epoch } := by
  unfold Odu.setOdometry
  simp only
  split <;> rfl

theorem enc_setOdometry (o : Odu) (b : List Byte) (e : Encoder) : (o.setOdometry b).enc e = (o.configured b).enc e := by
  rw [setOdometry_eq]
  cases e <;> rfl

theorem epoch_setOdometry (o : Odu) (b : List Byte) : (o.setOdometry b).epoch =
    if ((o.setOdometry b).enc o.active).weight = (o.enc o.active).weight then o.epoch else o.epoch + 1 := by
  rw [enc_setOdometry]
  unfold Odu.setOdometry
  simp only [show (o.configured b).active = o.active from rfl]
  split <;> rfl

theorem odometry_written {b : List Byte} (h : ∀ f ∈ odometryChecks b, f.2 = true) (o : Odu) :
    o.setOdometry b = { o with
      interval := getU16 b 0, primary := if getU8 b 2 = 0 then .e1 else .e2, reversalDistance := getU8 b 3,
      slipTolerance := getU8 b 4, paceIntervalField := getU16 b 5,
      e1 := { o.e1 with circumference := getU32 b 7, countsPerRev := getU16 b (7 + 4),
                        mounting := if getU8 b (7 + 6) = 0 then .normal else .inverted, weight := weightAt b 7 },
      e2 := { o.e2 with circumference := getU32 b 14, countsPerRev := getU16 b (14 + 4),
                        mounting := if getU8 b (14 + 6) = 0 then .normal else .inverted, weight := weightAt b 14 },
      epoch := (o.setOdometry b).epoch } := by
  obtain ⟨_, _, _, _, _, _, hencoders⟩ := (odometryChecks_iff b).1 h
  obtain ⟨_, _, h7, _⟩ := hencoders 7 (by decide)
  obtain ⟨_, _, h14, _⟩ := hencoders 14 (by decide)
  conv_lhs => rw [setOdometry_eq]
  rw [Odu.configured, configured_eq h7, configured_eq h14]

/-! ### PLAN, SEGMENT and LIMITSET -/

theorem getElem?_map_range {α : Type} (n k : Nat) (f : Nat → α) :
    ((List.range n).map f)[k]? = if k < n then some (f k) else none := by
  rw [List.getElem?_map]
  split_ifs with h
  · rw [List.getElem?_range h, Option.map_some]
  · rw [List.getElem?_eq_none (by rw [List.length_range]; omega), Option.map_none]

theorem plan_written {b : List Byte} (h : ∀ f ∈ planChecks b, f.2 = true) (e : Nat) : (planOf b)[e]? =
    if e < getU8 b 0 then
      some { segment := getU8 b (1 + 2 * e), orientation := if getS8 b (2 + 2 * e) = 1 then .plus else .minus } else none := by
  obtain ⟨_, _, hentries⟩ := (planChecks_iff b).1 h
  rw [planOf, getElem?_map_range]
  split_ifs with he h1
  · rw [orientationOf, if_pos h1]
    rfl
  · rw [orientationOf, if_neg h1, if_pos ((hentries e he).2.resolve_left h1)]
    rfl
  · rfl

theorem segment_put (p : Pru) (k n : Nat) (g : Segment) :
    { p with segments := p.segments.put k g }.segment n = if n = k then g else p.segment n := by
  rw [Pru.segment, Table.get?_put]
  split_ifs <;> rfl

theorem limitSet_put (x : Exu) (k n : Nat) (l : Seven ParamLimits) :
    { x with limitSets := x.limitSets.put k l }.limitSet n = if n = k then l else x.limitSet n := by
  rw [Exu.limitSet, Table.get?_put]
  split_ifs <;> rfl

theorem get_limitSetOf (b : List Byte) (p : Param) : (limitSetOf b).get p = limitsAt b (30 * p.number) := by cases p <;> rfl

/-! ### TRIGGER -/

theorem trigger_written (s : State) (c : Trigger) (b : List Byte) :
    let x := s.mtu.trigger c
    let idle : Level := if getU8 b 8 = 0 then .low else .high
    s.writeItem (.trigger c) b = { s with mtu := s.mtu.setTrigger c { x with
      enable := decide (getU8 b 0 = 1), pitch := getU16 b 1, phase := getU16 b 3, mount := getS8 b 5, width := getU16 b 6,
      polarity := idle, level := if x.timer = none then idle else x.level } } := by
  intro x idle
  have hlevel : (if x.timer.isNone then idle else x.level) = if x.timer = none then idle else x.level := by
    simp only [Option.isNone_iff_eq_none]
  rw [← hlevel]
  rfl

/-- Settles O60: the ranges of each kind are those of its `…Checks_iff`, the writes those of its `…_written` and `…_put`. -/
theorem itemFieldsAreHeldToTheirRanges : Obligations.ItemFieldsAreHeldToTheirRanges := by
  unfold Obligations.ItemFieldsAreHeldToTheirRanges
  refine ⟨fun b o h => fields_read h, itemLength_eq, fun kind index i => ?item, fun i b => ⟨itemChecks_sorted i b, ?ranges⟩,
    fun s i b h => ?written⟩
  case item =>
    cases i with
    | odometry | sensors | compute | fixPolicy | plan => exact itemOf_iff_codes nofun nofun
    | segment k =>
      refine itemOf_iff.trans (and_congr_right fun _ => and_congr_right fun _ => ?_)
      exact ⟨fun h => h.1 k rfl, fun h => ⟨fun _ hk => ItemId.segment.inj hk ▸ h, nofun⟩⟩
    | limitSet k =>
      refine itemOf_iff.trans (and_congr_right fun _ => and_congr_right fun _ => ?_)
      exact ⟨fun h => h.2 k rfl, fun h => ⟨nofun, fun _ hk => ItemId.limitSet.inj hk ▸ h⟩⟩
    | marker m => cases m <;> exact itemOf_iff_codes nofun nofun
    | trigger t => cases t <;> exact itemOf_iff_codes nofun nofun
  case ranges =>
    cases i with
    | odometry => exact odometryChecks_iff b
    | sensors => exact sensorsChecks_iff b
    | compute => exact computeChecks_iff b
    | fixPolicy => exact fixPolicyChecks_iff b
    | plan => exact planChecks_iff b
    | segment => exact segmentChecks_iff b
    | limitSet => exact (limitSetChecks_iff b).trans (forall_congr' fun p => limitGroupChecks_iff b (30 * p.number))
    | marker => exact markerChecks_iff b
    | trigger => exact triggerChecks_iff b
  case written =>
    intro t
    cases i with
    | odometry => exact ⟨rfl, odometry_written h s.odu, epoch_setOdometry s.odu b⟩
    | sensors | compute | fixPolicy => rfl
    | plan => exact ⟨rfl, plan_written h⟩
    | segment k =>
      have hk : t.pru.segment k = segmentOf b := (segment_put s.pru k k _).trans (if_pos rfl)
      refine ⟨rfl, fun n hn => (segment_put s.pru k n _).trans (if_neg hn), ?_, fun m => ?_⟩
      · rw [hk]
        rfl
      · rw [hk]
        exact getElem?_map_range _ _ _
    | limitSet k =>
      have hk : t.exu.limitSet k = limitSetOf b := (limitSet_put s.exu k k _).trans (if_pos rfl)
      refine ⟨rfl, fun n hn => (limitSet_put s.exu k n _).trans (if_neg hn), fun p => ?_⟩
      rw [hk]
      exact get_limitSetOf b p
    | marker => rfl
    | trigger c => exact trigger_written s c b

end Sys2Proof.Proofs.ItemWrites
end

