-- ==== Sys2Proof/Proofs/ItemBytes.lean ====
section
/-! PROOFS. An accepted item reads back as it was written (R179, R203). -/

namespace Sys2Proof.Proofs.ItemBytes

open Sys2Proof.Machine Sys2Proof.Safety Sys2Proof.Proofs.ItemFields Sys2Proof.Proofs.ItemWrites

/-! ### Stretches of a byte list -/

/-- The n bytes from an offset. -/
def bytesFrom (b : List Byte) (o n : Nat) : List Byte := (List.range n).map fun i => b.getD (o + i) 0

theorem length_bytesFrom (b : List Byte) (o n : Nat) : (bytesFrom b o n).length = n := by
  rw [bytesFrom, List.length_map, List.length_range]

theorem bytesFrom_append {b : List Byte} {o o' m n : Nat} (h : o' = o + m) :
    bytesFrom b o m ++ bytesFrom b o' n = bytesFrom b o (m + n) := by
  subst h
  simp only [bytesFrom, List.range_add, List.map_append, List.map_map, Function.comp_def, Nat.add_assoc]

theorem bytesFrom_eq_take {b : List Byte} {n : Nat} (h : n ≤ b.length) : bytesFrom b 0 n = b.take n := by
  refine List.ext_getElem (by rw [length_bytesFrom, List.length_take, Nat.min_eq_left h]) fun i hi _ => ?_
  rw [length_bytesFrom] at hi
  rw [List.getElem_take]
  simp only [bytesFrom, List.getElem_map, List.getElem_range, Nat.zero_add]
  exact List.getD_eq_getElem _ _ (by omega)

theorem bytesFrom_length {b : List Byte} {n : Nat} (h : n = b.length) : bytesFrom b 0 n = b := by
  rw [bytesFrom_eq_take (Nat.le_of_eq h), h, List.take_length]

/-- Equal stretches one behind the other. -/
theorem flatMap_bytesFrom (b : List Byte) (o width n : Nat) :
    (List.range n).flatMap (fun e => bytesFrom b (o + width * e) width) = bytesFrom b o (width * n) := by
  induction n with
  | zero => rfl
  | succ n ih =>
    rw [List.range_succ, List.flatMap_append, ih, List.flatMap_singleton, bytesFrom_append rfl, Nat.mul_succ]

/-! ### Fields -/

section
variable {b : List Byte} {o : Nat}

theorem byte_eq : [b.getD o 0] = bytesFrom b o 1 := rfl

theorem putU8_eq : putU8 (getU8 b o) = bytesFrom b o 1 := putU8_getU8 b o

theorem putS8_eq : putS8 (getS8 b o) = bytesFrom b o 1 := putS8_getS8 b o

theorem putU16_eq : putU16 (getU16 b o) = bytesFrom b o 2 := putU16_getU16 b o

theorem putU32_eq : putU32 (getU32 b o) = bytesFrom b o 4 := putU32_getU32 b o

theorem putS32_eq : putS32 (getS32 b o) = bytesFrom b o 4 := putS32_getS32 b o

/-- A field of two values, by its byte. -/
theorem code_two {α : Type} (code : α → Nat) (x y : α) (hx : code x = 0) (hy : code y = 1) {n : Nat} (h : n ≤ 1) :
    code (if n = 0 then x else y) = n := by
  split_ifs <;> omega

theorem putMark_eq (h : getU8 b o ≤ 1) : putMark (getU8 b o == 1) = bytesFrom b o 1 := by
  have hcode : putMark (getU8 b o == 1) = putU8 (getU8 b o) := by
    obtain h | h : getU8 b o = 0 ∨ getU8 b o = 1 := by omega
    all_goals rw [h]; rfl
  rw [hcode, putU8_eq]

end

/-! ### Items stored whole -/

section
variable {s : State} {b : List Byte}

theorem encoderBytes_configured {x : EncoderState} {o : Nat} (h : getU8 b (o + 6) ≤ 1) :
    encoderBytes (x.configured b o) = bytesFrom b o 7 := by
  rw [encoderBytes, EncoderState.configured, putU32_eq, putU16_eq]
  simp only [mountingOf, code_two Mounting.code .normal .inverted rfl rfl h, putU8_eq]
  rw [bytesFrom_append rfl, bytesFrom_append rfl]

theorem odometry_bytes {o : Odu} (h : ∀ f ∈ odometryChecks b, f.2 = true) (hlen : 21 = b.length) :
    (o.setOdometry b).itemBytes = b ++ putU32 (weightAt b 7) ++ putU32 (weightAt b 14) := by
  obtain ⟨_, hprimary, _, _, _, _, hencoders⟩ := (odometryChecks_iff b).1 h
  obtain ⟨_, _, h7, _, hm7⟩ := hencoders 7 (by decide)
  obtain ⟨_, _, h14, _, hm14⟩ := hencoders 14 (by decide)
  have hw7 : (o.e1.configured b 7).weight = weightAt b 7 := weightOf_eq h7
  have hw14 : (o.e2.configured b 14).weight = weightAt b 14 := weightOf_eq h14
  rw [setOdometry_eq]
  simp only [Odu.itemBytes, Odu.configured, encoderBytes_configured hm7, encoderBytes_configured hm14, hw7, hw14,
    code_two encoderCode .e1 .e2 rfl rfl hprimary, putU8_eq, putU16_eq]
  rw [bytesFrom_append rfl, bytesFrom_append rfl, bytesFrom_append rfl, bytesFrom_append rfl, bytesFrom_append rfl,
    bytesFrom_append rfl, bytesFrom_length hlen]

theorem sensors_bytes (hlen : 21 = b.length) : (s.writeItem .sensors b).itemBytes .sensors = b := by
  simp only [State.itemBytes, State.writeItem, State.sensorsBytes, Slc.setSensors, Asu.setSensors, Gcu.setSensors,
    Int.toNat_natCast, putU8_eq, putS8_eq, putU16_eq, putS32_eq]
  simp only [bytesFrom_append, Nat.reduceAdd, bytesFrom_length hlen]

theorem compute_bytes (hlen : 4 = b.length) : (s.writeItem .compute b).itemBytes .compute = b := by
  simp only [State.itemBytes, State.writeItem, Gcu.setCompute, putU8_eq]
  simp only [bytesFrom_append, Nat.reduceAdd, bytesFrom_length hlen]

theorem fixPolicy_bytes (hlen : 9 = b.length) : (s.writeItem .fixPolicy b).itemBytes .fixPolicy = b := by
  simp only [State.itemBytes, State.writeItem, Pru.setPolicy, Int.toNat_natCast, putU8_eq, putS32_eq]
  simp only [bytesFrom_append, Nat.reduceAdd, bytesFrom_length hlen]

theorem limitsBytes_limitsAt (o : Nat) : limitsBytes (limitsAt b o) = bytesFrom b o 30 := by
  simp only [limitsBytes, limitsAt, byte_eq, putU8_eq, putS32_eq]
  simp only [bytesFrom_append, Nat.reduceAdd]

theorem limitSet_bytes (k : Nat) (hlen : 210 = b.length) :
    (s.writeItem (.limitSet k) b).itemBytes (.limitSet k) = b := by
  have hk : (s.writeItem (.limitSet k) b).exu.limitSet k = limitSetOf b := (limitSet_put s.exu k k _).trans (if_pos rfl)
  have hget : (limitSetOf b).toList.flatMap limitsBytes = allParams.flatMap fun p => limitsBytes ((limitSetOf b).get p) := rfl
  rw [State.itemBytes, hk, hget]
  simp only [get_limitSetOf, limitsBytes_limitsAt]
  exact (flatMap_bytesFrom b 0 30 7).trans (bytesFrom_length hlen)

theorem marker_bytes {m : MarkerLine} (h : ∀ f ∈ markerChecks b, f.2 = true) (hlen : 4 = b.length) :
    (s.writeItem (.marker m) b).itemBytes (.marker m) = b := by
  obtain ⟨hedge, _⟩ := (markerChecks_iff b).1 h
  have hm : (s.writeItem (.marker m) b).mtu.marker m = (s.mtu.marker m).configured b := by cases m <;> rfl
  rw [State.itemBytes, hm]
  simp only [MarkerState.itemBytes, MarkerState.configured, code_two edgeCode .rising .falling rfl rfl hedge, putU8_eq, putS8_eq,
    putU16_eq]
  simp only [bytesFrom_append, Nat.reduceAdd, bytesFrom_length hlen]

theorem trigger_bytes {t : Trigger} (h : ∀ f ∈ triggerChecks b, f.2 = true) (hlen : 9 = b.length) :
    (s.writeItem (.trigger t) b).itemBytes (.trigger t) = b := by
  obtain ⟨henable, _, _, _, _, _, _, hpolarity⟩ := (triggerChecks_iff b).1 h
  have ht : (s.writeItem (.trigger t) b).mtu.trigger t = (s.mtu.trigger t).configured b := by cases t <;> rfl
  rw [State.itemBytes, ht]
  simp only [TriggerState.itemBytes, TriggerState.configured, code_two Level.code .low .high rfl rfl hpolarity,
    putMark_eq henable, putU8_eq, putS8_eq, putU16_eq]
  simp only [bytesFrom_append, Nat.reduceAdd, bytesFrom_length hlen]

/-! ### Items stored up to their count -/

theorem padFree_bytesFrom {len n : Nat} (hn : n ≤ len) (hlen : len = b.length) :
    (padFree len (bytesFrom b 0 n)).length = len ∧ (padFree len (bytesFrom b 0 n)).take n = b.take n := by
  have htake := bytesFrom_eq_take (hn.trans (Nat.le_of_eq hlen))
  refine ⟨?_, ?_⟩
  · rw [padFree, List.length_append, List.length_map, List.length_range, length_bytesFrom]
    omega
  · rw [padFree, List.take_append_of_le_length (Nat.le_of_eq (length_bytesFrom b 0 n).symm), htake, List.take_take, Nat.min_self]

theorem sign_orientationOf {x : Int} (h : x = 1 ∨ x = -1) : ((orientationOf x).getD .plus).sign = x := by
  obtain rfl | rfl := h <;> rfl

theorem flatMap_map_range {α β : Type} (n : Nat) (f : Nat → α) (g : α → List β) (g' : Nat → List β)
    (h : ∀ e < n, g (f e) = g' e) : ((List.range n).map f).flatMap g = (List.range n).flatMap g' := by
  rw [List.flatMap_map]
  exact List.flatMap_congr fun e he => h e (List.mem_range.1 he)

theorem planBytes_planOf (h : ∀ f ∈ planChecks b, f.2 = true) :
    planBytes (planOf b) = padFree 65 (bytesFrom b 0 (1 + 2 * getU8 b 0)) := by
  obtain ⟨_, _, hentries⟩ := (planChecks_iff b).1 h
  rw [planBytes, planOf, List.length_map, List.length_range, putU8_eq,
    flatMap_map_range _ _ _ (fun e => bytesFrom b (1 + 2 * e) 2) fun e he => ?_, flatMap_bytesFrom, bytesFrom_append rfl]
  rw [sign_orientationOf (hentries e he).2, putU8_eq, putS8_eq, bytesFrom_append (by omega)]

theorem segmentBytes_segmentOf : segmentBytes (segmentOf b) = padFree 48 (bytesFrom b 0 (12 + 9 * getU8 b 11)) := by
  rw [segmentBytes, segmentOf, List.length_map, List.length_range,
    flatMap_map_range _ _ _ (fun m => bytesFrom b (12 + 9 * m) 9) fun m _ => ?_]
  · simp only [putU8_eq, putU16_eq, putS32_eq, flatMap_bytesFrom]
    simp only [bytesFrom_append, Nat.reduceAdd]
  · simp only [byte_eq, putS32_eq]
    rw [bytesFrom_append (by omega), bytesFrom_append (by omega)]

end

/-- Settles O41. -/
theorem anItemReadsBackAsWritten : Obligations.AnItemReadsBackAsWritten := by
  unfold Obligations.AnItemReadsBackAsWritten
  intro s i b _ hlen h r w
  cases i with
  | odometry => exact odometry_bytes h (Option.some.inj hlen)
  | sensors => exact sensors_bytes (Option.some.inj hlen)
  | compute => exact compute_bytes (Option.some.inj hlen)
  | fixPolicy => exact fixPolicy_bytes (Option.some.inj hlen)
  | plan =>
    obtain ⟨_, hcount, _⟩ := (planChecks_iff b).1 h
    have hr : r = padFree 65 (bytesFrom b 0 (1 + 2 * getU8 b 0)) := planBytes_planOf h
    rw [hr]
    exact padFree_bytesFrom (by omega) (Option.some.inj hlen)
  | segment k =>
    obtain ⟨_, _, _, hcount, _⟩ := (segmentChecks_iff b).1 h
    have hk : (s.writeItem (.segment k) b).pru.segment k = segmentOf b := (segment_put s.pru k k _).trans (if_pos rfl)
    have hr : r = padFree 48 (bytesFrom b 0 (12 + 9 * getU8 b 11)) := (congrArg segmentBytes hk).trans segmentBytes_segmentOf
    rw [hr]
    exact padFree_bytesFrom (by omega) (Option.some.inj hlen)
  | limitSet k => exact limitSet_bytes k (Option.some.inj hlen)
  | marker => exact marker_bytes h (Option.some.inj hlen)
  | trigger => exact trigger_bytes h (Option.some.inj hlen)

end Sys2Proof.Proofs.ItemBytes
end

