-- ==== Sys2Proof/Proofs/Arbiter.lean ====
section
/-! PROOFS. The arbiter: which port is served next, and how long one waits (R187). -/

namespace Sys2Proof.Proofs.Arbiter

open Sys2Proof.Machine Sys2Proof.Safety

/-! ### The order of the ports -/

/-- The port that follows another in the order CP0, CP1, CP2. -/
def portAfter : Port → Port
  | .cp0 => .cp1
  | .cp1 => .cp2
  | .cp2 => .cp0

theorem arbiterOrder_eq (q : Port) : arbiterOrder q = [portAfter q, portAfter (portAfter q), q] := by cases q <;> rfl

theorem portAfter_ne (q : Port) : portAfter q ≠ q ∧ portAfter (portAfter q) ≠ q := by cases q <;> exact ⟨nofun, nofun⟩

theorem eq_portAfter_of_ne {p q : Port} (h : p ≠ q) : p = portAfter q ∨ p = portAfter (portAfter q) := by
  cases p <;> cases q <;> first | exact absurd rfl h | exact .inl rfl | exact .inr rfl

/-! ### The waiting ports -/

section
variable {x : PortState} {rq : Request}

theorem request_of_serving (h : x.phase = .serving rq) : x.request = some rq := by
  unfold PortState.request
  rw [h]

theorem request_of_not_serving (h : ∀ rq, x.phase ≠ .serving rq) : x.request = none := by
  unfold PortState.request
  split
  next rq hrq => exact absurd hrq (h rq)
  next => rfl

end

section
variable {c : Cpc} {rq : Request}

/-- A port that waits, behind ports of which none waits, is the first one in the arbiter's order. -/
theorem firstWaiting_of_order {p : Port} {before rest : List Port} (horder : arbiterOrder c.lastServed = before ++ p :: rest)
    (hbefore : ∀ q ∈ before, ∀ rq, (c.port q).phase ≠ .serving rq) (hp : (c.port p).phase = .serving rq) :
    c.firstWaiting = some (p, rq) := by
  have hnone : before.findSome? (fun p => (c.port p).request.map fun rq => (p, rq)) = none :=
    List.findSome?_eq_none_iff.2 fun q hq => by rw [request_of_not_serving (hbefore q hq), Option.map_none]
  rw [Cpc.firstWaiting, horder, List.findSome?_append, hnone, List.findSome?_cons, request_of_serving hp]
  rfl

theorem firstWaiting_eq_none : c.firstWaiting = none ↔ ∀ p rq, (c.port p).phase ≠ .serving rq := by
  constructor
  · intro h p rq hp
    have hmem : p ∈ arbiterOrder c.lastServed := by
      cases p <;> cases c.lastServed <;> decide
    have := List.findSome?_eq_none_iff.1 h p hmem
    rw [request_of_serving hp] at this
    cases this
  · intro h
    exact List.findSome?_eq_none_iff.2 fun q _ => by rw [request_of_not_serving (h q), Option.map_none]

theorem firstWaiting_first (h : (c.port (portAfter c.lastServed)).phase = .serving rq) :
    c.firstWaiting = some (portAfter c.lastServed, rq) :=
  firstWaiting_of_order (before := []) (arbiterOrder_eq _) nofun h

theorem firstWaiting_second (hfirst : ∀ rq, (c.port (portAfter c.lastServed)).phase ≠ .serving rq)
    (h : (c.port (portAfter (portAfter c.lastServed))).phase = .serving rq) :
    c.firstWaiting = some (portAfter (portAfter c.lastServed), rq) :=
  firstWaiting_of_order (before := [portAfter c.lastServed]) (arbiterOrder_eq _)
    (fun _ hq => List.mem_singleton.1 hq ▸ hfirst) h

theorem nextService_of_inService {p : Port} (hin : c.inService = some p) (hp : (c.port p).phase = .serving rq) :
    c.nextService = some (p, rq) :=
  Cpc.nextService_eq_some.2 (.inl (Cpc.inProgress_eq_some.2 ⟨hin, hp⟩))

theorem exists_nextService {p : Port} (hp : (c.port p).phase = .serving rq) :
    ∃ q r, c.nextService = some (q, r) ∧ (c.port q).phase = .serving r := by
  obtain ⟨⟨q, r⟩, h⟩ : ∃ x, c.nextService = some x := by
    unfold Cpc.nextService
    split
    next r _ => exact ⟨r, rfl⟩
    next => exact Option.ne_none_iff_exists'.1 fun hnone => firstWaiting_eq_none.1 hnone p rq hp
  exact ⟨q, r, h, Cpc.nextService_serving h⟩

end

theorem judge_taken {c : Cpc} {p : Port} {bytes : List Byte} {extra : Nat} {rq : Request} (h : takenFrame bytes extra = some rq) :
    c.judge p bytes extra = c.takeRequest p rq := by
  have hbytes : ¬(bytes = [] ∧ extra = 0) := by
    rintro ⟨rfl, rfl⟩
    cases h
  unfold Cpc.judge
  rw [if_neg hbytes, h]

/-! ### A service and the one after it -/

section
variable (c : Cpc) (q : Port) (r : Request) (a : Reply)

/-- With a service the service of the first waiting port begins. -/
theorem inService_answer : (c.answer q r a).inService = (c.answer q r a).firstWaiting.map (·.1) := rfl

theorem nextService_answer : (c.answer q r a).nextService = (c.answer q r a).firstWaiting := by
  cases h : (c.answer q r a).firstWaiting with
  | none =>
    have hin : (c.answer q r a).inProgress = none := by
      rw [Cpc.inProgress, inService_answer, h]
      rfl
    rw [Cpc.nextService, hin]
    exact h
  | some x =>
    obtain ⟨p, rq⟩ := x
    exact nextService_of_inService (by rw [inService_answer, h]; rfl) (Cpc.firstWaiting_serving h)

variable {c q r a} {rq : Request}

theorem firstWaiting_answer_first (h : (c.port (portAfter q)).phase = .serving rq) :
    (c.answer q r a).firstWaiting = some (portAfter q, rq) :=
  firstWaiting_first (c := c.answer q r a) (by rwa [Cpc.answer_lastServed, Cpc.port_answer_of_ne _ _ _ (portAfter_ne q).1])

theorem firstWaiting_answer_second (hfirst : ∀ rq, (c.port (portAfter q)).phase ≠ .serving rq)
    (h : (c.port (portAfter (portAfter q))).phase = .serving rq) :
    (c.answer q r a).firstWaiting = some (portAfter (portAfter q), rq) :=
  firstWaiting_second (c := c.answer q r a) (by rwa [Cpc.answer_lastServed, Cpc.port_answer_of_ne _ _ _ (portAfter_ne q).1])
    (by rwa [Cpc.answer_lastServed, Cpc.port_answer_of_ne _ _ _ (portAfter_ne q).2])

theorem firstWaiting_answer_none (hfirst : ∀ rq, (c.port (portAfter q)).phase ≠ .serving rq)
    (hsecond : ∀ rq, (c.port (portAfter (portAfter q))).phase ≠ .serving rq) : (c.answer q r a).firstWaiting = none := by
  refine firstWaiting_eq_none.2 fun p rq => ?_
  by_cases hp : p = q
  · subst hp
    rw [Cpc.port_answer]
    exact nofun
  · rw [Cpc.port_answer_of_ne _ _ _ hp]
    obtain rfl | rfl := eq_portAfter_of_ne hp
    · exact hfirst rq
    · exact hsecond rq

/-- While the first port of the order has the service and the second waits, what is served is the first. -/
theorem serves_first_in_service (hlast : c.lastServed = q) (hin : c.inService = some (portAfter q))
    (hsecond : (c.port (portAfter (portAfter q))).phase = .serving rq) {p : Port} (hnext : c.nextService = some (p, r))
    (hne : p ≠ portAfter (portAfter q)) : p = portAfter q := by
  by_cases hfirst : ∃ rq, (c.port (portAfter q)).phase = .serving rq
  · obtain ⟨rq1, hfirst⟩ := hfirst
    exact (Prod.ext_iff.1 (Option.some.inj (hnext.symm.trans (nextService_of_inService hin hfirst)))).1
  · have hnone : c.inProgress = none := Option.eq_none_iff_forall_ne_some.2 fun ⟨k, rk⟩ hk => by
      obtain ⟨hk, hserving⟩ := Cpc.inProgress_eq_some.1 hk
      obtain rfl := Option.some.inj (hin.symm.trans hk)
      exact hfirst ⟨rk, hserving⟩
    subst hlast
    have hwait := firstWaiting_second (fun rq h => hfirst ⟨rq, h⟩) hsecond
    have hserved := hnext.symm.trans (Cpc.nextService_eq_some.2 (.inr ⟨hnone, hwait⟩))
    exact absurd (Prod.ext_iff.1 (Option.some.inj hserved)).1 hne

/-- A port that waits through one service and through the next one, of another port, is in service after both: it was the second in the
order, so the other was the first, and now it is the first itself. -/
theorem served_after_two {p q' : Port} {r' : Request} {a' : Reply} {c' c'' : Cpc} (hne : q ≠ p) (hne' : q' ≠ p)
    (hp : (c.port p).phase = .serving rq)
    (hport : c'.port p = (c.answer q r a).port p) (hlast : c'.lastServed = (c.answer q r a).lastServed)
    (hin : c'.inService = (c.answer q r a).inService) (hnext : c'.nextService = some (q', r'))
    (hport' : c''.port p = (c'.answer q' r' a').port p) (hin' : c''.inService = (c'.answer q' r' a').inService) :
    c''.nextService = some (p, rq) := by
  rw [Cpc.port_answer_of_ne _ _ _ hne.symm] at hport
  rw [Cpc.port_answer_of_ne _ _ _ hne'.symm, hport] at hport'
  have hp' : (c'.port p).phase = .serving rq := hport ▸ hp
  have hlast' : c'.lastServed = q := hlast
  have hnot : c'.nextService ≠ some (p, rq) := fun h => hne' (Prod.ext_iff.1 (Option.some.inj (hnext.symm.trans h))).1
  obtain hfirst | hsecond := eq_portAfter_of_ne hne.symm
  · rw [inService_answer, firstWaiting_answer_first (hfirst ▸ hp)] at hin
    exact absurd (nextService_of_inService (hin.trans (congrArg some hfirst.symm)) hp') hnot
  · by_cases hwaits : ∃ rq, (c.port (portAfter q)).phase = .serving rq
    · obtain ⟨rq1, hwaits⟩ := hwaits
      rw [inService_answer, firstWaiting_answer_first hwaits] at hin
      obtain rfl := serves_first_in_service hlast' hin (hsecond ▸ hp') hnext (hsecond ▸ hne')
      rw [inService_answer, firstWaiting_answer_first (hsecond ▸ hp')] at hin'
      exact nextService_of_inService (hin'.trans (congrArg some hsecond.symm)) (hport' ▸ hp)
    · rw [inService_answer, firstWaiting_answer_second (fun rq h => hwaits ⟨rq, h⟩) (hsecond ▸ hp)] at hin
      exact absurd (nextService_of_inService (hin.trans (congrArg some hsecond.symm)) hp') hnot

end

/-- Settles O50. -/
theorem noPortWaitsForMoreThanTwoOthers : Obligations.NoPortWaitsForMoreThanTwoOthers := by
  unfold Obligations.NoPortWaitsForMoreThanTwoOthers
  intro after
  have hafter : after = portAfter := funext fun q => by cases q <;> rfl
  clear_value after
  subst hafter
  refine ⟨fun c p rq bytes htaken => ?taken, fun c q r a _ => ?next, fun c p rq hp => ⟨exists_nextService hp, ?wait⟩⟩
  case taken =>
    intro d
    have hd : d = c.takeRequest p rq := judge_taken htaken
    rw [hd]
    exact ⟨congrArg PortState.phase (Cpc.port_takeRequest c p rq), fun q hq => Cpc.port_takeRequest_of_ne c rq hq,
      Cpc.nextService_takeRequest_idle p rq, fun q r h hq => Cpc.nextService_takeRequest h hq⟩
  case next =>
    intro d first second
    refine ⟨congrArg PortState.phase (Cpc.port_answer c q r a), rfl, fun p hp => Cpc.port_answer_of_ne c r a hp,
      fun rq h => (nextService_answer c q r a).trans (firstWaiting_answer_first h), fun hfirst => ⟨fun rq h => ?_, fun h => ?_⟩⟩
    · exact (nextService_answer c q r a).trans (firstWaiting_answer_second hfirst h)
    · exact (nextService_answer c q r a).trans (firstWaiting_answer_none hfirst h)
  case wait =>
    intro q1 r1 a1 h1 hne1 c1
    refine ⟨?_, congrArg PortState.phase (Cpc.port_answer c q1 r1 a1), fun c2 hport hlast hin q2 r2 a2 h2 hne2 => ?_⟩
    · exact (congrArg PortState.phase (Cpc.port_answer_of_ne c r1 a1 hne1.symm)).trans hp
    · exact fun c3 hport' _ hin' => served_after_two hne1 hne2 hp hport hlast hin h2 hport' hin'

end Sys2Proof.Proofs.Arbiter
end

