-- ==== Sys2Proof/Proofs/SelectPeriods.lean ====
section
/-! PROOFS. Request frames, and what a port makes of a select period (R185, R186, R197, R198). -/

namespace Sys2Proof.Proofs.SelectPeriods

open Sys2Proof.Machine Sys2Proof.Safety Sys2Proof.Proofs.Arbiter Sys2Proof.Proofs.ItemWrites

/-! ### The check -/

theorem checkBit_toNat (reg : Word16) (bit : Bool) : (checkBit reg bit).toNat =
    Nat.xor (2 * reg.toNat % 65536) (if (reg.toNat / 32768 + bit.toNat) % 2 = 1 then 4129 else 0) := by
  have hshift : (reg <<< 1).toNat = 2 * reg.toNat % 65536 := by
    rw [BitVec.toNat_shiftLeft, Nat.shiftLeft_eq, Nat.mul_comm]
  have hbit : (reg.msb ^^ bit) = true ↔ (reg.toNat / 32768 + bit.toNat) % 2 = 1 := by
    have hlt := reg.isLt
    rw [BitVec.msb_eq_decide]
    cases bit
    · rw [Bool.xor_false, decide_eq_true_iff]
      simp only [Bool.toNat_false]
      omega
    · rw [Bool.xor_true, Bool.not_eq_true', decide_eq_false_iff_not]
      simp only [Bool.toNat_true]
      omega
  unfold checkBit
  split_ifs with h1 h2 h2
  · rw [BitVec.toNat_xor, hshift]
    rfl
  · exact absurd (hbit.1 h1) h2
  · exact absurd (hbit.2 h2) h1
  · rw [hshift]
    exact (Nat.xor_zero _).symm

/-- One bit enters the check register: it shifts up, and 0x1021 is combined in where the bit shifted out and the data bit differ. -/
def shiftIn (reg bit : Nat) : Nat := Nat.xor (2 * reg % 65536) (if (reg / 32768 + bit) % 2 = 1 then 4129 else 0)

theorem frameCheck_snoc (bytes : List Byte) (b : Byte) : (frameCheck (bytes ++ [b])).toNat =
    ([128, 64, 32, 16, 8, 4, 2, 1].map (fun n => b.toNat / n % 2)).foldl shiftIn (frameCheck bytes).toNat := by
  have hbits : [128, 64, 32, 16, 8, 4, 2, 1].map (fun n => b.toNat / n % 2) =
      [7, 6, 5, 4, 3, 2, 1, 0].map fun i => (b.getLsbD i).toNat := by
    simp only [List.map_cons, List.map_nil, BitVec.getLsbD, Nat.toNat_testBit, Nat.reducePow]
  rw [hbits, List.foldl_map, frameCheck, List.foldl_append]
  exact (List.foldl_hom BitVec.toNat fun reg i => (checkBit_toNat reg (b.getLsbD i)).symm).symm

theorem be16_map_toNat (x : Word16) : (be16 x).map BitVec.toNat = [x.toNat / 256, x.toNat % 256] := by
  have hlt := x.isLt
  simp only [be16, List.map_cons, List.map_nil, BitVec.extractLsb'_toNat, Nat.shiftRight_eq_div_pow, Nat.reducePow, Nat.div_one]
  rw [Nat.mod_eq_of_lt (by omega)]

/-! ### Request frames -/

/-- The bytes of a request frame that its check covers (R198). -/
def covered (code tag : Byte) (payload : List Byte) : List Byte := [code, tag] ++ putU16 payload.length ++ payload

/-- A request frame (R198). -/
def requestFrame (rq : Request) : List Byte :=
  covered rq.code rq.tag rq.payload ++ be16 (frameCheck (covered rq.code rq.tag rq.payload))

theorem length_covered (code tag : Byte) (payload : List Byte) : (covered code tag payload).length = 4 + payload.length := by
  rw [covered, List.length_append, List.length_append, putU16_length]
  rfl

theorem length_requestFrame (rq : Request) : (requestFrame rq).length = 6 + rq.payload.length := by
  rw [requestFrame, List.length_append, length_covered, be16_length]
  omega

theorem getU16_requestFrame {rq : Request} (h : rq.payload.length ≤ 1024) : getU16 (requestFrame rq) 2 = rq.payload.length := by
  have hcons : requestFrame rq = rq.code :: rq.tag :: (putU16 rq.payload.length ++
      (rq.payload ++ be16 (frameCheck (covered rq.code rq.tag rq.payload)))) := by
    simp only [requestFrame, covered, List.append_assoc, List.cons_append, List.nil_append]
  rw [hcons]
  exact getU16_putU16 (by omega) (rq.payload ++ be16 (frameCheck (covered rq.code rq.tag rq.payload)))

theorem takenFrame_requestFrame {rq : Request} (h : rq.payload.length ≤ 1024) : takenFrame (requestFrame rq) 0 = some rq := by
  have hlen := length_covered rq.code rq.tag rq.payload
  have hdrop : (requestFrame rq).drop 4 = rq.payload ++ be16 (frameCheck (covered rq.code rq.tag rq.payload)) := by
    simp only [requestFrame, covered, List.append_assoc]
    rfl
  unfold takenFrame
  have hcheck : be16 (frameCheck ((requestFrame rq).take (4 + rq.payload.length))) =
      (requestFrame rq).drop (4 + rq.payload.length) := by
    rw [requestFrame, List.take_left' hlen, List.drop_left' hlen]
  have hlong : 6 ≤ (requestFrame rq).length := by rw [length_requestFrame]; omega
  simp only [getU16_requestFrame h]
  rw [if_pos ⟨hlong, trivial, h, length_requestFrame rq, hcheck⟩, hdrop, List.take_left]
  rfl

theorem takenFrame_eq_none {bytes : List Byte} {extra : Nat} (h : bytes.length < 6 ∨ extra ≠ 0 ∨ 1024 < getU16 bytes 2 ∨
    bytes.length ≠ 6 + getU16 bytes 2 ∨
    be16 (frameCheck (bytes.take (4 + getU16 bytes 2))) ≠ bytes.drop (4 + getU16 bytes 2)) : takenFrame bytes extra = none := by
  refine if_neg fun ⟨hlong, hextra, hmax, hlen, hcheck⟩ => ?_
  obtain h | h | h | h | h := h
  · omega
  · exact h hextra
  · omega
  · exact h hlen
  · exact h hcheck

theorem getU16_take {b : List Byte} {o n : Nat} (h : o + 2 ≤ n) : getU16 (b.take n) o = getU16 b o := by
  have hbyte : ∀ k < n, getU8 (b.take n) k = getU8 b k := fun k hk => by
    rw [getU8, getU8, List.getD_eq_getElem?_getD, List.getD_eq_getElem?_getD, List.getElem?_take_of_lt hk]
  rw [getU16, getU16, hbyte _ (by omega), hbyte _ (by omega)]

theorem takenFrame_take {rq : Request} (h : rq.payload.length ≤ 1024) {n : Nat} (hn : n < (requestFrame rq).length) :
    takenFrame ((requestFrame rq).take n) 0 = none := by
  have hlen : ((requestFrame rq).take n).length = n := by rw [List.length_take]; omega
  refine takenFrame_eq_none ?_
  by_cases hshort : n < 6
  · exact .inl (by omega)
  · rw [getU16_take (by omega), getU16_requestFrame h, hlen]
    rw [length_requestFrame] at hn
    exact .inr (.inr (.inr (.inl (by omega))))

/-- Settles O48. -/
theorem aRequestFrameReadsBack : Obligations.ARequestFrameReadsBack := by
  unfold Obligations.ARequestFrameReadsBack
  exact ⟨rfl, frameCheck_snoc, fun bytes => be16_map_toNat _, fun rq h =>
    ⟨takenFrame_requestFrame h, length_requestFrame rq, fun extra hextra => takenFrame_eq_none (.inr (.inl hextra)),
      fun n hn => takenFrame_take h hn⟩⟩

/-! ### Select periods -/

section
variable {s : State} {p : Port}

theorem select_ignored (h : s.power ≠ .on) :
    (∀ bytes extra, exec (.requestFrame p bytes extra) s = .next s) ∧ (∀ count, exec (.busySelect p count) s = .next s) ∧
    (∀ bits, exec (.replyRead p bits) s = .next s) ∧ s.rdy p = false ∧ s.attn p = false := by
  have hoff : (s.power == .on) = false := beq_eq_false_iff_ne.2 h
  refine ⟨fun bytes extra => ?frame, fun count => ?busy, fun bits => ?read, ?_, ?_⟩
  case frame | busy | read =>
    simp only [exec, execRequestFrame, execBusySelect, execReplyRead]
    split
    next hon _ => exact absurd hon h
    next => rfl
  · rw [State.rdy, hoff, Bool.false_and]
  · rw [State.attn, hoff]
    exact Bool.false_and _

variable (hon : s.power = .on)
include hon

theorem rdy_iff : s.rdy p = true ↔ ∃ frame, (s.cpc.port p).phase = .replyReady frame := by
  unfold State.rdy
  rw [hon]
  cases (s.cpc.port p).phase with
  | idle => exact iff_of_false nofun nofun
  | serving => exact iff_of_false nofun nofun
  | replyReady frame => exact iff_of_true rfl ⟨frame, rfl⟩

theorem exec_requestFrame (h : (s.cpc.port p).phase = .idle) (bytes : List Byte) (extra : Nat) :
    exec (.requestFrame p bytes extra) s = .next { s with cpc := s.cpc.judge p bytes extra } := by
  show execRequestFrame p bytes extra s = _
  rw [execRequestFrame, hon, h]

theorem exec_busySelect {rq : Request} (h : (s.cpc.port p).phase = .serving rq) (count : Nat) :
    exec (.busySelect p count) s = .next { s with
      cpc := s.cpc.setPort p { s.cpc.port p with shifted := List.replicate count 0xA5 } } := by
  show execBusySelect p count s = _
  rw [execBusySelect, hon, h]

theorem exec_replyRead {frame : List Byte} (h : (s.cpc.port p).phase = .replyReady frame) (bits : Nat) :
    (8 * frame.length ≤ bits → exec (.replyRead p bits) s = .next { s with
      cpc := s.cpc.setPort p { s.cpc.port p with phase := .idle, shifted := shiftedOut frame bits } }) ∧
    (bits < 8 * frame.length → exec (.replyRead p bits) s = .next { s with
      cpc := s.cpc.setPort p { s.cpc.port p with shifted := shiftedOut frame bits } }) := by
  have hexec : exec (.replyRead p bits) s = execReplyRead p bits s := rfl
  rw [hexec, execReplyRead, hon, h]
  exact ⟨fun hfull => by simp only [if_pos hfull], fun hshort => by simp only [if_neg (Nat.not_le.2 hshort)]⟩

end

theorem judge_nothing (c : Cpc) (p : Port) : c.judge p [] 0 = c := if_pos ⟨rfl, rfl⟩

theorem judge_bad {c : Cpc} {p : Port} {bytes : List Byte} {extra : Nat} (hsome : bytes ≠ [] ∨ extra ≠ 0)
    (h : takenFrame bytes extra = none) :
    c.judge p bytes extra = c.setPort p { c.port p with phase := .replyReady (badFrameReply bytes) } := by
  unfold Cpc.judge
  rw [if_neg fun hnot => hsome.elim (· hnot.1) (· hnot.2), h]

/-- The port whose service is in progress once another port has taken a request. -/
def servedWith (c : Cpc) (p : Port) : Port :=
  match c.nextService with
  | some (q, _) => q
  | none => p

theorem takeRequest_eq (c : Cpc) (p : Port) (rq : Request) :
    (c.nextService = none → servedWith c p = p) ∧ (∀ q r, c.nextService = some (q, r) → servedWith c p = q) ∧
    c.takeRequest p rq =
      { c.setPort p { c.port p with phase := .serving rq } with inService := some (servedWith c p) } := by
  unfold servedWith Cpc.takeRequest
  cases c.nextService with
  | none => exact ⟨fun _ => rfl, nofun, rfl⟩
  | some x => exact ⟨nofun, fun q r h => congrArg Prod.fst (Option.some.inj h), rfl⟩

/-- Settles O47. -/
theorem selectPeriodsFollowThePhase : Obligations.SelectPeriodsFollowThePhase := by
  unfold Obligations.SelectPeriodsFollowThePhase
  refine ⟨fun s p h => select_ignored h, fun s p hon => ⟨rdy_iff hon, fun hidle => ⟨?_, ?taken, ?bad⟩,
    fun rq count h => exec_busySelect hon h count, ?read⟩⟩
  · rw [exec_requestFrame hon hidle, judge_nothing]
  case taken =>
    intro code tag payload hlen bytes
    let rq : Request := { code := code, tag := tag, payload := payload }
    obtain ⟨hnone, hsome, htake⟩ := takeRequest_eq s.cpc p rq
    have hframe : requestFrame rq = bytes ++ be16 (frameCheck bytes) := rfl
    refine ⟨servedWith s.cpc p, hnone, hsome, ?_⟩
    rw [← hframe, exec_requestFrame hon hidle, judge_taken (takenFrame_requestFrame (rq := rq) hlen), htake]
  case bad =>
    intro bytes extra hsome hbad
    rw [exec_requestFrame hon hidle, judge_bad hsome (takenFrame_eq_none hbad)]
    rfl
  case read =>
    intro frame bits h
    refine ⟨shiftedOut frame bits, ?_, fun i hi => ?_, exec_replyRead hon h bits⟩
    · rw [shiftedOut, List.length_map, List.length_range]
    · exact (getElem?_map_range _ _ _).trans (if_pos hi)

end Sys2Proof.Proofs.SelectPeriods
end

