-- ==== Sys2Proof/Proofs/RecordBytes.lean ====
section
/-! PROOFS. Appends to the record store, and the bytes of its records (R88, R182 to R184, R201). -/

namespace Sys2Proof.Proofs.RecordBytes

open Sys2Proof.Machine Sys2Proof.Safety Sys2Proof.Proofs.WireValues Sys2Proof.Proofs.SelectPeriods

/-! ### Numbers in bytes -/

/-- The number some bytes hold, most significant byte first. -/
def bytesToNat (l : List Byte) : Nat := l.foldl (fun a x => a * 256 + x.toNat) 0

theorem bytesToNat_be16 (x : Word16) : bytesToNat (be16 x) = x.toNat := by
  have hx := x.isLt
  simp only [bytesToNat, be16, List.foldl_cons, List.foldl_nil, BitVec.extractLsb'_toNat, Nat.shiftRight_eq_div_pow, Nat.reducePow]
  omega

theorem bytesToNat_be32 (x : Word32) : bytesToNat (be32 x) = x.toNat := by
  have hx := x.isLt
  simp only [bytesToNat, be32, List.foldl_cons, List.foldl_nil, BitVec.extractLsb'_toNat, Nat.shiftRight_eq_div_pow, Nat.reducePow]
  omega

theorem toNat_ofInt (n : Nat) (x : Int) : (BitVec.ofInt n x).toNat = twos n x := by
  rw [BitVec.toNat_ofInt, twos]

theorem bytesToNat_putS32 {x : Int} (h : Fits32 x) : bytesToNat (putS32 x) = twos 32 x := by
  rw [putS32, if_pos ((inS32_iff x).2 h), bytesToNat_be32, toNat_ofInt]

theorem bytesToNat_putS16 (x : Int) : bytesToNat (putS16 x) = twos 16 x := by
  rw [putS16, bytesToNat_be16, toNat_ofInt]

theorem bytesToNat_putU16 {n : Nat} (h : n < 65536) : bytesToNat (putU16 n) = n := by
  rw [putU16, bytesToNat_be16, BitVec.toNat_ofNat, Nat.mod_eq_of_lt h]

theorem bytesToNat_byte (x : Byte) : bytesToNat [x] = x.toNat := Nat.zero_add _

theorem bytesToNat_putU8 {n : Nat} (h : n < 256) : bytesToNat (putU8 n) = n := by
  rw [putU8, bytesToNat_byte, BitVec.toNat_ofNat, Nat.mod_eq_of_lt h]

theorem bytesToNat_putOrFF_none {x : Option Nat} (h : x = none) : bytesToNat (putOrFF x) = 255 := by
  subst h
  rfl

theorem bytesToNat_putOrFF_some {x : Option Nat} {n : Nat} (h : x = some n) (hn : n < 256) : bytesToNat (putOrFF x) = n := by
  subst h
  exact bytesToNat_putU8 hn

/-! ### Fields at their offsets -/

/-- Where parts of known lengths stand one behind the other, a field is read off the part at its offset. -/
theorem field_flatten {b : List Byte} {parts : List (List Byte)} {lengths : List Nat} (hb : b = parts.flatten)
    (hlengths : parts.map List.length = lengths) {o n : Nat} (i : Nat) {part : List Byte} (hpart : parts[i]? = some part)
    (hn : lengths[i]? = some n) (ho : (lengths.take i).sum = o) : field b o n = bytesToNat part := by
  subst hlengths hb
  obtain ⟨hi, rfl⟩ := List.getElem?_eq_some_iff.1 hpart
  rw [List.getElem?_map, hpart, Option.map_some, Option.some.injEq] at hn
  rw [← List.map_take, ← List.length_flatten] at ho
  have hsplit : parts.flatten = (parts.take i).flatten ++ (parts[i] ++ (parts.drop (i + 1)).flatten) := by
    rw [← List.flatten_cons, ← List.drop_eq_getElem_cons hi, ← List.flatten_append, List.take_append_drop]
  rw [hsplit, field, List.drop_left' ho, List.take_left' hn, bytesToNat]

/-! ### Geometry records -/

/-- The fields of a geometry record in their order. -/
def geometryParts (w : WireRecord) : List (List Byte) :=
  [be32 w.sequence, be16 w.run, be16 w.flags, putS32 w.j, putS32 w.chainage, putU16 w.lineCode, putOrFF w.segment,
    putOrFF w.planEntry, putU16 w.speed, be16 w.levels, putS16 w.values.g, putS16 w.values.cl, putS16 w.values.tw,
    putS16 w.values.ll, putS16 w.values.lr, putS16 w.values.al, putS16 w.values.ar, putS16 w.cv]

theorem geometry_layout (w : WireRecord) : GeometryLayout w w.toBytes := by
  have hb : w.toBytes = (geometryParts w).flatten := by
    simp only [WireRecord.toBytes, geometryParts, Seven.toList, List.flatMap_cons, List.flatMap_nil, List.flatten_cons,
      List.flatten_nil, List.append_nil, List.append_assoc]
  have hlengths : (geometryParts w).map List.length = [4, 2, 2, 4, 4, 2, 1, 1, 2, 2, 2, 2, 2, 2, 2, 2, 2, 2] := by
    simp only [geometryParts, List.map_cons, List.map_nil, be32_length, be16_length, putS32_length, putU16_length, putOrFF_length,
      putS16_length]
  have hfield := @field_flatten _ _ _ hb hlengths
  refine ⟨WireRecord.toBytes_length w, ?_, ?_, ?_, fun h => ?_, fun h => ?_, fun h => ?_, fun h => ?_, fun n h hn => ?_, fun h => ?_,
    fun n h hn => ?_, fun h => ?_, ?_, fun p => ?_, ?_⟩
  · exact (hfield 0 rfl rfl rfl).trans (bytesToNat_be32 _)
  · exact (hfield 1 rfl rfl rfl).trans (bytesToNat_be16 _)
  · exact (hfield 2 rfl rfl rfl).trans (bytesToNat_be16 _)
  · exact (hfield 3 rfl rfl rfl).trans (bytesToNat_putS32 h)
  · exact (hfield 4 rfl rfl rfl).trans (bytesToNat_putS32 h)
  · exact (hfield 5 rfl rfl rfl).trans (bytesToNat_putU16 h)
  · exact (hfield 6 rfl rfl rfl).trans (bytesToNat_putOrFF_none h)
  · exact (hfield 6 rfl rfl rfl).trans (bytesToNat_putOrFF_some h hn)
  · exact (hfield 7 rfl rfl rfl).trans (bytesToNat_putOrFF_none h)
  · exact (hfield 7 rfl rfl rfl).trans (bytesToNat_putOrFF_some h hn)
  · exact (hfield 8 rfl rfl rfl).trans (bytesToNat_putU16 h)
  · exact (hfield 9 rfl rfl rfl).trans (bytesToNat_be16 _)
  · have hpart : (geometryParts w)[10 + p.number]? = some (putS16 (w.values.get p)) := by cases p <;> rfl
    exact (hfield (10 + p.number) hpart (by cases p <;> rfl) (by cases p <;> rfl)).trans (bytesToNat_putS16 _)
  · exact (hfield 17 rfl rfl rfl).trans (bytesToNat_putS16 _)

/-! ### Exception records -/

/-- The fields of an exception record in their order. -/
def exceptionParts (e : StoredException) : List (List Byte) :=
  let r := e.record
  [be32 e.sequence, be16 (r.run.setWidth 16), putU8 r.kind.code, putU8 r.param.number, putU8 r.severity, putU8 r.side.code,
    putU8 r.cause.code, [r.flags], putS32 r.startIndex, putS32 r.startChainage, putS32 r.endChainage, putS32 r.peak,
    putS32 r.peakChainage, putU16 r.length, putU16 r.lineCode, putOrFF r.segment, putU8 r.limitSet]

theorem exceptionFlags_toNat (r : ExceptionRecord) :
    r.flags.toNat = (if r.uncertain = true then 1 else 0) + (if r.offPlan = true then 2 else 0) := by
  unfold ExceptionRecord.flags
  cases r.uncertain <;> cases r.offPlan <;> rfl

theorem exception_layout (e : StoredException) : ExceptionLayout e e.toBytes := by
  have hb : e.toBytes = (exceptionParts e).flatten := by
    simp only [StoredException.toBytes, exceptionParts, List.flatten_cons, List.flatten_nil, List.append_nil, List.append_assoc]
  have hlengths : (exceptionParts e).map List.length = [4, 2, 1, 1, 1, 1, 1, 1, 4, 4, 4, 4, 4, 2, 2, 1, 1] := by
    simp only [exceptionParts, List.map_cons, List.map_nil, be32_length, be16_length, putS32_length, putU16_length, putU8_length,
      putOrFF_length, List.length_cons, List.length_nil]
  have hfield := @field_flatten _ _ _ hb hlengths
  refine ⟨StoredException.toBytes_length e, ?_, ?_, ?_, ?_, fun h => ?_, ?_, ?_, ?_, fun h => ?_, fun h => ?_, fun h => ?_,
    fun h => ?_, fun h => ?_, fun h => ?_, fun h => ?_, fun h => ?_, fun n h hn => ?_, fun h => ?_⟩
  · exact (hfield 0 rfl rfl rfl).trans (bytesToNat_be32 _)
  · exact ((hfield 1 rfl rfl rfl).trans (bytesToNat_be16 _)).trans (BitVec.toNat_setWidth 16 _)
  · refine (hfield 2 rfl rfl rfl).trans ?_
    cases e.record.kind <;> rfl
  · refine (hfield 3 rfl rfl rfl).trans ?_
    cases e.record.param <;> rfl
  · exact (hfield 4 rfl rfl rfl).trans (bytesToNat_putU8 h)
  · refine (hfield 5 rfl rfl rfl).trans ?_
    cases e.record.side <;> rfl
  · refine (hfield 6 rfl rfl rfl).trans ?_
    cases e.record.cause <;> rfl
  · exact ((hfield 7 rfl rfl rfl).trans (bytesToNat_byte _)).trans (exceptionFlags_toNat _)
  · exact (hfield 8 rfl rfl rfl).trans (bytesToNat_putS32 h)
  · exact (hfield 9 rfl rfl rfl).trans (bytesToNat_putS32 h)
  · exact (hfield 10 rfl rfl rfl).trans (bytesToNat_putS32 h)
  · exact (hfield 11 rfl rfl rfl).trans (bytesToNat_putS32 h)
  · exact (hfield 12 rfl rfl rfl).trans (bytesToNat_putS32 h)
  · exact (hfield 13 rfl rfl rfl).trans (bytesToNat_putU16 h)
  · exact (hfield 14 rfl rfl rfl).trans (bytesToNat_putU16 h)
  · exact (hfield 15 rfl rfl rfl).trans (bytesToNat_putOrFF_none h)
  · exact (hfield 15 rfl rfl rfl).trans (bytesToNat_putOrFF_some h hn)
  · exact (hfield 16 rfl rfl rfl).trans (bytesToNat_putU8 h)

end Sys2Proof.Proofs.RecordBytes
end

