-- ==== Sys2Proof/Proofs/Appends.lean ====
section
/-! PROOFS. Appends to the record store, and the wire form of what is appended (R88, R182 to R184). -/

namespace Sys2Proof.Proofs.Appends

open Sys2Proof.Machine Sys2Proof.Safety Sys2Proof.Proofs.WireValues Sys2Proof.Proofs.RecordBytes

/-! ### The wire form of an output record -/

theorem wireSpeed_eq (v : Nat) : wireSpeed v = min 65535 ((v + 5) / 10) := by
  rw [wireSpeed, roundUp_toNat v 10 (by decide)]
  omega

theorem getLsbD_flags (r : OutputRecord) (c : Bool) (i : Nat) : (r.flags c).getLsbD i =
    [decide (r.direction = .rev), r.uncertain, r.step, r.line, r.slip, r.encSwitch, r.mark1, r.mark2, (r.flags c).getLsbD 8,
      r.offPlan].getD i false := by
  rw [flags_clipped_bit]
  by_cases hi : i < 16
  · exact getLsbD_flagWord _ hi
  · rw [BitVec.getLsbD_of_ge _ _ (by omega), List.getD_eq_default _ _ (by simp only [List.length_cons, List.length_nil]; omega)]

/-- Two-bit numbers in one word, the first in the lowest bits. -/
theorem getLsbD_pairs (l : List Nat) {i : Nat} (hi : i < 16) :
    (l.foldr (fun n (w : Word16) => (w <<< 2) ||| BitVec.ofNat 16 (n % 4)) 0).getLsbD i = (l.getD (i / 2) 0).testBit (i % 2) := by
  induction l generalizing i with
  | nil => simp
  | cons n l ih =>
    have hlow : (BitVec.ofNat 16 (n % 4)).getLsbD i = (decide (i < 2) && n.testBit i) := by
      rw [BitVec.getLsbD_ofNat, show 4 = 2 ^ 2 from rfl, Nat.testBit_mod_two_pow]
      simp [hi]
    rw [List.foldr_cons, BitVec.getLsbD_or, BitVec.getLsbD_shiftLeft, hlow]
    by_cases h2 : i < 2
    · interval_cases i <;> simp
    · have hdiv : i / 2 = (i - 2) / 2 + 1 := by omega
      have hmod : i % 2 = (i - 2) % 2 := by omega
      rw [ih (by omega), hdiv, hmod, List.getD_cons_succ]
      simp only [hi, h2, decide_true, decide_false, Bool.true_and, Bool.false_and, Bool.or_false, Bool.not_false]

theorem getLsbD_levelWord (l : Seven Nat) (p : Param) {i : Nat} (hi : i < 2) :
    (levelWord l).getLsbD (2 * p.number + i) = (l.get p).testBit i := by
  have hnumber : p.number < 7 := by cases p <;> decide
  have hget : l.toList.getD p.number 0 = l.get p := by cases p <;> rfl
  rw [levelWord, getLsbD_pairs _ (by omega), show (2 * p.number + i) / 2 = p.number by omega,
    show (2 * p.number + i) % 2 = i by omega, hget]

theorem levelWord_field {l : Seven Nat} {p : Param} (h : l.get p ≤ 3) :
    (levelWord l >>> (2 * p.number)) &&& 3 = BitVec.ofNat 16 (l.get p) := by
  have hthree : (3 : Word16) = BitVec.ofNat 16 (2 ^ 2 - 1) := rfl
  refine BitVec.eq_of_getLsbD_eq fun i hi => ?_
  rw [BitVec.getLsbD_and, BitVec.getLsbD_ushiftRight, hthree, BitVec.getLsbD_ofNat, BitVec.getLsbD_ofNat,
    Nat.testBit_two_pow_sub_one]
  by_cases h2 : i < 2
  · simp [hi, h2, getLsbD_levelWord]
  · have hbig : (l.get p).testBit i = false := by
      refine Nat.testBit_lt_two_pow (Nat.lt_of_lt_of_le (Nat.lt_succ_of_le h) ?_)
      exact Nat.pow_le_pow_right (n := 2) Nat.zero_lt_two (Nat.le_of_not_lt h2)
    simp [h2, hbig]

theorem levelWord_spare (l : Seven Nat) {i : Nat} (h14 : 14 ≤ i) (hi : i < 16) : (levelWord l).getLsbD i = false := by
  have hlength : l.toList.length ≤ i / 2 := by
    simp only [Seven.toList, List.length_cons, List.length_nil]
    omega
  have hnone : l.toList.getD (i / 2) 0 = 0 := List.getD_eq_default _ _ hlength
  rw [levelWord, getLsbD_pairs _ hi, hnone, Nat.zero_testBit]

/-! ### The cursors after an append (R184) -/

theorem moveCursor_below (oldest cursor : Word32) (gap : Bool) : moveCursor false oldest cursor gap = (cursor, gap) := rfl

theorem moveCursor_full (oldest cursor : Word32) (gap : Bool) :
    moveCursor true oldest cursor gap = if cursor = oldest then (oldest + 1, true) else (cursor, gap) := by
  unfold moveCursor
  by_cases h : cursor = oldest
  · subst h
    rw [if_pos rfl, if_pos]
    exact beq_self_eq_true cursor
  · rw [if_neg h, if_neg]
    exact fun hb => h (beq_iff_eq.1 hb)

section
variable {c : Cpc}

theorem followGeometry_below {st : Store WireRecord} (h : st.records.length < 8192) : c.followGeometry st = c := by
  have hfull : decide (geometryCapacity ≤ st.records.length) = false := decide_eq_false (Nat.not_le.2 h)
  simp only [Cpc.followGeometry, hfull, moveCursor_below]
  rfl

theorem followExceptions_below {st : Store StoredException} (h : st.records.length < 256) : c.followExceptions st = c := by
  have hfull : decide (exceptionCapacity ≤ st.records.length) = false := decide_eq_false (Nat.not_le.2 h)
  simp only [Cpc.followExceptions, hfull, moveCursor_below]
  rfl

theorem port_followGeometry_full {st : Store WireRecord} (h : 8192 ≤ st.records.length) (p : Port) :
    (c.followGeometry st).port p = if (c.port p).geoCursor = st.oldest then
      { c.port p with geoCursor := st.oldest + 1, geoGap := true } else c.port p := by
  have hfull : decide (geometryCapacity ≤ st.records.length) = true := decide_eq_true h
  simp only [Cpc.followGeometry, hfull, moveCursor_full, Cpc.port_mapPorts]
  split_ifs <;> rfl

theorem port_followExceptions_full {st : Store StoredException} (h : 256 ≤ st.records.length) (p : Port) :
    (c.followExceptions st).port p = if (c.port p).excCursor = st.oldest then
      { c.port p with excCursor := st.oldest + 1, excGap := true } else c.port p := by
  have hfull : decide (exceptionCapacity ≤ st.records.length) = true := decide_eq_true h
  simp only [Cpc.followExceptions, hfull, moveCursor_full, Cpc.port_mapPorts]
  split_ifs <;> rfl

end

theorem exec_geometryAppend {s : State} {r : OutputRecord} {levels : Seven Nat} {rest : List RdsMessage}
    (h : s.bus.toRds = .geometry r levels :: rest) : exec .geometryAppend s =
      .next (State.appendGeometry { s with bus := { s.bus with toRds := rest } } r levels) := by
  simp only [exec, execGeometryAppend, h]

theorem exec_exceptionAppend {s : State} {r : ExceptionRecord} {rest : List RdsMessage}
    (h : s.bus.toRds = .exception r :: rest) : exec .exceptionAppend s =
      .next (State.appendException { s with bus := { s.bus with toRds := rest } } r) := by
  simp only [exec, execExceptionAppend, h]

/-- Settles O42. -/
theorem appendsNumberAndReplaceTheOldest : Obligations.AppendsNumberAndReplaceTheOldest := by
  unfold Obligations.AppendsNumberAndReplaceTheOldest
  refine ⟨fun s r levels rest h => ?geometry, fun s r rest h => ?exception, geometry_layout, exception_layout⟩
  case geometry =>
    intro g
    refine ⟨_, wireRecord r levels g.next, exec_geometryAppend h, rfl, rfl, rfl, rfl, rfl, rfl, rfl, wireSpeed_eq r.speed, rfl,
      fun p hp => levelWord_field hp, levelWord_spare levels (by decide) (by decide),
      levelWord_spare levels (by decide) (by decide), getLsbD_flags r _, rfl, rfl, rfl, rfl, Store.append_next _ _ _,
      fun hlen => ?below, fun hlen => ?full⟩
    case below =>
      have happend := Store.append_below hlen (wireRecord r levels)
      exact ⟨(congrArg Store.records happend :), (congrArg Store.oldest happend :), followGeometry_below hlen⟩
    case full =>
      have happend := Store.append_full hlen (wireRecord r levels)
      exact ⟨(congrArg Store.records happend :), (congrArg Store.oldest happend :), port_followGeometry_full hlen⟩
  case exception =>
    intro x
    refine ⟨_, exec_exceptionAppend h, rfl, rfl, rfl, rfl, Store.append_next _ _ _, fun hlen => ?below, fun hlen => ?full⟩
    case below =>
      have happend := Store.append_below hlen (fun sequence => { sequence := sequence, record := r : StoredException })
      exact ⟨(congrArg Store.records happend :), (congrArg Store.oldest happend :), followExceptions_below hlen⟩
    case full =>
      have happend := Store.append_full hlen (fun sequence => { sequence := sequence, record := r : StoredException })
      exact ⟨(congrArg Store.records happend :), (congrArg Store.oldest happend :), port_followExceptions_full hlen⟩

end Sys2Proof.Proofs.Appends
end

