-- ==== Sys2Proof/Proofs/StatusReply.lean ====
section
/-! PROOFS. The requests that change no measuring state: ECHO, the lists and READ_STATUS (R187, R191, R192, R194, R202). -/

namespace Sys2Proof.Proofs.StatusReply

open Sys2Proof.Machine Sys2Proof.Safety Sys2Proof.Proofs.RecordStore Sys2Proof.Proofs.WireValues Sys2Proof.Proofs.Chainage
  Sys2Proof.Proofs.Channels Sys2Proof.Proofs.RunStates

/-! ### Enumerations -/

theorem enumByte_source (x : CountSource) : enumByte [.none, .encoders, .pace] x = putU8 x.code := by cases x <;> rfl

theorem enumByte_direction (x : Direction) : directionByte x = putU8 x.code := by cases x <;> rfl

theorem enumByte_encoder (x : Encoder) : enumByte [.e1, .e2] x = putU8 (encoderCode x) := by cases x <;> rfl

theorem enumByte_health (x : Health) : enumByte [.ok, .failed] x = putU8 x.code := by cases x <;> rfl

theorem enumByte_channel (x : ChannelState) : enumByte [.ok, .held, .lost] x = putU8 x.code := by cases x <;> rfl

theorem enumByte_link (x : LinkCondition) : enumByte [.up, .partially, .down] x = putU8 x.code := by cases x <;> rfl

theorem enumByte_fault (x : FaultCause) : enumByte [.none, .timing, .sync, .check] x = putU8 x.code := by cases x <;> rfl

theorem enumByte_group (x : GroupCondition) : enumByte [.invalid, .settling, .valid] x = putU8 x.code := by cases x <;> rfl

theorem enumByte_runState (x : RunState) : enumByte [.standby, .running, .suspended] x = putU8 x.code := by cases x <;> rfl

theorem enumByte_port (x : Port) : enumByte [.cp0, .cp1, .cp2] x = putU8 (portCode x) := by cases x <;> rfl

theorem enumByte_fixKind (x : FixKind) : enumByte [.slew, .step, .forced] x = putU8 x.code := by cases x <;> rfl

theorem enumByte_placement (x : Placement) : enumByte [.pending, .placed, .notInStream] x = putU8 x.code := by cases x <;> rfl

/-! ### The lists -/

theorem openRunEntry_eq (p : Param) (x : Option OpenRun) : openRunEntry p x = openRunBytes p x := by
  cases x with
  | none => rfl
  | some x =>
    obtain ⟨side⟩ := x
    cases side <;> simp only [openRunEntry, openRunBytes, Side.code, List.flatMap_cons, List.flatMap_nil, List.append_assoc,
      List.append_nil] <;> rfl

theorem length_openRunBytes (p : Param) (x : Option OpenRun) : (openRunBytes p x).length = 36 := by
  cases x with
  | none => rfl
  | some x =>
    simp only [openRunBytes, List.length_append, putU8_length, putS32_length, putU16_length, putOrFF_length, putMark_length,
      List.length_cons, List.length_nil]

theorem fixEntry_eq (f : Fix) : fixEntry f = f.toBytes := by
  simp only [fixEntry, Fix.toBytes, satS32_eq, enumByte_port, enumByte_fixKind]

theorem length_fixEntry (f : Fix) : (fixEntry f).length = 23 := by
  simp only [fixEntry_eq, Fix.toBytes, List.length_append, putU8_length, putS32_length, putU16_length, be16_length]

theorem markerEntry_eq (m : MarkerEntry) : markerEntry m = m.toBytes := by
  have hline : (match m.line with
      | .m1 => [1]
      | .m2 => [2]) = putU8 (markerCode m.line) := by cases m.line <;> rfl
  have hprojected : (match m.projected with
      | .pending => [2, 0, 0, 0, 0]
      | .stale => [0, 0, 0, 0, 0]
      | .at c => 1 :: putS32 c) = m.projected.toBytes := by cases m.projected <;> rfl
  rw [MarkerEntry.toBytes, ← enumByte_placement, ← hline, ← hprojected]
  rfl

theorem length_projected (x : Projected) : x.toBytes.length = 5 := by cases x <;> rfl

theorem length_markerEntry (m : MarkerEntry) : (markerEntry m).length = 17 := by
  simp only [markerEntry_eq, MarkerEntry.toBytes, List.length_append, putU8_length, putS32_length, be16_length, length_projected]

/-! ### The parts of the status reply -/

theorem oduPart_eq (o : Odu) : oduPart o o.positionIndex = o.statusBytes := by
  simp only [oduPart, Odu.statusBytes, EncoderState.statusBytes, enumByte_source, enumByte_direction, enumByte_encoder,
    enumByte_health]

/-- A channel's fields, its held value shown as 0x80000000 where there is none. -/
theorem channel_eq (x : Channel) : enumByte [.ok, .held, .lost] x.state ++
    putU8 (if x.state = .lost then x.recovery else x.miss) ++ putS32 (x.held.getD (-2147483648)) = x.statusBytes := by
  simp only [Channel.statusBytes, enumByte_channel, isLost_iff]

theorem slcPart_eq (c : Slc) : slcPart c = c.statusBytes := by
  have hheld : ∀ x : Channel, (match x.held with
      | some v => putS32 v
      | none => [0x80, 0, 0, 0]) = putS32 (x.held.getD (-2147483648)) := fun x => by cases x.held <;> rfl
  unfold slcPart
  extract_lets channel link group integrator
  have hchannel : channel = fun i => (c.channels.get i).statusBytes :=
    funext fun i => (congrArg (_ ++ ·) (hheld _)).trans (channel_eq _)
  simp only [link, group, integrator, hchannel, Slc.statusBytes, Slc.linkBytes, Slc.link, linkChannels, Group.statusBytes,
    Integrator.statusBytes, Integrator.height, enumByte_link, enumByte_fault, enumByte_group]

theorem asuPart_eq (a : Asu) : asuPart a = a.statusBytes := by
  simp only [asuPart, Asu.statusBytes, enumByte_direction]

theorem gcuPart_eq (c : Gcu) : gcuPart c = c.statusBytes := by
  simp only [gcuPart, Gcu.statusBytes, enumByte_direction, List.flatMap_cons, List.flatMap_nil, List.append_assoc, List.append_nil]

theorem chainagePart_eq (p : Pru) : chainagePart p = p.statusBytes := by
  simp only [chainagePart, Pru.statusBytes, sense, List.flatMap_cons, List.flatMap_nil, List.append_assoc, List.append_nil]

theorem exit_eq (g : Segment) (o : Orientation) (d : Direction) :
    g.exit (sense o d) = if o.sign * d.sign = 1 then g.hi else g.lo := by
  simp only [Segment.exit, sense_pos_iff]

theorem cursorPart_eq (p : Pru) : cursorPart p = p.cursorStatusBytes := by
  unfold cursorPart Pru.cursorStatusBytes Pru.exitChainage Pru.currentEntry
  cases p.cursor with
  | none => rfl
  | some e =>
    simp only [Option.bind_some]
    cases p.plan[e]? with
    | none => rfl
    | some x =>
      simp only [Option.map_some, Option.getD_some, exit_eq, putOptS32, putOptU8, putOrFF, Pru.segmentOf, List.append_assoc,
        List.cons_append]

theorem exuPart_eq (s : State) : exuPart s = s.exuStatusBytes := by
  simp only [exuPart, State.exuStatusBytes, Exu.openRuns, List.flatMap_cons, List.flatMap_nil, List.append_assoc, List.append_nil]

theorem mtuPart_eq (s : State) : mtuPart s = s.mtuStatusBytes := rfl

theorem rcuPart_eq (r : Rcu) : rcuPart r = r.statusBytes := by
  simp only [rcuPart, Rcu.statusBytes, enumByte_runState, enumByte_source, allItems, requiredItems, List.append_assoc]
  rfl

theorem length_rcuPart (r : Rcu) : (rcuPart r).length = 105 := by
  have hitems : (allItems.flatMap fun i => putMark (r.isWritten i)).length = 1 * 91 :=
    length_flatMap_of_length (fun i => putMark_length (r.isWritten i)) allItems
  rw [rcuPart_eq, Rcu.statusBytes, List.length_append, hitems]
  rfl

theorem rdsPart_eq (d : Rds) : rdsPart d = d.statusBytes := by
  simp only [rdsPart, Rds.statusBytes, Store.statusBytes, List.append_assoc]

theorem cpcPart_eq (s : State) (p : Port) : cpcPart s p (s.attn p) = s.cpcStatusBytes p := by
  have hphase : ∀ x : PortState, (match x.phase with
      | .idle => [0]
      | .serving _ => [1]
      | .replyReady _ => [2]) = putU8 x.phase.code := fun x => by cases x.phase <;> rfl
  unfold cpcPart
  extract_lets x phase
  have hphase' : phase = fun x => putU8 x.phase.code := funext hphase
  simp only [hphase', x, State.cpcStatusBytes, Store.unread, enumByte_port]

theorem statusPayload_eq (s : State) (p : Port) :
    s.statusPayload p = (statusParts s p s.odu.positionIndex (s.attn p)).flatMap fun f => putU16 f.length ++ f := by
  simp only [State.statusPayload, statusParts, statusPart, oduPart_eq, slcPart_eq, asuPart_eq, gcuPart_eq, chainagePart_eq,
    cursorPart_eq, exuPart_eq, mtuPart_eq, rcuPart_eq, rdsPart_eq, cpcPart_eq, List.flatMap_cons, List.flatMap_nil,
    List.append_assoc, List.append_nil]

/-! ### The services -/

section
variable {s : State} {port : Port} {rq : Request}

theorem exec_unknownRequest (h : Serves s port rq .unknown) : exec .unknownRequest s = .next (onlyReplies s port rq (.of .badRequest
    (if rq.code = 0x10 then refusalFields 0 0 0 0 s.rcu.generation
     else if rq.code = 0x13 then be32 s.rcu.generation else []))) := by
  rw [← refusalPayload_eq]
  exact congrArg Host.Outcome.next (serve_of_serves h rfl)

theorem exec_readOpenRuns (h : Serves s port rq .readOpenRuns) : exec .readOpenRuns s = .next (onlyReplies s port rq
    (.of .ok (allParams.map fun p => openRunEntry p (s.exu.runs.get p)).flatten)) := by
  have hentries : (allParams.map fun p => openRunEntry p (s.exu.runs.get p)).flatten =
      allParams.flatMap fun p => openRunBytes p (s.exu.runs.get p) := by
    simp only [openRunEntry_eq, List.flatMap_def]
  rw [hentries]
  exact congrArg Host.Outcome.next (serve_of_serves h rfl)

theorem exec_readFixes (h : Serves s port rq .readFixes) : exec .readFixes s = .next (onlyReplies s port rq
    (.of .ok (putU8 s.pru.fixes.length ++ (s.pru.fixes.map fixEntry).flatten))) := by
  have hentries : (s.pru.fixes.map fixEntry).flatten = s.pru.fixes.flatMap Fix.toBytes := by
    rw [List.flatMap_def, funext fixEntry_eq]
  rw [hentries]
  exact congrArg Host.Outcome.next (serve_of_serves h rfl)

theorem exec_readMarkers (h : Serves s port rq .readMarkers) : exec .readMarkers s = .next (onlyReplies s port rq
    (.of .ok (putU8 s.mtu.list.length ++ (s.mtu.list.map markerEntry).flatten))) := by
  have hentries : (s.mtu.list.map markerEntry).flatten = s.mtu.list.flatMap MarkerEntry.toBytes := by
    rw [List.flatMap_def, funext markerEntry_eq]
  rw [hentries]
  exact congrArg Host.Outcome.next (serve_of_serves h rfl)

theorem exec_readStatus (h : Serves s port rq .readStatus) : exec .readStatus s = .next { s with
    cpc := (s.cpc.setPort port { s.cpc.port port with news := false }).answer port rq
             (.of .ok ((statusParts s port s.odu.positionIndex (s.attn port)).flatMap fun f => putU16 f.length ++ f)) } := by
  have hserve : serveReadStatus port rq s =
      ({ s with cpc := s.cpc.setPort port { s.cpc.port port with news := false } }, .of .ok (s.statusPayload port)) := rfl
  rw [← statusPayload_eq]
  exact congrArg Host.Outcome.next (serve_of_serves h hserve)

end

/-- Settles O49. -/
theorem readsReturnTheListsAsTheyStand : Obligations.ReadsReturnTheListsAsTheyStand := by
  unfold Obligations.ReadsReturnTheListsAsTheyStand
  intro s port rq
  refine ⟨exec_unknownRequest, fun h => congrArg Host.Outcome.next (serve_of_serves h rfl),
    fun h => ⟨_, exec_readOpenRuns h, rfl, rfl, ?runs⟩, fun h => ⟨_, exec_readFixes h, rfl, ?fixes⟩,
    fun h => ⟨_, exec_readMarkers h, rfl, ?markers⟩, fun h => ⟨_, _, _, exec_readStatus h, rfl, rfl, length_rcuPart s.rcu,
      fun hpos => roundAway_spec _ (by omega), fun hon => ?attn⟩⟩
  case runs => exact List.forall_mem_map.2 fun p _ => (congrArg List.length (openRunEntry_eq p _)).trans (length_openRunBytes p _)
  case fixes => exact List.forall_mem_map.2 fun f _ => length_fixEntry f
  case markers => exact List.forall_mem_map.2 fun m _ => length_markerEntry m
  case attn => rw [attn_iff hon, geometryAttn_iff, exceptionAttn_iff]

end Sys2Proof.Proofs.StatusReply
end
